-- ==== Sys2Proof/Word.lean ====
section
/-! DEFINITION. The word types of the block (spec rules R61, R80). -/

namespace Sys2Proof

/-- A byte is 8 bits (R61). -/
abbrev Byte := BitVec 8

/-- One command is one word of 128 bits, bit 127 most significant (R80). -/
abbrev CommandWord := BitVec 128

end Sys2Proof
end

