-- ==== Sys2Proof/Syntax.lean ====
section
/-! DEFINITION. The commands of the block as syntax (rules R24, R80 to R88): one constructor of `Instr` for each of
the 20 rows of the opcode table, whose arguments are the operand fields of the row, as wide as the command word's. -/

namespace Sys2Proof

/-- The four frame decoders (R24), `sel` 1 to 4. -/
inductive DecoderId where
  | asv
  | r2
  | r3
  | sbf
  deriving DecidableEq, Repr

/-- The five byte buffers (R24): the work buffer, `sel` 0, and each decoder's own. -/
inductive BufferId where
  | wb
  | dec (d : DecoderId)
  deriving DecidableEq, Repr

/-- The selector code of a decoder (R24). -/
def DecoderId.sel : DecoderId → BitVec 3
  | .asv => 1#3
  | .r2 => 2#3
  | .r3 => 3#3
  | .sbf => 4#3

/-- The selector code of a buffer (R24). -/
def BufferId.sel : BufferId → BitVec 3
  | .wb => 0#3
  | .dec d => d.sel

/-- `protocol_id()` of a decoder (R24, D38): a constant, neither a register nor the result of a command. -/
def DecoderId.protocolId : DecoderId → String
  | .asv => "Asv"
  | .r2 => "RTCMv2"
  | .r3 => "RTCMv3"
  | .sbf => "SBF"

/-- The 17 opcodes of rule R84. -/
inductive Opcode where
  | nop
  | rstall
  | getu
  | gets
  | getsm
  | setu
  | sets
  | crc16
  | crc24q
  | hamdec
  | hamenc
  | read
  | reset
  | ldb
  | stb
  | setlen
  | rdsr
  deriving DecidableEq, Repr

/-- A command, one constructor per row of `spec/opcode_table.json`. `sel` is kept as its three bits: a word with a
selector outside the row's legal list still selects the row and is refused by step 5 of rule R81 (R84). -/
inductive Instr where
  /-- `NOP` (R248). -/
  | nop
  /-- `RSTALL` (R249). -/
  | rstall
  /-- `GETU buf, ofs, wid` (R112). -/
  | getu (sel : BitVec 3) (wid : BitVec 6) (ofs : BitVec 32)
  /-- `GETS buf, ofs, wid` (R113). -/
  | gets (sel : BitVec 3) (wid : BitVec 6) (ofs : BitVec 32)
  /-- `GETSM buf, ofs, wid` (R114). -/
  | getsm (sel : BitVec 3) (wid : BitVec 6) (ofs : BitVec 32)
  /-- `SETU WB, ofs, wid, value` (R116). -/
  | setu (sel : BitVec 3) (wid : BitVec 6) (ofs : BitVec 32) (value : BitVec 64)
  /-- `SETS WB, ofs, wid, value` (R117). -/
  | sets (sel : BitVec 3) (wid : BitVec 6) (ofs : BitVec 32) (value : BitVec 64)
  /-- `CRC16 buf, start, len` (R132). -/
  | crc16 (sel : BitVec 3) (start len : BitVec 32)
  /-- `CRC24Q buf, end` (R135). -/
  | crc24q (sel : BitVec 3) (stop : BitVec 32)
  /-- `HAMDEC word32` (R140). -/
  | hamdec (word : BitVec 32)
  /-- `HAMENC data24, prev2` (R142). -/
  | hamenc (data : BitVec 24) (prev2 : BitVec 2)
  /-- `READ ASV, byte` (R151). -/
  | readAsv (byte : Byte)
  /-- `READ R2, byte` (R171). -/
  | readR2 (byte : Byte)
  /-- `READ R3, byte` (R201). -/
  | readR3 (byte : Byte)
  /-- `READ SBF, byte` (R221). -/
  | readSbf (byte : Byte)
  /-- `RESET dec` (R247). -/
  | reset (sel : BitVec 3)
  /-- `LDB buf, addr` (R241). -/
  | ldb (sel : BitVec 3) (addr : BitVec 32)
  /-- `STB WB, addr, byte` (R242). -/
  | stb (sel : BitVec 3) (addr : BitVec 32) (byte : Byte)
  /-- `SETLEN WB, len` (R243). -/
  | setlen (sel : BitVec 3) (len : BitVec 32)
  /-- `RDSR sel, idx` (R245). -/
  | rdsr (sel : BitVec 3) (idx : BitVec 32)
  deriving DecidableEq, Repr

/-- The opcode of a command (R84): READ is one opcode with four rows. -/
def Instr.opcode : Instr → Opcode
  | .nop => .nop
  | .rstall => .rstall
  | .getu _ _ _ => .getu
  | .gets _ _ _ => .gets
  | .getsm _ _ _ => .getsm
  | .setu _ _ _ _ => .setu
  | .sets _ _ _ _ => .sets
  | .crc16 _ _ _ => .crc16
  | .crc24q _ _ => .crc24q
  | .hamdec _ => .hamdec
  | .hamenc _ _ => .hamenc
  | .readAsv _ => .read
  | .readR2 _ => .read
  | .readR3 _ => .read
  | .readSbf _ => .read
  | .reset _ => .reset
  | .ldb _ _ => .ldb
  | .stb _ _ _ => .stb
  | .setlen _ _ => .setlen
  | .rdsr _ _ => .rdsr

/-- `READ dec, byte` for a decoder named by its identity. -/
def Instr.readOf : DecoderId → Byte → Instr
  | .asv, b => .readAsv b
  | .r2, b => .readR2 b
  | .r3, b => .readR3 b
  | .sbf, b => .readSbf b

/-! ### Pseudo-instructions (R88) -/

/-- `FEED dec, b0 b1 ... bn`: one READ a byte. -/
def Pseudo.feed (d : DecoderId) (bytes : List Byte) : List Instr := bytes.map (Instr.readOf d)

/-- `FRAMELEN dec`. -/
def Pseudo.frameLen (d : DecoderId) : Instr := .rdsr d.sel 5#32

/-- `FRAMEID dec`. -/
def Pseudo.frameId (d : DecoderId) : Instr := .rdsr d.sel 6#32

/-- `ERRS dec`. -/
def Pseudo.errs (d : DecoderId) : Instr := .rdsr d.sel 3#32

/-- `PHASE dec`. -/
def Pseudo.phase (d : DecoderId) : Instr := .rdsr d.sel 0#32

/-! ### Assembler syntax (R87) -/

/-- The name of a buffer operand; a reserved selector has none and is written as its number. -/
def Asm.buffer (sel : BitVec 3) : String :=
  if sel = 0#3 then "WB" else if sel = 1#3 then "ASV" else if sel = 2#3 then "R2"
  else if sel = 3#3 then "R3" else if sel = 4#3 then "SBF" else toString sel.toNat

/-- The selector operand of RDSR: 0 is written GLOBAL. -/
def Asm.selector (sel : BitVec 3) : String := if sel = 0#3 then "GLOBAL" else Asm.buffer sel

/-- A mnemonic and its operands as one line of text. -/
def Asm.line (mnemonic : String) (operands : List String) : String :=
  mnemonic ++ " " ++ String.intercalate ", " operands

/-- A command as rule R87 writes it, numbers in decimal. -/
def Instr.asm : Instr → String
  | .nop => "NOP"
  | .rstall => "RSTALL"
  | .getu sel wid ofs => Asm.line "GETU" [Asm.buffer sel, toString ofs.toNat, toString wid.toNat]
  | .gets sel wid ofs => Asm.line "GETS" [Asm.buffer sel, toString ofs.toNat, toString wid.toNat]
  | .getsm sel wid ofs => Asm.line "GETSM" [Asm.buffer sel, toString ofs.toNat, toString wid.toNat]
  | .setu sel wid ofs v =>
    Asm.line "SETU" [Asm.buffer sel, toString ofs.toNat, toString wid.toNat, toString v.toNat]
  | .sets sel wid ofs v =>
    Asm.line "SETS" [Asm.buffer sel, toString ofs.toNat, toString wid.toNat, toString v.toInt]
  | .crc16 sel start len => Asm.line "CRC16" [Asm.buffer sel, toString start.toNat, toString len.toNat]
  | .crc24q sel stop => Asm.line "CRC24Q" [Asm.buffer sel, toString stop.toNat]
  | .hamdec w => Asm.line "HAMDEC" [toString w.toNat]
  | .hamenc d q => Asm.line "HAMENC" [toString d.toNat, toString q.toNat]
  | .readAsv b => Asm.line "READ" ["ASV", toString b.toNat]
  | .readR2 b => Asm.line "READ" ["R2", toString b.toNat]
  | .readR3 b => Asm.line "READ" ["R3", toString b.toNat]
  | .readSbf b => Asm.line "READ" ["SBF", toString b.toNat]
  | .reset sel => Asm.line "RESET" [Asm.buffer sel]
  | .ldb sel a => Asm.line "LDB" [Asm.buffer sel, toString a.toNat]
  | .stb sel a b => Asm.line "STB" [Asm.buffer sel, toString a.toNat, toString b.toNat]
  | .setlen sel n => Asm.line "SETLEN" [Asm.buffer sel, toString n.toNat]
  | .rdsr sel idx => Asm.line "RDSR" [Asm.selector sel, toString idx.toNat]

end Sys2Proof
end

