-- ==== Sys2Proof/WellFormed.lean ====
section
/-! DEFINITION. What a command needs, of its own fields alone, to be executed: a selector of the opcode's legal set
(R82, step 5 of R81), a codec width of 1 to 32 bits (R110), and for RDSR a row of the register map (R38). The checks that
need the state (bounds, a retained frame, a value that fits) belong to the meanings. -/

namespace Sys2Proof

/-- Formats G, K, Q, M (LDB), S: a buffer 0..4. -/
def WellFormed.readableBuffer (sel : BitVec 3) : Bool := decide (sel.toNat ≤ 4)

/-- Formats P, M (STB, SETLEN): the work buffer only. -/
def WellFormed.writableBuffer (sel : BitVec 3) : Bool := decide (sel = 0#3)

/-- Format D (RESET): a decoder 1..4. -/
def WellFormed.decoder (sel : BitVec 3) : Bool := decide (1 ≤ sel.toNat ∧ sel.toNat ≤ 4)

/-- "Width ranges from 1 to 32 bits" (R110). -/
def WellFormed.width (wid : BitVec 6) : Bool := decide (1 ≤ wid.toNat ∧ wid.toNat ≤ 32)

/-- (sel, idx) is a row of the register map (R38). -/
def WellFormed.register (sel : BitVec 3) (idx : BitVec 32) : Bool :=
  (decide (sel = 0#3) && decide (idx.toNat ≤ 2)) ||
  (WellFormed.decoder sel && decide (idx.toNat ≤ 6)) ||
  (decide (sel = 2#3) && decide (idx.toNat ≤ 8))

/-- The state-free operand checks of every command. A command with no operand, or whose operand is a byte or a
word of which every value is legal (HAMDEC, HAMENC, READ), has none. -/
def Instr.wellFormed : Instr → Bool
  | .nop => true
  | .rstall => true
  | .getu sel wid _ => WellFormed.readableBuffer sel && WellFormed.width wid
  | .gets sel wid _ => WellFormed.readableBuffer sel && WellFormed.width wid
  | .getsm sel wid _ => WellFormed.readableBuffer sel && WellFormed.width wid
  | .setu sel wid _ _ => WellFormed.writableBuffer sel && WellFormed.width wid
  | .sets sel wid _ _ => WellFormed.writableBuffer sel && WellFormed.width wid
  | .crc16 sel _ _ => WellFormed.readableBuffer sel
  | .crc24q sel _ => WellFormed.readableBuffer sel
  | .hamdec _ => true
  | .hamenc _ _ => true
  | .readAsv _ => true
  | .readR2 _ => true
  | .readR3 _ => true
  | .readSbf _ => true
  | .reset sel => WellFormed.decoder sel
  | .ldb sel _ => WellFormed.readableBuffer sel
  | .stb sel _ _ => WellFormed.writableBuffer sel
  | .setlen sel _ => WellFormed.writableBuffer sel
  | .rdsr sel idx => WellFormed.register sel idx

end Sys2Proof
end

