-- ==== Sys2Proof/Decode.lean ====
section
/-! DEFINITION. The command word (R80), its decoding (steps 2 to 4 of R81, R82, R84, R85) and its encoding, and the rows
of the opcode table. A word that decodes is one that selects a row of the table (R84); step 5 of R81, the selector's
legal set, is the meanings'. -/

namespace Sys2Proof

/-! ### The fields of a command word (R80) -/

/-- Bits 127:120. -/
def fieldOp (w : CommandWord) : BitVec 8 := w.extractLsb' 120 8

/-- Bits 119:117. -/
def fieldSel (w : CommandWord) : BitVec 3 := w.extractLsb' 117 3

/-- Bits 116:111. -/
def fieldWid (w : CommandWord) : BitVec 6 := w.extractLsb' 111 6

/-- Bits 110:96. -/
def fieldRsv (w : CommandWord) : BitVec 15 := w.extractLsb' 96 15

/-- Bits 95:64. -/
def fieldArg (w : CommandWord) : BitVec 32 := w.extractLsb' 64 32

/-- Bits 63:0. -/
def fieldVal (w : CommandWord) : BitVec 64 := w.extractLsb' 0 64

/-- A command word from its fields, the reserved field zero. -/
def packCommand (op : BitVec 8) (sel : BitVec 3) (wid : BitVec 6) (arg : BitVec 32) (val : BitVec 64) : CommandWord :=
  op ++ sel ++ wid ++ 0#15 ++ arg ++ val

/-- The opcode numbers of rule R84. -/
def Opcode.bits : Opcode → BitVec 8
  | .nop => 0x00#8
  | .rstall => 0x01#8
  | .getu => 0x10#8
  | .gets => 0x11#8
  | .getsm => 0x12#8
  | .setu => 0x14#8
  | .sets => 0x15#8
  | .crc16 => 0x20#8
  | .crc24q => 0x21#8
  | .hamdec => 0x28#8
  | .hamenc => 0x29#8
  | .read => 0x30#8
  | .reset => 0x31#8
  | .ldb => 0x40#8
  | .stb => 0x41#8
  | .setlen => 0x42#8
  | .rdsr => 0x48#8

/-- The opcode a number names; the other 239 numbers are reserved (R85 (a)). -/
def Opcode.ofBits (b : BitVec 8) : Option Opcode :=
  if b = 0x00#8 then some .nop
  else if b = 0x01#8 then some .rstall
  else if b = 0x10#8 then some .getu
  else if b = 0x11#8 then some .gets
  else if b = 0x12#8 then some .getsm
  else if b = 0x14#8 then some .setu
  else if b = 0x15#8 then some .sets
  else if b = 0x20#8 then some .crc16
  else if b = 0x21#8 then some .crc24q
  else if b = 0x28#8 then some .hamdec
  else if b = 0x29#8 then some .hamenc
  else if b = 0x30#8 then some .read
  else if b = 0x31#8 then some .reset
  else if b = 0x40#8 then some .ldb
  else if b = 0x41#8 then some .stb
  else if b = 0x42#8 then some .setlen
  else if b = 0x48#8 then some .rdsr
  else none

/-! ### Decoding -/

/-- Why a word selects no row of the opcode table. Each is an IllegalCommand fault of the block (R85). -/
inductive DecodeError where
  /-- `op` is not one of the 17 opcodes (R81 step 2). -/
  | reservedOpcode
  /-- `rsv` is not zero (R81 step 3). -/
  | reservedField
  /-- a field, or a part of one, that the format marks "0" is not zero (R81 step 4). -/
  | mustBeZero
  /-- READ with a selector other than 1..4: no row of the table (R84). -/
  | noDecoder
  deriving DecidableEq, Repr

/-- The must-be-zero check of step 4 of R81. -/
def ifZero (zero : Bool) (i : Instr) : Except DecodeError Instr :=
  if zero then .ok i else .error .mustBeZero

/-- The row READ selects, by its selector (R84). -/
def decodeRead (sel : BitVec 3) (byte : Byte) : Except DecodeError Instr :=
  if sel = 1#3 then .ok (.readAsv byte)
  else if sel = 2#3 then .ok (.readR2 byte)
  else if sel = 3#3 then .ok (.readR3 byte)
  else if sel = 4#3 then .ok (.readSbf byte)
  else .error .noDecoder

/-- The fields of an opcode's format (R82), the reserved field being zero. -/
def decodeFields (op : Opcode) (sel : BitVec 3) (wid : BitVec 6) (arg : BitVec 32) (val : BitVec 64) :
    Except DecodeError Instr :=
  match op with
  | .nop => ifZero (sel == 0#3 && wid == 0#6 && arg == 0#32 && val == 0#64) .nop
  | .rstall => ifZero (sel == 0#3 && wid == 0#6 && arg == 0#32 && val == 0#64) .rstall
  | .getu => ifZero (val == 0#64) (.getu sel wid arg)
  | .gets => ifZero (val == 0#64) (.gets sel wid arg)
  | .getsm => ifZero (val == 0#64) (.getsm sel wid arg)
  | .setu => .ok (.setu sel wid arg val)
  | .sets => .ok (.sets sel wid arg val)
  | .crc16 => ifZero (wid == 0#6 && val.extractLsb' 32 32 == 0#32) (.crc16 sel arg (val.extractLsb' 0 32))
  | .crc24q => ifZero (wid == 0#6 && val == 0#64) (.crc24q sel arg)
  | .hamdec =>
    ifZero (sel == 0#3 && wid == 0#6 && arg == 0#32 && val.extractLsb' 32 32 == 0#32) (.hamdec (val.extractLsb' 0 32))
  | .hamenc =>
    ifZero (sel == 0#3 && wid == 0#6 && arg == 0#32 && val.extractLsb' 26 38 == 0#38)
      (.hamenc (val.extractLsb' 0 24) (val.extractLsb' 24 2))
  | .read =>
    if wid == 0#6 && arg.extractLsb' 8 24 == 0#24 && val == 0#64 then decodeRead sel (arg.extractLsb' 0 8)
    else .error .mustBeZero
  | .reset => ifZero (wid == 0#6 && arg == 0#32 && val == 0#64) (.reset sel)
  | .ldb => ifZero (wid == 0#6 && val == 0#64) (.ldb sel arg)
  | .stb => ifZero (wid == 0#6 && val.extractLsb' 8 56 == 0#56) (.stb sel arg (val.extractLsb' 0 8))
  | .setlen => ifZero (wid == 0#6 && val == 0#64) (.setlen sel arg)
  | .rdsr => ifZero (wid == 0#6 && val == 0#64) (.rdsr sel arg)

/-- The command a word stands for, or why it stands for none: steps 2, 3 and 4 of rule R81, in that order. -/
def decode (w : CommandWord) : Except DecodeError Instr :=
  match Opcode.ofBits (fieldOp w) with
  | none => .error .reservedOpcode
  | some op =>
    if fieldRsv w = 0#15 then decodeFields op (fieldSel w) (fieldWid w) (fieldArg w) (fieldVal w)
    else .error .reservedField

/-! ### Encoding (R82) -/

/-- The word of a command. -/
def encode : Instr → CommandWord
  | .nop => packCommand 0x00#8 0#3 0#6 0#32 0#64
  | .rstall => packCommand 0x01#8 0#3 0#6 0#32 0#64
  | .getu sel wid ofs => packCommand 0x10#8 sel wid ofs 0#64
  | .gets sel wid ofs => packCommand 0x11#8 sel wid ofs 0#64
  | .getsm sel wid ofs => packCommand 0x12#8 sel wid ofs 0#64
  | .setu sel wid ofs value => packCommand 0x14#8 sel wid ofs value
  | .sets sel wid ofs value => packCommand 0x15#8 sel wid ofs value
  | .crc16 sel start len => packCommand 0x20#8 sel 0#6 start (0#32 ++ len)
  | .crc24q sel stop => packCommand 0x21#8 sel 0#6 stop 0#64
  | .hamdec word => packCommand 0x28#8 0#3 0#6 0#32 (0#32 ++ word)
  | .hamenc data prev2 => packCommand 0x29#8 0#3 0#6 0#32 (0#38 ++ prev2 ++ data)
  | .readAsv b => packCommand 0x30#8 1#3 0#6 (0#24 ++ b) 0#64
  | .readR2 b => packCommand 0x30#8 2#3 0#6 (0#24 ++ b) 0#64
  | .readR3 b => packCommand 0x30#8 3#3 0#6 (0#24 ++ b) 0#64
  | .readSbf b => packCommand 0x30#8 4#3 0#6 (0#24 ++ b) 0#64
  | .reset sel => packCommand 0x31#8 sel 0#6 0#32 0#64
  | .ldb sel addr => packCommand 0x40#8 sel 0#6 addr 0#64
  | .stb sel addr b => packCommand 0x41#8 sel 0#6 addr (0#56 ++ b)
  | .setlen sel len => packCommand 0x42#8 sel 0#6 len 0#64
  | .rdsr sel idx => packCommand 0x48#8 sel 0#6 idx 0#64

/-! ### The opcode table -/

/-- One row of the opcode table: a word `c` selects it when `c and mask = pattern` (R84). -/
structure OpcodeRow where
  mnemonic : String
  pattern : CommandWord
  mask : CommandWord
  deriving DecidableEq, Repr

/-- Whether a word selects a row. -/
def OpcodeRow.selects (r : OpcodeRow) (w : CommandWord) : Bool := w &&& r.mask == r.pattern

/-- The 20 rows, `match` and `mask` as the table gives them (R84). -/
def opcodeTable : List OpcodeRow := [
  ⟨"NOP", 0x00000000000000000000000000000000#128, 0xFFFFFFFFFFFFFFFFFFFFFFFFFFFFFFFF#128⟩,
  ⟨"RSTALL", 0x01000000000000000000000000000000#128, 0xFFFFFFFFFFFFFFFFFFFFFFFFFFFFFFFF#128⟩,
  ⟨"GETU", 0x10000000000000000000000000000000#128, 0xFF007FFF00000000FFFFFFFFFFFFFFFF#128⟩,
  ⟨"GETS", 0x11000000000000000000000000000000#128, 0xFF007FFF00000000FFFFFFFFFFFFFFFF#128⟩,
  ⟨"GETSM", 0x12000000000000000000000000000000#128, 0xFF007FFF00000000FFFFFFFFFFFFFFFF#128⟩,
  ⟨"SETU", 0x14000000000000000000000000000000#128, 0xFF007FFF000000000000000000000000#128⟩,
  ⟨"SETS", 0x15000000000000000000000000000000#128, 0xFF007FFF000000000000000000000000#128⟩,
  ⟨"CRC16", 0x20000000000000000000000000000000#128, 0xFF1FFFFF00000000FFFFFFFF00000000#128⟩,
  ⟨"CRC24Q", 0x21000000000000000000000000000000#128, 0xFF1FFFFF00000000FFFFFFFFFFFFFFFF#128⟩,
  ⟨"HAMDEC", 0x28000000000000000000000000000000#128, 0xFFFFFFFFFFFFFFFFFFFFFFFF00000000#128⟩,
  ⟨"HAMENC", 0x29000000000000000000000000000000#128, 0xFFFFFFFFFFFFFFFFFFFFFFFFFC000000#128⟩,
  ⟨"READ.ASV", 0x30200000000000000000000000000000#128, 0xFFFFFFFFFFFFFF00FFFFFFFFFFFFFFFF#128⟩,
  ⟨"READ.R2", 0x30400000000000000000000000000000#128, 0xFFFFFFFFFFFFFF00FFFFFFFFFFFFFFFF#128⟩,
  ⟨"READ.R3", 0x30600000000000000000000000000000#128, 0xFFFFFFFFFFFFFF00FFFFFFFFFFFFFFFF#128⟩,
  ⟨"READ.SBF", 0x30800000000000000000000000000000#128, 0xFFFFFFFFFFFFFF00FFFFFFFFFFFFFFFF#128⟩,
  ⟨"RESET", 0x31000000000000000000000000000000#128, 0xFF1FFFFFFFFFFFFFFFFFFFFFFFFFFFFF#128⟩,
  ⟨"LDB", 0x40000000000000000000000000000000#128, 0xFF1FFFFF00000000FFFFFFFFFFFFFFFF#128⟩,
  ⟨"STB", 0x41000000000000000000000000000000#128, 0xFF1FFFFF00000000FFFFFFFFFFFFFF00#128⟩,
  ⟨"SETLEN", 0x42000000000000000000000000000000#128, 0xFF1FFFFF00000000FFFFFFFFFFFFFFFF#128⟩,
  ⟨"RDSR", 0x48000000000000000000000000000000#128, 0xFF1FFFFF00000000FFFFFFFFFFFFFFFF#128⟩]

/-- The row of the opcode table a command belongs to. -/
def Instr.mnemonic : Instr → String
  | .nop => "NOP"
  | .rstall => "RSTALL"
  | .getu _ _ _ => "GETU"
  | .gets _ _ _ => "GETS"
  | .getsm _ _ _ => "GETSM"
  | .setu _ _ _ _ => "SETU"
  | .sets _ _ _ _ => "SETS"
  | .crc16 _ _ _ => "CRC16"
  | .crc24q _ _ => "CRC24Q"
  | .hamdec _ => "HAMDEC"
  | .hamenc _ _ => "HAMENC"
  | .readAsv _ => "READ.ASV"
  | .readR2 _ => "READ.R2"
  | .readR3 _ => "READ.R3"
  | .readSbf _ => "READ.SBF"
  | .reset _ => "RESET"
  | .ldb _ _ => "LDB"
  | .stb _ _ _ => "STB"
  | .setlen _ _ => "SETLEN"
  | .rdsr _ _ => "RDSR"

/-- The command word whose table bits are the low `nbits` bits of `w`, the bits above them zero. -/
def tableWord (nbits w : Nat) : CommandWord := BitVec.ofNat 128 (w % 2 ^ nbits)

/-- The command the decoder reads from the word whose bits are `w`, numbered as the opcode table numbers them: one word of
128 bits, bit 0 least significant (log entry 15). -/
def decodeTableWord (nbits w : Nat) : Option Instr :=
  match decode (tableWord nbits w) with
  | .ok i => some i
  | .error _ => none

end Sys2Proof
end

