-- ==== Sys2Proof/Config.lean ====
section
/-! DEFINITION. The parameters of the block (rule R6 of `00_scope.md`, `92_eei_decisions.md`): every parameter
whose origin is not "source" is a field of `Config`. A value of `Config` is ONE instance of the block. The defaults of R6
and the values DOC0 itself gives stand in `Sys2Proof/Machine/Defaults.lean`. -/

namespace Sys2Proof

/-- The parameters of one instance of the block (R6). It is fixed for the machine: no command writes it. -/
structure Config where
  /-- `WB_MAX`, OPEN (D11): capacity of the work buffer in bytes. -/
  wbMax : Nat
  /-- `SBF_BUF_MAX`, OPEN (D29): capacity of the SBF-style buffer in bytes. -/
  sbfBufMax : Nat
  /-- `R3_BUF_MAX` (D25): capacity of the RTCM v3 buffer in bytes. -/
  r3BufMax : Nat
  /-- `CRC16_POLY` (D12), with or without its x^16 term: R131 uses it modulo 2^16. -/
  crc16Poly : BitVec 17
  /-- `CRC16_INIT` (D12). -/
  crc16Init : BitVec 16
  /-- `CRC16_REFLECT` (D12). -/
  crc16Reflect : Bool
  /-- `CRC16_XOROUT` (D12). -/
  crc16XorOut : BitVec 16
  /-- `CRC24Q_POLY` (D13), with or without its x^24 term: R134 uses it modulo 2^24. -/
  crc24qPoly : BitVec 25
  /-- `CRC24Q_INIT` (D13). -/
  crc24qInit : BitVec 24
  /-- `R2_INV_MASK` (D16): the bits complemented when the inversion control bit is set. -/
  r2InvMask : BitVec 32
  /-- `R2_LSB_FIRST` (D18): the order in which the six payload bits of a byte enter the accumulator. -/
  r2LsbFirst : Bool
  /-- `R2_LEN_SHIFT` (D19): the lowest bit, in byte 5, of the 5-bit length subfield. -/
  r2LenShift : Nat
  /-- `R3_PREAMBLE` (D24). -/
  r3Preamble : Byte
  /-- `ASV_ID_LE` (D27). -/
  asvIdLe : Bool
  /-- `ASV_CRC_LE` (D27). -/
  asvCrcLe : Bool
  /-- `SBF_SYNC1` (D28). -/
  sbfSync1 : Byte
  /-- `SBF_SYNC2` (D28). -/
  sbfSync2 : Byte
  /-- `SBF_LE` (D28): byte order of the three 16-bit SBF-style header fields. -/
  sbfLe : Bool
  /-- `CNT_W` (D32): width in bits of every integrity-error counter. -/
  cntW : Nat
  deriving DecidableEq, Repr

/-- The ranges R6 gives the parameters: `1 <= WB_MAX <= 65535`, `8 <= SBF_BUF_MAX <= 65535`,
`6 <= R3_BUF_MAX <= 1029`; `R2_INV_MASK[31:30] = 0` (R139, R141); a 5-bit field of an 8-bit byte has
`R2_LEN_SHIFT <= 3` (log entry 13); a counter has at least one bit and RDSR zero-extends it to 64
(R38, R245), so `1 <= CNT_W <= 64` (log entry 12). -/
abbrev Config.wf (c : Config) : Prop :=
  (1 ≤ c.wbMax ∧ c.wbMax ≤ 65535) ∧ (8 ≤ c.sbfBufMax ∧ c.sbfBufMax ≤ 65535) ∧
  (6 ≤ c.r3BufMax ∧ c.r3BufMax ≤ 1029) ∧ c.r2InvMask &&& 0xC0000000#32 = 0#32 ∧ c.r2LenShift ≤ 3 ∧
  (1 ≤ c.cntW ∧ c.cntW ≤ 64)

end Sys2Proof
end

