-- ==== Sys2Proof/Machine/Defaults.lean ====
section
/-! DEFINITION. The values of rule R6: those DOC0 gives (origin "source"), which are constants of the block, and the
defaults of the parameters, which make one `Config` out of the two OPEN sizes. -/

namespace Sys2Proof.Machine

/-! ### Values of the source -/

/-- `CODEC_W_MIN`: least field width in bits. -/
abbrev codecWMin : Nat := 1

/-- `CODEC_W_MAX`: greatest field width in bits. -/
abbrev codecWMax : Nat := 32

/-- `ASV_SYNC1`. -/
abbrev asvSync1 : Byte := 0xAA#8

/-- `ASV_SYNC2`. -/
abbrev asvSync2 : Byte := 0x44#8

/-- `ASV_OVERHEAD`: header and CRC bytes added to the payload length. -/
abbrev asvOverhead : Nat := 12

/-- `ASV_MAX`: greatest Asv total frame length, and the Asv buffer's capacity. -/
abbrev asvMax : Nat := 1024

/-- `ASV_LEN_OFS`: byte offset of the payload length, 2 bytes, little-endian. -/
abbrev asvLenOfs : Nat := 2

/-- `ASV_ID_OFS`: byte offset of the 16-bit message id. -/
abbrev asvIdOfs : Nat := 8

/-- `R2_PREAMBLE`. -/
abbrev r2Preamble : Byte := 0x66#8

/-- `R2_MASKS[0..5]`, in the order of the source's list. -/
def r2Masks : List (BitVec 32) :=
  [0xBB1F3480#32, 0x5D8F9A40#32, 0xAEC7CD00#32, 0x5763E680#32, 0x6BB1F340#32, 0x8B7A89C0#32]

/-- `R2_INV_BIT`: the inversion control bit of the accumulator (`90_conflicts.md` C2). -/
abbrev r2InvBit : Nat := 30

/-- `R2_BUF_MAX` = 31*3 + 6 (R184). -/
abbrev r2BufMax : Nat := 99

/-- `SBF_HDR`: SBF-style header length in bytes, sync included. -/
abbrev sbfHdr : Nat := 8

/-! ### Defaults of the parameters -/

/-- The block with every parameter of R6 at its default, given the two OPEN sizes `WB_MAX` and `SBF_BUF_MAX`. The
values from general knowledge are those of `93_implementation_defined.md` G1 to G9 (log entries 20 to 28). -/
def defaultConfig (wbMax sbfBufMax : Nat) : Config where
  wbMax := wbMax
  sbfBufMax := sbfBufMax
  r3BufMax := 1029
  crc16Poly := 0x1021#17
  crc16Init := 0x0000#16
  crc16Reflect := false
  crc16XorOut := 0x0000#16
  crc24qPoly := 0x1864CFB#25
  crc24qInit := 0x000000#24
  r2InvMask := 0x3FFFFFFF#32
  r2LsbFirst := true
  r2LenShift := 3
  r3Preamble := 0xD3#8
  asvIdLe := true
  asvCrcLe := true
  sbfSync1 := 0x24#8
  sbfSync2 := 0x40#8
  sbfLe := true
  cntW := 32

/-- The instance `State.reset` stands for. DESIGN CHOICE (log entry 6): R6 leaves `WB_MAX` and `SBF_BUF_MAX` OPEN; 256 and
4096 are the values the spec's own test vectors choose. -/
def resetConfig : Config := defaultConfig 256 4096

end Sys2Proof.Machine
end

