-- ==== Sys2Proof/Machine/State.lean ====
section
/-! DEFINITION. The state of the block as plain data (rules R20 to R42), the reasons a step can stop, and the state after
reset. Beside the spec's state it holds three fields of the model's own, which stand for the block's two interfaces and its
instance parameters: `port`, `resp`, `cfg` (log entries 1, 2, 5). -/

namespace Sys2Proof.Machine

/-- The contents of one byte buffer (R30, R60): pairs of a byte address and its byte, in the canonical form `Memory.wf`. -/
abbrev Memory := List Host.Cell

/-- What the host can do to the block (R11, R300): present a command word at the command port, or assert the power-on
reset, "an input of the block outside the command port". -/
inductive HostInput where
  | command (w : CommandWord)
  | powerOn
  deriving DecidableEq, Repr

/-- The response to one command (R83). -/
structure Response where
  /-- `st`, 1 bit: the command raised a fault or was refused. -/
  st : Bool
  /-- `flag`, 1 bit. -/
  flag : Bool
  /-- `ev`, 3 bits: event code (R270). -/
  ev : BitVec 3
  /-- `res`, 64 bits: the result. -/
  res : BitVec 64
  deriving DecidableEq, Repr

/-- The state of one frame decoder (R20 item 3, R25 to R27, R31 to R33) with its private buffer (R30). -/
structure Decoder where
  /-- `PHASE`, 2 bits (R25). -/
  phase : BitVec 2
  /-- `N`, 16 bits (R26). -/
  n : BitVec 16
  /-- `TOTAL`, 16 bits (R27). -/
  total : BitVec 16
  /-- `ERRCNT`, `CNT_W` bits (R33): its value, below `2^CNT_W` (log entry 12). -/
  errcnt : Nat
  /-- `FVALID`, 1 bit (R31). -/
  fvalid : Bool
  /-- `FLEN`, 16 bits (R31). -/
  flen : BitVec 16
  /-- `FID`, 16 bits (R32). -/
  fid : BitVec 16
  /-- `BUF[sel]` (R30). -/
  buf : Memory
  deriving DecidableEq, Repr

/-- The complete architectural state of the block (R20), and the model's own `cfg`, `port` and `resp`. -/
structure State where
  /-- MODEL'S OWN: the parameters of this instance of the block (R6). No step changes it. -/
  cfg : Config
  /-- MODEL'S OWN: what the host presents and the block has not yet taken, first come first (R11, R71). -/
  port : List HostInput
  /-- MODEL'S OWN: the response of the command executed last (R83), `none` if there was none since reset. -/
  resp : Option Response
  /-- `FAULT`, 1 bit (R22). -/
  fault : Bool
  /-- `FCAUSE`, 4 bits (R22). -/
  fcause : BitVec 4
  /-- `WB_LEN`, 16 bits (R23). -/
  wbLen : BitVec 16
  /-- `BUF[0]`, the work buffer (R30). -/
  wb : Memory
  /-- The Asv decoder and `BUF[1]`. -/
  asv : Decoder
  /-- The RTCM v2 decoder and `BUF[2]`. -/
  r2 : Decoder
  /-- `R2.W`, 32 bits (R28). -/
  r2W : BitVec 32
  /-- `R2.NBIT`, 5 bits (R29). -/
  r2Nbit : BitVec 5
  /-- The RTCM v3 decoder and `BUF[3]`. -/
  r3 : Decoder
  /-- The SBF-style decoder and `BUF[4]`. -/
  sbf : Decoder
  deriving DecidableEq, Repr

/-- Why the machine stops. The block itself never stops (R317): its contract faults are next states (R262). -/
inductive Fault where
  /-- An access to a byte address the buffer does not have: `a >= CAP[sel]`, or below 0 (R60). Raised by every
  operation that reads or writes a buffer. SAFE: it arises only from states that break the invariants of R34, which no run
  from reset reaches (log entry 8). -/
  | noSuchAddress (b : BufferId)
  deriving DecidableEq, Repr

/-- Why the model gives no meaning. -/
inductive Refusal where
  /-- An instruction without a meaning. Raised by no arm: every row of the opcode table is modelled. SAFE. -/
  | notModelled (mnemonic : String)
  deriving DecidableEq, Repr

/-- A decoder after power-on reset (R41): every register 0; nothing listed in its buffer, whose bytes are unspecified. -/
def Decoder.reset : Decoder where
  phase := 0#2
  n := 0#16
  total := 0#16
  errcnt := 0
  fvalid := false
  flen := 0#16
  fid := 0#16
  buf := []

/-- The block of given parameters right after power-on reset (R41, R302). -/
def State.resetWith (cfg : Config) : State where
  cfg := cfg
  port := []
  resp := none
  fault := false
  fcause := 0#4
  wbLen := 0#16
  wb := []
  asv := Decoder.reset
  r2 := Decoder.reset
  r2W := 0#32
  r2Nbit := 0#5
  r3 := Decoder.reset
  sbf := Decoder.reset

/-- The machine right after reset, at the instance of `resetConfig`. -/
def State.reset : State := State.resetWith resetConfig

end Sys2Proof.Machine
end

