-- ==== Sys2Proof/Machine/Flags.lean ====
section
/-! DEFINITION. The flag-like outputs of the block (R37): the codes of fault causes (R261) and events (R270), and the
responses a command can give (R83). There are no arithmetic condition codes. -/

namespace Sys2Proof.Machine

/-- The fault causes (R261). -/
inductive Cause where
  | widthRange
  | boundsExceeded
  | bufferNotValid
  | valueRange
  | illegalCommand
  | bufferReadOnly
  deriving DecidableEq, Repr

/-- The code of a cause in `FCAUSE` (R261); 0 is "none" and 7..15 are reserved. -/
def Cause.code : Cause → BitVec 4
  | .widthRange => 1#4
  | .boundsExceeded => 2#4
  | .bufferNotValid => 3#4
  | .valueRange => 4#4
  | .illegalCommand => 5#4
  | .bufferReadOnly => 6#4

/-- The events the block produces (R270). Codes 4 to 6 are reserved for the host's own kinds and 7 is reserved. -/
inductive Event where
  | none
  | frameReady
  | crcMismatch
  | parityMismatch
  deriving DecidableEq, Repr

/-- The code of an event in the response's `ev` (R270). -/
def Event.code : Event → BitVec 3
  | .none => 0#3
  | .frameReady => 1#3
  | .crcMismatch => 2#3
  | .parityMismatch => 3#3

/-- `resp(st=0, flag=0, ev=0, res=v)`. -/
def Response.value (v : BitVec 64) : Response := ⟨false, false, Event.none.code, v⟩

/-- `resp(st=0, flag=0, ev=0, res=0)`. -/
def Response.ok : Response := .value 0#64

/-- `resp(st=0, flag=f, ev=0, res=v)`: HAMDEC (R140). -/
def Response.flagged (f : Bool) (v : BitVec 64) : Response := ⟨false, f, Event.none.code, v⟩

/-- `resp(st=1, flag=0, ev=0, res=0)`: a fault or a refused command (R83, R262, R264). -/
def Response.failed : Response := ⟨true, false, Event.none.code, 0#64⟩

/-- FrameReady (R150): `flag=1`, `ev=1`, `res[31:16] = FID`, `res[15:0] = FLEN`. -/
def Response.frameReady (id total : BitVec 16) : Response :=
  ⟨false, true, Event.frameReady.code, (id ++ total).setWidth 64⟩

/-- A mismatch event (R150): `flag=0`, `ev=k`, `res=0`. -/
def Response.mismatch (e : Event) : Response := ⟨false, false, e.code, 0#64⟩

end Sys2Proof.Machine
end

