-- ==== Sys2Proof/Machine/Ops.lean ====
section
/-! DEFINITION. The named operations over buffers and registers: reading and writing bytes (R62, R63), fault entry (R262),
the return from a fault (R249, R266), power-on reset (R300), and taking the next input of the host. -/

namespace Sys2Proof.Machine

/-- The outcome of one step of this machine. -/
abbrev Result := Host.Outcome State Fault Refusal

/-! ### Buffer bytes -/

/-- What a byte that nothing has written reads as. DESIGN CHOICE (log entry 7): R302 leaves it to the model ("a model may
take all zero; no rule can tell"). -/
def unwrittenByte : Byte := 0#8

/-- `MemRead` of one byte of a buffer (R62). -/
def Memory.read : Memory → Nat → Byte
  | [], _ => unwrittenByte
  | (a, v) :: m, k => if a = k then v else Memory.read m k

/-- `MemWrite` of one byte of a buffer (R63), keeping the canonical form. -/
def Memory.write : Memory → Nat → Byte → Memory
  | [], k, v => if v = unwrittenByte then [] else [(k, v)]
  | (a, x) :: m, k, v =>
    if k < a then (if v = unwrittenByte then (a, x) :: m else (k, v) :: (a, x) :: m)
    else if k = a then (if v = unwrittenByte then m else (k, v) :: m)
    else (a, x) :: Memory.write m k v

/-- The canonical form: addresses strictly rising, and no entry equal to what an unlisted address reads as. -/
abbrev Memory.wf (m : Memory) : Prop :=
  m.Pairwise (fun x y => x.1 < y.1) ∧ ∀ c ∈ m, c.2 ≠ unwrittenByte

/-- Every listed address is one the buffer has. -/
abbrev Memory.within (m : Memory) (cap : Nat) : Prop := ∀ c ∈ m, c.1 < cap

/-- The `n` bytes from address `a` on, in order. -/
def Memory.readRange (m : Memory) (a : Nat) : Nat → List Byte
  | 0 => []
  | n + 1 => Memory.read m a :: Memory.readRange m (a + 1) n

/-- Zero-fill of byte addresses `0 .. n-1` (R243). -/
def Memory.zeroFill (m : Memory) : Nat → Memory
  | 0 => m
  | n + 1 => Memory.write (Memory.zeroFill m n) n 0#8

/-- A 16-bit field at byte address `a`, low byte first if `le` (R91, R97, R220). -/
def Memory.word16 (m : Memory) (le : Bool) (a : Nat) : BitVec 16 :=
  if le then m.read (a + 1) ++ m.read a else m.read a ++ m.read (a + 1)

/-! ### Registers -/

/-- The state of a decoder. -/
def State.dec (s : State) : DecoderId → Decoder
  | .asv => s.asv
  | .r2 => s.r2
  | .r3 => s.r3
  | .sbf => s.sbf

/-- The state with one decoder's replaced. -/
def State.setDec (s : State) (d : DecoderId) (x : Decoder) : State :=
  match d with
  | .asv => { s with asv := x }
  | .r2 => { s with r2 := x }
  | .r3 => { s with r3 := x }
  | .sbf => { s with sbf := x }

/-- The contents of a buffer. -/
def State.buf (s : State) : BufferId → Memory
  | .wb => s.wb
  | .dec d => (s.dec d).buf

/-- `CAP[sel]` (R24, R61). -/
def capacity (cfg : Config) : BufferId → Nat
  | .wb => cfg.wbMax
  | .dec .asv => asvMax
  | .dec .r2 => r2BufMax
  | .dec .r3 => cfg.r3BufMax
  | .dec .sbf => cfg.sbfBufMax

/-- `BLEN` (R64): the valid length of a buffer as a host command sees it, `none` where R64 raises BufferNotValid. -/
def State.blen (s : State) : BufferId → Option Nat
  | .wb => some s.wbLen.toNat
  | .dec d => if (s.dec d).fvalid then some (s.dec d).flen.toNat else none

/-- `resp(...)`: the command's response leaves the block (R83). -/
def State.respond (s : State) (r : Response) : State := { s with resp := some r }

/-! ### Faults and resets -/

/-- Fault entry, `raise Fault(c)` (R262): sticky, records the first cause, changes nothing else, answers `st = 1`. -/
def raiseFault (c : Cause) (s : State) : State :=
  if s.fault then s.respond .failed
  else { s with fault := true, fcause := c.code, resp := some .failed }

/-- Every register of a decoder cleared, its buffer bytes kept (R249). -/
def Decoder.cleared (x : Decoder) : Decoder := { Decoder.reset with buf := x.buf }

/-- The return from a fault (R249, R266): every register of R38 cleared, the buffer bytes unchanged. -/
def clearAll (s : State) : State :=
  { s with
    fault := false
    fcause := 0#4
    wbLen := 0#16
    asv := s.asv.cleared
    r2 := s.r2.cleared
    r2W := 0#32
    r2Nbit := 0#5
    r3 := s.r3.cleared
    sbf := s.sbf.cleared }

/-- Power-on reset of an instance (R41, R300): the state after reset, with the host's further inputs still to come. -/
def powerOn (s : State) : State := { State.resetWith s.cfg with port := s.port }

/-! ### The command port -/

/-- What the block finds at its inputs (R11, R300). -/
inductive Fetched where
  /-- nothing: the block never acts without a command (R11). -/
  | idle
  /-- the power-on reset. -/
  | powerOn
  /-- a command word. -/
  | command (w : CommandWord)
  deriving DecidableEq, Repr

/-- The next input of the host, and the state once it is taken. -/
def takeInput (s : State) : Fetched × State :=
  match s.port with
  | [] => (.idle, s)
  | .powerOn :: rest => (.powerOn, { s with port := rest })
  | .command w :: rest => (.command w, { s with port := rest })

/-- The state in which the host presents one more command, before all others. -/
def present (s : State) (w : CommandWord) : State := { s with port := .command w :: s.port }

end Sys2Proof.Machine
end

