-- ==== Sys2Proof/Machine/Operands.lean ====
section
/-! DEFINITION. The operand forms of the commands: selectors (R24, step 5 of R81), the one absolute addressing mode (R240)
with its checks (R64, R110), bit fields (R7, R111, R115) and their readings as integers (R8, R113, R114). -/

namespace Sys2Proof.Machine

/-! ### Selectors -/

/-- The buffer a selector names (R24); 5, 6 and 7 are reserved. -/
def selBuffer (sel : BitVec 3) : Option BufferId :=
  if sel = 0#3 then some .wb
  else if sel = 1#3 then some (.dec .asv)
  else if sel = 2#3 then some (.dec .r2)
  else if sel = 3#3 then some (.dec .r3)
  else if sel = 4#3 then some (.dec .sbf)
  else none

/-- The refusal of every command but NOP, RDSR and RSTALL while `FAULT = 1` (step 1 of R81, R264). -/
def unlessFaulted (s : State) (k : Unit → Result) : Result :=
  if s.fault then .next (s.respond .failed) else k ()

/-- Step 5 of R81 for the commands whose legal set is the buffers 0..4. -/
def onBuffer (sel : BitVec 3) (s : State) (k : BufferId → Result) : Result :=
  match selBuffer sel with
  | none => .next (raiseFault .illegalCommand s)
  | some b => k b

/-- Step 5 of R81 for the store commands: the work buffer, BufferReadOnly for a decoder's buffer. -/
def onWorkBuffer (sel : BitVec 3) (s : State) (k : Unit → Result) : Result :=
  match selBuffer sel with
  | none => .next (raiseFault .illegalCommand s)
  | some (.dec _) => .next (raiseFault .bufferReadOnly s)
  | some .wb => k ()

/-- Step 5 of R81 for RESET: the decoders 1..4. -/
def onDecoder (sel : BitVec 3) (s : State) (k : DecoderId → Result) : Result :=
  match selBuffer sel with
  | some (.dec d) => k d
  | _ => .next (raiseFault .illegalCommand s)

/-! ### Checks -/

/-- A check of a command: fault entry with the cause it found, or on with the command. -/
def orFault (check : Option Cause) (s : State) (k : Unit → Result) : Result :=
  match check with
  | some c => .next (raiseFault c s)
  | none => k ()

/-- An access to the byte addresses `lo .. hi-1` of a buffer: they exist only below `CAP[sel]` (R60). -/
def onAddresses (b : BufferId) (lo hi : Nat) (s : State) (k : Unit → Result) : Result :=
  if lo ≤ hi ∧ hi ≤ capacity s.cfg b then k () else .fault (.noSuchAddress b)

/-- `CodecCheck` (R110): the buffer's valid length, then the width, then the bound, exact and without wrap. -/
def codecCheck (b : BufferId) (ofs : BitVec 32) (wid : BitVec 6) (s : State) : Option Cause :=
  match s.blen b with
  | none => some .bufferNotValid
  | some len =>
    if wid.toNat < codecWMin ∨ codecWMax < wid.toNat then some .widthRange
    else if 8 * len < ofs.toNat + wid.toNat then some .boundsExceeded
    else none

/-- The check of a byte range `[start, stop)` (R132, R135, R241): inside the valid length, exact. -/
def rangeCheck (b : BufferId) (stop : Nat) (s : State) : Option Cause :=
  match s.blen b with
  | none => some .bufferNotValid
  | some len => if len < stop then some .boundsExceeded else none

/-! ### Bit fields -/

/-- Buffer bit `k` (R7 (b)): register bit `7 - (k mod 8)` of byte `k div 8`. -/
def Memory.bit (m : Memory) (k : Nat) : Bool := (m.read (k / 8)).getLsbD (7 - k % 8)

/-- `GetU` (R111): the `w` buffer bits from `ofs` on, the first the most significant. -/
def Memory.getU (m : Memory) (ofs : Nat) : Nat → Nat
  | 0 => 0
  | w + 1 => 2 * Memory.getU m ofs w + (Memory.bit m (ofs + w)).toNat

/-- A byte with one bit set or cleared. -/
def setByteBit (b : Byte) (j : Nat) (v : Bool) : Byte :=
  if v then b ||| BitVec.twoPow 8 j else b &&& ~~~(BitVec.twoPow 8 j)

/-- Buffer bit `k` set or cleared (R115): read-modify-write of its byte. -/
def Memory.setBit (m : Memory) (k : Nat) (v : Bool) : Memory :=
  m.write (k / 8) (setByteBit (m.read (k / 8)) (7 - k % 8) v)

/-- `PutU` (R115): the low `w` bits of `u`, most significant first, into the buffer bits from `ofs` on. -/
def Memory.putU (m : Memory) (ofs : Nat) : Nat → Nat → Memory
  | 0, _ => m
  | w + 1, u => Memory.setBit (Memory.putU m ofs w (u / 2)) (ofs + w) (u.testBit 0)

/-- The first byte address past a field (R67: a field may cross byte boundaries). -/
def fieldEnd (ofs w : Nat) : Nat := (ofs + w + 7) / 8

/-! ### Field values as integers -/

/-- `signed_w(u)` (R8, R113). -/
def signedField (w u : Nat) : Int := if 2 ^ (w - 1) ≤ u then (u : Int) - 2 ^ w else u

/-- Sign flag and magnitude (R114). -/
def signMagnitudeField (w u : Nat) : Int :=
  if u.testBit (w - 1) then -((u % 2 ^ (w - 1) : Nat) : Int) else ((u % 2 ^ (w - 1) : Nat) : Int)

end Sys2Proof.Machine
end

