-- ==== Sys2Proof/Machine/BitCodec.lean ====
section
/-! DEFINITION. The bit codec (`40_bitcodec.md`): GETU, GETS, GETSM, SETU, SETS. -/

namespace Sys2Proof.Machine

/-- The shape of the three extract commands: they differ in how the field is read as an integer (R112 to R114). -/
def extractField (reading : Nat → Nat → BitVec 64) (sel : BitVec 3) (wid : BitVec 6) (ofs : BitVec 32) (s : State) :
    Result :=
  unlessFaulted s fun _ => onBuffer sel s fun b =>
  orFault (codecCheck b ofs wid s) s fun _ =>
  onAddresses b 0 (fieldEnd ofs.toNat wid.toNat) s fun _ =>
  .next (s.respond (.value (reading wid.toNat ((s.buf b).getU ofs.toNat wid.toNat))))

/-- GETU (R112). -/
def execGetu (sel : BitVec 3) (wid : BitVec 6) (ofs : BitVec 32) (s : State) : Result :=
  extractField (fun _ u => BitVec.ofNat 64 u) sel wid ofs s

/-- GETS (R113). -/
def execGets (sel : BitVec 3) (wid : BitVec 6) (ofs : BitVec 32) (s : State) : Result :=
  extractField (fun w u => BitVec.ofInt 64 (signedField w u)) sel wid ofs s

/-- GETSM (R114). -/
def execGetsm (sel : BitVec 3) (wid : BitVec 6) (ofs : BitVec 32) (s : State) : Result :=
  extractField (fun w u => BitVec.ofInt 64 (signMagnitudeField w u)) sel wid ofs s

/-- The shape of the two insert commands: `fits` says whether the value fits in `wid` bits (else ValueRange, D8) and
`u` is the field that is put (R116, R117). -/
def insertField (fits : Bool) (u : Nat) (sel : BitVec 3) (wid : BitVec 6) (ofs : BitVec 32) (s : State) : Result :=
  unlessFaulted s fun _ => onWorkBuffer sel s fun _ =>
  orFault (codecCheck .wb ofs wid s) s fun _ =>
  orFault (if fits then none else some .valueRange) s fun _ =>
  onAddresses .wb 0 (fieldEnd ofs.toNat wid.toNat) s fun _ =>
  .next ({ s with wb := s.wb.putU ofs.toNat wid.toNat u }.respond .ok)

/-- SETU (R116). -/
def execSetu (sel : BitVec 3) (wid : BitVec 6) (ofs : BitVec 32) (value : BitVec 64) (s : State) : Result :=
  insertField (decide (value.toNat < 2 ^ wid.toNat)) value.toNat sel wid ofs s

/-- SETS (R117): `v mod 2^wid` are the low `wid` bits of the two's complement. -/
def execSets (sel : BitVec 3) (wid : BitVec 6) (ofs : BitVec 32) (value : BitVec 64) (s : State) : Result :=
  insertField
    (decide (-(2 ^ (wid.toNat - 1) : Int) ≤ value.toInt ∧ value.toInt ≤ 2 ^ (wid.toNat - 1) - 1))
    (value.toNat % 2 ^ wid.toNat) sel wid ofs s

end Sys2Proof.Machine
end

