-- ==== Sys2Proof/Machine/BufferStatus.lean ====
section
/-! DEFINITION. Buffer access, status read, resets and NOP (`46_buffer_status.md`): LDB, STB, SETLEN, RDSR, RESET, NOP,
RSTALL. -/

namespace Sys2Proof.Machine

/-- LDB (R241). -/
def execLdb (sel : BitVec 3) (addr : BitVec 32) (s : State) : Result :=
  unlessFaulted s fun _ => onBuffer sel s fun b =>
  orFault (rangeCheck b (addr.toNat + 1) s) s fun _ =>
  onAddresses b addr.toNat (addr.toNat + 1) s fun _ =>
  .next (s.respond (.value (((s.buf b).read addr.toNat).setWidth 64)))

/-- STB (R242). -/
def execStb (sel : BitVec 3) (addr : BitVec 32) (byte : Byte) (s : State) : Result :=
  unlessFaulted s fun _ => onWorkBuffer sel s fun _ =>
  orFault (rangeCheck .wb (addr.toNat + 1) s) s fun _ =>
  onAddresses .wb addr.toNat (addr.toNat + 1) s fun _ =>
  .next ({ s with wb := s.wb.write addr.toNat byte }.respond .ok)

/-- SETLEN (R243). -/
def execSetlen (sel : BitVec 3) (len : BitVec 32) (s : State) : Result :=
  unlessFaulted s fun _ => onWorkBuffer sel s fun _ =>
  orFault (if s.cfg.wbMax < len.toNat then some .boundsExceeded else none) s fun _ =>
  .next ({ s with wb := s.wb.zeroFill len.toNat, wbLen := BitVec.ofNat 16 len.toNat }.respond .ok)

/-- The registers of one decoder (R38), zero-extended to 64 bits; indices 7 and 8 are RTCM v2's. -/
def decoderRegister (d : DecoderId) (idx : Nat) (s : State) : Option (BitVec 64) :=
  let x := s.dec d
  match idx with
  | 0 => some (x.phase.setWidth 64)
  | 1 => some (x.n.setWidth 64)
  | 2 => some (x.total.setWidth 64)
  | 3 => some (BitVec.ofNat 64 x.errcnt)
  | 4 => some ((BitVec.ofBool x.fvalid).setWidth 64)
  | 5 => some (x.flen.setWidth 64)
  | 6 => some (x.fid.setWidth 64)
  | 7 => if d = .r2 then some (s.r2W.setWidth 64) else none
  | 8 => if d = .r2 then some (s.r2Nbit.setWidth 64) else none
  | _ => none

/-- The status register map (R38): `none` for a (sel, idx) that is not a row of it. -/
def statusRegister (sel : BitVec 3) (idx : Nat) (s : State) : Option (BitVec 64) :=
  match selBuffer sel with
  | none => none
  | some (.dec d) => decoderRegister d idx s
  | some .wb =>
    match idx with
    | 0 => some ((BitVec.ofBool s.fault).setWidth 64)
    | 1 => some (s.fcause.setWidth 64)
    | 2 => some (s.wbLen.setWidth 64)
    | _ => none

/-- RDSR (R245): executes while `FAULT = 1`. -/
def execRdsr (sel : BitVec 3) (idx : BitVec 32) (s : State) : Result :=
  match statusRegister sel idx.toNat s with
  | some v => .next (s.respond (.value v))
  | none => .next (raiseFault .illegalCommand s)

/-- What RESET does to the decoder it names (R42, R247): `ERRCNT`, `FLEN`, `FID` and the buffer bytes stay. -/
def resetDecoder (d : DecoderId) (s : State) : State :=
  let s' := s.setDec d { s.dec d with phase := 0#2, n := 0#16, total := 0#16, fvalid := false }
  if d = .r2 then { s' with r2W := 0#32, r2Nbit := 0#5 } else s'

/-- RESET (R247). -/
def execReset (sel : BitVec 3) (s : State) : Result :=
  unlessFaulted s fun _ => onDecoder sel s fun d => .next ((resetDecoder d s).respond .ok)

/-- NOP (R248): executes while `FAULT = 1`. -/
def execNop (s : State) : Result := .next (s.respond .ok)

/-- RSTALL (R249): executes while `FAULT = 1`. -/
def execRstall (s : State) : Result := .next ((clearAll s).respond .ok)

end Sys2Proof.Machine
end

