-- ==== Sys2Proof/Machine/Frame.lean ====
section
/-! DEFINITION. The common shape of READ (R150) and the operations the four frame decoders share. -/

namespace Sys2Proof.Machine

/-- What a phase rule yields (R150): Continue, FrameReady with the total length and the id, or a mismatch event. -/
inductive FrameOutcome where
  | more
  | ready (total id : BitVec 16)
  | mismatch (e : Event)
  deriving DecidableEq, Repr

/-- `Resync(sel)` (R150). -/
def Decoder.resync (x : Decoder) : Decoder := { x with phase := 0#2, n := 0#16, total := 0#16 }

/-- `x[sel.FVALID] <- 0` (R150): the retained frame is released. -/
def Decoder.release (x : Decoder) : Decoder := { x with fvalid := false }

/-- The byte that starts a frame: stored at address 0, the decoder in its next phase. -/
def Decoder.start (b : Byte) (phase : BitVec 2) (x : Decoder) : Decoder :=
  { x with buf := x.buf.write 0 b, n := 1#16, phase := phase }

/-- `MemWrite((sel, N), 1, b); N <- N + 1`, `none` where the buffer of `cap` bytes has no address N (R60, R63). -/
def Decoder.append (cap : Nat) (b : Byte) (x : Decoder) : Option Decoder :=
  if x.n.toNat < cap then some { x with buf := x.buf.write x.n.toNat b, n := x.n + 1#16 } else none

/-- An integrity-error counter one up, modulo `2^CNT_W` (R33). -/
def countUp (cfg : Config) (count : Nat) : Nat := (count + 1) % 2 ^ cfg.cntW

/-- The end of a READ (R150): registers and response by the phase rule's outcome. -/
def finishRead (d : DecoderId) (x : Decoder) (o : FrameOutcome) (s : State) : State :=
  match o with
  | .more => (s.setDec d x).respond .ok
  | .ready total id =>
    (s.setDec d { x with flen := total, fid := id, fvalid := true }).respond (.frameReady id total)
  | .mismatch e => (s.setDec d { x with errcnt := countUp s.cfg x.errcnt }).respond (.mismatch e)

/-- READ of a byte-oriented decoder (R150): the retained frame is released, then the phase rule runs. -/
def readByte (d : DecoderId) (rule : Decoder → Option (Decoder × FrameOutcome)) (s : State) : Result :=
  match rule (s.dec d).release with
  | some (x, o) => .next (finishRead d x o s)
  | none => .fault (.noSuchAddress (.dec d))

end Sys2Proof.Machine
end

