-- ==== Sys2Proof/Machine/Integrity.lean ====
section
/-! DEFINITION. The integrity unit (`41_integrity.md`): the pure functions CRC-16, CRC-24Q and the Hamming word, and the
commands CRC16, CRC24Q, HAMDEC, HAMENC. -/

namespace Sys2Proof.Machine

/-- "repeat n times". -/
def repeatTimes {α : Type} (f : α → α) : Nat → α → α
  | 0, x => x
  | n + 1, x => repeatTimes f n (f x)

/-! ### CRC-16 (R131) -/

/-- One bit of the non-reflected form. -/
def crc16Bit (cfg : Config) (c : BitVec 16) : BitVec 16 :=
  if c.getLsbD 15 then (c <<< 1) ^^^ cfg.crc16Poly.setWidth 16 else c <<< 1

/-- One bit of the reflected form. -/
def crc16BitReflected (cfg : Config) (c : BitVec 16) : BitVec 16 :=
  if c.getLsbD 0 then (c >>> 1) ^^^ (cfg.crc16Poly.setWidth 16).reverse else c >>> 1

/-- One byte. -/
def crc16Byte (cfg : Config) (c : BitVec 16) (b : Byte) : BitVec 16 :=
  if cfg.crc16Reflect then repeatTimes (crc16BitReflected cfg) 8 (c ^^^ b.setWidth 16)
  else repeatTimes (crc16Bit cfg) 8 (c ^^^ (b.setWidth 16 <<< 8))

/-- `Crc16` of a byte string. -/
def crc16 (cfg : Config) (bytes : List Byte) : BitVec 16 :=
  bytes.foldl (crc16Byte cfg) cfg.crc16Init ^^^ cfg.crc16XorOut

/-! ### CRC-24Q (R134) -/

/-- One bit. -/
def crc24qBit (cfg : Config) (c : BitVec 24) : BitVec 24 :=
  if c.getLsbD 23 then (c <<< 1) ^^^ cfg.crc24qPoly.setWidth 24 else c <<< 1

/-- One byte. -/
def crc24qByte (cfg : Config) (c : BitVec 24) (b : Byte) : BitVec 24 :=
  repeatTimes (crc24qBit cfg) 8 (c ^^^ (b.setWidth 24 <<< 16))

/-- `Crc24q` of a byte string. -/
def crc24q (cfg : Config) (bytes : List Byte) : BitVec 24 := bytes.foldl (crc24qByte cfg) cfg.crc24qInit

/-! ### The Hamming word (R137 to R141) -/

/-- The exclusive or of the low `n` bits of a word. -/
def foldBits {n : Nat} (w : BitVec n) : Nat → Bool
  | 0 => false
  | k + 1 => foldBits w k ^^ w.getLsbD k

/-- `fold` of a 32-bit value (R8): the exclusive or of all its bits. -/
def fold (w : BitVec 32) : Bool := foldBits w 32

/-- `HamParity` (R138): the first mask gives parity bit 5, the last parity bit 0. -/
def hamParity (w : BitVec 32) : BitVec 6 :=
  r2Masks.foldl (fun p mask => (p <<< 1) ||| (BitVec.ofBool (fold (w &&& mask))).setWidth 6) 0#6

/-- Step (1) of the decode (R139): the conditional complement. -/
def hamUninvert (cfg : Config) (w : BitVec 32) : BitVec 32 :=
  if w.getLsbD r2InvBit then w ^^^ cfg.r2InvMask else w

/-- `HamDecode` (R139): the 24 data bits, first-received most significant, of an accepted word. -/
def hamDecode (cfg : Config) (w : BitVec 32) : Option (BitVec 24) :=
  let v := hamUninvert cfg w
  if hamParity v = v.extractLsb' 0 6 then some (v.extractLsb' 6 24) else none

/-- `HamEncode` (R141): the 30-bit word for 24 data bits after the two previous bits `q`. -/
def hamEncode (cfg : Config) (d : BitVec 24) (q : BitVec 2) : BitVec 30 :=
  let w := q ++ d ++ 0#6
  let v := w ||| (hamParity w).setWidth 32
  (if q.getLsbD 0 then v ^^^ cfg.r2InvMask else v).extractLsb' 0 30

/-! ### Commands -/

/-- CRC16 (R132). -/
def execCrc16 (sel : BitVec 3) (start len : BitVec 32) (s : State) : Result :=
  unlessFaulted s fun _ => onBuffer sel s fun b =>
  orFault (rangeCheck b (start.toNat + len.toNat) s) s fun _ =>
  onAddresses b start.toNat (start.toNat + len.toNat) s fun _ =>
  .next (s.respond (.value ((crc16 s.cfg ((s.buf b).readRange start.toNat len.toNat)).setWidth 64)))

/-- CRC24Q (R135). -/
def execCrc24q (sel : BitVec 3) (stop : BitVec 32) (s : State) : Result :=
  unlessFaulted s fun _ => onBuffer sel s fun b =>
  orFault (rangeCheck b stop.toNat s) s fun _ =>
  onAddresses b 0 stop.toNat s fun _ =>
  .next (s.respond (.value ((crc24q s.cfg ((s.buf b).readRange 0 stop.toNat)).setWidth 64)))

/-- HAMDEC (R140). -/
def execHamdec (word : BitVec 32) (s : State) : Result :=
  unlessFaulted s fun _ =>
  match hamDecode s.cfg word with
  | some d => .next (s.respond (.flagged true (d.setWidth 64)))
  | none => .next (s.respond (.flagged false 0#64))

/-- HAMENC (R142). -/
def execHamenc (data : BitVec 24) (prev2 : BitVec 2) (s : State) : Result :=
  unlessFaulted s fun _ => .next (s.respond (.value ((hamEncode s.cfg data prev2).setWidth 64)))

end Sys2Proof.Machine
end

