-- ==== Sys2Proof/Machine/FrameAsv.lean ====
section
/-! DEFINITION. The Asv frame decoder (`42_frame_asv.md`): READ.ASV. -/

namespace Sys2Proof.Machine

/-- Phase Sync1 (R152). -/
def asvOnSync1 (b : Byte) (x : Decoder) : Option (Decoder × FrameOutcome) :=
  if b = asvSync1 then some (x.start b 1#2, .more) else some (x, .more)

/-- Phase Sync2 (R153): a byte that does not match is consumed and not looked at again (D30). -/
def asvOnSync2 (b : Byte) (x : Decoder) : Option (Decoder × FrameOutcome) :=
  if b = asvSync2 then some ({ x with buf := x.buf.write 1 b, n := 2#16, phase := 2#2 }, .more)
  else some (x.resync, .more)

/-- Phase MessageLength (R154), with the silent oversize guard (R273). -/
def asvOnLength (b : Byte) (x : Decoder) : Option (Decoder × FrameOutcome) :=
  match x.append asvMax b with
  | none => none
  | some y =>
    if y.n = 4#16 then
      let payload := (y.buf.word16 true asvLenOfs).toNat
      if asvMax < payload + asvOverhead then some (y.resync, .more)
      else some ({ y with total := BitVec.ofNat 16 (payload + asvOverhead), phase := 3#2 }, .more)
    else some (y, .more)

/-- The integrity check of a complete frame (R156 to R158). -/
def asvCheck (cfg : Config) (x : Decoder) : Option (Decoder × FrameOutcome) :=
  let t := x.total.toNat
  if 2 ≤ t ∧ t ≤ asvMax then
    if crc16 cfg (x.buf.readRange 0 (t - 2)) = x.buf.word16 cfg.asvCrcLe (t - 2) then
      some (x.resync, .ready x.total (x.buf.word16 cfg.asvIdLe asvIdOfs))
    else some (x.resync, .mismatch .crcMismatch)
  else none

/-- Phase Message (R155). -/
def asvOnMessage (cfg : Config) (b : Byte) (x : Decoder) : Option (Decoder × FrameOutcome) :=
  match x.append asvMax b with
  | none => none
  | some y => if y.n < y.total then some (y, .more) else asvCheck cfg y

/-- The phase rule of the Asv decoder, by PHASE (R151). -/
def asvRule (cfg : Config) (b : Byte) (x : Decoder) : Option (Decoder × FrameOutcome) :=
  if x.phase = 0#2 then asvOnSync1 b x
  else if x.phase = 1#2 then asvOnSync2 b x
  else if x.phase = 2#2 then asvOnLength b x
  else asvOnMessage cfg b x

/-- READ.ASV (R151). -/
def execReadAsv (byte : Byte) (s : State) : Result := unlessFaulted s fun _ => readByte .asv (asvRule s.cfg byte) s

end Sys2Proof.Machine
end

