-- ==== Sys2Proof/Machine/FrameRtcm2.lean ====
section
/-! DEFINITION. The RTCM v2 frame decoder (`43_frame_rtcm2.md`): READ.R2. -/

namespace Sys2Proof.Machine

/-- The registers READ.R2 works on (R171): the decoder, `W`, `NBIT`, and the outcome so far. -/
structure R2Run where
  dec : Decoder
  w : BitVec 32
  nbit : BitVec 5
  out : FrameOutcome
  deriving DecidableEq, Repr

/-- Byte filter (R172): the top two bits of an accepted byte are `01`. -/
def r2Accepts (b : Byte) : Bool := b.extractLsb' 6 2 == 1#2

/-- The six payload bits of a byte in the order they enter the accumulator (R173). -/
def r2PayloadBits (cfg : Config) (b : Byte) : List Bool :=
  if cfg.r2LsbFirst then
    [b.getLsbD 0, b.getLsbD 1, b.getLsbD 2, b.getLsbD 3, b.getLsbD 4, b.getLsbD 5]
  else [b.getLsbD 5, b.getLsbD 4, b.getLsbD 3, b.getLsbD 2, b.getLsbD 1, b.getLsbD 0]

/-- Shift of one bit into the accumulator (R174). -/
def r2Shift (w : BitVec 32) (bit : Bool) : BitVec 32 := (w <<< 1) ||| (BitVec.ofBool bit).setWidth 32

/-- The preamble test (R175): the top 8 bits of the 30-bit word, after conditional inversion. -/
def r2PreambleMatches (w : BitVec 32) : Bool :=
  (if w.getLsbD r2InvBit then w.extractLsb' 22 8 ^^^ 0xFF#8 else w.extractLsb' 22 8) == r2Preamble

/-- The three data bytes of a word at addresses `a`, `a+1`, `a+2`, first-received lowest (R65 (c), R139). -/
def Memory.write3 (m : Memory) (a : Nat) (d : BitVec 24) : Memory :=
  ((m.write a (d.extractLsb' 16 8)).write (a + 1) (d.extractLsb' 8 8)).write (a + 2) (d.extractLsb' 0 8)

/-- The 5-bit length subfield of byte 5 (R179): with the default `R2_LEN_SHIFT` = 3 it is `GetU(2, 40, 5)`. -/
def r2LengthField (cfg : Config) (m : Memory) : Nat := m.getU (43 - cfg.r2LenShift) 5

/-- The total length of a frame, from its length subfield (R179). -/
def r2TotalOf (cfg : Config) (m : Memory) : BitVec 16 := BitVec.ofNat 16 (3 * r2LengthField cfg m + 6)

/-- Search, after a shifted bit (R175). -/
def r2OnSearch (cfg : Config) (r : R2Run) : R2Run :=
  if r2PreambleMatches r.w then
    match hamDecode cfg r.w with
    | some d => { r with dec := { r.dec with buf := r.dec.buf.write3 0 d, n := 3#16, phase := 1#2 }, nbit := 0#5 }
    | none => r
  else r

/-- The return to Search (R178, R180, R181): the last two received bits stay in the accumulator. -/
def r2Leave (out : FrameOutcome) (r : R2Run) : R2Run :=
  { r with dec := r.dec.resync, w := r.w &&& 3#32, out := out }

/-- A complete word while Synced (R177 to R180); `none` where the buffer has no address N+2. -/
def r2OnWord (cfg : Config) (r : R2Run) : Option R2Run :=
  match hamDecode cfg r.w with
  | none => some (r2Leave (.mismatch .parityMismatch) r)
  | some d =>
    if r.dec.n.toNat + 3 ≤ r2BufMax then
      let buf := r.dec.buf.write3 r.dec.n.toNat d
      let n := r.dec.n + 3#16
      let total := if n = 6#16 then r2TotalOf cfg buf else r.dec.total
      let r' := { r with dec := { r.dec with buf := buf, n := n, total := total } }
      if n < total then some r'
      else some (r2Leave (.ready total (BitVec.ofNat 16 (buf.getU 8 6))) r')
    else none

/-- One payload bit (R171, R174 to R176). -/
def r2OnBit (cfg : Config) (bit : Bool) (r : R2Run) : Option R2Run :=
  let r := { r with w := r2Shift r.w bit }
  if r.dec.phase = 0#2 then some (r2OnSearch cfg r)
  else if r.nbit.toNat + 1 < 30 then some { r with nbit := r.nbit + 1#5 }
  else r2OnWord cfg { r with nbit := 0#5 }

/-- All six bits of an accepted byte are shifted in and examined (R174, D21). -/
def r2OnBits (cfg : Config) : List Bool → R2Run → Option R2Run
  | [], r => some r
  | bit :: bits, r =>
    match r2OnBit cfg bit r with
    | some r' => r2OnBits cfg bits r'
    | none => none

/-- READ.R2 (R171): a byte the filter rejects changes nothing at all (R172). -/
def execReadR2 (byte : Byte) (s : State) : Result :=
  unlessFaulted s fun _ =>
  if r2Accepts byte then
    match r2OnBits s.cfg (r2PayloadBits s.cfg byte) ⟨s.r2.release, s.r2W, s.r2Nbit, .more⟩ with
    | some r => .next (finishRead .r2 r.dec r.out { s with r2W := r.w, r2Nbit := r.nbit })
    | none => .fault (.noSuchAddress (.dec .r2))
  else .next (s.respond .ok)

end Sys2Proof.Machine
end

