-- ==== Sys2Proof/Machine/FrameRtcm3.lean ====
section
/-! DEFINITION. The RTCM v3 frame decoder (`44_frame_rtcm3.md`): READ.R3. -/

namespace Sys2Proof.Machine

/-- Phase Sync (R202). -/
def r3OnSync (cfg : Config) (b : Byte) (x : Decoder) : Option (Decoder × FrameOutcome) :=
  if b = cfg.r3Preamble then some (x.start b 1#2, .more) else some (x, .more)

/-- Phase Length (R203, R204): the six reserved bits are not examined (D25); oversize resynchronizes silently. -/
def r3OnLength (cfg : Config) (b : Byte) (x : Decoder) : Option (Decoder × FrameOutcome) :=
  match x.append cfg.r3BufMax b with
  | none => none
  | some y =>
    if y.n = 3#16 then
      let payload := y.buf.getU 14 10
      if cfg.r3BufMax < payload + 6 then some (y.resync, .more)
      else
        some ({ y with total := BitVec.ofNat 16 (payload + 6), phase := if payload = 0 then 3#2 else 2#2 }, .more)
    else some (y, .more)

/-- Phase Payload (R205). -/
def r3OnPayload (cfg : Config) (b : Byte) (x : Decoder) : Option (Decoder × FrameOutcome) :=
  match x.append cfg.r3BufMax b with
  | none => none
  | some y => if y.n.toNat + 3 = y.total.toNat then some ({ y with phase := 3#2 }, .more) else some (y, .more)

/-- The integrity check of a complete frame (R207, R208). -/
def r3Check (cfg : Config) (x : Decoder) : Option (Decoder × FrameOutcome) :=
  let t := x.total.toNat
  if 3 ≤ t ∧ t ≤ cfg.r3BufMax then
    if (crc24q cfg (x.buf.readRange 0 (t - 3))).toNat = x.buf.getU (8 * (t - 3)) 24 then
      some (x.resync, .ready x.total (BitVec.ofNat 16 (x.buf.getU 24 12)))
    else some (x.resync, .mismatch .crcMismatch)
  else none

/-- Phase Crc (R206). -/
def r3OnCrc (cfg : Config) (b : Byte) (x : Decoder) : Option (Decoder × FrameOutcome) :=
  match x.append cfg.r3BufMax b with
  | none => none
  | some y => if y.n < y.total then some (y, .more) else r3Check cfg y

/-- The phase rule of the RTCM v3 decoder, by PHASE (R201). -/
def r3Rule (cfg : Config) (b : Byte) (x : Decoder) : Option (Decoder × FrameOutcome) :=
  if x.phase = 0#2 then r3OnSync cfg b x
  else if x.phase = 1#2 then r3OnLength cfg b x
  else if x.phase = 2#2 then r3OnPayload cfg b x
  else r3OnCrc cfg b x

/-- READ.R3 (R201). -/
def execReadR3 (byte : Byte) (s : State) : Result := unlessFaulted s fun _ => readByte .r3 (r3Rule s.cfg byte) s

end Sys2Proof.Machine
end

