-- ==== Sys2Proof/Machine/FrameSbf.lean ====
section
/-! DEFINITION. The SBF-style frame decoder (`45_frame_sbf.md`): READ.SBF. -/

namespace Sys2Proof.Machine

/-- Phase Sync1 (R222). -/
def sbfOnSync1 (cfg : Config) (b : Byte) (x : Decoder) : Option (Decoder × FrameOutcome) :=
  if b = cfg.sbfSync1 then some (x.start b 1#2, .more) else some (x, .more)

/-- Phase Sync2 (R223): a byte that does not match is consumed and not looked at again (D30). -/
def sbfOnSync2 (cfg : Config) (b : Byte) (x : Decoder) : Option (Decoder × FrameOutcome) :=
  if b = cfg.sbfSync2 then some ({ x with buf := x.buf.write 1 b, n := 2#16, phase := 2#2 }, .more)
  else some (x.resync, .more)

/-- The integrity check of a complete frame (R227 to R229): the CRC field precedes the bytes `[4, T)` it covers. -/
def sbfCheck (cfg : Config) (x : Decoder) : Option (Decoder × FrameOutcome) :=
  let t := x.total.toNat
  if 4 ≤ t ∧ t ≤ cfg.sbfBufMax then
    if crc16 cfg (x.buf.readRange 4 (t - 4)) = x.buf.word16 cfg.sbfLe 2 then
      some (x.resync, .ready x.total (x.buf.word16 cfg.sbfLe 4))
    else some (x.resync, .mismatch .crcMismatch)
  else none

/-- Phase CrcAndIdAndLength (R224, R225), with the silent length guards (R273). -/
def sbfOnHeader (cfg : Config) (b : Byte) (x : Decoder) : Option (Decoder × FrameOutcome) :=
  match x.append cfg.sbfBufMax b with
  | none => none
  | some y =>
    if y.n = 8#16 then
      let len := y.buf.word16 cfg.sbfLe 6
      if len.toNat < sbfHdr ∨ cfg.sbfBufMax < len.toNat then some (y.resync, .more)
      else if len.toNat = sbfHdr then sbfCheck cfg { y with total := len }
      else some ({ y with total := len, phase := 3#2 }, .more)
    else some (y, .more)

/-- Phase Message (R226). -/
def sbfOnMessage (cfg : Config) (b : Byte) (x : Decoder) : Option (Decoder × FrameOutcome) :=
  match x.append cfg.sbfBufMax b with
  | none => none
  | some y => if y.n < y.total then some (y, .more) else sbfCheck cfg y

/-- The phase rule of the SBF-style decoder, by PHASE (R221). -/
def sbfRule (cfg : Config) (b : Byte) (x : Decoder) : Option (Decoder × FrameOutcome) :=
  if x.phase = 0#2 then sbfOnSync1 cfg b x
  else if x.phase = 1#2 then sbfOnSync2 cfg b x
  else if x.phase = 2#2 then sbfOnHeader cfg b x
  else sbfOnMessage cfg b x

/-- READ.SBF (R221). -/
def execReadSbf (byte : Byte) (s : State) : Result := unlessFaulted s fun _ => readByte .sbf (sbfRule s.cfg byte) s

end Sys2Proof.Machine
end

