-- ==== Sys2Proof/Machine/Dispatch.lean ====
section
/-! DEFINITION. The meaning of every command: one arm per constructor of `Instr`. -/

namespace Sys2Proof.Machine

def exec (i : Instr) (s : State) : Host.Outcome State Fault Refusal :=
  match i with
  | .nop => Sys2Proof.Machine.execNop s
  | .rstall => Sys2Proof.Machine.execRstall s
  | .getu sel wid ofs => Sys2Proof.Machine.execGetu sel wid ofs s
  | .gets sel wid ofs => Sys2Proof.Machine.execGets sel wid ofs s
  | .getsm sel wid ofs => Sys2Proof.Machine.execGetsm sel wid ofs s
  | .setu sel wid ofs value => Sys2Proof.Machine.execSetu sel wid ofs value s
  | .sets sel wid ofs value => Sys2Proof.Machine.execSets sel wid ofs value s
  | .crc16 sel start len => Sys2Proof.Machine.execCrc16 sel start len s
  | .crc24q sel stop => Sys2Proof.Machine.execCrc24q sel stop s
  | .hamdec word => Sys2Proof.Machine.execHamdec word s
  | .hamenc data prev2 => Sys2Proof.Machine.execHamenc data prev2 s
  | .readAsv byte => Sys2Proof.Machine.execReadAsv byte s
  | .readR2 byte => Sys2Proof.Machine.execReadR2 byte s
  | .readR3 byte => Sys2Proof.Machine.execReadR3 byte s
  | .readSbf byte => Sys2Proof.Machine.execReadSbf byte s
  | .reset sel => Sys2Proof.Machine.execReset sel s
  | .ldb sel addr => Sys2Proof.Machine.execLdb sel addr s
  | .stb sel addr byte => Sys2Proof.Machine.execStb sel addr byte s
  | .setlen sel len => Sys2Proof.Machine.execSetlen sel len s
  | .rdsr sel idx => Sys2Proof.Machine.execRdsr sel idx s

end Sys2Proof.Machine
end

