-- ==== Sys2Proof/Machine/Step.lean ====
section
/-! DEFINITION. One step of the block: it takes the host's next input and acts on it (R11, R81). -/

namespace Sys2Proof.Machine

/-- One step. A command that decodes runs; a word that selects no row raises IllegalCommand (R81, R84), which while
`FAULT = 1` changes nothing (R262); the power-on reset resets; with no input the block holds its state (R292). -/
def step (s : State) : Host.Outcome State Fault Refusal :=
  match takeInput s with
  | (.idle, s') => .next s'
  | (.powerOn, s') => .next (powerOn s')
  | (.command w, s') =>
    match decode w with
    | .ok i => exec i s'
    | .error _ => .next (raiseFault .illegalCommand s')

/-- The state in which the host presents, before all else, the command word whose table bits are `w` (log entry 16). -/
def State.withFetchWord (s : State) (nbits w : Nat) : State := present s (tableWord nbits w)

end Sys2Proof.Machine
end

