-- ==== Sys2Proof/Safety.lean ====
section
/-! DEFINITION. The terms claims about runs are stated in: the state invariants (R34, R38), what no command can tell apart
(R66), runs of commands and their responses (R317), and the frames a stream can carry (R91 to R96). -/

namespace Sys2Proof.Machine

/-! ### Invariants (R34) -/

/-- The bullet "every decoder" of R34, with the canonical form of the buffer and its capacity (R60). -/
abbrev Decoder.Common (cap : Nat) (x : Decoder) : Prop :=
  (x.phase = 0#2 → x.n = 0#16 ∧ x.total = 0#16) ∧ x.n.toNat ≤ cap ∧
  (x.fvalid = true → x.phase = 0#2 ∧ x.n = 0#16 ∧ 1 ≤ x.flen.toNat ∧ x.flen.toNat ≤ cap) ∧
  x.buf.wf ∧ x.buf.within cap

/-- The bullet ASV of R34; TOTAL is 0 "before that" by R27. -/
abbrev AsvInv (x : Decoder) : Prop :=
  (x.phase = 1#2 → x.n = 1#16 ∧ x.total = 0#16) ∧
  (x.phase = 2#2 → 2 ≤ x.n.toNat ∧ x.n.toNat ≤ 3 ∧ x.total = 0#16) ∧
  (x.phase = 3#2 → 4 ≤ x.n.toNat ∧ x.n < x.total ∧ 12 ≤ x.total.toNat ∧ x.total.toNat ≤ asvMax)

/-- The bullet R2 of R34; phases 2 and 3 are not used (R25). -/
abbrev R2Inv (cfg : Config) (x : Decoder) (nbit : BitVec 5) : Prop :=
  (x.phase = 0#2 ∨ x.phase = 1#2) ∧ (x.phase = 0#2 ↔ x.n = 0#16) ∧
  (x.phase = 0#2 → nbit = 0#5 ∧ x.total = 0#16) ∧
  (x.phase = 1#2 → 3 ≤ x.n.toNat ∧ x.n.toNat ≤ 96 ∧ x.n.toNat % 3 = 0 ∧ nbit.toNat ≤ 29 ∧
    (x.n = 3#16 → x.total = 0#16) ∧
    (6 ≤ x.n.toNat → x.total = r2TotalOf cfg x.buf ∧ x.n < x.total ∧ x.total.toNat ≤ r2BufMax))

/-- The bullet R3 of R34. -/
abbrev R3Inv (cfg : Config) (x : Decoder) : Prop :=
  (x.phase = 1#2 → 1 ≤ x.n.toNat ∧ x.n.toNat ≤ 2 ∧ x.total = 0#16) ∧
  (x.phase = 2#2 → 3 ≤ x.n.toNat ∧ x.n.toNat + 3 < x.total.toNat) ∧
  (x.phase = 3#2 → x.total.toNat ≤ x.n.toNat + 3 ∧ x.n < x.total) ∧
  (x.phase = 2#2 ∨ x.phase = 3#2 → 6 ≤ x.total.toNat ∧ x.total.toNat ≤ cfg.r3BufMax)

/-- The bullet SBF of R34; TOTAL is 0 "before that" by R27. -/
abbrev SbfInv (cfg : Config) (x : Decoder) : Prop :=
  (x.phase = 1#2 → x.n = 1#16 ∧ x.total = 0#16) ∧
  (x.phase = 2#2 → 2 ≤ x.n.toNat ∧ x.n.toNat ≤ 7 ∧ x.total = 0#16) ∧
  (x.phase = 3#2 → 8 ≤ x.n.toNat ∧ x.n < x.total ∧ 9 ≤ x.total.toNat ∧ x.total.toNat ≤ cfg.sbfBufMax)

/-- The bullet "global" of R34, the legal values of FCAUSE (R22, R38), and the work buffer's form. -/
abbrev State.GlobalInv (s : State) : Prop :=
  (s.fault = false → s.fcause = 0#4) ∧
  (s.fault = true → 1 ≤ s.fcause.toNat ∧ s.fcause.toNat ≤ 6) ∧
  s.wbLen.toNat ≤ s.cfg.wbMax ∧ s.wb.wf ∧ s.wb.within s.cfg.wbMax

/-- Every error counter fits its `CNT_W` bits (R33). -/
abbrev State.CountersInv (s : State) : Prop :=
  s.asv.errcnt < 2 ^ s.cfg.cntW ∧ s.r2.errcnt < 2 ^ s.cfg.cntW ∧ s.r3.errcnt < 2 ^ s.cfg.cntW ∧
  s.sbf.errcnt < 2 ^ s.cfg.cntW

/-- The state invariants of R34, for an instance whose parameters are in the ranges of R6. -/
structure State.Inv (s : State) : Prop where
  cfg : s.cfg.wf
  globals : s.GlobalInv
  asvCommon : s.asv.Common (capacity s.cfg (.dec .asv))
  asv : AsvInv s.asv
  r2Common : s.r2.Common (capacity s.cfg (.dec .r2))
  r2 : R2Inv s.cfg s.r2 s.r2Nbit
  r3Common : s.r3.Common (capacity s.cfg (.dec .r3))
  r3 : R3Inv s.cfg s.r3
  sbfCommon : s.sbf.Common (capacity s.cfg (.dec .sbf))
  sbf : SbfInv s.cfg s.sbf
  counters : s.CountersInv

/-! ### What no command can tell apart (R66) -/

/-- Two buffers hold the same bytes below address `n`. -/
def Memory.agreeBelow (n : Nat) (m m' : Memory) : Prop := ∀ a, a < n → m.read a = m'.read a

/-- The registers of a decoder, without its buffer. -/
def Decoder.registers (x : Decoder) : Decoder := { x with buf := [] }

/-- Two decoders with the same registers, whose buffers agree on the bytes of the frame in progress and of the
retained frame. -/
def Decoder.Alike (x y : Decoder) : Prop :=
  x.registers = y.registers ∧ Memory.agreeBelow x.n.toNat x.buf y.buf ∧
  (x.fvalid = true → Memory.agreeBelow x.flen.toNat x.buf y.buf)

/-- Two states that differ at most in buffer bytes no command can observe (R40 (c), R66). -/
def State.Alike (s t : State) : Prop :=
  s.cfg = t.cfg ∧ s.port = t.port ∧ s.resp = t.resp ∧ s.fault = t.fault ∧ s.fcause = t.fcause ∧ s.wbLen = t.wbLen ∧
  s.r2W = t.r2W ∧ s.r2Nbit = t.r2Nbit ∧ Memory.agreeBelow s.wbLen.toNat s.wb t.wb ∧
  ∀ d, (s.dec d).Alike (t.dec d)

/-! ### Runs (R317) -/

/-- Commands executed one after another; a pseudo-instruction's expansion (R88). -/
def execAll : List Instr → State → Result
  | [], s => .next s
  | i :: is, s =>
    match exec i s with
    | .next t => execAll is t
    | .fault r => .fault r
    | .refused r => .refused r

/-- The sequence of responses of `k` steps: a run's result, with its final state (R317). -/
def transcript : Nat → State → List (Option Response)
  | 0, _ => []
  | k + 1, s =>
    match step s with
    | .next t => t.resp :: transcript k t
    | _ => []

/-! ### The rules' own formulas -/

/-- The state after fault entry with a cause code, from `FAULT = 0` (R262). -/
def State.faulted (s : State) (code : BitVec 4) : State :=
  { s with fault := true, fcause := code, resp := some ⟨true, false, 0#3, 0#64⟩ }

/-- The state with only a response, `st = 0`, `ev = 0`, given. -/
def State.answered (s : State) (flag : Bool) (res : BitVec 64) : State :=
  { s with resp := some ⟨false, flag, 0#3, res⟩ }

/-- The sum of rule R111: the value of the `w` buffer bits from `ofs` on. -/
def Memory.fieldSum (m : Memory) (ofs w : Nat) : Nat :=
  ∑ i ∈ Finset.range w, ((m.read ((ofs + i) / 8)).getLsbD (7 - (ofs + i) % 8)).toNat * 2 ^ (w - 1 - i)

/-- `m'` is `m` with byte `v` stored at address `a`: said through reads. -/
def Memory.IsStore (m m' : Memory) (a : Nat) (v : Byte) : Prop :=
  m'.read a = v ∧ ∀ k, k ≠ a → m'.read k = m.read k

/-- `m'` is `m` with the three bytes of a data word stored from address `a` on, first-received lowest (R139). -/
def Memory.IsStore3 (m m' : Memory) (a : Nat) (d : BitVec 24) : Prop :=
  m'.read a = d.extractLsb' 16 8 ∧ m'.read (a + 1) = d.extractLsb' 8 8 ∧ m'.read (a + 2) = d.extractLsb' 0 8 ∧
  ∀ k, k < a ∨ a + 3 ≤ k → m'.read k = m.read k

/-- The bytes `[a, a + n)` of a buffer. -/
def Memory.bytes (m : Memory) (a n : Nat) : List Byte := (List.range n).map fun i => m.read (a + i)

/-- Two bytes of a buffer as a number, low byte first if `le` (R97). -/
def Memory.pair (m : Memory) (le : Bool) (a : Nat) : Nat :=
  if le then (m.read a).toNat + 256 * (m.read (a + 1)).toNat else 256 * (m.read a).toNat + (m.read (a + 1)).toNat

/-- The bits each parity mask selects, as the table of R138 lists them. -/
def hamBitLists : List (List Nat) := [
  [31, 29, 28, 27, 25, 24, 20, 19, 18, 17, 16, 13, 12, 10, 7],
  [30, 28, 27, 26, 24, 23, 19, 18, 17, 16, 15, 12, 11, 9, 6],
  [31, 29, 27, 26, 25, 23, 22, 18, 17, 16, 15, 14, 11, 10, 8],
  [30, 28, 26, 25, 24, 22, 21, 17, 16, 15, 14, 13, 10, 9, 7],
  [30, 29, 27, 25, 24, 23, 21, 20, 16, 15, 14, 13, 12, 9, 8, 6],
  [31, 27, 25, 24, 22, 21, 20, 19, 17, 15, 11, 8, 7, 6]]

/-- The exclusive or of the bits of a word that a list names. -/
def xorOfBits (w : BitVec 32) (bits : List Nat) : Bool := bits.foldl (fun a i => a ^^ w.getLsbD i) false

/-! ### Frames -/

/-- Byte `a` of a byte string, 0 past its end. -/
def byteAt (f : List Byte) (a : Nat) : Byte := f.getD a 0#8

/-- Two bytes as a number, low byte first if `le`. -/
def pairAt (f : List Byte) (le : Bool) (a : Nat) : Nat :=
  if le then (byteAt f a).toNat + 256 * (byteAt f (a + 1)).toNat
  else 256 * (byteAt f a).toNat + (byteAt f (a + 1)).toNat

/-- A valid Asv frame (R91). -/
abbrev AsvFrame (cfg : Config) (f : List Byte) : Prop :=
  12 ≤ f.length ∧ f.length ≤ 1024 ∧ byteAt f 0 = 0xAA#8 ∧ byteAt f 1 = 0x44#8 ∧
  pairAt f true 2 + 12 = f.length ∧
  (crc16 cfg (f.take (f.length - 2))).toNat = pairAt f cfg.asvCrcLe (f.length - 2)

/-- A valid RTCM v3 frame (R95). -/
abbrev R3Frame (cfg : Config) (f : List Byte) : Prop :=
  6 ≤ f.length ∧ f.length ≤ cfg.r3BufMax ∧ byteAt f 0 = cfg.r3Preamble ∧
  256 * ((byteAt f 1).toNat % 4) + (byteAt f 2).toNat + 6 = f.length ∧
  (crc24q cfg (f.take (f.length - 3))).toNat =
    65536 * (byteAt f (f.length - 3)).toNat + 256 * (byteAt f (f.length - 2)).toNat + (byteAt f (f.length - 1)).toNat

/-- A valid SBF-style frame (R96). -/
abbrev SbfFrame (cfg : Config) (f : List Byte) : Prop :=
  8 ≤ f.length ∧ f.length ≤ cfg.sbfBufMax ∧ byteAt f 0 = cfg.sbfSync1 ∧ byteAt f 1 = cfg.sbfSync2 ∧
  pairAt f cfg.sbfLe 6 = f.length ∧ (crc16 cfg (f.drop 4)).toNat = pairAt f cfg.sbfLe 2

/-- The bit stream of a sequence of 24-bit data words sent after the two bits `q`, first-received bit first (R93). -/
def r2Stream (cfg : Config) : BitVec 2 → List (BitVec 24) → List Bool
  | _, [] => []
  | q, d :: ds =>
    let w := hamEncode cfg d q
    (List.range 30).map (fun i => w.getMsbD i) ++ r2Stream cfg (w.extractLsb' 0 2) ds

/-- The data bytes of a sequence of words, three a word, most significant first (R94). -/
def r2DataBytes (words : List (BitVec 24)) : List Byte :=
  words.flatMap fun d => [d.extractLsb' 16 8, d.extractLsb' 8 8, d.extractLsb' 0 8]

/-- The data words of a valid RTCM v2 frame (R94): preamble 0x66, and as many words as the length subfield says. -/
abbrev R2Frame (cfg : Config) (words : List (BitVec 24)) : Prop :=
  byteAt (r2DataBytes words) 0 = 0x66#8 ∧ 2 ≤ words.length ∧
  (byteAt (r2DataBytes words) 5).toNat / 2 ^ cfg.r2LenShift % 32 + 2 = words.length

/-! ### The frames the decoders hold (R31, R90) -/

/-- The Asv decoder: the bytes of the frame in progress fit the wire format so far, and a retained frame is a valid
frame whose id is `FID`. -/
structure AsvFramesInv (cfg : Config) (x : Decoder) : Prop where
  first : 1 ≤ x.n.toNat → x.buf.read 0 = 0xAA#8
  second : 2 ≤ x.n.toNat → x.buf.read 1 = 0x44#8
  length : x.phase = 3#2 → x.buf.pair true 2 + 12 = x.total.toNat
  retained : x.fvalid = true → AsvFrame cfg (x.buf.bytes 0 x.flen.toNat) ∧ x.fid.toNat = x.buf.pair cfg.asvIdLe 8

/-- The RTCM v3 decoder, likewise. -/
structure R3FramesInv (cfg : Config) (x : Decoder) : Prop where
  first : 1 ≤ x.n.toNat → x.buf.read 0 = cfg.r3Preamble
  length : x.phase = 2#2 ∨ x.phase = 3#2 →
    256 * ((x.buf.read 1).toNat % 4) + (x.buf.read 2).toNat + 6 = x.total.toNat
  retained : x.fvalid = true → R3Frame cfg (x.buf.bytes 0 x.flen.toNat) ∧
    x.fid.toNat = 16 * (x.buf.read 3).toNat + (x.buf.read 4).toNat / 16

/-- The SBF-style decoder, likewise. -/
structure SbfFramesInv (cfg : Config) (x : Decoder) : Prop where
  first : 1 ≤ x.n.toNat → x.buf.read 0 = cfg.sbfSync1
  second : 2 ≤ x.n.toNat → x.buf.read 1 = cfg.sbfSync2
  length : x.phase = 3#2 → x.buf.pair cfg.sbfLe 6 = x.total.toNat
  retained : x.fvalid = true → SbfFrame cfg (x.buf.bytes 0 x.flen.toNat) ∧ x.fid.toNat = x.buf.pair cfg.sbfLe 4

/-- The RTCM v2 decoder: a retained frame has the length its length subfield says and the id `FID`; its first byte is the
preamble if the inversion mask covers the preamble's bits, as both values of R139 do (R175). -/
structure R2FramesInv (cfg : Config) (x : Decoder) : Prop where
  first : cfg.r2InvMask.extractLsb' 22 8 = 0xFF#8 → 1 ≤ x.n.toNat ∨ x.fvalid = true → x.buf.read 0 = 0x66#8
  retained : x.fvalid = true →
    x.flen.toNat = 3 * ((x.buf.read 5).toNat / 2 ^ cfg.r2LenShift % 32) + 6 ∧ x.fid.toNat = (x.buf.read 1).toNat / 4

/-- Every frame in progress fits its wire format so far, and every retained frame is valid. -/
structure State.FramesInv (s : State) : Prop where
  asv : AsvFramesInv s.cfg s.asv
  r2 : R2FramesInv s.cfg s.r2
  r3 : R3FramesInv s.cfg s.r3
  sbf : SbfFramesInv s.cfg s.sbf

end Sys2Proof.Machine
end

