-- ==== Sys2Proof/Certificates/Slice0/Obligations.lean ====
section
/-! DEFINITION. The statements for the provers. Each docstring names the rule of the spec it formalises. -/

open Sys2Proof Sys2Proof.Machine

/-! ### The step and the command word -/

/-- Words written out bit by bit from the encodings of R80 and R82 (as `95_test_vectors.md` gives them). -/
def Obligations.DecodeReadsWordsWrittenFromTheSpec : Prop :=
  decode 0x00000000000000000000000000000000#128 = .ok .nop ∧
  decode 0x01000000000000000000000000000000#128 = .ok .rstall ∧
  decode 0x10430000000000080000000000000000#128 = .ok (.getu 2#3 6#6 8#32) ∧
  decode 0x150A000000000024FFFFFFFFFFFE1DC0#128 = .ok (.sets 0#3 20#6 36#32 0xFFFFFFFFFFFE1DC0#64) ∧
  decode 0x2020000000000000000000000000000D#128 = .ok (.crc16 1#3 0#32 13#32) ∧
  decode 0x2900000000000000000000000155E508#128 = .ok (.hamenc 0x55E508#24 1#2) ∧
  decode 0x30400000000000660000000000000000#128 = .ok (.readR2 0x66#8) ∧
  decode 0x31600000000000000000000000000000#128 = .ok (.reset 3#3) ∧
  decode 0x41000000000000030000000000000080#128 = .ok (.stb 0#3 3#32 0x80#8) ∧
  decode 0x48400000000000080000000000000000#128 = .ok (.rdsr 2#3 8#32)

/-- A step takes the command word the host presents first and runs the command it decodes to (R11, R81): exactly `exec` of it,
on the state from which the word is taken; no other field is touched. That the port is a list in the state is the model's
choice (log entry 1). -/
def Obligations.StepRunsTheDecodedCommand : Prop :=
  ∀ (s : State) (w : CommandWord) (rest : List HostInput) (i : Instr),
    s.port = .command w :: rest → decode w = .ok i → step s = exec i { s with port := rest }

/-- A word that selects no row of the opcode table raises IllegalCommand (R84, R85); while `FAULT = 1` it answers `st = 1` and
changes nothing (R81, R262, R264). -/
def Obligations.StepFaultsOnWordsOutsideTheTable : Prop :=
  ∀ (s : State) (w : CommandWord) (rest : List HostInput) (e : DecodeError),
    s.port = .command w :: rest → decode w = .error e →
    (s.fault = false → step s = .next ({ s with port := rest }.faulted 5#4)) ∧
    (s.fault = true → step s = .next { s with port := rest, resp := some ⟨true, false, 0#3, 0#64⟩ })

/-- The model's choice (log entries 3 and 4): with no input the block holds its state; the power-on reset clears every
register (R41, R300) and keeps the instance and the host's further inputs. -/
def Obligations.StepIdlesWithoutInputAndResetsOnPowerOn : Prop :=
  (∀ s : State, s.port = [] → step s = .next s) ∧
  (∀ (s : State) (rest : List HostInput), s.port = .powerOn :: rest →
    step s = .next { State.resetWith s.cfg with port := rest })

/-- Decoding an encoded command gives it back, every operand at every value (R80, R82, R84). -/
def Obligations.DecodeOfEncodeIsTheCommand : Prop :=
  ∀ i : Instr, decode (encode i) = .ok i

/-- A word that decodes is the word of the command it decodes to: no bit of it is dropped (R82: unused fields are zero). -/
def Obligations.EncodeOfDecodeIsTheWord : Prop :=
  ∀ (w : CommandWord) (i : Instr), decode w = .ok i → encode i = w

/-- A word decodes exactly when it selects a row of the opcode table, `c and mask = match`, and then to a command of that
row and of no other (R84). -/
def Obligations.DecodeSelectsExactlyTheRowsOfTheTable : Prop :=
  (∀ w : CommandWord, (∃ i, decode w = .ok i) ↔ ∃ r ∈ opcodeTable, r.selects w = true) ∧
  (∀ (w : CommandWord) (i : Instr), decode w = .ok i →
    ∀ r ∈ opcodeTable, (r.selects w = true ↔ r.mnemonic = i.mnemonic)) ∧
  (∀ (w : CommandWord), ∀ r ∈ opcodeTable, ∀ r' ∈ opcodeTable, r.selects w = true → r'.selects w = true → r = r')

/-! ### Faults -/

/-- While `FAULT = 1` every command word, legal or not, whose opcode is not that of NOP, RDSR or RSTALL is taken, answered
`st = 1` with all other fields 0, and changes nothing, a READ's decoder and `FCAUSE` included (R264); NOP and RDSR change
nothing but the response either. -/
def Obligations.FaultedBlockRefusesAllButNopRdsrRstall : Prop :=
  (∀ (s : State) (w : CommandWord) (rest : List HostInput), s.fault = true → s.port = .command w :: rest →
    w.toNat / 2 ^ 120 ≠ 0x00 → w.toNat / 2 ^ 120 ≠ 0x01 → w.toNat / 2 ^ 120 ≠ 0x48 →
    step s = .next { s with port := rest, resp := some ⟨true, false, 0#3, 0#64⟩ }) ∧
  (∀ (i : Instr) (s : State), s.fault = true → i ≠ .rstall →
    ∃ r : Response, exec i s = .next { s with resp := some r } ∧
      (i.opcode ≠ .nop → i.opcode ≠ .rdsr → r = ⟨true, false, 0#3, 0#64⟩))

/-- Fault entry sets `FAULT` and records the cause if `FAULT = 0`, else records nothing, and changes nothing else but the
response (R262); so faults are precise: a command that leaves `FAULT` set has changed nothing but `FAULT`, `FCAUSE` and
the response, and the cause is one of 1 to 6 (R261). -/
def Obligations.FaultEntryIsPrecise : Prop :=
  (∀ (c : Cause) (s : State), (s.fault = false → raiseFault c s = s.faulted c.code) ∧
    (s.fault = true → raiseFault c s = { s with resp := some ⟨true, false, 0#3, 0#64⟩ })) ∧
  ∀ (i : Instr) (s t : State), s.fault = false → exec i s = .next t → t.fault = true →
    t = s.faulted t.fcause ∧ 1 ≤ t.fcause.toNat ∧ t.fcause.toNat ≤ 6

/-- A command well-formed by its fields alone raises at most BoundsExceeded, BufferNotValid or ValueRange; one that is not
always raises a fault, by the priority of R263 one of WidthRange, BufferNotValid, IllegalCommand, BufferReadOnly. -/
def Obligations.IllFormedCommandsAlwaysFault : Prop :=
  (∀ (i : Instr) (s t : State), i.wellFormed = true → s.fault = false → exec i s = .next t → t.fault = true →
    t.fcause = 2#4 ∨ t.fcause = 3#4 ∨ t.fcause = 4#4) ∧
  (∀ (i : Instr) (s : State), i.wellFormed = false → s.fault = false →
    ∃ c : BitVec 4, exec i s = .next (s.faulted c) ∧ (c = 1#4 ∨ c = 3#4 ∨ c = 5#4 ∨ c = 6#4))

/-- The responses a command can give (R83): `st = 1` goes with all other fields 0; only READ sets `ev`, to 1, 2 or 3; only READ
and HAMDEC set `flag`. -/
def Obligations.ResponsesHaveTheShapeOfR83 : Prop :=
  ∀ (i : Instr) (s t : State), exec i s = .next t →
    ∃ r : Response, t.resp = some r ∧ (r.st = true → r = ⟨true, false, 0#3, 0#64⟩) ∧
      (r.ev ≠ 0#3 → i.opcode = .read ∧ r.ev.toNat ≤ 3) ∧
      (r.flag = true → i.opcode = .read ∨ i.opcode = .hamdec) ∧
      (i.opcode = .read → (r.flag = true ↔ r.ev = 1#3))

/-! ### The bit codec -/

/-- GETU answers the field's value, the sum of R111, zero-extended, and changes nothing (R112), on each of the five buffers. -/
def Obligations.GetuAnswersTheUnsignedField : Prop :=
  ∀ (s : State) (b : BufferId) (wid : BitVec 6) (ofs : BitVec 32) (len : Nat), s.Inv → s.fault = false →
    s.blen b = some len → 1 ≤ wid.toNat → wid.toNat ≤ 32 → ofs.toNat + wid.toNat ≤ 8 * len →
    exec (.getu b.sel wid ofs) s =
      .next (s.answered false (BitVec.ofNat 64 ((s.buf b).fieldSum ofs.toNat wid.toNat)))

/-- GETS answers the field as two's complement: its value less `2^wid` if its first bit is 1, in 64-bit two's complement
(R113). -/
def Obligations.GetsAnswersTheTwosComplementField : Prop :=
  ∀ (s : State) (b : BufferId) (wid : BitVec 6) (ofs : BitVec 32) (len : Nat), s.Inv → s.fault = false →
    s.blen b = some len → 1 ≤ wid.toNat → wid.toNat ≤ 32 → ofs.toNat + wid.toNat ≤ 8 * len →
    exec (.gets b.sel wid ofs) s =
      .next (s.answered false (BitVec.ofInt 64 (((s.buf b).fieldSum ofs.toNat wid.toNat : Nat) -
        (if (s.buf b).fieldSum ofs.toNat 1 = 1 then 2 ^ wid.toNat else 0 : Int))))

/-- GETSM answers sign and magnitude: the remaining `wid - 1` bits, negated if the first bit is 1 (R114). -/
def Obligations.GetsmAnswersTheSignAndMagnitudeField : Prop :=
  ∀ (s : State) (b : BufferId) (wid : BitVec 6) (ofs : BitVec 32) (len : Nat), s.Inv → s.fault = false →
    s.blen b = some len → 1 ≤ wid.toNat → wid.toNat ≤ 32 → ofs.toNat + wid.toNat ≤ 8 * len →
    exec (.getsm b.sel wid ofs) s =
      .next (s.answered false (BitVec.ofInt 64
        ((if (s.buf b).fieldSum ofs.toNat 1 = 1 then -1 else 1) *
          ((s.buf b).fieldSum (ofs.toNat + 1) (wid.toNat - 1) : Nat))))

/-- The faults of the extract commands, in the order of R110 and R263: IllegalCommand for a reserved selector, BufferNotValid,
WidthRange, BoundsExceeded. -/
def Obligations.ExtractCommandsFaultInOrder : Prop :=
  ∀ (i : Instr) (s : State) (sel : BitVec 3) (wid : BitVec 6) (ofs : BitVec 32), s.fault = false →
    (i = .getu sel wid ofs ∨ i = .gets sel wid ofs ∨ i = .getsm sel wid ofs) →
    (5 ≤ sel.toNat → exec i s = .next (s.faulted 5#4)) ∧
    (∀ b, sel = BufferId.sel b → s.blen b = none → exec i s = .next (s.faulted 3#4)) ∧
    (∀ b len, sel = BufferId.sel b → s.blen b = some len →
      (wid.toNat = 0 ∨ 32 < wid.toNat → exec i s = .next (s.faulted 1#4)) ∧
      (1 ≤ wid.toNat → wid.toNat ≤ 32 → 8 * len < ofs.toNat + wid.toNat → exec i s = .next (s.faulted 2#4)))

/-- SETU puts an unsigned value into the field, first bit most significant, and leaves every other bit, every byte the field
does not touch, and every register (R115, R116). -/
def Obligations.SetuPutsTheUnsignedField : Prop :=
  ∀ (s : State) (wid : BitVec 6) (ofs : BitVec 32) (value : BitVec 64), s.Inv → s.fault = false →
    1 ≤ wid.toNat → wid.toNat ≤ 32 → ofs.toNat + wid.toNat ≤ 8 * s.wbLen.toNat → value.toNat < 2 ^ wid.toNat →
    ∃ m : Memory, exec (.setu 0#3 wid ofs value) s = .next ({ s with wb := m }.answered false 0#64) ∧ m.wf ∧
      m.fieldSum ofs.toNat wid.toNat = value.toNat ∧
      (∀ k, k < ofs.toNat ∨ ofs.toNat + wid.toNat ≤ k → m.fieldSum k 1 = s.wb.fieldSum k 1) ∧
      (∀ a, 8 * a + 8 ≤ ofs.toNat ∨ ofs.toNat + wid.toNat ≤ 8 * a → m.read a = s.wb.read a)

/-- SETS puts the low `wid` bits of a two's-complement value in `-2^(wid-1) .. 2^(wid-1)-1` (R117). -/
def Obligations.SetsPutsTheTwosComplementField : Prop :=
  ∀ (s : State) (wid : BitVec 6) (ofs : BitVec 32) (value : BitVec 64), s.Inv → s.fault = false →
    1 ≤ wid.toNat → wid.toNat ≤ 32 → ofs.toNat + wid.toNat ≤ 8 * s.wbLen.toNat →
    -(2 ^ (wid.toNat - 1) : Int) ≤ value.toInt → value.toInt ≤ 2 ^ (wid.toNat - 1) - 1 →
    ∃ m : Memory, exec (.sets 0#3 wid ofs value) s = .next ({ s with wb := m }.answered false 0#64) ∧ m.wf ∧
      (m.fieldSum ofs.toNat wid.toNat : Int) = value.toInt % 2 ^ wid.toNat ∧
      (∀ k, k < ofs.toNat ∨ ofs.toNat + wid.toNat ≤ k → m.fieldSum k 1 = s.wb.fieldSum k 1) ∧
      (∀ a, 8 * a + 8 ≤ ofs.toNat ∨ ofs.toNat + wid.toNat ≤ 8 * a → m.read a = s.wb.read a)

/-- The faults of the insert commands, in the order of R263: IllegalCommand, BufferReadOnly, WidthRange, BoundsExceeded,
ValueRange (R110, R116, R117). -/
def Obligations.InsertCommandsFaultInOrder : Prop :=
  ∀ (i : Instr) (s : State) (sel : BitVec 3) (wid : BitVec 6) (ofs : BitVec 32) (value : BitVec 64), s.fault = false →
    (i = .setu sel wid ofs value ∨ i = .sets sel wid ofs value) →
    (5 ≤ sel.toNat → exec i s = .next (s.faulted 5#4)) ∧
    (1 ≤ sel.toNat → sel.toNat ≤ 4 → exec i s = .next (s.faulted 6#4)) ∧
    (sel = 0#3 →
      (wid.toNat = 0 ∨ 32 < wid.toNat → exec i s = .next (s.faulted 1#4)) ∧
      (1 ≤ wid.toNat → wid.toNat ≤ 32 →
        (8 * s.wbLen.toNat < ofs.toNat + wid.toNat → exec i s = .next (s.faulted 2#4)) ∧
        (ofs.toNat + wid.toNat ≤ 8 * s.wbLen.toNat →
          (i = .setu sel wid ofs value → 2 ^ wid.toNat ≤ value.toNat → exec i s = .next (s.faulted 4#4)) ∧
          (i = .sets sel wid ofs value →
            (value.toInt < -(2 ^ (wid.toNat - 1) : Int) ∨ 2 ^ (wid.toNat - 1) - 1 < value.toInt) →
            exec i s = .next (s.faulted 4#4)))))

/-- The four round-trip laws of R119. -/
def Obligations.CodecRoundTripLaws : Prop :=
  ∀ (s : State) (wid : BitVec 6) (ofs : BitVec 32), s.Inv → s.fault = false →
    1 ≤ wid.toNat → wid.toNat ≤ 32 → ofs.toNat + wid.toNat ≤ 8 * s.wbLen.toNat →
    (∀ u : BitVec 64, u.toNat < 2 ^ wid.toNat →
      ∃ t t', exec (.setu 0#3 wid ofs u) s = .next t ∧ exec (.getu 0#3 wid ofs) t = .next t' ∧
        t'.resp = some ⟨false, false, 0#3, u⟩) ∧
    (∀ v : BitVec 64, -(2 ^ (wid.toNat - 1) : Int) ≤ v.toInt → v.toInt ≤ 2 ^ (wid.toNat - 1) - 1 →
      ∃ t t', exec (.sets 0#3 wid ofs v) s = .next t ∧ exec (.gets 0#3 wid ofs) t = .next t' ∧
        t'.resp = some ⟨false, false, 0#3, v⟩) ∧
    (∀ u : BitVec 64, exec (.getu 0#3 wid ofs) s = .next (s.answered false u) →
      exec (.setu 0#3 wid ofs u) s = .next (s.answered false 0#64)) ∧
    (∀ (wid' : BitVec 6) (ofs' : BitVec 32) (u u' : BitVec 64), 1 ≤ wid'.toNat → wid'.toNat ≤ 32 →
      ofs'.toNat + wid'.toNat ≤ 8 * s.wbLen.toNat →
      (ofs.toNat + wid.toNat ≤ ofs'.toNat ∨ ofs'.toNat + wid'.toNat ≤ ofs.toNat) →
      u.toNat < 2 ^ wid.toNat → u'.toNat < 2 ^ wid'.toNat →
      ∃ t, execAll [.setu 0#3 wid ofs u, .setu 0#3 wid' ofs' u'] s = .next t ∧
        exec (.getu 0#3 wid ofs) t = .next (t.answered false u) ∧
        exec (.getu 0#3 wid' ofs') t = .next (t.answered false u'))

/-! ### Integrity -/

/-- CRC16 answers the CRC-16 of the bytes `[start, start + len)` of the buffer and changes nothing (R132). -/
def Obligations.Crc16AnswersTheCrcOfTheRange : Prop :=
  ∀ (s : State) (b : BufferId) (start n : BitVec 32) (len : Nat), s.Inv → s.fault = false → s.blen b = some len →
    start.toNat + n.toNat ≤ len →
    exec (.crc16 b.sel start n) s =
      .next (s.answered false ((crc16 s.cfg ((s.buf b).bytes start.toNat n.toNat)).setWidth 64))

/-- CRC24Q answers the CRC-24Q of the bytes `[0, end)` of the buffer and changes nothing (R135). -/
def Obligations.Crc24qAnswersTheCrcOfTheRange : Prop :=
  ∀ (s : State) (b : BufferId) (stop : BitVec 32) (len : Nat), s.Inv → s.fault = false → s.blen b = some len →
    stop.toNat ≤ len →
    exec (.crc24q b.sel stop) s =
      .next (s.answered false ((crc24q s.cfg ((s.buf b).bytes 0 stop.toNat)).setWidth 64))

/-- The table-driven form of CRC-16 is the same function (R131), for every generator, start value and final XOR: not reflected
with the step R131 gives, reflected with the mirrored step; and the reflected CRC-16 is the bit reversal of the one that is
not, over bit-reversed bytes, start value and final XOR. -/
def Obligations.Crc16IsItsTableDrivenForm : Prop :=
  (∀ (cfg : Config) (bytes : List Byte), cfg.crc16Reflect = false →
    crc16 cfg bytes =
      bytes.foldl (fun (c : BitVec 16) (b : Byte) =>
        (c <<< 8) ^^^ crc16 { cfg with crc16Init := 0#16, crc16XorOut := 0#16 } [(c >>> 8).setWidth 8 ^^^ b])
        cfg.crc16Init ^^^ cfg.crc16XorOut) ∧
  (∀ (cfg : Config) (bytes : List Byte), cfg.crc16Reflect = true →
    crc16 cfg bytes =
      bytes.foldl (fun (c : BitVec 16) (b : Byte) =>
        (c >>> 8) ^^^ crc16 { cfg with crc16Init := 0#16, crc16XorOut := 0#16 } [c.setWidth 8 ^^^ b])
        cfg.crc16Init ^^^ cfg.crc16XorOut) ∧
  (∀ (cfg : Config) (bytes : List Byte), cfg.crc16Reflect = true →
    crc16 cfg bytes =
      (crc16 { cfg with
        crc16Reflect := false
        crc16Init := cfg.crc16Init.reverse
        crc16XorOut := cfg.crc16XorOut.reverse } (bytes.map BitVec.reverse)).reverse)

/-- Appending the three bytes of a string's CRC-24Q, most significant first, gives a string whose CRC-24Q is 0 (R134). -/
def Obligations.Crc24qOfStringWithItsCrcIsZero : Prop :=
  ∀ (cfg : Config) (bytes : List Byte),
    crc24q cfg (bytes ++ [(crc24q cfg bytes).extractLsb' 16 8, (crc24q cfg bytes).extractLsb' 8 8,
      (crc24q cfg bytes).extractLsb' 0 8]) = 0#24

/-- The faults of CRC16, CRC24Q and LDB, in the order of R263: IllegalCommand for a reserved selector, BufferNotValid,
BoundsExceeded for a range that ends past the valid length, computed without wrap (R132, R135, R241). -/
def Obligations.RangeCommandsFaultInOrder : Prop :=
  ∀ (s : State) (i : Instr) (sel : BitVec 3) (stop : Nat), s.fault = false →
    ((∃ start n : BitVec 32, i = .crc16 sel start n ∧ stop = start.toNat + n.toNat) ∨
      (∃ e : BitVec 32, i = .crc24q sel e ∧ stop = e.toNat) ∨
      (∃ a : BitVec 32, i = .ldb sel a ∧ stop = a.toNat + 1)) →
    (5 ≤ sel.toNat → exec i s = .next (s.faulted 5#4)) ∧
    (∀ b, sel = BufferId.sel b → s.blen b = none → exec i s = .next (s.faulted 3#4)) ∧
    (∀ b len, sel = BufferId.sel b → s.blen b = some len → len < stop → exec i s = .next (s.faulted 2#4))

/-- HAMDEC (R139, R140), its parity said by the bit lists of R138: it accepts exactly when, after the conditional complement,
each of the six low bits is the exclusive or of the bits its mask selects, and then answers the 24 data bits. -/
def Obligations.HamdecChecksTheSixParities : Prop :=
  ∀ (s : State) (w v : BitVec 32), s.fault = false →
    v = (if w.getLsbD 30 then w ^^^ s.cfg.r2InvMask else w) →
    ((∀ k, k < 6 → v.getLsbD (5 - k) = xorOfBits v (hamBitLists.getD k [])) →
      exec (.hamdec w) s = .next (s.answered true ((v.extractLsb' 6 24).setWidth 64))) ∧
    ((∃ k, k < 6 ∧ v.getLsbD (5 - k) ≠ xorOfBits v (hamBitLists.getD k [])) →
      exec (.hamdec w) s = .next (s.answered false 0#64))

/-- HAMENC answers a 30-bit word that HAMDEC, given the two previous bits above it, accepts with the same 24 data bits, and it is
the only such word (R141, R142, D17), for every inversion mask with bits 31 and 30 clear. -/
def Obligations.HamencIsTheInverseOfHamdec : Prop :=
  ∀ (s : State) (d : BitVec 24) (q : BitVec 2), s.fault = false → s.cfg.wf →
    ∃ e : BitVec 30, exec (.hamenc d q) s = .next (s.answered false (e.setWidth 64)) ∧
      ∀ e' : BitVec 30, exec (.hamdec (q ++ e')) s = .next (s.answered true (d.setWidth 64)) ↔ e' = e

/-- Single-bit detection (R143): if HAMDEC accepts a word, it rejects the word with any one of its 32 bits flipped, under the
default and the alternative inversion mask. -/
def Obligations.HamdecDetectsEverySingleBitError : Prop :=
  ∀ (s : State) (w : BitVec 32) (i : Nat) (res : BitVec 64), s.fault = false →
    (s.cfg.r2InvMask = 0x3FFFFFFF#32 ∨ s.cfg.r2InvMask = 0x3FFFFFC0#32) → i < 32 →
    exec (.hamdec w) s = .next (s.answered true res) →
    exec (.hamdec (w ^^^ BitVec.twoPow 32 i)) s = .next (s.answered false 0#64)

/-! ### The frame decoders -/

/-- The transition table of the Asv decoder (R159), each row with the registers, the byte stored and the response. -/
def Obligations.AsvDecoderFollowsItsTransitionTable : Prop :=
  ∀ (s : State) (b : Byte), s.Inv → s.fault = false →
    (s.asv.phase = 0#2 → b ≠ 0xAA#8 →
      exec (.readAsv b) s = .next ({ s with asv := { s.asv with fvalid := false } }.answered false 0#64)) ∧
    (s.asv.phase = 1#2 → b ≠ 0x44#8 →
      exec (.readAsv b) s = .next ({ s with asv := { s.asv with
        phase := 0#2, n := 0#16, total := 0#16, fvalid := false } }.answered false 0#64)) ∧
    ((s.asv.phase = 0#2 → b = 0xAA#8) → (s.asv.phase = 1#2 → b = 0x44#8) →
      ∃ m : Memory, Memory.IsStore s.asv.buf m s.asv.n.toNat b ∧
        (s.asv.phase = 0#2 → exec (.readAsv b) s = .next ({ s with asv := { s.asv with
          phase := 1#2, n := 1#16, fvalid := false, buf := m } }.answered false 0#64)) ∧
        (s.asv.phase = 1#2 → exec (.readAsv b) s = .next ({ s with asv := { s.asv with
          phase := 2#2, n := 2#16, fvalid := false, buf := m } }.answered false 0#64)) ∧
        (s.asv.phase = 2#2 → s.asv.n = 2#16 → exec (.readAsv b) s = .next ({ s with asv := { s.asv with
          n := 3#16, fvalid := false, buf := m } }.answered false 0#64)) ∧
        (s.asv.phase = 2#2 → s.asv.n = 3#16 → m.pair true 2 + 12 ≤ 1024 →
          exec (.readAsv b) s = .next ({ s with asv := { s.asv with
            phase := 3#2, n := 4#16, total := BitVec.ofNat 16 (m.pair true 2 + 12), fvalid := false, buf := m }
            }.answered false 0#64)) ∧
        (s.asv.phase = 2#2 → s.asv.n = 3#16 → 1024 < m.pair true 2 + 12 →
          exec (.readAsv b) s = .next ({ s with asv := { s.asv with
            phase := 0#2, n := 0#16, total := 0#16, fvalid := false, buf := m } }.answered false 0#64)) ∧
        (s.asv.phase = 3#2 → s.asv.n.toNat + 1 < s.asv.total.toNat →
          exec (.readAsv b) s = .next ({ s with asv := { s.asv with
            n := s.asv.n + 1#16, fvalid := false, buf := m } }.answered false 0#64)) ∧
        (s.asv.phase = 3#2 → s.asv.n.toNat + 1 = s.asv.total.toNat →
          ((crc16 s.cfg (m.bytes 0 (s.asv.total.toNat - 2))).toNat = m.pair s.cfg.asvCrcLe (s.asv.total.toNat - 2) →
            exec (.readAsv b) s = .next { s with
              asv := { s.asv with phase := 0#2, n := 0#16, total := 0#16, fvalid := true, flen := s.asv.total,
                                  fid := BitVec.ofNat 16 (m.pair s.cfg.asvIdLe 8), buf := m }
              resp := some ⟨false, true, 1#3,
                BitVec.ofNat 64 (65536 * m.pair s.cfg.asvIdLe 8 + s.asv.total.toNat)⟩ }) ∧
          ((crc16 s.cfg (m.bytes 0 (s.asv.total.toNat - 2))).toNat ≠ m.pair s.cfg.asvCrcLe (s.asv.total.toNat - 2) →
            exec (.readAsv b) s = .next { s with
              asv := { s.asv with phase := 0#2, n := 0#16, total := 0#16, fvalid := false,
                                  errcnt := (s.asv.errcnt + 1) % 2 ^ s.cfg.cntW, buf := m }
              resp := some ⟨false, false, 2#3, 0#64⟩ })))

/-- The transition table of the RTCM v3 decoder (R209). -/
def Obligations.RtcmV3DecoderFollowsItsTransitionTable : Prop :=
  ∀ (s : State) (b : Byte), s.Inv → s.fault = false →
    (s.r3.phase = 0#2 → b ≠ s.cfg.r3Preamble →
      exec (.readR3 b) s = .next ({ s with r3 := { s.r3 with fvalid := false } }.answered false 0#64)) ∧
    ((s.r3.phase = 0#2 → b = s.cfg.r3Preamble) →
      ∃ m : Memory, ∃ payload : Nat, Memory.IsStore s.r3.buf m s.r3.n.toNat b ∧
        payload = 256 * ((m.read 1).toNat % 4) + (m.read 2).toNat ∧
        (s.r3.phase = 0#2 → exec (.readR3 b) s = .next ({ s with r3 := { s.r3 with
          phase := 1#2, n := 1#16, fvalid := false, buf := m } }.answered false 0#64)) ∧
        (s.r3.phase = 1#2 → s.r3.n = 1#16 → exec (.readR3 b) s = .next ({ s with r3 := { s.r3 with
          n := 2#16, fvalid := false, buf := m } }.answered false 0#64)) ∧
        (s.r3.phase = 1#2 → s.r3.n = 2#16 → s.cfg.r3BufMax < payload + 6 →
          exec (.readR3 b) s = .next ({ s with r3 := { s.r3 with
            phase := 0#2, n := 0#16, total := 0#16, fvalid := false, buf := m } }.answered false 0#64)) ∧
        (s.r3.phase = 1#2 → s.r3.n = 2#16 → payload + 6 ≤ s.cfg.r3BufMax →
          exec (.readR3 b) s = .next ({ s with r3 := { s.r3 with
            phase := (if payload = 0 then 3#2 else 2#2), n := 3#16, total := BitVec.ofNat 16 (payload + 6),
            fvalid := false, buf := m } }.answered false 0#64)) ∧
        (s.r3.phase = 2#2 → s.r3.n.toNat + 1 < s.r3.total.toNat - 3 →
          exec (.readR3 b) s = .next ({ s with r3 := { s.r3 with
            n := s.r3.n + 1#16, fvalid := false, buf := m } }.answered false 0#64)) ∧
        (s.r3.phase = 2#2 → s.r3.n.toNat + 1 = s.r3.total.toNat - 3 →
          exec (.readR3 b) s = .next ({ s with r3 := { s.r3 with
            phase := 3#2, n := s.r3.n + 1#16, fvalid := false, buf := m } }.answered false 0#64)) ∧
        (s.r3.phase = 3#2 → s.r3.n.toNat + 1 < s.r3.total.toNat →
          exec (.readR3 b) s = .next ({ s with r3 := { s.r3 with
            n := s.r3.n + 1#16, fvalid := false, buf := m } }.answered false 0#64)) ∧
        (s.r3.phase = 3#2 → s.r3.n.toNat + 1 = s.r3.total.toNat →
          ∀ rx id : Nat, rx = 65536 * (m.read (s.r3.total.toNat - 3)).toNat +
              256 * (m.read (s.r3.total.toNat - 2)).toNat + (m.read (s.r3.total.toNat - 1)).toNat →
            id = 16 * (m.read 3).toNat + (m.read 4).toNat / 16 →
          ((crc24q s.cfg (m.bytes 0 (s.r3.total.toNat - 3))).toNat = rx →
            exec (.readR3 b) s = .next { s with
              r3 := { s.r3 with phase := 0#2, n := 0#16, total := 0#16, fvalid := true, flen := s.r3.total,
                                fid := BitVec.ofNat 16 id, buf := m }
              resp := some ⟨false, true, 1#3, BitVec.ofNat 64 (65536 * id + s.r3.total.toNat)⟩ }) ∧
          ((crc24q s.cfg (m.bytes 0 (s.r3.total.toNat - 3))).toNat ≠ rx →
            exec (.readR3 b) s = .next { s with
              r3 := { s.r3 with phase := 0#2, n := 0#16, total := 0#16, fvalid := false,
                                errcnt := (s.r3.errcnt + 1) % 2 ^ s.cfg.cntW, buf := m }
              resp := some ⟨false, false, 2#3, 0#64⟩ })))

/-- The transition table of the SBF-style decoder (R230); `len` is the length of a frame that this byte completes. -/
def Obligations.SbfDecoderFollowsItsTransitionTable : Prop :=
  ∀ (s : State) (b : Byte), s.Inv → s.fault = false →
    (s.sbf.phase = 0#2 → b ≠ s.cfg.sbfSync1 →
      exec (.readSbf b) s = .next ({ s with sbf := { s.sbf with fvalid := false } }.answered false 0#64)) ∧
    (s.sbf.phase = 1#2 → b ≠ s.cfg.sbfSync2 →
      exec (.readSbf b) s = .next ({ s with sbf := { s.sbf with
        phase := 0#2, n := 0#16, total := 0#16, fvalid := false } }.answered false 0#64)) ∧
    ((s.sbf.phase = 0#2 → b = s.cfg.sbfSync1) → (s.sbf.phase = 1#2 → b = s.cfg.sbfSync2) →
      ∃ m : Memory, ∃ header : Nat, Memory.IsStore s.sbf.buf m s.sbf.n.toNat b ∧ header = m.pair s.cfg.sbfLe 6 ∧
        (s.sbf.phase = 0#2 → exec (.readSbf b) s = .next ({ s with sbf := { s.sbf with
          phase := 1#2, n := 1#16, fvalid := false, buf := m } }.answered false 0#64)) ∧
        (s.sbf.phase = 1#2 → exec (.readSbf b) s = .next ({ s with sbf := { s.sbf with
          phase := 2#2, n := 2#16, fvalid := false, buf := m } }.answered false 0#64)) ∧
        (s.sbf.phase = 2#2 → s.sbf.n.toNat < 7 → exec (.readSbf b) s = .next ({ s with sbf := { s.sbf with
          n := s.sbf.n + 1#16, fvalid := false, buf := m } }.answered false 0#64)) ∧
        (s.sbf.phase = 2#2 → s.sbf.n = 7#16 → (header < 8 ∨ s.cfg.sbfBufMax < header) →
          exec (.readSbf b) s = .next ({ s with sbf := { s.sbf with
            phase := 0#2, n := 0#16, total := 0#16, fvalid := false, buf := m } }.answered false 0#64)) ∧
        (s.sbf.phase = 2#2 → s.sbf.n = 7#16 → 8 < header → header ≤ s.cfg.sbfBufMax →
          exec (.readSbf b) s = .next ({ s with sbf := { s.sbf with
            phase := 3#2, n := 8#16, total := BitVec.ofNat 16 header, fvalid := false, buf := m }
            }.answered false 0#64)) ∧
        (s.sbf.phase = 3#2 → s.sbf.n.toNat + 1 < s.sbf.total.toNat →
          exec (.readSbf b) s = .next ({ s with sbf := { s.sbf with
            n := s.sbf.n + 1#16, fvalid := false, buf := m } }.answered false 0#64)) ∧
        (∀ len : Nat,
          ((s.sbf.phase = 2#2 ∧ s.sbf.n = 7#16 ∧ header = 8 ∧ len = 8) ∨
            (s.sbf.phase = 3#2 ∧ s.sbf.n.toNat + 1 = s.sbf.total.toNat ∧ len = s.sbf.total.toNat)) →
          ((crc16 s.cfg (m.bytes 4 (len - 4))).toNat = m.pair s.cfg.sbfLe 2 →
            exec (.readSbf b) s = .next { s with
              sbf := { s.sbf with phase := 0#2, n := 0#16, total := 0#16, fvalid := true, flen := BitVec.ofNat 16 len,
                                  fid := BitVec.ofNat 16 (m.pair s.cfg.sbfLe 4), buf := m }
              resp := some ⟨false, true, 1#3, BitVec.ofNat 64 (65536 * m.pair s.cfg.sbfLe 4 + len)⟩ }) ∧
          ((crc16 s.cfg (m.bytes 4 (len - 4))).toNat ≠ m.pair s.cfg.sbfLe 2 →
            exec (.readSbf b) s = .next { s with
              sbf := { s.sbf with phase := 0#2, n := 0#16, total := 0#16, fvalid := false,
                                  errcnt := (s.sbf.errcnt + 1) % 2 ^ s.cfg.cntW, buf := m }
              resp := some ⟨false, false, 2#3, 0#64⟩ })))

/-- A READ.R2 of a byte outside 0x40..0x7F changes nothing at all and answers `flag = 0`, `ev = 0`; it is the one READ that does
not clear `FVALID`: every other READ that completes no frame leaves it clear (R172). -/
def Obligations.RtcmV2ByteFilterChangesNothing : Prop :=
  (∀ (s : State) (b : Byte), s.fault = false → b.toNat < 0x40 ∨ 0x7F < b.toNat →
    exec (.readR2 b) s = .next (s.answered false 0#64)) ∧
  (∀ (s t : State) (d : DecoderId) (b : Byte) (r : Response), s.fault = false →
    d ≠ .r2 ∨ (0x40 ≤ b.toNat ∧ b.toNat ≤ 0x7F) → exec (Instr.readOf d b) s = .next t → t.resp = some r →
    r.flag = false → (t.dec d).fvalid = false)

/-- While Synced and no word ends in the byte, an accepted byte shifts its six payload bits into `W`, least significant first
(most significant first if `R2_LSB_FIRST` is false), and counts them (R173, R174, R176); the retained frame is released (R150). -/
def Obligations.RtcmV2SyncedByteShiftsSixBits : Prop :=
  ∀ (s : State) (b : Byte), s.fault = false → b.toNat / 64 = 1 → s.r2.phase = 1#2 → s.r2Nbit.toNat + 6 < 30 →
    exec (.readR2 b) s = .next ({ s with
      r2 := { s.r2 with fvalid := false }
      r2W := (s.r2W <<< 6) |||
        (if s.cfg.r2LsbFirst then (b.extractLsb' 0 6).reverse else b.extractLsb' 0 6).setWidth 32
      r2Nbit := s.r2Nbit + 6#5 }.answered false 0#64)

/-- The transition table of the RTCM v2 decoder, per shifted bit (R183): `w` is the accumulator after the shift, `total` the
length subfield's total when the sixth byte is stored, else the register. That `R2_LEN_SHIFT` counts from bit 0 of byte 5,
for values other than 3, is the model's reading (log entry 13). -/
def Obligations.RtcmV2BitFollowsItsTransitionTable : Prop :=
  ∀ (cfg : Config) (bit : Bool) (r : R2Run) (w : BitVec 32), cfg.wf → R2Inv cfg r.dec r.nbit → r.dec.buf.wf →
    w = (r.w <<< 1) ||| (if bit then 1#32 else 0#32) →
    (r.dec.phase = 0#2 →
      ((w.getLsbD 30 = false → w.extractLsb' 22 8 ≠ 0x66#8) → (w.getLsbD 30 = true → w.extractLsb' 22 8 ≠ 0x99#8) →
        r2OnBit cfg bit r = some { r with w := w }) ∧
      (hamDecode cfg w = none → r2OnBit cfg bit r = some { r with w := w }) ∧
      (∀ d, ((w.getLsbD 30 = false ∧ w.extractLsb' 22 8 = 0x66#8) ∨
          (w.getLsbD 30 = true ∧ w.extractLsb' 22 8 = 0x99#8)) → hamDecode cfg w = some d →
        ∃ m, Memory.IsStore3 r.dec.buf m 0 d ∧
          r2OnBit cfg bit r = some { r with
            w := w, nbit := 0#5, dec := { r.dec with phase := 1#2, n := 3#16, total := 0#16, buf := m } })) ∧
    (r.dec.phase = 1#2 → r.nbit.toNat < 29 → r2OnBit cfg bit r = some { r with w := w, nbit := r.nbit + 1#5 }) ∧
    (r.dec.phase = 1#2 → r.nbit = 29#5 →
      (hamDecode cfg w = none →
        r2OnBit cfg bit r = some { r with
          w := w &&& 3#32, nbit := 0#5, out := .mismatch .parityMismatch,
          dec := { r.dec with phase := 0#2, n := 0#16, total := 0#16 } }) ∧
      (∀ d, hamDecode cfg w = some d →
        ∃ (m : Memory) (total : BitVec 16), Memory.IsStore3 r.dec.buf m r.dec.n.toNat d ∧
          (r.dec.n = 3#16 → total.toNat = 3 * ((m.read 5).toNat / 2 ^ cfg.r2LenShift % 32) + 6) ∧
          (r.dec.n ≠ 3#16 → total = r.dec.total) ∧
          (r.dec.n.toNat + 3 < total.toNat →
            r2OnBit cfg bit r = some { r with
              w := w, nbit := 0#5, dec := { r.dec with n := r.dec.n + 3#16, total := total, buf := m } }) ∧
          (total.toNat ≤ r.dec.n.toNat + 3 → total.toNat = r.dec.n.toNat + 3 ∧
            r2OnBit cfg bit r = some { r with
              w := w &&& 3#32, nbit := 0#5, out := .ready total (BitVec.ofNat 16 ((m.read 1).toNat / 4)),
              dec := { r.dec with phase := 0#2, n := 0#16, total := 0#16, buf := m } })))

/-- A READ.R2 yields at most one of FrameReady and ParityMismatch (R182): once the bits of a byte have given an outcome, the byte's
further bits neither change it nor store anything, and the decoder stays in Search. -/
def Obligations.RtcmV2ReadYieldsAtMostOneOutcome : Prop :=
  ∀ (cfg : Config) (first rest : List Bool) (r r' r'' : R2Run), cfg.wf → R2Inv cfg r.dec r.nbit →
    r.out = .more → first.length + rest.length ≤ 6 → r2OnBits cfg first r = some r' → r'.out ≠ .more →
    r2OnBits cfg rest r' = some r'' →
    r''.out = r'.out ∧ r''.dec = r'.dec ∧ r''.dec.phase = 0#2 ∧ r''.nbit = 0#5

/-- A READ.R2 that answers ParityMismatch has discarded the frame in progress and counted it, and nothing of the rest of the block
has changed (R178, R272). Of the accumulator, all six bits shifted in (R174), the last two bits of the rejected word and the
bits of the byte after it stay, `NBIT - 24` of them, and the bits above them are 0 (R181). -/
def Obligations.ParityMismatchDiscardsTheFrame : Prop :=
  ∀ (s t : State) (b : Byte) (r : Response), s.Inv → s.fault = false → exec (.readR2 b) s = .next t → t.resp = some r →
    r.ev = 3#3 →
    r = ⟨false, false, 3#3, 0#64⟩ ∧ 24 ≤ s.r2Nbit.toNat ∧
    t.r2W.toNat = ((s.r2W <<< 6) |||
      (if s.cfg.r2LsbFirst then (b.extractLsb' 0 6).reverse else b.extractLsb' 0 6).setWidth 32).toNat %
        2 ^ (2 + (s.r2Nbit.toNat - 24)) ∧
    t = { s with
      r2 := { s.r2 with phase := 0#2, n := 0#16, total := 0#16, fvalid := false,
                        errcnt := (s.r2.errcnt + 1) % 2 ^ s.cfg.cntW }
      r2W := t.r2W
      r2Nbit := 0#5
      resp := some r }

/-- READ.R2 of an accepted byte is six bit steps (those of the transition table R183), over the byte's payload bits in their order
(R173), from the state with the retained frame released, and then the end of READ (R150, R171). All six bits are shifted in,
also those after a completed frame or a rejected word (R174): `W` holds them all, less what R181 clears at a return to
Search, which leaves the last two bits before it and the bits after it. -/
def Obligations.RtcmV2AcceptedByteIsSixBitSteps : Prop :=
  ∀ (s : State) (b : Byte) (bit : Nat → Bool) (shifted : BitVec 32), s.Inv → s.fault = false →
    0x40 ≤ b.toNat → b.toNat ≤ 0x7F → (∀ i, bit i = b.getLsbD (if s.cfg.r2LsbFirst then i else 5 - i)) →
    shifted = (s.r2W <<< 6) |||
      (if s.cfg.r2LsbFirst then (b.extractLsb' 0 6).reverse else b.extractLsb' 0 6).setWidth 32 →
    ∃ r : R2Run,
      ((((((r2OnBit s.cfg (bit 0) ⟨{ s.r2 with fvalid := false }, s.r2W, s.r2Nbit, .more⟩).bind
        (r2OnBit s.cfg (bit 1))).bind (r2OnBit s.cfg (bit 2))).bind (r2OnBit s.cfg (bit 3))).bind
        (r2OnBit s.cfg (bit 4))).bind (r2OnBit s.cfg (bit 5))) = some r ∧
      (r.out = .more → r.w = shifted ∧
        exec (.readR2 b) s = .next ({ s with r2 := r.dec, r2W := r.w, r2Nbit := r.nbit }.answered false 0#64)) ∧
      (r.out ≠ .more → 24 ≤ s.r2Nbit.toNat ∧ r.nbit = 0#5 ∧ r.dec.phase = 0#2 ∧
        r.w.toNat = shifted.toNat % 2 ^ (2 + (s.r2Nbit.toNat - 24))) ∧
      (∀ e, r.out = .mismatch e → e = .parityMismatch ∧
        exec (.readR2 b) s = .next { s with
          r2 := { r.dec with errcnt := (s.r2.errcnt + 1) % 2 ^ s.cfg.cntW }, r2W := r.w, r2Nbit := 0#5
          resp := some ⟨false, false, 3#3, 0#64⟩ }) ∧
      (∀ total id, r.out = .ready total id →
        exec (.readR2 b) s = .next { s with
          r2 := { r.dec with fvalid := true, flen := total, fid := id }, r2W := r.w, r2Nbit := 0#5
          resp := some ⟨false, true, 1#3, BitVec.ofNat 64 (65536 * id.toNat + total.toNat)⟩ })

/-- Every READ completes, in every phase, with every byte: it never raises a fault (R121, R265). -/
def Obligations.EveryReadCompletesWithoutFault : Prop :=
  ∀ (s : State) (d : DecoderId) (b : Byte), s.Inv → s.fault = false →
    ∃ (t : State) (r : Response), exec (Instr.readOf d b) s = .next t ∧ t.fault = false ∧ t.fcause = s.fcause ∧
      t.resp = some r ∧ r.st = false

/-- A READ leaves everything but its own decoder as it was (R24, R275), and of its decoder's buffer every byte but the one at
address N (RTCM v2: the three from N on; R63). -/
def Obligations.ReadTouchesOnlyItsOwnDecoder : Prop :=
  ∀ (s t : State) (d : DecoderId) (b : Byte), s.Inv → s.fault = false → exec (Instr.readOf d b) s = .next t →
    (∀ d', d' ≠ d → t.dec d' = s.dec d') ∧
    t.wb = s.wb ∧ t.wbLen = s.wbLen ∧ t.fault = s.fault ∧ t.fcause = s.fcause ∧ t.cfg = s.cfg ∧ t.port = s.port ∧
    (d ≠ .r2 → t.r2W = s.r2W ∧ t.r2Nbit = s.r2Nbit ∧
      ∀ a, a ≠ (s.dec d).n.toNat → (t.dec d).buf.read a = (s.dec d).buf.read a) ∧
    (d = .r2 → ∀ a, a < s.r2.n.toNat ∨ s.r2.n.toNat + 3 ≤ a → t.r2.buf.read a = s.r2.buf.read a)

/-- READs of different decoders commute, but for the response of the last: the decoders share no state (R24, R76). -/
def Obligations.ReadsOfDifferentDecodersCommute : Prop :=
  ∀ (s : State) (d d' : DecoderId) (b b' : Byte), s.Inv → s.fault = false → d ≠ d' →
    ∃ t t' : State, execAll [Instr.readOf d b, Instr.readOf d' b'] s = .next t ∧
      execAll [Instr.readOf d' b', Instr.readOf d b] s = .next t' ∧
      { t' with resp := t.resp } = t

/-- `ERRCNT` of a decoder counts its mismatch events, modulo `2^CNT_W`, and nothing else changes it but RSTALL and the power-on reset
(R33, R290). -/
def Obligations.ErrorCountersCountMismatchEvents : Prop :=
  ∀ (i : Instr) (s t : State), exec i s = .next t → i ≠ .rstall →
    ∃ r : Response, t.resp = some r ∧ ∀ d,
      ((∃ b, i = Instr.readOf d b) ∧ (r.ev = 2#3 ∨ r.ev = 3#3) →
        (t.dec d).errcnt = ((s.dec d).errcnt + 1) % 2 ^ s.cfg.cntW) ∧
      (¬((∃ b, i = Instr.readOf d b) ∧ (r.ev = 2#3 ∨ r.ev = 3#3)) → (t.dec d).errcnt = (s.dec d).errcnt)

/-- An Asv frame fed to a decoder in its initial phase, whatever else the state holds, is delivered (R91, R150 to R158): the last
byte's response is FrameReady with its id and length, the buffer holds the frame, and nothing but that decoder has
changed. -/
def Obligations.ValidAsvFramesAreDelivered : Prop :=
  ∀ (s : State) (f : List Byte), s.Inv → s.fault = false → s.asv.phase = 0#2 → AsvFrame s.cfg f →
    ∃ m : Memory, m.bytes 0 f.length = f ∧ (∀ a, f.length ≤ a → m.read a = s.asv.buf.read a) ∧
      execAll (Pseudo.feed .asv f) s = .next { s with
        asv := { s.asv with fvalid := true, flen := BitVec.ofNat 16 f.length,
                            fid := BitVec.ofNat 16 (pairAt f s.cfg.asvIdLe 8), buf := m }
        resp := some ⟨false, true, 1#3, BitVec.ofNat 64 (65536 * pairAt f s.cfg.asvIdLe 8 + f.length)⟩ }

/-- An RTCM v3 frame fed to a decoder in its initial phase is delivered (R95, R201 to R208), its id the 12 bits from buffer bit
24 on. -/
def Obligations.ValidRtcmV3FramesAreDelivered : Prop :=
  ∀ (s : State) (f : List Byte) (id : Nat), s.Inv → s.fault = false → s.r3.phase = 0#2 → R3Frame s.cfg f →
    id = 16 * (byteAt f 3).toNat + (byteAt f 4).toNat / 16 →
    ∃ m : Memory, m.bytes 0 f.length = f ∧ (∀ a, f.length ≤ a → m.read a = s.r3.buf.read a) ∧
      execAll (Pseudo.feed .r3 f) s = .next { s with
        r3 := { s.r3 with fvalid := true, flen := BitVec.ofNat 16 f.length, fid := BitVec.ofNat 16 id, buf := m }
        resp := some ⟨false, true, 1#3, BitVec.ofNat 64 (65536 * id + f.length)⟩ }

/-- An SBF-style frame fed to a decoder in its initial phase is delivered (R96, R221 to R229). -/
def Obligations.ValidSbfFramesAreDelivered : Prop :=
  ∀ (s : State) (f : List Byte), s.Inv → s.fault = false → s.sbf.phase = 0#2 → SbfFrame s.cfg f →
    ∃ m : Memory, m.bytes 0 f.length = f ∧ (∀ a, f.length ≤ a → m.read a = s.sbf.buf.read a) ∧
      execAll (Pseudo.feed .sbf f) s = .next { s with
        sbf := { s.sbf with fvalid := true, flen := BitVec.ofNat 16 f.length,
                            fid := BitVec.ofNat 16 (pairAt f s.cfg.sbfLe 4), buf := m }
        resp := some ⟨false, true, 1#3, BitVec.ofNat 64 (65536 * pairAt f s.cfg.sbfLe 4 + f.length)⟩ }

/-- The data words of an RTCM v2 frame, Hamming-encoded one after another from the two previous bits `q` and sent six bits a byte
to a searching decoder whose accumulator holds those two bits alone, as a reset (`q` = 0) or a frame before it leaves it, are
delivered (R92 to R94, R141, R171 to R181): the buffer holds the data bytes, and the accumulator the stream's last two bits, for
the next frame. After a previous bit 1 the frame is seen only if the inversion mask covers the preamble's bits, as both values
of R139 do (R175); after `q` = 01 the preamble test passes two bits early, and the frame is seen unless that word is
accepted. For an `R2_LEN_SHIFT` other than 3 the length subfield's place is the model's reading (log entry 13). -/
def Obligations.ValidRtcmV2FramesAreDelivered : Prop :=
  ∀ (s : State) (q : BitVec 2) (words : List (BitVec 24)) (bytes : List Byte), s.Inv → s.fault = false →
    s.r2.phase = 0#2 → s.r2W = q.setWidth 32 → R2Frame s.cfg words →
    (q.getLsbD 0 = true → s.cfg.r2InvMask.extractLsb' 22 8 = 0xFF#8) →
    (q = 1#2 → hamDecode s.cfg
      ((q.setWidth 32 <<< 28) ||| ((hamEncode s.cfg (words.headD 0#24) q).setWidth 32 >>> 2)) = none) →
    (∀ b ∈ bytes, b.toNat / 64 = 1) → bytes.flatMap (r2PayloadBits s.cfg) = r2Stream s.cfg q words →
    ∃ m : Memory, m.bytes 0 (3 * words.length) = r2DataBytes words ∧
      (∀ a, 3 * words.length ≤ a → m.read a = s.r2.buf.read a) ∧
      execAll (Pseudo.feed .r2 bytes) s = .next { s with
        r2 := { s.r2 with fvalid := true, flen := BitVec.ofNat 16 (3 * words.length),
                          fid := BitVec.ofNat 16 ((byteAt (r2DataBytes words) 1).toNat / 4), buf := m }
        r2W := BitVec.ofNat 32 (2 * ((r2Stream s.cfg q words).getD (30 * words.length - 2) false).toNat +
          ((r2Stream s.cfg q words).getD (30 * words.length - 1) false).toNat)
        resp := some ⟨false, true, 1#3,
          BitVec.ofNat 64 (65536 * ((byteAt (r2DataBytes words) 1).toNat / 4) + 3 * words.length)⟩ }

/-! ### Buffer access, status, resets -/

/-- LDB answers the byte at the address, zero-extended, and changes nothing; GETU of its eight bits answers the same (R241,
R65 (d)). -/
def Obligations.LdbAnswersTheByteAsGetuDoes : Prop :=
  ∀ (s : State) (b : BufferId) (addr : BitVec 32) (len : Nat), s.Inv → s.fault = false → s.blen b = some len →
    addr.toNat < len →
    exec (.ldb b.sel addr) s = .next (s.answered false (((s.buf b).read addr.toNat).setWidth 64)) ∧
    exec (.getu b.sel 8#6 (8#32 * addr)) s = exec (.ldb b.sel addr) s

/-- STB stores the byte, leaves every other byte and every register, and is SETU of the same eight bits (R242). -/
def Obligations.StbStoresTheByteAsSetuDoes : Prop :=
  ∀ (s : State) (addr : BitVec 32) (b : Byte), s.Inv → s.fault = false → addr.toNat < s.wbLen.toNat →
    ∃ m : Memory, Memory.IsStore s.wb m addr.toNat b ∧ m.wf ∧
      exec (.stb 0#3 addr b) s = .next ({ s with wb := m }.answered false 0#64) ∧
      exec (.setu 0#3 8#6 (8#32 * addr) (b.setWidth 64)) s = exec (.stb 0#3 addr b) s

/-- SETLEN gives the work buffer its length and clears the bytes below it; the bytes at and above it keep their contents, and no
other register changes (R243). -/
def Obligations.SetlenSetsTheLengthAndClears : Prop :=
  ∀ (s : State) (len : BitVec 32), s.Inv → s.fault = false → len.toNat ≤ s.cfg.wbMax →
    ∃ (m : Memory) (n : BitVec 16), n.toNat = len.toNat ∧ m.wf ∧
      (∀ a, m.read a = if a < len.toNat then 0#8 else s.wb.read a) ∧
      exec (.setlen 0#3 len) s = .next ({ s with wb := m, wbLen := n }.answered false 0#64)

/-- The faults of STB and SETLEN in the order of R263: IllegalCommand, BufferReadOnly, BoundsExceeded (R242, R243, R251). -/
def Obligations.StoreCommandsFaultInOrder : Prop :=
  ∀ (s : State) (i : Instr) (sel : BitVec 3) (arg : BitVec 32) (b : Byte), s.fault = false →
    (i = .stb sel arg b ∨ i = .setlen sel arg) →
    (5 ≤ sel.toNat → exec i s = .next (s.faulted 5#4)) ∧
    (1 ≤ sel.toNat → sel.toNat ≤ 4 → exec i s = .next (s.faulted 6#4)) ∧
    (i = .stb 0#3 arg b → s.wbLen.toNat ≤ arg.toNat → exec i s = .next (s.faulted 2#4)) ∧
    (i = .setlen 0#3 arg → s.cfg.wbMax < arg.toNat → exec i s = .next (s.faulted 2#4))

/-- RDSR answers the register of the map (R38), zero-extended, also while `FAULT = 1`, and changes nothing (R245). -/
def Obligations.RdsrAnswersTheRegisterMap : Prop :=
  ∀ s : State,
    exec (.rdsr 0#3 0#32) s = .next (s.answered false (if s.fault then 1#64 else 0#64)) ∧
    exec (.rdsr 0#3 1#32) s = .next (s.answered false (BitVec.ofNat 64 s.fcause.toNat)) ∧
    exec (.rdsr 0#3 2#32) s = .next (s.answered false (BitVec.ofNat 64 s.wbLen.toNat)) ∧
    (∀ d : DecoderId,
      exec (.rdsr d.sel 0#32) s = .next (s.answered false (BitVec.ofNat 64 (s.dec d).phase.toNat)) ∧
      exec (.rdsr d.sel 1#32) s = .next (s.answered false (BitVec.ofNat 64 (s.dec d).n.toNat)) ∧
      exec (.rdsr d.sel 2#32) s = .next (s.answered false (BitVec.ofNat 64 (s.dec d).total.toNat)) ∧
      exec (.rdsr d.sel 3#32) s = .next (s.answered false (BitVec.ofNat 64 (s.dec d).errcnt)) ∧
      exec (.rdsr d.sel 4#32) s = .next (s.answered false (if (s.dec d).fvalid then 1#64 else 0#64)) ∧
      exec (.rdsr d.sel 5#32) s = .next (s.answered false (BitVec.ofNat 64 (s.dec d).flen.toNat)) ∧
      exec (.rdsr d.sel 6#32) s = .next (s.answered false (BitVec.ofNat 64 (s.dec d).fid.toNat))) ∧
    exec (.rdsr 2#3 7#32) s = .next (s.answered false (BitVec.ofNat 64 s.r2W.toNat)) ∧
    exec (.rdsr 2#3 8#32) s = .next (s.answered false (BitVec.ofNat 64 s.r2Nbit.toNat))

/-- Every other (sel, idx) is an IllegalCommand fault; while `FAULT = 1` it answers `st = 1` and changes nothing (R38, R245). -/
def Obligations.RdsrFaultsOutsideTheMap : Prop :=
  ∀ (s : State) (sel : BitVec 3) (idx : BitVec 32),
    (5 ≤ sel.toNat ∨ (sel = 0#3 ∧ 3 ≤ idx.toNat) ∨ (sel = 2#3 ∧ 9 ≤ idx.toNat) ∨
      ((sel = 1#3 ∨ sel = 3#3 ∨ sel = 4#3) ∧ 7 ≤ idx.toNat)) →
    (s.fault = false → exec (.rdsr sel idx) s = .next (s.faulted 5#4)) ∧
    (s.fault = true → exec (.rdsr sel idx) s = .next { s with resp := some ⟨true, false, 0#3, 0#64⟩ })

/-- RESET clears `PHASE`, `N`, `TOTAL` and `FVALID` of the decoder it names, for RTCM v2 also `W` and `NBIT`, and leaves all else:
`ERRCNT`, `FLEN`, `FID`, the buffer bytes and the rest of the block (R42, R247); another selector is an IllegalCommand. -/
def Obligations.ResetClearsOnlyItsDecodersProgress : Prop :=
  ∀ s : State, s.fault = false →
    exec (.reset 1#3) s = .next ({ s with
      asv := { s.asv with phase := 0#2, n := 0#16, total := 0#16, fvalid := false } }.answered false 0#64) ∧
    exec (.reset 2#3) s = .next ({ s with
      r2 := { s.r2 with phase := 0#2, n := 0#16, total := 0#16, fvalid := false }
      r2W := 0#32
      r2Nbit := 0#5 }.answered false 0#64) ∧
    exec (.reset 3#3) s = .next ({ s with
      r3 := { s.r3 with phase := 0#2, n := 0#16, total := 0#16, fvalid := false } }.answered false 0#64) ∧
    exec (.reset 4#3) s = .next ({ s with
      sbf := { s.sbf with phase := 0#2, n := 0#16, total := 0#16, fvalid := false } }.answered false 0#64) ∧
    (∀ sel : BitVec 3, sel = 0#3 ∨ 5 ≤ sel.toNat → exec (.reset sel) s = .next (s.faulted 5#4))

/-- NOP, whose only word is the all-zero word, answers 0 and changes nothing, also while `FAULT = 1` (R248). -/
def Obligations.NopChangesNothing : Prop :=
  (∀ w : CommandWord, decode w = .ok .nop ↔ w = 0#128) ∧
  ∀ s : State, exec .nop s = .next (s.answered false 0#64)

/-- RSTALL, whose only word has opcode 0x01 and zeros, clears every register of the map and leaves the buffer bytes, also while
`FAULT = 1`; the state is then one no command can tell from the state after power-on reset; and no other command clears
`FAULT` or `ERRCNT` (R249). -/
def Obligations.RstallReturnsTheBlockToReset : Prop :=
  (∀ w : CommandWord, decode w = .ok .rstall ↔ w = 0x01000000000000000000000000000000#128) ∧
  (∀ (i : Instr) (s t : State), i ≠ .rstall → exec i s = .next t → (s.fault = true → t.fault = true) ∧
    ∀ d, (t.dec d).errcnt = (s.dec d).errcnt ∨ (t.dec d).errcnt = ((s.dec d).errcnt + 1) % 2 ^ s.cfg.cntW) ∧
  ∀ s : State,
    exec .rstall s = .next ({ s with
      fault := false, fcause := 0#4, wbLen := 0#16, r2W := 0#32, r2Nbit := 0#5
      asv := ⟨0#2, 0#16, 0#16, 0, false, 0#16, 0#16, s.asv.buf⟩
      r2 := ⟨0#2, 0#16, 0#16, 0, false, 0#16, 0#16, s.r2.buf⟩
      r3 := ⟨0#2, 0#16, 0#16, 0, false, 0#16, 0#16, s.r3.buf⟩
      sbf := ⟨0#2, 0#16, 0#16, 0, false, 0#16, 0#16, s.sbf.buf⟩ }.answered false 0#64) ∧
    ∀ t, exec .rstall s = .next t → t.Alike { State.resetWith s.cfg with port := s.port, resp := t.resp }

/-! ### Reset and invariants -/

/-- Every register of the map is 0 after power-on reset (R41, R302), for every instance of the block, that of `State.reset`
included (which instance that is, is the model's choice: log entry 6). -/
def Obligations.ResetClearsEveryRegister : Prop :=
  (∀ cfg : Config, (State.resetWith cfg).fault = false ∧ (State.resetWith cfg).fcause = 0#4 ∧
    (State.resetWith cfg).wbLen = 0#16 ∧ (State.resetWith cfg).r2W = 0#32 ∧ (State.resetWith cfg).r2Nbit = 0#5 ∧
    ∀ d, ((State.resetWith cfg).dec d).registers = ⟨0#2, 0#16, 0#16, 0, false, 0#16, 0#16, []⟩) ∧
  State.reset = State.resetWith State.reset.cfg

/-- The state after reset has the invariants of R34 and every retained frame in it is valid (there is none), for every instance
whose parameters are in the ranges of R6, that of `State.reset` (the model's choice: log entry 6) included. -/
def Obligations.ResetHasTheInvariants : Prop :=
  (∀ cfg : Config, cfg.wf → (State.resetWith cfg).Inv ∧ (State.resetWith cfg).FramesInv) ∧
  State.reset.Inv ∧ State.reset.FramesInv

/-- The state invariants of R34 hold after reset, and every step keeps them, from every state that has them. For an
`R2_LEN_SHIFT` other than 3 the RTCM v2 total is the model's reading (log entry 13). That the block's parameters are carried in
the state, where every step keeps them, is the model's choice (log entry 5). -/
def Obligations.StepKeepsTheInvariants : Prop :=
  (∀ cfg : Config, cfg.wf → (State.resetWith cfg).Inv) ∧
  ∀ s t : State, s.Inv → step s = .next t → t.Inv ∧ t.cfg = s.cfg

/-- No state with the invariants stops the block: every step gives a next state (R317). -/
def Obligations.StepNeverStops : Prop :=
  ∀ s : State, s.Inv → ∃ t, step s = .next t

/-- Every step keeps the invariant that a retained Asv, RTCM v3 or SBF-style frame is a valid frame of its protocol, length, id and
CRC (R91, R95, R96, R150), and that a retained RTCM v2 frame has the length its length subfield gives and the id of its id field
(R94; the subfield's place for an `R2_LEN_SHIFT` other than 3 is the model's reading, log entry 13). No step alters a retained
frame: as long as a decoder's `FVALID` stays set, its registers and its whole buffer stay the same (R31, R63); and `FVALID` is
lost only by the power-on reset, RSTALL, RESET of that decoder and a READ that it accepts (R310). -/
def Obligations.RetainedFramesStayValid : Prop :=
  (∀ s t : State, s.Inv → s.FramesInv → step s = .next t → t.FramesInv) ∧
  (∀ (s t : State) (d : DecoderId), s.Inv → step s = .next t → (s.dec d).fvalid = true → (t.dec d).fvalid = true →
    t.dec d = s.dec d) ∧
  (∀ (s t : State) (d : DecoderId), step s = .next t → (s.dec d).fvalid = true → (t.dec d).fvalid = false →
    (∃ rest, s.port = .powerOn :: rest) ∨
    ∃ (w : CommandWord) (rest : List HostInput) (i : Instr), s.port = .command w :: rest ∧ decode w = .ok i ∧
      (i = .rstall ∨ i = .reset d.sel ∨
        ∃ b, i = Instr.readOf d b ∧ (d = .r2 → 0x40 ≤ b.toNat ∧ b.toNat ≤ 0x7F)))

/-- Two states that differ only in buffer bytes no command can observe go to two such states (R40 (c), R66). -/
def Obligations.StepKeepsAlikeStatesAlike : Prop :=
  ∀ s s' t t' : State, s.Inv → s'.Inv → s.Alike s' → step s = .next t → step s' = .next t' → t.Alike t'

/-- No command can observe a byte that has not been written since reset: whatever the five buffers hold after power-on, every run
of every sequence of inputs gives the responses it gives with empty ones (R66); and no run can tell apart two states that
differ only in bytes above the valid lengths. -/
def Obligations.UnwrittenBytesAreNeverObserved : Prop :=
  (∀ (k : Nat) (cfg : Config) (port : List HostInput) (m : Memory) (ms : DecoderId → Memory), cfg.wf →
    m.wf → m.within cfg.wbMax → (∀ d, (ms d).wf ∧ (ms d).within (capacity cfg (.dec d))) →
    transcript k { State.resetWith cfg with
      port := port
      wb := m
      asv := { Decoder.reset with buf := ms .asv }
      r2 := { Decoder.reset with buf := ms .r2 }
      r3 := { Decoder.reset with buf := ms .r3 }
      sbf := { Decoder.reset with buf := ms .sbf } } =
    transcript k { State.resetWith cfg with port := port }) ∧
  (∀ (k : Nat) (s s' : State), s.Inv → s'.Inv → s.Alike s' → transcript k s = transcript k s')
end

