-- ==== Sys2Proof/Laws/Memory.lean ====
section
/-! SUPPORT. The laws of a buffer: what a read after a write gives, that every operation keeps the canonical form, and what
the bit fields read and put. -/

namespace Sys2Proof.Machine

/-! ### Bytes -/

@[simp] theorem Memory.read_nil (k : Nat) : Memory.read [] k = unwrittenByte := rfl

/-- A byte below every listed address reads as an unlisted one. -/
theorem Memory.read_of_all_gt {m : Memory} {k : Nat} (h : ∀ c ∈ m, k < c.1) : m.read k = unwrittenByte := by
  induction m with
  | nil => rfl
  | cons c m ih =>
    obtain ⟨a, v⟩ := c
    have ha : k < a := h (a, v) (by simp)
    have hne : a ≠ k := by omega
    simp only [Memory.read, hne, if_false]
    exact ih fun c hc => h c (by simp [hc])

/-- Read after write to the same address (R62, R63). -/
theorem Memory.read_write_self {m : Memory} (h : m.wf) (k : Nat) (v : Byte) : (m.write k v).read k = v := by
  induction m with
  | nil => by_cases hv : v = unwrittenByte <;> simp [Memory.write, Memory.read, hv]
  | cons c m ih =>
    obtain ⟨a, x⟩ := c
    obtain ⟨hp, hz⟩ := h
    rw [List.pairwise_cons] at hp
    have hm : Memory.wf m := ⟨hp.2, fun c hc => hz c (by simp [hc])⟩
    unfold Memory.write
    split
    · next hlt =>
      split
      · next hv =>
        subst hv
        apply Memory.read_of_all_gt
        intro c hc
        rcases List.mem_cons.1 hc with rfl | hc
        · exact hlt
        · exact Nat.lt_trans hlt (hp.1 c hc)
      · simp [Memory.read]
    · split
      · next hka =>
        subst hka
        split
        · next hv => subst hv; exact Memory.read_of_all_gt hp.1
        · simp [Memory.read]
      · next hne =>
        have : a ≠ k := fun e => hne e.symm
        simp only [Memory.read, this, if_false]
        exact ih hm

/-- Read after write to another address (R63): nothing changed there. -/
theorem Memory.read_write_other (m : Memory) {k j : Nat} (v : Byte) (h : j ≠ k) : (m.write k v).read j = m.read j := by
  have hkj : k ≠ j := fun e => h e.symm
  induction m with
  | nil => by_cases hv : v = unwrittenByte <;> simp [Memory.write, Memory.read, hv, hkj]
  | cons c m ih =>
    obtain ⟨a, x⟩ := c
    unfold Memory.write
    split
    · split
      · rfl
      · simp [Memory.read, hkj]
    · split
      · next hka =>
        subst hka
        split <;> simp [Memory.read, hkj]
      · simp only [Memory.read, ih]

/-- A write in the two cases at once. -/
theorem Memory.read_write {m : Memory} (h : m.wf) (k j : Nat) (v : Byte) :
    (m.write k v).read j = if j = k then v else m.read j := by
  split
  · next e => subst e; exact Memory.read_write_self h j v
  · next e => exact Memory.read_write_other m v e

/-- Every entry after a write is the written one or was there. -/
theorem Memory.mem_write {m : Memory} {k : Nat} {v : Byte} {c : Host.Cell} (h : c ∈ m.write k v) :
    (c = (k, v) ∧ v ≠ unwrittenByte) ∨ c ∈ m := by
  induction m with
  | nil =>
    unfold Memory.write at h
    split at h
    · cases h
    · next hv => exact .inl ⟨List.mem_singleton.1 h, hv⟩
  | cons d m ih =>
    obtain ⟨a, x⟩ := d
    unfold Memory.write at h
    split at h
    · split at h
      · exact .inr h
      · next hv =>
        rcases List.mem_cons.1 h with h | h
        · exact .inl ⟨h, hv⟩
        · exact .inr h
    · split at h
      · split at h
        · exact .inr (by simp [h])
        · next hv =>
          rcases List.mem_cons.1 h with h | h
          · exact .inl ⟨h, hv⟩
          · exact .inr (by simp [h])
      · rcases List.mem_cons.1 h with h | h
        · exact .inr (by simp [h])
        · rcases ih h with h | h
          · exact .inl h
          · exact .inr (by simp [h])

/-- A write keeps the canonical form. -/
theorem Memory.write_wf {m : Memory} (h : m.wf) (k : Nat) (v : Byte) : (m.write k v).wf := by
  refine ⟨?_, fun c hc => ?_⟩
  · induction m with
    | nil => unfold Memory.write; split <;> simp
    | cons d m ih =>
      obtain ⟨a, x⟩ := d
      obtain ⟨hp, hz⟩ := h
      rw [List.pairwise_cons] at hp
      have hm : Memory.wf m := ⟨hp.2, fun c hc => hz c (by simp [hc])⟩
      unfold Memory.write
      split
      · next hlt =>
        split
        · exact List.pairwise_cons.2 hp
        · refine List.pairwise_cons.2 ⟨fun c hc => ?_, List.pairwise_cons.2 hp⟩
          rcases List.mem_cons.1 hc with rfl | hc
          · exact hlt
          · exact Nat.lt_trans hlt (hp.1 c hc)
      · split
        · next hka =>
          subst hka
          split
          · exact hp.2
          · exact List.pairwise_cons.2 hp
        · refine List.pairwise_cons.2 ⟨fun c hc => ?_, ih hm⟩
          rcases Memory.mem_write hc with ⟨rfl, -⟩ | hc
          · show a < k
            omega
          · exact hp.1 c hc
  · rcases Memory.mem_write hc with ⟨rfl, hv⟩ | hc
    · exact hv
    · exact h.2 c hc

/-- A write below a capacity keeps every listed address below it. -/
theorem Memory.write_within {m : Memory} {cap : Nat} (h : m.within cap) {k : Nat} (hk : k < cap) (v : Byte) :
    (m.write k v).within cap := by
  intro c hc
  rcases Memory.mem_write hc with ⟨rfl, -⟩ | hc
  · exact hk
  · exact h c hc

/-! ### Ranges -/

@[simp] theorem Memory.length_readRange (m : Memory) (a n : Nat) : (m.readRange a n).length = n := by
  induction n generalizing a with
  | zero => rfl
  | succ n ih => simp [Memory.readRange, ih]

/-- The bytes of a range, by index. -/
theorem Memory.getElem?_readRange (m : Memory) (a n i : Nat) (h : i < n) :
    (m.readRange a n)[i]? = some (m.read (a + i)) := by
  induction n generalizing a i with
  | zero => omega
  | succ n ih =>
    cases i with
    | zero => simp [Memory.readRange]
    | succ i =>
      simp only [Memory.readRange, List.getElem?_cons_succ]
      rw [ih (a + 1) i (by omega)]
      congr 2
      omega

/-- A range depends only on its bytes. -/
theorem Memory.readRange_congr {m m' : Memory} {a n : Nat} (h : ∀ i, i < n → m.read (a + i) = m'.read (a + i)) :
    m.readRange a n = m'.readRange a n := by
  induction n generalizing a with
  | zero => rfl
  | succ n ih =>
    simp only [Memory.readRange]
    rw [show m.read a = m'.read a from h 0 (by omega), ih fun i hi => ?_]
    have := h (i + 1) (by omega)
    rwa [show a + (i + 1) = a + 1 + i by omega] at this

/-- Zero fill keeps the canonical form (R243). -/
theorem Memory.zeroFill_wf {m : Memory} (h : m.wf) (n : Nat) : (m.zeroFill n).wf := by
  induction n with
  | zero => exact h
  | succ n ih => exact Memory.write_wf ih n _

/-- Zero fill below a capacity keeps every listed address below it. -/
theorem Memory.zeroFill_within {m : Memory} {cap n : Nat} (h : m.within cap) (hn : n ≤ cap) :
    (m.zeroFill n).within cap := by
  induction n with
  | zero => exact h
  | succ n ih => exact Memory.write_within (ih (by omega)) (by omega) _

/-- What zero fill leaves (R243): zero below the length, the old byte at and above it. -/
theorem Memory.read_zeroFill {m : Memory} (h : m.wf) (n k : Nat) :
    (m.zeroFill n).read k = if k < n then 0#8 else m.read k := by
  induction n with
  | zero => simp [Memory.zeroFill]
  | succ n ih =>
    rw [Memory.zeroFill, Memory.read_write (Memory.zeroFill_wf h n), ih]
    by_cases h1 : k = n
    · simp [h1]
    · by_cases h2 : k < n
      · simp [h1, h2, Nat.lt_succ_of_lt h2]
      · rw [if_neg h1, if_neg h2, if_neg (by omega)]

/-! ### Bits -/

/-- A set bit of a byte. -/
theorem getLsbD_setByteBit (b : Byte) {j : Nat} (hj : j < 8) (v : Bool) (i : Nat) :
    (setByteBit b j v).getLsbD i = if i = j then v else b.getLsbD i := by
  unfold setByteBit
  by_cases hij : i = j
  · subst hij
    cases v <;> simp [hj]
  · have hji : j ≠ i := fun e => hij e.symm
    cases v
    · by_cases hi : i < 8
      · simp [hij, hi]
      · simp [hij, BitVec.getLsbD_of_ge b i (by omega)]
    · simp [hij, hji]

/-- Setting a buffer bit keeps the canonical form. -/
theorem Memory.setBit_wf {m : Memory} (h : m.wf) (k : Nat) (v : Bool) : (m.setBit k v).wf := Memory.write_wf h _ _

/-- What setting a buffer bit changes (R115): that bit. -/
theorem Memory.bit_setBit {m : Memory} (h : m.wf) (k j : Nat) (v : Bool) :
    (m.setBit k v).bit j = if j = k then v else m.bit j := by
  unfold Memory.setBit Memory.bit
  rw [Memory.read_write h]
  by_cases hb : j / 8 = k / 8
  · rw [if_pos hb, getLsbD_setByteBit _ (by omega), hb]
    by_cases hj : j = k
    · simp [hj]
    · rw [if_neg (by omega), if_neg hj]
  · rw [if_neg hb, if_neg fun e => hb (by rw [e])]

/-- A put keeps the canonical form. -/
theorem Memory.putU_wf {m : Memory} (h : m.wf) (ofs w u : Nat) : (m.putU ofs w u).wf := by
  induction w generalizing u with
  | zero => exact h
  | succ w ih => exact Memory.setBit_wf (ih _) _ _

/-- A put inside a capacity keeps every listed address below it. -/
theorem Memory.putU_within {m : Memory} {cap : Nat} (h : m.within cap) {ofs w : Nat} (u : Nat)
    (hc : fieldEnd ofs w ≤ cap) : (m.putU ofs w u).within cap := by
  induction w generalizing u with
  | zero => exact h
  | succ w ih =>
    unfold fieldEnd at hc ih
    exact Memory.write_within (ih (u / 2) (by omega)) (by omega) _

/-- What a put leaves of every buffer bit (R115): the field holds the low `w` bits of `u`, most significant first; every
other bit keeps its value. -/
theorem Memory.bit_putU {m : Memory} (h : m.wf) (ofs w u j : Nat) :
    (m.putU ofs w u).bit j = if ofs ≤ j ∧ j < ofs + w then u.testBit (ofs + w - 1 - j) else m.bit j := by
  induction w generalizing u with
  | zero => simp [Memory.putU]
  | succ w ih =>
    rw [Memory.putU, Memory.bit_setBit (Memory.putU_wf h _ _ _), ih]
    by_cases hj : j = ofs + w
    · subst hj
      rw [if_pos rfl, if_pos ⟨by omega, by omega⟩]
      congr 1
      omega
    · rw [if_neg hj]
      by_cases hi : ofs ≤ j ∧ j < ofs + w
      · rw [if_pos hi, if_pos ⟨hi.1, by omega⟩, Nat.testBit_div_two]
        congr 1
        omega
      · rw [if_neg hi, if_neg (by omega)]

/-- The range of an extracted field (R111). -/
theorem Memory.getU_lt (m : Memory) (ofs w : Nat) : m.getU ofs w < 2 ^ w := by
  induction w with
  | zero => simp [Memory.getU]
  | succ w ih =>
    have := Bool.toNat_le (m.bit (ofs + w))
    simp only [Memory.getU, Nat.pow_succ]
    omega

/-- The bits of an extracted field (R111): the first buffer bit is the most significant. -/
theorem Memory.testBit_getU (m : Memory) (ofs w i : Nat) :
    (m.getU ofs w).testBit i = (decide (i < w) && m.bit (ofs + w - 1 - i)) := by
  induction w generalizing i with
  | zero => simp [Memory.getU]
  | succ w ih =>
    cases i with
    | zero =>
      rw [Memory.getU, Nat.testBit_zero]
      simp only [show ofs + (w + 1) - 1 - 0 = ofs + w by omega]
      cases m.bit (ofs + w) <;> simp
    | succ i =>
      rw [Memory.getU, Nat.testBit_succ,
        show (2 * m.getU ofs w + (m.bit (ofs + w)).toNat) / 2 = m.getU ofs w by
          have := Bool.toNat_le (m.bit (ofs + w)); omega, ih]
      congr 1
      · simp
      · congr 1; omega

/-- A field depends only on its bits. -/
theorem Memory.getU_congr {m m' : Memory} {ofs w : Nat} (h : ∀ k, ofs ≤ k → k < ofs + w → m.bit k = m'.bit k) :
    m.getU ofs w = m'.getU ofs w := by
  induction w with
  | zero => rfl
  | succ w ih =>
    simp only [Memory.getU]
    rw [ih fun k h1 h2 => h k h1 (by omega), h (ofs + w) (by omega) (by omega)]

end Sys2Proof.Machine
end

