-- ==== Sys2Proof/Laws/State.lean ====
section
/-! SUPPORT. The small lemmas of the state's updates: what each update leaves of each field. -/

namespace Sys2Proof.Machine

/-! ### `State.respond` -/

@[simp] theorem State.respond_cfg (s : State) (r : Response) : (s.respond r).cfg = s.cfg := rfl
@[simp] theorem State.respond_port (s : State) (r : Response) : (s.respond r).port = s.port := rfl
@[simp] theorem State.respond_resp (s : State) (r : Response) : (s.respond r).resp = some r := rfl
@[simp] theorem State.respond_fault (s : State) (r : Response) : (s.respond r).fault = s.fault := rfl
@[simp] theorem State.respond_fcause (s : State) (r : Response) : (s.respond r).fcause = s.fcause := rfl
@[simp] theorem State.respond_wbLen (s : State) (r : Response) : (s.respond r).wbLen = s.wbLen := rfl
@[simp] theorem State.respond_wb (s : State) (r : Response) : (s.respond r).wb = s.wb := rfl
@[simp] theorem State.respond_asv (s : State) (r : Response) : (s.respond r).asv = s.asv := rfl
@[simp] theorem State.respond_r2 (s : State) (r : Response) : (s.respond r).r2 = s.r2 := rfl
@[simp] theorem State.respond_r2W (s : State) (r : Response) : (s.respond r).r2W = s.r2W := rfl
@[simp] theorem State.respond_r2Nbit (s : State) (r : Response) : (s.respond r).r2Nbit = s.r2Nbit := rfl
@[simp] theorem State.respond_r3 (s : State) (r : Response) : (s.respond r).r3 = s.r3 := rfl
@[simp] theorem State.respond_sbf (s : State) (r : Response) : (s.respond r).sbf = s.sbf := rfl

@[simp] theorem State.respond_dec (s : State) (r : Response) (d : DecoderId) : (s.respond r).dec d = s.dec d := by
  cases d <;> rfl

@[simp] theorem State.respond_buf (s : State) (r : Response) (b : BufferId) : (s.respond r).buf b = s.buf b := by
  cases b with
  | wb => rfl
  | dec d => cases d <;> rfl

@[simp] theorem State.respond_respond (s : State) (r r' : Response) : (s.respond r).respond r' = s.respond r' := rfl

/-! ### `State.setDec` -/

@[simp] theorem State.setDec_cfg (s : State) (d : DecoderId) (x : Decoder) : (s.setDec d x).cfg = s.cfg := by
  cases d <;> rfl

@[simp] theorem State.setDec_port (s : State) (d : DecoderId) (x : Decoder) : (s.setDec d x).port = s.port := by
  cases d <;> rfl

@[simp] theorem State.setDec_resp (s : State) (d : DecoderId) (x : Decoder) : (s.setDec d x).resp = s.resp := by
  cases d <;> rfl

@[simp] theorem State.setDec_fault (s : State) (d : DecoderId) (x : Decoder) : (s.setDec d x).fault = s.fault := by
  cases d <;> rfl

@[simp] theorem State.setDec_fcause (s : State) (d : DecoderId) (x : Decoder) : (s.setDec d x).fcause = s.fcause := by
  cases d <;> rfl

@[simp] theorem State.setDec_wbLen (s : State) (d : DecoderId) (x : Decoder) : (s.setDec d x).wbLen = s.wbLen := by
  cases d <;> rfl

@[simp] theorem State.setDec_wb (s : State) (d : DecoderId) (x : Decoder) : (s.setDec d x).wb = s.wb := by
  cases d <;> rfl

@[simp] theorem State.setDec_r2W (s : State) (d : DecoderId) (x : Decoder) : (s.setDec d x).r2W = s.r2W := by
  cases d <;> rfl

@[simp] theorem State.setDec_r2Nbit (s : State) (d : DecoderId) (x : Decoder) : (s.setDec d x).r2Nbit = s.r2Nbit := by
  cases d <;> rfl

@[simp] theorem State.setDec_dec_self (s : State) (d : DecoderId) (x : Decoder) : (s.setDec d x).dec d = x := by
  cases d <;> rfl

theorem State.setDec_dec_other (s : State) {d e : DecoderId} (x : Decoder) (h : e ≠ d) :
    (s.setDec d x).dec e = s.dec e := by
  cases d <;> cases e <;> first | rfl | exact absurd rfl h

@[simp] theorem State.setDec_dec (s : State) (d : DecoderId) : s.setDec d (s.dec d) = s := by
  cases d <;> rfl

@[simp] theorem State.setDec_setDec (s : State) (d : DecoderId) (x y : Decoder) :
    (s.setDec d x).setDec d y = s.setDec d y := by
  cases d <;> rfl

/-! ### Decoder updates -/

@[simp] theorem Decoder.resync_phase (x : Decoder) : x.resync.phase = 0#2 := rfl
@[simp] theorem Decoder.resync_n (x : Decoder) : x.resync.n = 0#16 := rfl
@[simp] theorem Decoder.resync_total (x : Decoder) : x.resync.total = 0#16 := rfl
@[simp] theorem Decoder.resync_errcnt (x : Decoder) : x.resync.errcnt = x.errcnt := rfl
@[simp] theorem Decoder.resync_fvalid (x : Decoder) : x.resync.fvalid = x.fvalid := rfl
@[simp] theorem Decoder.resync_flen (x : Decoder) : x.resync.flen = x.flen := rfl
@[simp] theorem Decoder.resync_fid (x : Decoder) : x.resync.fid = x.fid := rfl
@[simp] theorem Decoder.resync_buf (x : Decoder) : x.resync.buf = x.buf := rfl

@[simp] theorem Decoder.release_phase (x : Decoder) : x.release.phase = x.phase := rfl
@[simp] theorem Decoder.release_n (x : Decoder) : x.release.n = x.n := rfl
@[simp] theorem Decoder.release_total (x : Decoder) : x.release.total = x.total := rfl
@[simp] theorem Decoder.release_errcnt (x : Decoder) : x.release.errcnt = x.errcnt := rfl
@[simp] theorem Decoder.release_fvalid (x : Decoder) : x.release.fvalid = false := rfl
@[simp] theorem Decoder.release_flen (x : Decoder) : x.release.flen = x.flen := rfl
@[simp] theorem Decoder.release_fid (x : Decoder) : x.release.fid = x.fid := rfl
@[simp] theorem Decoder.release_buf (x : Decoder) : x.release.buf = x.buf := rfl

@[simp] theorem Decoder.cleared_phase (x : Decoder) : x.cleared.phase = 0#2 := rfl
@[simp] theorem Decoder.cleared_n (x : Decoder) : x.cleared.n = 0#16 := rfl
@[simp] theorem Decoder.cleared_total (x : Decoder) : x.cleared.total = 0#16 := rfl
@[simp] theorem Decoder.cleared_errcnt (x : Decoder) : x.cleared.errcnt = 0 := rfl
@[simp] theorem Decoder.cleared_fvalid (x : Decoder) : x.cleared.fvalid = false := rfl
@[simp] theorem Decoder.cleared_flen (x : Decoder) : x.cleared.flen = 0#16 := rfl
@[simp] theorem Decoder.cleared_fid (x : Decoder) : x.cleared.fid = 0#16 := rfl
@[simp] theorem Decoder.cleared_buf (x : Decoder) : x.cleared.buf = x.buf := rfl

@[simp] theorem Decoder.start_phase (b : Byte) (p : BitVec 2) (x : Decoder) : (x.start b p).phase = p := rfl
@[simp] theorem Decoder.start_n (b : Byte) (p : BitVec 2) (x : Decoder) : (x.start b p).n = 1#16 := rfl
@[simp] theorem Decoder.start_total (b : Byte) (p : BitVec 2) (x : Decoder) : (x.start b p).total = x.total := rfl
@[simp] theorem Decoder.start_errcnt (b : Byte) (p : BitVec 2) (x : Decoder) : (x.start b p).errcnt = x.errcnt := rfl
@[simp] theorem Decoder.start_fvalid (b : Byte) (p : BitVec 2) (x : Decoder) : (x.start b p).fvalid = x.fvalid := rfl
@[simp] theorem Decoder.start_flen (b : Byte) (p : BitVec 2) (x : Decoder) : (x.start b p).flen = x.flen := rfl
@[simp] theorem Decoder.start_fid (b : Byte) (p : BitVec 2) (x : Decoder) : (x.start b p).fid = x.fid := rfl
@[simp] theorem Decoder.start_buf (b : Byte) (p : BitVec 2) (x : Decoder) : (x.start b p).buf = x.buf.write 0 b := rfl

/-- What an append can do: it needs an address below the capacity, stores the byte there and counts it. -/
theorem Decoder.append_eq_some {cap : Nat} {b : Byte} {x y : Decoder} (h : x.append cap b = some y) :
    x.n.toNat < cap ∧ y = { x with buf := x.buf.write x.n.toNat b, n := x.n + 1#16 } := by
  unfold Decoder.append at h
  split at h
  · exact ⟨‹_›, (Option.some.inj h).symm⟩
  · cases h

theorem Decoder.append_of_lt {cap : Nat} {x : Decoder} (b : Byte) (h : x.n.toNat < cap) :
    x.append cap b = some { x with buf := x.buf.write x.n.toNat b, n := x.n + 1#16 } := if_pos h

/-! ### Fault entry, resets, the command port -/

/-- Fault entry while FAULT = 0 (R262). -/
theorem raiseFault_of_clear {s : State} (c : Cause) (h : s.fault = false) :
    raiseFault c s = { s with fault := true, fcause := c.code, resp := some .failed } := by
  simp [raiseFault, h]

/-- Fault entry while FAULT = 1 (R262): nothing but the response. -/
theorem raiseFault_of_set {s : State} (c : Cause) (h : s.fault = true) : raiseFault c s = s.respond .failed := by
  simp [raiseFault, h]

@[simp] theorem raiseFault_fault (c : Cause) (s : State) : (raiseFault c s).fault = true := by
  unfold raiseFault; split <;> simp_all

@[simp] theorem raiseFault_resp (c : Cause) (s : State) : (raiseFault c s).resp = some .failed := by
  unfold raiseFault; split <;> rfl

@[simp] theorem raiseFault_cfg (c : Cause) (s : State) : (raiseFault c s).cfg = s.cfg := by
  unfold raiseFault; split <;> rfl

@[simp] theorem raiseFault_port (c : Cause) (s : State) : (raiseFault c s).port = s.port := by
  unfold raiseFault; split <;> rfl

@[simp] theorem raiseFault_wbLen (c : Cause) (s : State) : (raiseFault c s).wbLen = s.wbLen := by
  unfold raiseFault; split <;> rfl

@[simp] theorem raiseFault_wb (c : Cause) (s : State) : (raiseFault c s).wb = s.wb := by
  unfold raiseFault; split <;> rfl

@[simp] theorem raiseFault_asv (c : Cause) (s : State) : (raiseFault c s).asv = s.asv := by
  unfold raiseFault; split <;> rfl

@[simp] theorem raiseFault_r2 (c : Cause) (s : State) : (raiseFault c s).r2 = s.r2 := by
  unfold raiseFault; split <;> rfl

@[simp] theorem raiseFault_r2W (c : Cause) (s : State) : (raiseFault c s).r2W = s.r2W := by
  unfold raiseFault; split <;> rfl

@[simp] theorem raiseFault_r2Nbit (c : Cause) (s : State) : (raiseFault c s).r2Nbit = s.r2Nbit := by
  unfold raiseFault; split <;> rfl

@[simp] theorem raiseFault_r3 (c : Cause) (s : State) : (raiseFault c s).r3 = s.r3 := by
  unfold raiseFault; split <;> rfl

@[simp] theorem raiseFault_sbf (c : Cause) (s : State) : (raiseFault c s).sbf = s.sbf := by
  unfold raiseFault; split <;> rfl

@[simp] theorem clearAll_cfg (s : State) : (clearAll s).cfg = s.cfg := rfl
@[simp] theorem clearAll_port (s : State) : (clearAll s).port = s.port := rfl
@[simp] theorem clearAll_resp (s : State) : (clearAll s).resp = s.resp := rfl
@[simp] theorem clearAll_fault (s : State) : (clearAll s).fault = false := rfl
@[simp] theorem clearAll_fcause (s : State) : (clearAll s).fcause = 0#4 := rfl
@[simp] theorem clearAll_wbLen (s : State) : (clearAll s).wbLen = 0#16 := rfl
@[simp] theorem clearAll_wb (s : State) : (clearAll s).wb = s.wb := rfl
@[simp] theorem clearAll_asv (s : State) : (clearAll s).asv = s.asv.cleared := rfl
@[simp] theorem clearAll_r2 (s : State) : (clearAll s).r2 = s.r2.cleared := rfl
@[simp] theorem clearAll_r2W (s : State) : (clearAll s).r2W = 0#32 := rfl
@[simp] theorem clearAll_r2Nbit (s : State) : (clearAll s).r2Nbit = 0#5 := rfl
@[simp] theorem clearAll_r3 (s : State) : (clearAll s).r3 = s.r3.cleared := rfl
@[simp] theorem clearAll_sbf (s : State) : (clearAll s).sbf = s.sbf.cleared := rfl

@[simp] theorem powerOn_cfg (s : State) : (powerOn s).cfg = s.cfg := rfl
@[simp] theorem powerOn_port (s : State) : (powerOn s).port = s.port := rfl
@[simp] theorem powerOn_resp (s : State) : (powerOn s).resp = (State.resetWith s.cfg).resp := rfl
@[simp] theorem powerOn_fault (s : State) : (powerOn s).fault = (State.resetWith s.cfg).fault := rfl
@[simp] theorem powerOn_fcause (s : State) : (powerOn s).fcause = (State.resetWith s.cfg).fcause := rfl
@[simp] theorem powerOn_wbLen (s : State) : (powerOn s).wbLen = (State.resetWith s.cfg).wbLen := rfl
@[simp] theorem powerOn_wb (s : State) : (powerOn s).wb = (State.resetWith s.cfg).wb := rfl
@[simp] theorem powerOn_asv (s : State) : (powerOn s).asv = (State.resetWith s.cfg).asv := rfl
@[simp] theorem powerOn_r2 (s : State) : (powerOn s).r2 = (State.resetWith s.cfg).r2 := rfl
@[simp] theorem powerOn_r2W (s : State) : (powerOn s).r2W = (State.resetWith s.cfg).r2W := rfl
@[simp] theorem powerOn_r2Nbit (s : State) : (powerOn s).r2Nbit = (State.resetWith s.cfg).r2Nbit := rfl
@[simp] theorem powerOn_r3 (s : State) : (powerOn s).r3 = (State.resetWith s.cfg).r3 := rfl
@[simp] theorem powerOn_sbf (s : State) : (powerOn s).sbf = (State.resetWith s.cfg).sbf := rfl

@[simp] theorem present_port (s : State) (w : CommandWord) : (present s w).port = .command w :: s.port := rfl

/-- The next input of a state in which the host presents a command is that command. -/
@[simp] theorem takeInput_present (s : State) (w : CommandWord) : takeInput (present s w) = (.command w, s) := rfl

theorem takeInput_nil {s : State} (h : s.port = []) : takeInput s = (.idle, s) := by simp [takeInput, h]

theorem takeInput_command {s : State} {w : CommandWord} {rest : List HostInput} (h : s.port = .command w :: rest) :
    takeInput s = (.command w, { s with port := rest }) := by simp [takeInput, h]

theorem takeInput_powerOn {s : State} {rest : List HostInput} (h : s.port = .powerOn :: rest) :
    takeInput s = (.powerOn, { s with port := rest }) := by simp [takeInput, h]

/-! ### The end of a READ -/

/-- A counter stays below `2^CNT_W` (R33). -/
theorem countUp_lt (cfg : Config) (count : Nat) : countUp cfg count < 2 ^ cfg.cntW :=
  Nat.mod_lt _ (Nat.two_pow_pos _)

/-- Short of the wrap, a counter goes up by one. -/
theorem countUp_of_lt {cfg : Config} {count : Nat} (h : count + 1 < 2 ^ cfg.cntW) : countUp cfg count = count + 1 :=
  Nat.mod_eq_of_lt h

/-- What the end of a READ can be (R150): one of three states. -/
theorem finishRead_cases (d : DecoderId) (x : Decoder) (o : FrameOutcome) (s : State) :
    (o = .more ∧ finishRead d x o s = (s.setDec d x).respond .ok) ∨
    (∃ total id, o = .ready total id ∧
      finishRead d x o s =
        (s.setDec d { x with flen := total, fid := id, fvalid := true }).respond (.frameReady id total)) ∨
    (∃ e, o = .mismatch e ∧
      finishRead d x o s = (s.setDec d { x with errcnt := countUp s.cfg x.errcnt }).respond (.mismatch e)) := by
  cases o with
  | more => exact .inl ⟨rfl, rfl⟩
  | ready total id => exact .inr (.inl ⟨total, id, rfl, rfl⟩)
  | mismatch e => exact .inr (.inr ⟨e, rfl, rfl⟩)

/-- What a READ of a byte-oriented decoder can answer with a next state (R150). -/
theorem readByte_eq_next {d : DecoderId} {rule : Decoder → Option (Decoder × FrameOutcome)} {s t : State}
    (h : readByte d rule s = .next t) :
    ∃ x o, rule (s.dec d).release = some (x, o) ∧ t = finishRead d x o s := by
  unfold readByte at h
  split at h
  · next x o hr => exact ⟨x, o, hr, by cases h; rfl⟩
  · cases h

end Sys2Proof.Machine
end

