-- ==== Sys2Proof/Laws/Checks.lean ====
section
/-! SUPPORT. The laws of the shared checks: when each lets a command on, and what it answers otherwise. -/

namespace Sys2Proof.Machine

/-! ### The refusal while FAULT = 1 -/

theorem unlessFaulted_of_clear {s : State} (k : Unit → Result) (h : s.fault = false) : unlessFaulted s k = k () := by
  simp [unlessFaulted, h]

theorem unlessFaulted_of_set {s : State} (k : Unit → Result) (h : s.fault = true) :
    unlessFaulted s k = .next (s.respond .failed) := by
  simp [unlessFaulted, h]

/-- What a gated command can answer with a next state: the refusal, or what its body answers while FAULT = 0. -/
theorem unlessFaulted_eq_next {s t : State} {k : Unit → Result} (h : unlessFaulted s k = .next t) :
    (s.fault = true ∧ t = s.respond .failed) ∨ (s.fault = false ∧ k () = .next t) := by
  unfold unlessFaulted at h
  split at h
  · next hf => exact .inl ⟨hf, by cases h; rfl⟩
  · next hf => exact .inr ⟨by simpa using hf, h⟩

/-! ### Selectors -/

@[simp] theorem selBuffer_sel (b : BufferId) : selBuffer b.sel = some b := by
  cases b with
  | wb => rfl
  | dec d => cases d <;> rfl

/-- A selector names a buffer exactly when it is that buffer's code (R24). -/
theorem selBuffer_eq_some {sel : BitVec 3} {b : BufferId} : selBuffer sel = some b ↔ sel = b.sel := by
  constructor
  · intro h
    unfold selBuffer at h
    repeat' split at h
    all_goals first | (cases h; assumption) | cases h
  · rintro rfl; exact selBuffer_sel b

/-- A selector names no buffer exactly when it is 5, 6 or 7 (R24). -/
theorem selBuffer_eq_none {sel : BitVec 3} : selBuffer sel = none ↔ 5 ≤ sel.toNat := by
  revert sel; decide

theorem onBuffer_sel (b : BufferId) (s : State) (k : BufferId → Result) : onBuffer b.sel s k = k b := by
  simp [onBuffer]

/-- What a command on a buffer can answer: IllegalCommand for a reserved selector, else its body's answer. -/
theorem onBuffer_cases (sel : BitVec 3) (s : State) (k : BufferId → Result) :
    (5 ≤ sel.toNat ∧ onBuffer sel s k = .next (raiseFault .illegalCommand s)) ∨
    (∃ b, sel = BufferId.sel b ∧ onBuffer sel s k = k b) := by
  cases h : selBuffer sel with
  | none => exact .inl ⟨selBuffer_eq_none.1 h, by simp [onBuffer, h]⟩
  | some b => exact .inr ⟨b, selBuffer_eq_some.1 h, by simp [onBuffer, h]⟩

/-- What a store command can answer: IllegalCommand, BufferReadOnly, or on the work buffer its body's answer. -/
theorem onWorkBuffer_cases (sel : BitVec 3) (s : State) (k : Unit → Result) :
    (5 ≤ sel.toNat ∧ onWorkBuffer sel s k = .next (raiseFault .illegalCommand s)) ∨
    (∃ d, sel = DecoderId.sel d ∧ onWorkBuffer sel s k = .next (raiseFault .bufferReadOnly s)) ∨
    (sel = 0#3 ∧ onWorkBuffer sel s k = k ()) := by
  cases h : selBuffer sel with
  | none => exact .inl ⟨selBuffer_eq_none.1 h, by simp [onWorkBuffer, h]⟩
  | some b =>
    have hs := selBuffer_eq_some.1 h
    cases b with
    | wb => exact .inr (.inr ⟨hs, by simp [onWorkBuffer, h]⟩)
    | dec d => exact .inr (.inl ⟨d, hs, by simp [onWorkBuffer, h]⟩)

theorem onWorkBuffer_zero (s : State) (k : Unit → Result) : onWorkBuffer 0#3 s k = k () := rfl

/-- What RESET can answer: IllegalCommand for a selector that names no decoder, else its body's answer. -/
theorem onDecoder_cases (sel : BitVec 3) (s : State) (k : DecoderId → Result) :
    ((sel = 0#3 ∨ 5 ≤ sel.toNat) ∧ onDecoder sel s k = .next (raiseFault .illegalCommand s)) ∨
    (∃ d, sel = DecoderId.sel d ∧ onDecoder sel s k = k d) := by
  cases h : selBuffer sel with
  | none => exact .inl ⟨.inr (selBuffer_eq_none.1 h), by simp [onDecoder, h]⟩
  | some b =>
    have hs := selBuffer_eq_some.1 h
    cases b with
    | wb => exact .inl ⟨.inl hs, by simp [onDecoder, h]⟩
    | dec d => exact .inr ⟨d, hs, by simp [onDecoder, h]⟩

/-! ### Checks -/

@[simp] theorem orFault_none (s : State) (k : Unit → Result) : orFault none s k = k () := rfl

@[simp] theorem orFault_some (c : Cause) (s : State) (k : Unit → Result) :
    orFault (some c) s k = .next (raiseFault c s) := rfl

theorem onAddresses_of_le {b : BufferId} {lo hi : Nat} {s : State} (k : Unit → Result) (h1 : lo ≤ hi)
    (h2 : hi ≤ capacity s.cfg b) : onAddresses b lo hi s k = k () := if_pos ⟨h1, h2⟩

/-- What an access answers with a next state is what its body answers, the addresses being the buffer's. -/
theorem onAddresses_eq_next {b : BufferId} {lo hi : Nat} {s t : State} {k : Unit → Result}
    (h : onAddresses b lo hi s k = .next t) : lo ≤ hi ∧ hi ≤ capacity s.cfg b ∧ k () = .next t := by
  unfold onAddresses at h
  split at h
  · next hc => exact ⟨hc.1, hc.2, h⟩
  · cases h

/-- The codec's checks pass exactly when the buffer has a valid length, the width is 1 to 32 and the field lies inside
(R110). -/
theorem codecCheck_eq_none {b : BufferId} {ofs : BitVec 32} {wid : BitVec 6} {s : State} :
    codecCheck b ofs wid s = none ↔
      ∃ len, s.blen b = some len ∧ 1 ≤ wid.toNat ∧ wid.toNat ≤ 32 ∧ ofs.toNat + wid.toNat ≤ 8 * len := by
  unfold codecCheck
  cases s.blen b with
  | none => simp
  | some len =>
    dsimp only
    have hmin : codecWMin = 1 := rfl
    have hmax : codecWMax = 32 := rfl
    by_cases hw : wid.toNat < codecWMin ∨ codecWMax < wid.toNat
    · rw [if_pos hw]
      refine ⟨nofun, ?_⟩
      rintro ⟨-, -, h1, h2, -⟩
      omega
    · rw [if_neg hw]
      by_cases hb : 8 * len < ofs.toNat + wid.toNat
      · rw [if_pos hb]
        refine ⟨nofun, ?_⟩
        rintro ⟨len', h, -, -, h3⟩
        cases h
        omega
      · rw [if_neg hb]
        exact ⟨fun _ => ⟨len, rfl, by omega, by omega, by omega⟩, fun _ => rfl⟩

/-- The range check passes exactly when the buffer has a valid length and the range ends inside it. -/
theorem rangeCheck_eq_none {b : BufferId} {stop : Nat} {s : State} :
    rangeCheck b stop s = none ↔ ∃ len, s.blen b = some len ∧ stop ≤ len := by
  unfold rangeCheck
  cases s.blen b with
  | none => simp
  | some len => simp

@[simp] theorem blen_wb (s : State) : s.blen .wb = some s.wbLen.toNat := rfl

theorem blen_dec_of_valid {s : State} {d : DecoderId} (h : (s.dec d).fvalid = true) :
    s.blen (.dec d) = some (s.dec d).flen.toNat := by simp [State.blen, h]

theorem blen_dec_of_not_valid {s : State} {d : DecoderId} (h : (s.dec d).fvalid = false) :
    s.blen (.dec d) = none := by simp [State.blen, h]

/-! ### The codec's commands -/

/-- What an extract command answers when every check passes (R112 to R114). -/
theorem extractField_of_checks {reading : Nat → Nat → BitVec 64} {b : BufferId} {wid : BitVec 6} {ofs : BitVec 32}
    {s : State} (hf : s.fault = false) (hc : codecCheck b ofs wid s = none)
    (ha : fieldEnd ofs.toNat wid.toNat ≤ capacity s.cfg b) :
    extractField reading b.sel wid ofs s =
      .next (s.respond (.value (reading wid.toNat ((s.buf b).getU ofs.toNat wid.toNat)))) := by
  unfold extractField
  rw [unlessFaulted_of_clear _ hf, onBuffer_sel, hc, orFault_none, onAddresses_of_le _ (Nat.zero_le _) ha]

/-- What an insert command answers when every check passes (R116, R117). -/
theorem insertField_of_checks {u : Nat} {wid : BitVec 6} {ofs : BitVec 32} {s : State} (hf : s.fault = false)
    (hc : codecCheck .wb ofs wid s = none) (ha : fieldEnd ofs.toNat wid.toNat ≤ s.cfg.wbMax) :
    insertField true u 0#3 wid ofs s =
      .next ({ s with wb := s.wb.putU ofs.toNat wid.toNat u }.respond .ok) := by
  unfold insertField
  rw [unlessFaulted_of_clear _ hf, onWorkBuffer_zero, hc, orFault_none, if_pos rfl, orFault_none, onAddresses_of_le _ (Nat.zero_le _) ha]

/-! ### Status registers and the decoder reset -/

@[simp] theorem resetDecoder_fault (d : DecoderId) (s : State) : (resetDecoder d s).fault = s.fault := by
  cases d <;> rfl

@[simp] theorem resetDecoder_dec_self (d : DecoderId) (s : State) :
    (resetDecoder d s).dec d = { s.dec d with phase := 0#2, n := 0#16, total := 0#16, fvalid := false } := by
  cases d <;> rfl

theorem resetDecoder_dec_other {d e : DecoderId} (s : State) (h : e ≠ d) : (resetDecoder d s).dec e = s.dec e := by
  cases d <;> cases e <;> first | rfl | exact absurd rfl h

end Sys2Proof.Machine
end

