-- ==== Sys2Proof/Laws/Integrity.lean ====
section
/-! SUPPORT. The laws of the integrity functions: byte strings taken apart, and the parity as a linear function. -/

namespace Sys2Proof.Machine

/-! ### CRCs -/

theorem repeatTimes_succ {α : Type} (f : α → α) (n : Nat) (x : α) : repeatTimes f (n + 1) x = repeatTimes f n (f x) := rfl

/-- The register after a string and one more byte. -/
theorem crc24q_append_byte (cfg : Config) (bytes : List Byte) (b : Byte) :
    crc24q cfg (bytes ++ [b]) = crc24qByte cfg (crc24q cfg bytes) b := by simp [crc24q]

/-- The CRC of the empty string (R131). -/
@[simp] theorem crc16_nil (cfg : Config) : crc16 cfg [] = cfg.crc16Init ^^^ cfg.crc16XorOut := rfl

/-- The CRC of the empty string (R134). -/
@[simp] theorem crc24q_nil (cfg : Config) : crc24q cfg [] = cfg.crc24qInit := rfl

/-- One bit step of CRC-24Q is linear. -/
theorem crc24qBit_xor (cfg : Config) (a b : BitVec 24) :
    crc24qBit cfg (a ^^^ b) = crc24qBit cfg a ^^^ crc24qBit cfg b := by
  have hx : (a ^^^ b) <<< 1 = (a <<< 1) ^^^ (b <<< 1) := by ext i hi; by_cases h : i = 0 <;> simp [h]
  unfold crc24qBit
  rw [BitVec.getLsbD_xor, hx]
  cases a.getLsbD 23 <;> cases b.getLsbD 23 <;> simp only [Bool.xor_false, Bool.false_xor, Bool.xor_self, if_true,
    if_false, Bool.false_eq_true]
  · rw [BitVec.xor_assoc]
  · rw [BitVec.xor_assoc, BitVec.xor_comm (b <<< 1), BitVec.xor_assoc]
  · ext i hi
    simp only [BitVec.getElem_xor]
    cases (a <<< 1)[i] <;> cases (b <<< 1)[i] <;> cases (cfg.crc24qPoly.setWidth 24)[i] <;> rfl

/-! ### Parity -/

/-- The exclusive or of the low bits is linear. -/
theorem foldBits_xor {n : Nat} (a b : BitVec n) (k : Nat) : foldBits (a ^^^ b) k = (foldBits a k ^^ foldBits b k) := by
  induction k with
  | zero => rfl
  | succ k ih =>
    simp only [foldBits, ih, BitVec.getLsbD_xor]
    cases foldBits a k <;> cases foldBits b k <;> cases a.getLsbD k <;> cases b.getLsbD k <;> rfl

/-- `fold` is linear (R8). -/
theorem fold_xor (a b : BitVec 32) : fold (a ^^^ b) = (fold a ^^ fold b) := foldBits_xor a b 32

/-- A masked word's fold is linear. -/
theorem fold_and_xor (a b m : BitVec 32) : fold ((a ^^^ b) &&& m) = (fold (a &&& m) ^^ fold (b &&& m)) := by
  rw [← fold_xor]
  congr 1
  ext i hi
  simp only [BitVec.getElem_and, BitVec.getElem_xor]
  cases a[i] <;> cases b[i] <;> cases m[i] <;> rfl

/-- The parity bits, one per mask (R138). -/
theorem hamParity_eq (w : BitVec 32) :
    hamParity w = ((((((0#6 <<< 1 ||| (BitVec.ofBool (fold (w &&& 0xBB1F3480#32))).setWidth 6) <<< 1 |||
      (BitVec.ofBool (fold (w &&& 0x5D8F9A40#32))).setWidth 6) <<< 1 |||
      (BitVec.ofBool (fold (w &&& 0xAEC7CD00#32))).setWidth 6) <<< 1 |||
      (BitVec.ofBool (fold (w &&& 0x5763E680#32))).setWidth 6) <<< 1 |||
      (BitVec.ofBool (fold (w &&& 0x6BB1F340#32))).setWidth 6) <<< 1 |||
      (BitVec.ofBool (fold (w &&& 0x8B7A89C0#32))).setWidth 6) := rfl

/-- Appending one parity bit is linear. -/
theorem parityStep_xor (p q : BitVec 6) (x y : Bool) :
    ((p ^^^ q) <<< 1 ||| (BitVec.ofBool (x ^^ y)).setWidth 6) =
      (p <<< 1 ||| (BitVec.ofBool x).setWidth 6) ^^^ (q <<< 1 ||| (BitVec.ofBool y).setWidth 6) := by
  revert p q x y; decide

/-- The parity is linear in the word. -/
theorem hamParity_xor (a b : BitVec 32) : hamParity (a ^^^ b) = hamParity a ^^^ hamParity b := by
  simp only [hamParity_eq, fold_and_xor, ← parityStep_xor]
  rfl

/-! ### The accumulator -/

/-- The bits of the accumulator after a shift (R174). -/
theorem getLsbD_r2Shift (w : BitVec 32) (bit : Bool) (i : Nat) (h : i < 32) :
    (r2Shift w bit).getLsbD i = if i = 0 then bit else w.getLsbD (i - 1) := by
  unfold r2Shift
  by_cases h0 : i = 0
  · subst h0; cases bit <;> simp
  · cases bit <;> simp [h, h0, show ¬ i < 1 by omega, BitVec.getLsbD_eq_getElem (show i - 1 < 32 by omega)]

/-- The bits of a byte one after another (R171). -/
theorem r2OnBits_cons_eq_some {cfg : Config} {bit : Bool} {bits : List Bool} {r r' : R2Run}
    (h : r2OnBits cfg (bit :: bits) r = some r') :
    ∃ m, r2OnBit cfg bit r = some m ∧ r2OnBits cfg bits m = some r' := by
  simp only [r2OnBits] at h
  split at h
  · next m hm => exact ⟨m, hm, h⟩
  · cases h

end Sys2Proof.Machine
end

