-- ==== Sys2Proof/Laws/PerInstr.lean ====
section
/-! SUPPORT. The statements made per instruction: the header of an encoded command is its opcode of rule R84 and a zero
reserved field. -/

namespace Sys2Proof.Laws

/-- The first field of a packed word is its opcode (R80). -/
theorem fieldOp_packCommand (op : BitVec 8) (sel : BitVec 3) (wid : BitVec 6) (arg : BitVec 32) (val : BitVec 64) :
    fieldOp (packCommand op sel wid arg val) = op := by
  unfold fieldOp packCommand
  ext i hi
  simp only [BitVec.getElem_extractLsb', BitVec.getLsbD_append]
  simp [show ¬ 120 + i < 64 by omega, show ¬ 120 + i - 64 < 32 by omega, show ¬ 120 + i - 64 - 32 < 15 by omega,
    show ¬ 120 + i - 64 - 32 - 15 < 6 by omega, show ¬ 120 + i - 64 - 32 - 15 - 6 < 3 by omega,
    show 120 + i - 64 - 32 - 15 - 6 - 3 = i by omega, BitVec.getLsbD_eq_getElem hi]

/-- The reserved field of a packed word is zero (R80). -/
theorem fieldRsv_packCommand (op : BitVec 8) (sel : BitVec 3) (wid : BitVec 6) (arg : BitVec 32) (val : BitVec 64) :
    fieldRsv (packCommand op sel wid arg val) = 0#15 := by
  unfold fieldRsv packCommand
  ext i hi
  simp only [BitVec.getElem_extractLsb', BitVec.getLsbD_append]
  simp [show ¬ 96 + i < 64 by omega, show ¬ 96 + i - 64 < 32 by omega, show 96 + i - 64 - 32 < 15 by omega]

/-- An opcode's number names it. -/
theorem ofBits_bits (op : Opcode) : Opcode.ofBits op.bits = some op := by cases op <;> rfl

/-- The header of a command's word: its opcode, and a zero reserved field. -/
def encodeHeader.Statement (i : Instr) : Prop := fieldOp (encode i) = i.opcode.bits ∧ fieldRsv (encode i) = 0#15

theorem encodeHeader.nop : encodeHeader.Statement (.nop) :=
  ⟨fieldOp_packCommand _ _ _ _ _, fieldRsv_packCommand _ _ _ _ _⟩

theorem encodeHeader.rstall : encodeHeader.Statement (.rstall) :=
  ⟨fieldOp_packCommand _ _ _ _ _, fieldRsv_packCommand _ _ _ _ _⟩

theorem encodeHeader.getu (sel : BitVec 3) (wid : BitVec 6) (ofs : BitVec 32) : encodeHeader.Statement (.getu sel wid ofs) :=
  ⟨fieldOp_packCommand _ _ _ _ _, fieldRsv_packCommand _ _ _ _ _⟩

theorem encodeHeader.gets (sel : BitVec 3) (wid : BitVec 6) (ofs : BitVec 32) : encodeHeader.Statement (.gets sel wid ofs) :=
  ⟨fieldOp_packCommand _ _ _ _ _, fieldRsv_packCommand _ _ _ _ _⟩

theorem encodeHeader.getsm (sel : BitVec 3) (wid : BitVec 6) (ofs : BitVec 32) : encodeHeader.Statement (.getsm sel wid ofs) :=
  ⟨fieldOp_packCommand _ _ _ _ _, fieldRsv_packCommand _ _ _ _ _⟩

theorem encodeHeader.setu (sel : BitVec 3) (wid : BitVec 6) (ofs : BitVec 32) (value : BitVec 64) : encodeHeader.Statement (.setu sel wid ofs value) :=
  ⟨fieldOp_packCommand _ _ _ _ _, fieldRsv_packCommand _ _ _ _ _⟩

theorem encodeHeader.sets (sel : BitVec 3) (wid : BitVec 6) (ofs : BitVec 32) (value : BitVec 64) : encodeHeader.Statement (.sets sel wid ofs value) :=
  ⟨fieldOp_packCommand _ _ _ _ _, fieldRsv_packCommand _ _ _ _ _⟩

theorem encodeHeader.crc16 (sel : BitVec 3) (start len : BitVec 32) : encodeHeader.Statement (.crc16 sel start len) :=
  ⟨fieldOp_packCommand _ _ _ _ _, fieldRsv_packCommand _ _ _ _ _⟩

theorem encodeHeader.crc24q (sel : BitVec 3) (stop : BitVec 32) : encodeHeader.Statement (.crc24q sel stop) :=
  ⟨fieldOp_packCommand _ _ _ _ _, fieldRsv_packCommand _ _ _ _ _⟩

theorem encodeHeader.hamdec (word : BitVec 32) : encodeHeader.Statement (.hamdec word) :=
  ⟨fieldOp_packCommand _ _ _ _ _, fieldRsv_packCommand _ _ _ _ _⟩

theorem encodeHeader.hamenc (data : BitVec 24) (prev2 : BitVec 2) : encodeHeader.Statement (.hamenc data prev2) :=
  ⟨fieldOp_packCommand _ _ _ _ _, fieldRsv_packCommand _ _ _ _ _⟩

theorem encodeHeader.readAsv (byte : Byte) : encodeHeader.Statement (.readAsv byte) :=
  ⟨fieldOp_packCommand _ _ _ _ _, fieldRsv_packCommand _ _ _ _ _⟩

theorem encodeHeader.readR2 (byte : Byte) : encodeHeader.Statement (.readR2 byte) :=
  ⟨fieldOp_packCommand _ _ _ _ _, fieldRsv_packCommand _ _ _ _ _⟩

theorem encodeHeader.readR3 (byte : Byte) : encodeHeader.Statement (.readR3 byte) :=
  ⟨fieldOp_packCommand _ _ _ _ _, fieldRsv_packCommand _ _ _ _ _⟩

theorem encodeHeader.readSbf (byte : Byte) : encodeHeader.Statement (.readSbf byte) :=
  ⟨fieldOp_packCommand _ _ _ _ _, fieldRsv_packCommand _ _ _ _ _⟩

theorem encodeHeader.reset (sel : BitVec 3) : encodeHeader.Statement (.reset sel) :=
  ⟨fieldOp_packCommand _ _ _ _ _, fieldRsv_packCommand _ _ _ _ _⟩

theorem encodeHeader.ldb (sel : BitVec 3) (addr : BitVec 32) : encodeHeader.Statement (.ldb sel addr) :=
  ⟨fieldOp_packCommand _ _ _ _ _, fieldRsv_packCommand _ _ _ _ _⟩

theorem encodeHeader.stb (sel : BitVec 3) (addr : BitVec 32) (byte : Byte) : encodeHeader.Statement (.stb sel addr byte) :=
  ⟨fieldOp_packCommand _ _ _ _ _, fieldRsv_packCommand _ _ _ _ _⟩

theorem encodeHeader.setlen (sel : BitVec 3) (len : BitVec 32) : encodeHeader.Statement (.setlen sel len) :=
  ⟨fieldOp_packCommand _ _ _ _ _, fieldRsv_packCommand _ _ _ _ _⟩

theorem encodeHeader.rdsr (sel : BitVec 3) (idx : BitVec 32) : encodeHeader.Statement (.rdsr sel idx) :=
  ⟨fieldOp_packCommand _ _ _ _ _, fieldRsv_packCommand _ _ _ _ _⟩

end Sys2Proof.Laws
end

