-- ==== Sys2Proof/Tests/Slice0.lean ====
section
/-! SUPPORT. Tests of the model. Words and values are those of `95_test_vectors.md` and of the examples in the rules, worked
out from the rules of the spec. A `witness_` theorem shows a state and operands that meet all hypotheses of the obligation it
names. -/

namespace Sys2Proof.Tests

open Sys2Proof.Machine

/-! ### Helpers -/

/-- A buffer that holds the given bytes from address `a` on. -/
def loadFrom (a : Nat) : List Byte → Memory
  | [] => []
  | b :: bs => if b = 0#8 then loadFrom (a + 1) bs else (a, b) :: loadFrom (a + 1) bs

/-- The block after reset, its work buffer holding the given bytes (SETLEN and STBs). -/
def wbOf (bytes : List Byte) : State :=
  { State.reset with wb := loadFrom 0 bytes, wbLen := BitVec.ofNat 16 bytes.length }

/-- The block after reset, a decoder retaining a frame. -/
def holding (d : DecoderId) (id : BitVec 16) (bytes : List Byte) : State :=
  State.reset.setDec d { Decoder.reset with
    fvalid := true, flen := BitVec.ofNat 16 bytes.length, fid := id, buf := loadFrom 0 bytes }

/-- The block after reset, a decoder in the middle of a frame whose first bytes are given. -/
def midFrame (d : DecoderId) (phase : BitVec 2) (total : BitVec 16) (bytes : List Byte) : State :=
  State.reset.setDec d { Decoder.reset with
    phase := phase, n := BitVec.ofNat 16 bytes.length, total := total, buf := loadFrom 0 bytes }

/-- The block after reset, the RTCM v2 decoder Synced. -/
def synced (total : BitVec 16) (w : BitVec 32) (nbit : BitVec 5) (bytes : List Byte) : State :=
  { midFrame .r2 1#2 total bytes with r2W := w, r2Nbit := nbit }

/-- The block after a fault. -/
def stopped (cause : BitVec 4) : State := { State.reset with fault := true, fcause := cause }

/-- The next state of a step, if it has one. -/
def after : Result → State
  | .next t => t
  | _ => State.reset

/-- Whether a step gives a next state. -/
def isNext : Result → Bool
  | .next _ => true
  | _ => false

theorem next_of {r : Result} (h : isNext r = true) : r = .next (after r) := by
  cases r <;> simp_all [isNext, after]

/-- The response of a command. -/
def respOf (i : Instr) (s : State) : Option Response := (after (exec i s)).resp

/-- Response with a result only. -/
def res (v : BitVec 64) : Option Response := some ⟨false, false, 0#3, v⟩

/-- Response of a fault or a refusal. -/
def failed : Option Response := some ⟨true, false, 0#3, 0#64⟩

/-- The invariants of R34 as a value. -/
def commonHolds (cap : Nat) (x : Decoder) : Bool := decide (x.Common cap)

/-- `State.Inv`, evaluated. -/
def invHolds (s : State) : Bool :=
  decide s.cfg.wf && decide s.GlobalInv && commonHolds (capacity s.cfg (.dec .asv)) s.asv && decide (AsvInv s.asv) &&
  commonHolds (capacity s.cfg (.dec .r2)) s.r2 && decide (R2Inv s.cfg s.r2 s.r2Nbit) &&
  commonHolds (capacity s.cfg (.dec .r3)) s.r3 && decide (R3Inv s.cfg s.r3) &&
  commonHolds (capacity s.cfg (.dec .sbf)) s.sbf && decide (SbfInv s.cfg s.sbf) &&
  decide s.CountersInv

theorem inv_of {s : State} (h : invHolds s = true) : s.Inv := by
  simp only [invHolds, commonHolds, Bool.and_eq_true, decide_eq_true_eq] at h
  obtain ⟨⟨⟨⟨⟨⟨⟨⟨⟨⟨h1, h2⟩, h3⟩, h4⟩, h5⟩, h6⟩, h7⟩, h8⟩, h9⟩, h10⟩, h11⟩ := h
  exact ⟨h1, h2, h3, h4, h5, h6, h7, h8, h9, h10, h11⟩

/-- The example buffer of `95_test_vectors.md` section 1. -/
def vector : State := wbOf [0xD3#8, 0x00#8, 0x13#8, 0x3E#8, 0xD7#8, 0xD3#8, 0x02#8, 0x02#8]

/-- "123456789". -/
def digits : State := wbOf [0x31#8, 0x32#8, 0x33#8, 0x34#8, 0x35#8, 0x36#8, 0x37#8, 0x38#8, 0x39#8]

/-- The Asv frame A2, without its last byte: P = 0, T = 12. -/
def a2 : List Byte := [0xAA#8, 0x44#8, 0x00#8, 0x00#8, 0x00#8, 0x00#8, 0x00#8, 0x00#8, 0x34#8, 0x12#8, 0xEC#8]

/-- The RTCM v3 frame V2, without its last byte: P = 0, T = 6. -/
def v2 : List Byte := [0xD3#8, 0x00#8, 0x00#8, 0x47#8, 0xEA#8]

/-- The SBF-style frame S2, without its last byte: T = 8. -/
def s2 : List Byte := [0x24#8, 0x40#8, 0x1D#8, 0xFF#8, 0x01#8, 0x00#8, 0x08#8]

/-- The SBF-style frame S1, without its last byte: T = 16. -/
def s1 : List Byte := [0x24#8, 0x40#8, 0x39#8, 0x0F#8, 0xA7#8, 0x2F#8, 0x10#8, 0x00#8, 0x01#8, 0x02#8, 0x03#8, 0x04#8,
  0x05#8, 0x06#8, 0x07#8]

/-- The retained RTCM v3 frame of program P1. -/
def p1 : State := holding .r3 1005#16 [0xD3#8, 0x00#8, 0x04#8, 0x3E#8, 0xDE#8, 0x1D#8, 0xC0#8, 0x91#8, 0x81#8, 0x4D#8]

/-! ### Decoding: words written out from R80 and R82 (programs P1 to P5 and the fault table) -/

theorem test_decode_nop : decode 0x00000000000000000000000000000000#128 = .ok .nop := by decide
theorem test_decode_rstall : decode 0x01000000000000000000000000000000#128 = .ok .rstall := by decide
theorem test_decode_getu : decode 0x10660000000000180000000000000000#128 = .ok (.getu 3#3 12#6 24#32) := by decide
theorem test_decode_gets : decode 0x116A0000000000240000000000000000#128 = .ok (.gets 3#3 20#6 36#32) := by decide
theorem test_decode_getsm : decode 0x126A0000000000240000000000000000#128 = .ok (.getsm 3#3 20#6 36#32) := by decide
theorem test_decode_setu :
    decode 0x140C000000000038000000000091814D#128 = .ok (.setu 0#3 24#6 56#32 0x91814D#64) := by decide
theorem test_decode_sets :
    decode 0x150A000000000024FFFFFFFFFFFE1DC0#128 = .ok (.sets 0#3 20#6 36#32 0xFFFFFFFFFFFE1DC0#64) := by decide
theorem test_decode_crc16 : decode 0x2020000000000000000000000000000D#128 = .ok (.crc16 1#3 0#32 13#32) := by decide
theorem test_decode_crc24q : decode 0x216000000000000A0000000000000000#128 = .ok (.crc24q 3#3 10#32) := by decide
theorem test_decode_hamdec : decode 0x280000000000000000000000198148FD#128 = .ok (.hamdec 0x198148FD#32) := by decide
theorem test_decode_hamenc : decode 0x2900000000000000000000000155E508#128 = .ok (.hamenc 0x55E508#24 1#2) := by decide
theorem test_decode_read_asv : decode 0x30200000000000AA0000000000000000#128 = .ok (.readAsv 0xAA#8) := by decide
theorem test_decode_read_r2 : decode 0x30400000000000660000000000000000#128 = .ok (.readR2 0x66#8) := by decide
theorem test_decode_read_r3 : decode 0x30600000000000D30000000000000000#128 = .ok (.readR3 0xD3#8) := by decide
theorem test_decode_read_sbf : decode 0x30800000000000240000000000000000#128 = .ok (.readSbf 0x24#8) := by decide
theorem test_decode_reset : decode 0x31200000000000000000000000000000#128 = .ok (.reset 1#3) := by decide
theorem test_decode_ldb :
    decode 0x40400000000000080000000000000000#128 = .ok (.ldb 2#3 8#32) := by decide
theorem test_decode_stb : decode 0x41000000000000030000000000000080#128 = .ok (.stb 0#3 3#32 0x80#8) := by decide
theorem test_decode_setlen : decode 0x420000000000000A0000000000000000#128 = .ok (.setlen 0#3 10#32) := by decide
theorem test_decode_rdsr : decode 0x48600000000000060000000000000000#128 = .ok (.rdsr 3#3 6#32) := by decide
theorem test_decode_reserved_opcode : decode 0x13040000000000000000000000000000#128 = .error .reservedOpcode := by decide
theorem test_decode_reserved_field : decode 0x10040001000000000000000000000000#128 = .error .reservedField := by decide
theorem test_decode_must_be_zero : decode 0x41000000000000000000000000000100#128 = .error .mustBeZero := by decide
theorem test_decode_no_decoder : decode 0x30000000000000000000000000000000#128 = .error .noDecoder := by decide
theorem test_decode_table_word : decodeTableWord 128 0x31600000000000000000000000000000 = some (.reset 3#3) := by decide

/-! ### WellFormed refuses an ill-formed term for each check -/

theorem test_ill_formed_readable_buffer : Instr.wellFormed (.ldb 5#3 0#32) = false := by decide
theorem test_ill_formed_writable_buffer : Instr.wellFormed (.stb 1#3 0#32 0#8) = false := by decide
theorem test_ill_formed_decoder : Instr.wellFormed (.reset 0#3) = false := by decide
theorem test_ill_formed_width_zero : Instr.wellFormed (.getu 0#3 0#6 0#32) = false := by decide
theorem test_ill_formed_width_33 : Instr.wellFormed (.sets 0#3 33#6 0#32 0#64) = false := by decide
theorem test_ill_formed_register : Instr.wellFormed (.rdsr 1#3 7#32) = false := by decide
theorem test_well_formed_register : Instr.wellFormed (.rdsr 2#3 8#32) = true := by decide

/-! ### Instructions -/

theorem test_getu : respOf (.getu 0#3 10#6 14#32) vector = res 19#64 := by decide
theorem test_getu_five_bytes : respOf (.getu 0#3 32#6 1#32) vector = res 0xA600267D#64 := by decide
theorem test_gets : respOf (.gets 0#3 5#6 3#32) vector = res 0xFFFFFFFFFFFFFFF3#64 := by decide
theorem test_gets_retained : respOf (.gets 3#3 20#6 36#32) p1 = res 0xFFFFFFFFFFFE1DC0#64 := by decide
theorem test_getsm : respOf (.getsm 0#3 5#6 3#32) vector = res 0xFFFFFFFFFFFFFFFD#64 := by decide
theorem test_getsm_negative_zero : respOf (.getsm 0#3 2#6 7#32) vector = res 0#64 := by decide
theorem test_setu : (after (exec (.setu 0#3 9#6 6#32 0#64) (wbOf [0xFF#8, 0xFF#8, 0xFF#8]))).wb =
    loadFrom 0 [0xFC#8, 0x01#8, 0xFF#8] := by decide
theorem test_setu_value_range : after (exec (.setu 0#3 4#6 0#32 16#64) vector) = vector.faulted 4#4 := by decide
theorem test_sets : (after (exec (.sets 0#3 5#6 13#32 0xFFFFFFFFFFFFFFFD#64)
    (wbOf [0x15#8, 0x58#8, 0x00#8, 0x00#8]))).wb = loadFrom 0 [0x15#8, 0x5F#8, 0x40#8, 0x00#8] := by decide
theorem test_sets_value_range : after (exec (.sets 0#3 4#6 0#32 0xFFFFFFFFFFFFFFF7#64) vector) = vector.faulted 4#4 := by
  decide
theorem test_crc16 : respOf (.crc16 0#3 0#32 9#32) digits = res 0x31C3#64 := by decide +kernel
theorem test_crc16_empty : respOf (.crc16 0#3 9#32 0#32) digits = res 0#64 := by decide
/-- The byte 01, worked out by hand from R131 with the generator 0x1021 mirrored to 0x8408. -/
theorem test_crc16_reflected : crc16 { resetConfig with crc16Reflect := true } [0x01#8] = 0x1189#16 := by decide +kernel
theorem test_crc24q : respOf (.crc24q 0#3 9#32) digits = res 0xCDE703#64 := by decide +kernel
theorem test_crc24q_bounds : after (exec (.crc24q 0#3 10#32) digits) = digits.faulted 2#4 := by decide
theorem test_hamdec_inverted : respOf (.hamdec 0x667EB714#32) State.reset = some ⟨false, true, 0#3, 0x660523#64⟩ := by
  decide +kernel
theorem test_hamdec_rejected : respOf (.hamdec 0x40000000#32) State.reset = res 0#64 := by decide +kernel
theorem test_hamenc : respOf (.hamenc 0x660523#24 0#2) State.reset = res 0x198148FD#64 := by decide +kernel
theorem test_hamenc_inverted : respOf (.hamenc 0x55E508#24 1#2) State.reset = res 0x2A86BDC8#64 := by decide +kernel
theorem test_read_asv : respOf (.readAsv 0x71#8) (midFrame .asv 3#2 12#16 a2) =
    some ⟨false, true, 1#3, 0x1234000C#64⟩ := by decide +kernel
theorem test_read_asv_no_wrap : (after (exec (.readAsv 0xFF#8) (midFrame .asv 2#2 0#16 [0xAA#8, 0x44#8, 0xFF#8]))).asv.phase =
    0#2 := by decide
theorem test_read_r2_sync : (after (exec (.readR2 0x6F#8) { State.reset with r2W := 0x00660523#32 })).r2 =
    { Decoder.reset with phase := 1#2, n := 3#16, buf := loadFrom 0 [0x66#8, 0x05#8, 0x23#8] } := by decide +kernel
theorem test_read_r2_complete : respOf (.readR2 0x42#8) (synced 9#16 0xC8DEADBE#32 24#5
    [0x66#8, 0x05#8, 0x23#8, 0x55#8, 0xE5#8, 0x08#8]) = some ⟨false, true, 1#3, 0x10009#64⟩ := by decide +kernel
theorem test_read_r3 : respOf (.readR3 0x4B#8) (midFrame .r3 3#2 6#16 v2) = some ⟨false, true, 1#3, 0x47E0006#64⟩ := by
  decide +kernel
theorem test_read_r3_mismatch : (after (exec (.readR3 0x4A#8) (midFrame .r3 3#2 6#16 v2))).r3.errcnt = 1 := by
  decide +kernel
/-- A counter of one bit wraps at its second count (R33 with CNT_W = 1). -/
theorem test_count_wraps : countUp { resetConfig with cntW := 1 } 1 = 0 := by decide
theorem test_read_sbf : respOf (.readSbf 0x08#8) (midFrame .sbf 3#2 16#16 s1) =
    some ⟨false, true, 1#3, 0x2FA70010#64⟩ := by decide +kernel
theorem test_read_sbf_header_only : respOf (.readSbf 0x00#8) (midFrame .sbf 2#2 0#16 s2) =
    some ⟨false, true, 1#3, 0x10008#64⟩ := by decide +kernel
theorem test_reset_keeps_count : (after (exec (.reset 3#3) p1)).r3.fid = 1005#16 := by decide
theorem test_reset_releases : (after (exec (.reset 3#3) p1)).r3.fvalid = false := by decide
theorem test_ldb : respOf (.ldb 3#3 9#32) p1 = res 0x4D#64 := by decide
theorem test_ldb_not_valid : after (exec (.ldb 1#3 0#32) State.reset) = State.reset.faulted 3#4 := by decide
theorem test_stb : (after (exec (.stb 0#3 3#32 0x80#8) (wbOf [0#8, 0#8, 0#8, 0#8]))).wb = [(3, 0x80#8)] := by decide
theorem test_stb_read_only : after (exec (.stb 3#3 0#32 0#8) State.reset) = State.reset.faulted 6#4 := by decide
theorem test_setlen : (after (exec (.setlen 0#3 4#32) vector)).wb =
    [(4, 0xD7#8), (5, 0xD3#8), (6, 0x02#8), (7, 0x02#8)] := by decide
theorem test_setlen_bounds : after (exec (.setlen 0#3 257#32) vector) = vector.faulted 2#4 := by decide
theorem test_rdsr : respOf (.rdsr 3#3 6#32) p1 = res 1005#64 := by decide
theorem test_rdsr_while_faulted : respOf (.rdsr 0#3 1#32) (stopped 3#4) = res 3#64 := by decide
theorem test_nop : after (exec .nop (stopped 1#4)) = (stopped 1#4).answered false 0#64 := by decide
theorem test_rstall : after (exec .rstall (stopped 6#4)) = State.reset.answered false 0#64 := by decide
theorem test_refused : after (exec (.readAsv 0xAA#8) (stopped 1#4)) = { stopped 1#4 with resp := failed } := by decide

/-! ### Witnesses: the step and the faults -/

/-- The block, fresh from reset, with the host's inputs. -/
def fed (inputs : List HostInput) (s : State) : State := { s with port := inputs }

theorem witness_StepRunsTheDecodedCommand :
    (fed [.command 0#128, .powerOn] State.reset).port = .command 0#128 :: [.powerOn] ∧ decode 0#128 = .ok .nop := by decide
theorem witness_StepFaultsOnWordsOutsideTheTable :
    (fed [.command 0x13040000000000000000000000000000#128] (stopped 1#4)).port =
      .command 0x13040000000000000000000000000000#128 :: [] ∧
    decode 0x13040000000000000000000000000000#128 = .error .reservedOpcode ∧
    (stopped 1#4).fault = true ∧ State.reset.fault = false := by decide
theorem witness_StepIdlesWithoutInputAndResetsOnPowerOn :
    State.reset.port = [] ∧ (fed [.powerOn] p1).port = .powerOn :: [] := by decide
theorem witness_DecodeSelectsExactlyTheRowsOfTheTable :
    decode 0x31600000000000000000000000000000#128 = .ok (.reset 3#3) ∧ ∃ r ∈ opcodeTable,
      r.selects 0x31600000000000000000000000000000#128 = true ∧ r.mnemonic = "RESET" := by decide
theorem witness_FaultedBlockRefusesAllButNopRdsrRstall :
    (fed [.command 0x30200000000000AA0000000000000000#128] (stopped 6#4)).fault = true ∧
    (0x30200000000000AA0000000000000000#128).toNat / 2 ^ 120 = 0x30 ∧ Instr.readAsv 0xAA#8 ≠ .rstall ∧
    (Instr.readAsv 0xAA#8).opcode ≠ .nop ∧ (Instr.readAsv 0xAA#8).opcode ≠ .rdsr := by decide
theorem witness_FaultEntryIsPrecise : State.reset.fault = false ∧ (stopped 2#4).fault = true ∧
    (after (exec (.ldb 1#3 0#32) State.reset)).fault = true := by decide
theorem witness_FaultEntryIsPrecise_next :
    exec (.ldb 1#3 0#32) State.reset = .next (after (exec (.ldb 1#3 0#32) State.reset)) := next_of (by decide)
theorem witness_IllFormedCommandsAlwaysFault :
    Instr.wellFormed (.ldb 1#3 0#32) = true ∧ (after (exec (.ldb 1#3 0#32) State.reset)).fault = true ∧
    Instr.wellFormed (.getu 0#3 33#6 0#32) = false ∧ State.reset.fault = false := by decide
theorem witness_ResponsesHaveTheShapeOfR83 :
    exec (.readAsv 0x71#8) (midFrame .asv 3#2 12#16 a2) =
      .next (after (exec (.readAsv 0x71#8) (midFrame .asv 3#2 12#16 a2))) := next_of (by decide +kernel)

/-! ### Witnesses: the bit codec and the integrity unit -/

theorem inv_vector : vector.Inv := inv_of (by decide)
theorem inv_p1 : p1.Inv := inv_of (by decide)
theorem inv_digits : digits.Inv := inv_of (by decide)
theorem inv_reset_state : State.reset.Inv := inv_of (by decide)

/-- GETU, GETS, GETSM: the last bit of the work buffer, and a whole retained frame's last 32 bits. -/
theorem witness_extract : vector.Inv ∧ p1.Inv ∧ vector.fault = false ∧ p1.fault = false ∧ vector.blen .wb = some 8 ∧
    (63#32).toNat + (1#6).toNat ≤ 8 * 8 ∧ p1.blen (.dec .r3) = some 10 ∧ (48#32).toNat + (32#6).toNat ≤ 8 * 10 :=
  ⟨inv_vector, inv_p1, by decide⟩
theorem witness_ExtractCommandsFaultInOrder : vector.fault = false ∧ 5 ≤ (5#3).toNat ∧
    1#3 = BufferId.sel (.dec .asv) ∧ vector.blen (.dec .asv) = none ∧ 0#3 = BufferId.sel .wb ∧
    vector.blen .wb = some 8 ∧ (0#6).toNat = 0 ∧ 32 < (33#6).toNat ∧ 8 * 8 < (64#32).toNat + (1#6).toNat := by decide
theorem witness_SetuPutsTheUnsignedField : vector.Inv ∧ vector.fault = false ∧
    (32#32).toNat + (32#6).toNat ≤ 8 * vector.wbLen.toNat ∧ (0xFFFFFFFF#64).toNat < 2 ^ (32#6).toNat :=
  ⟨inv_vector, by decide⟩
theorem witness_SetsPutsTheTwosComplementField : vector.Inv ∧ vector.fault = false ∧
    (32#32).toNat + (32#6).toNat ≤ 8 * vector.wbLen.toNat ∧
    -(2 ^ ((32#6).toNat - 1) : Int) ≤ (0xFFFFFFFF80000000#64).toInt ∧
    (0xFFFFFFFF80000000#64).toInt ≤ 2 ^ ((32#6).toNat - 1) - 1 := ⟨inv_vector, by decide⟩
theorem witness_InsertCommandsFaultInOrder : vector.fault = false ∧ 5 ≤ (5#3).toNat ∧ 1 ≤ (1#3).toNat ∧
    (4#3).toNat ≤ 4 ∧ 8 * vector.wbLen.toNat < (61#32).toNat + (4#6).toNat ∧
    (60#32).toNat + (4#6).toNat ≤ 8 * vector.wbLen.toNat ∧ 2 ^ (4#6).toNat ≤ (16#64).toNat ∧
    2 ^ ((4#6).toNat - 1) - 1 < (8#64).toInt := by decide
theorem witness_CodecRoundTripLaws : vector.Inv ∧ vector.fault = false ∧
    (3#32).toNat + (10#6).toNat ≤ 8 * vector.wbLen.toNat ∧ (0x2AB#64).toNat < 2 ^ (10#6).toNat ∧
    (3#32).toNat + (10#6).toNat ≤ (13#32).toNat ∧ (0xFFFFFFFFFFFFFFFD#64).toInt = -3 := ⟨inv_vector, by decide⟩
theorem witness_CodecRoundTripLaws_third : exec (.getu 0#3 10#6 14#32) vector = .next (vector.answered false 19#64) :=
  (next_of (by decide)).trans (congrArg _ (by decide))
theorem witness_Crc16AnswersTheCrcOfTheRange : digits.Inv ∧ digits.fault = false ∧ digits.blen .wb = some 9 ∧
    (9#32).toNat + (0#32).toNat ≤ 9 := ⟨inv_digits, by decide⟩
theorem witness_Crc24qAnswersTheCrcOfTheRange : p1.Inv ∧ p1.fault = false ∧ p1.blen (.dec .r3) = some 10 ∧
    (10#32).toNat ≤ 10 := ⟨inv_p1, by decide⟩
theorem witness_Crc16IsItsTableDrivenForm : resetConfig.crc16Reflect = false ∧
    { resetConfig with crc16Reflect := true }.crc16Reflect = true := by decide
theorem witness_RangeCommandsFaultInOrder : digits.fault = false ∧ 5 ≤ (5#3).toNat ∧
    4#3 = BufferId.sel (.dec .sbf) ∧ digits.blen (.dec .sbf) = none ∧ 0#3 = BufferId.sel .wb ∧
    digits.blen .wb = some 9 ∧ 9 < (0xFFFFFFFF#32).toNat + (0xFFFFFFFF#32).toNat ∧ 9 < (10#32).toNat ∧
    9 < (9#32).toNat + 1 := by decide
theorem witness_HamdecChecksTheSixParities : State.reset.fault = false ∧
    (∀ k, k < 6 → (0x198148FD#32).getLsbD (5 - k) = xorOfBits 0x198148FD#32 (hamBitLists.getD k [])) ∧
    (∃ k, k < 6 ∧ (0x198148FC#32).getLsbD (5 - k) ≠ xorOfBits 0x198148FC#32 (hamBitLists.getD k [])) := by decide
theorem witness_HamencIsTheInverseOfHamdec : State.reset.fault = false ∧ State.reset.cfg.wf := by decide
theorem witness_HamdecDetectsEverySingleBitError : State.reset.fault = false ∧
    State.reset.cfg.r2InvMask = 0x3FFFFFFF#32 ∧
    { resetConfig with r2InvMask := 0x3FFFFFC0#32 }.r2InvMask = 0x3FFFFFC0#32 := by decide
theorem witness_HamdecDetectsEverySingleBitError_accepts :
    exec (.hamdec 0x198148FD#32) State.reset = .next (State.reset.answered true 0x660523#64) :=
  (next_of (by decide +kernel)).trans (congrArg _ (by decide +kernel))

/-! ### Witnesses: the frame decoders -/

theorem witness_asv_sync1 : State.reset.Inv ∧ State.reset.fault = false ∧ State.reset.asv.phase = 0#2 :=
  ⟨inv_reset_state, by decide⟩
theorem witness_asv_sync2 : (midFrame .asv 1#2 0#16 [0xAA#8]).Inv ∧ (midFrame .asv 1#2 0#16 [0xAA#8]).asv.phase = 1#2 :=
  ⟨inv_of (by decide), by decide⟩
theorem witness_asv_length_first : (midFrame .asv 2#2 0#16 [0xAA#8, 0x44#8]).Inv ∧
    (midFrame .asv 2#2 0#16 [0xAA#8, 0x44#8]).asv.n = 2#16 := ⟨inv_of (by decide), by decide⟩
/-- The byte 0x03 after F4 makes the longest frame, after F5 one too long. -/
theorem witness_asv_length : (midFrame .asv 2#2 0#16 [0xAA#8, 0x44#8, 0xF4#8]).Inv ∧
    (midFrame .asv 2#2 0#16 [0xAA#8, 0x44#8, 0xF4#8]).asv.n = 3#16 ∧
    (midFrame .asv 2#2 0#16 [0xAA#8, 0x44#8, 0xF5#8]).Inv ∧
    Memory.pair ((loadFrom 0 [0xAA#8, 0x44#8, 0xF4#8]).write 3 3#8) true 2 + 12 = 1024 ∧
    Memory.pair ((loadFrom 0 [0xAA#8, 0x44#8, 0xF5#8]).write 3 3#8) true 2 + 12 = 1025 :=
  ⟨inv_of (by decide), by decide, inv_of (by decide), by decide⟩
/-- The byte 71 completes frame A2 with an equal CRC, 72 with another. -/
theorem witness_asv_message : (midFrame .asv 3#2 12#16 a2).Inv ∧ (midFrame .asv 3#2 13#16 a2).Inv ∧
    (midFrame .asv 3#2 12#16 a2).asv.n.toNat + 1 = 12 ∧ (midFrame .asv 3#2 13#16 a2).asv.n.toNat + 1 < 13 ∧
    (crc16 resetConfig (((loadFrom 0 a2).write 11 0x71#8).bytes 0 10)).toNat =
      Memory.pair ((loadFrom 0 a2).write 11 0x71#8) true 10 ∧
    (crc16 resetConfig (((loadFrom 0 a2).write 11 0x72#8).bytes 0 10)).toNat ≠
      Memory.pair ((loadFrom 0 a2).write 11 0x72#8) true 10 :=
  ⟨inv_of (by decide), inv_of (by decide), by decide +kernel⟩

theorem witness_r3_sync : State.reset.Inv ∧ State.reset.fault = false ∧ State.reset.r3.phase = 0#2 :=
  ⟨inv_reset_state, by decide⟩
theorem witness_r3_length_first : (midFrame .r3 1#2 0#16 [0xD3#8]).Inv ∧ (midFrame .r3 1#2 0#16 [0xD3#8]).r3.n = 1#16 :=
  ⟨inv_of (by decide), by decide⟩
/-- A buffer of 6 bytes holds the empty frame only. -/
def smallR3 : State :=
  { midFrame .r3 1#2 0#16 [0xD3#8, 0xFC#8] with cfg := { resetConfig with r3BufMax := 6 } }
theorem witness_r3_length : (midFrame .r3 1#2 0#16 [0xD3#8, 0xFC#8]).Inv ∧ smallR3.Inv ∧ smallR3.r3.n = 2#16 ∧
    256 * ((((smallR3.r3.buf.write 2 1#8).read 1).toNat) % 4) + ((smallR3.r3.buf.write 2 1#8).read 2).toNat = 1 ∧
    smallR3.cfg.r3BufMax < 1 + 6 ∧ 0 + 6 ≤ smallR3.cfg.r3BufMax := ⟨inv_of (by decide), inv_of (by decide), by decide⟩
theorem witness_r3_payload : (midFrame .r3 2#2 8#16 [0xD3#8, 0#8, 2#8]).Inv ∧ (midFrame .r3 2#2 7#16 [0xD3#8, 0#8, 1#8]).Inv ∧
    (midFrame .r3 2#2 8#16 [0xD3#8, 0#8, 2#8]).r3.n.toNat + 1 < 8 - 3 ∧
    (midFrame .r3 2#2 7#16 [0xD3#8, 0#8, 1#8]).r3.n.toNat + 1 = 7 - 3 :=
  ⟨inv_of (by decide), inv_of (by decide), by decide⟩
/-- The byte 4B completes frame V2 with an equal CRC, 4A with another. -/
theorem witness_r3_crc : (midFrame .r3 3#2 6#16 v2).Inv ∧ (midFrame .r3 3#2 6#16 [0xD3#8, 0#8, 0#8, 0x47#8]).Inv ∧
    (midFrame .r3 3#2 6#16 v2).r3.n.toNat + 1 = 6 ∧
    (midFrame .r3 3#2 6#16 [0xD3#8, 0#8, 0#8, 0x47#8]).r3.n.toNat + 1 < 6 ∧
    (crc24q resetConfig (((loadFrom 0 v2).write 5 0x4B#8).bytes 0 3)).toNat = 0x47EA4B ∧
    (crc24q resetConfig (((loadFrom 0 v2).write 5 0x4A#8).bytes 0 3)).toNat ≠ 0x47EA4A :=
  ⟨inv_of (by decide), inv_of (by decide), by decide +kernel⟩

theorem witness_sbf_sync1 : State.reset.Inv ∧ State.reset.fault = false ∧ State.reset.sbf.phase = 0#2 :=
  ⟨inv_reset_state, by decide⟩
theorem witness_sbf_sync2 : (midFrame .sbf 1#2 0#16 [0x24#8]).Inv ∧ (midFrame .sbf 1#2 0#16 [0x24#8]).sbf.phase = 1#2 :=
  ⟨inv_of (by decide), by decide⟩
/-- Header lengths 7, 8, 9, 4096 and 4097 (the buffer holds 4096). -/
theorem witness_sbf_header :
    (midFrame .sbf 2#2 0#16 [0x24#8, 0x40#8, 0x1D#8, 0xFF#8, 1#8, 0#8]).Inv ∧
    (midFrame .sbf 2#2 0#16 [0x24#8, 0x40#8, 0x1D#8, 0xFF#8, 1#8, 0#8]).sbf.n.toNat < 7 ∧
    (midFrame .sbf 2#2 0#16 s2).Inv ∧ (midFrame .sbf 2#2 0#16 s2).sbf.n = 7#16 ∧
    Memory.pair ((loadFrom 0 s2).write 7 0#8) true 6 = 8 ∧
    Memory.pair (((loadFrom 0 s2).write 6 7#8).write 7 0#8) true 6 = 7 ∧
    Memory.pair (((loadFrom 0 s2).write 6 9#8).write 7 0#8) true 6 = 9 ∧
    Memory.pair (((loadFrom 0 s2).write 6 0#8).write 7 16#8) true 6 = State.reset.cfg.sbfBufMax ∧
    Memory.pair (((loadFrom 0 s2).write 6 1#8).write 7 16#8) true 6 = State.reset.cfg.sbfBufMax + 1 :=
  ⟨inv_of (by decide), by decide, inv_of (by decide), by decide⟩
/-- The byte 00 completes frame S2, the byte 08 frame S1, with an equal CRC; 09 completes S1 with another. -/
theorem witness_sbf_complete : (midFrame .sbf 3#2 16#16 s1).Inv ∧ (midFrame .sbf 3#2 17#16 s1).Inv ∧
    (midFrame .sbf 3#2 16#16 s1).sbf.n.toNat + 1 = 16 ∧
    (crc16 resetConfig (((loadFrom 0 s2).write 7 0#8).bytes 4 4)).toNat = Memory.pair ((loadFrom 0 s2).write 7 0#8) true 2 ∧
    (crc16 resetConfig (((loadFrom 0 s1).write 15 8#8).bytes 4 12)).toNat = Memory.pair ((loadFrom 0 s1).write 15 8#8) true 2 ∧
    (crc16 resetConfig (((loadFrom 0 s1).write 15 9#8).bytes 4 12)).toNat ≠ Memory.pair ((loadFrom 0 s1).write 15 9#8) true 2 :=
  ⟨inv_of (by decide), inv_of (by decide), by decide +kernel⟩

theorem witness_RtcmV2ByteFilterChangesNothing : State.reset.fault = false ∧ (0x3F#8).toNat < 0x40 ∧ 0x7F < (0x80#8).toNat ∧
    0x40 ≤ (0x40#8).toNat ∧ (respOf (.readR2 0x40#8) State.reset).map Response.flag = some false := by decide
theorem witness_RtcmV2SyncedByteShiftsSixBits : (synced 0#16 0#32 23#5 [0x66#8, 5#8, 0x23#8]).fault = false ∧
    (0x7F#8).toNat / 64 = 1 ∧ (synced 0#16 0#32 23#5 [0x66#8, 5#8, 0x23#8]).r2.phase = 1#2 ∧
    (synced 0#16 0#32 23#5 [0x66#8, 5#8, 0x23#8]).r2Nbit.toNat + 6 < 30 := by decide

/-- The run of READ.R2 at the state of a block. -/
def runAt (s : State) : R2Run := ⟨s.r2, s.r2W, s.r2Nbit, .more⟩

/-- Search: the words 0x198148FD (plain), 0x667EB714 (inverted) and 0x198148FC (rejected) are completed by a last bit. -/
theorem witness_r2bit_search : resetConfig.wf ∧ R2Inv resetConfig (runAt State.reset).dec (runAt State.reset).nbit ∧
    (0x198148FD#32).extractLsb' 22 8 = 0x66#8 ∧ hamDecode resetConfig 0x198148FD#32 = some 0x660523#24 ∧
    (0x667EB714#32).getLsbD 30 = true ∧ (0x667EB714#32).extractLsb' 22 8 = 0x99#8 ∧
    hamDecode resetConfig 0x667EB714#32 = some 0x660523#24 ∧ hamDecode resetConfig 0x198148FC#32 = none := by
  decide +kernel
/-- Synced, the 30th bit: the second word of program P2 with L = 1 (6 < 9) and a word of zeros with L = 0 (completion). -/
theorem witness_r2bit_synced :
    (synced 0#16 0x35435EE4#32 29#5 [0x66#8, 5#8, 0x23#8]).Inv ∧
    hamDecode resetConfig 0x6A86BDC8#32 = some 0x55E508#24 ∧ hamDecode resetConfig 0#32 = some 0#24 ∧
    hamDecode resetConfig 0x40000000#32 = none ∧
    (synced 9#16 0#32 29#5 [0x66#8, 5#8, 0x23#8, 0x55#8, 0xE5#8, 0x08#8]).Inv ∧
    (synced 0#16 0#32 28#5 [0x66#8, 5#8, 0x23#8]).Inv :=
  ⟨inv_of (by decide +kernel), by decide +kernel, by decide +kernel, by decide +kernel, inv_of (by decide +kernel),
    inv_of (by decide +kernel)⟩
theorem witness_RtcmV2ReadYieldsAtMostOneOutcome :
    R2Inv resetConfig (runAt (synced 9#16 0x64468000#32 29#5 [0x66#8, 5#8, 0x23#8, 0x55#8, 0xE5#8, 0x08#8])).dec 29#5 ∧
    ((r2OnBits resetConfig [true]
      (runAt (synced 9#16 0x20000000#32 29#5 [0x66#8, 5#8, 0x23#8, 0x55#8, 0xE5#8, 0x08#8]))).map R2Run.out) =
      some (.mismatch .parityMismatch) ∧
    ((r2OnBits resetConfig [true, true, true, true, true, true]
      (runAt (synced 9#16 0x20000000#32 29#5 [0x66#8, 5#8, 0x23#8, 0x55#8, 0xE5#8, 0x08#8]))).map R2Run.out) =
      some (.mismatch .parityMismatch) := by decide +kernel
theorem witness_ParityMismatchDiscardsTheFrame :
    (synced 9#16 0x20000000#32 29#5 [0x66#8, 5#8, 0x23#8, 0x55#8, 0xE5#8, 0x08#8]).Inv ∧
    respOf (.readR2 0x41#8) (synced 9#16 0x20000000#32 29#5 [0x66#8, 5#8, 0x23#8, 0x55#8, 0xE5#8, 0x08#8]) =
      some ⟨false, false, 3#3, 0#64⟩ := ⟨inv_of (by decide +kernel), by decide +kernel⟩
/-- EveryReadCompletesWithoutFault, ReadTouchesOnlyItsOwnDecoder, ReadsOfDifferentDecodersCommute: any byte, in the middle of
a frame of one decoder. -/
theorem witness_read_any_byte : (midFrame .asv 3#2 12#16 a2).Inv ∧ (midFrame .asv 3#2 12#16 a2).fault = false ∧
    DecoderId.asv ≠ DecoderId.r2 := ⟨inv_of (by decide), by decide⟩
theorem witness_ReadTouchesOnlyItsOwnDecoder :
    exec (Instr.readOf .asv 0x71#8) (midFrame .asv 3#2 12#16 a2) =
      .next (after (exec (.readAsv 0x71#8) (midFrame .asv 3#2 12#16 a2))) := next_of (by decide +kernel)
theorem witness_ErrorCountersCountMismatchEvents :
    exec (.readR3 0x4A#8) (midFrame .r3 3#2 6#16 v2) = .next (after (exec (.readR3 0x4A#8) (midFrame .r3 3#2 6#16 v2))) ∧
    Instr.readR3 0x4A#8 ≠ .rstall ∧ respOf (.readR3 0x4A#8) (midFrame .r3 3#2 6#16 v2) = some ⟨false, false, 2#3, 0#64⟩ :=
  ⟨next_of (by decide +kernel), by decide, by decide +kernel⟩
theorem witness_ValidAsvFramesAreDelivered : p1.Inv ∧ p1.fault = false ∧ p1.asv.phase = 0#2 ∧
    AsvFrame p1.cfg (a2 ++ [0x71#8]) := ⟨inv_p1, by decide, by decide, by decide +kernel⟩
theorem witness_ValidRtcmV3FramesAreDelivered : p1.Inv ∧ p1.fault = false ∧ p1.r3.phase = 0#2 ∧
    R3Frame p1.cfg (v2 ++ [0x4B#8]) := ⟨inv_p1, by decide, by decide, by decide +kernel⟩
theorem witness_ValidSbfFramesAreDelivered : p1.Inv ∧ p1.fault = false ∧ p1.sbf.phase = 0#2 ∧
    SbfFrame p1.cfg (s1 ++ [0x08#8]) := ⟨inv_p1, by decide, by decide, by decide +kernel⟩
/-- READ.R2 of 0x41 completes the frame with its first bit, the 30th of the word, and shifts in five more. -/
theorem witness_RtcmV2AcceptedByteIsSixBitSteps :
    (synced 9#16 0#32 29#5 [0x66#8, 5#8, 0x23#8, 0x55#8, 0xE5#8, 0x08#8]).Inv ∧
    (synced 9#16 0#32 29#5 [0x66#8, 5#8, 0x23#8, 0x55#8, 0xE5#8, 0x08#8]).fault = false ∧
    0x40 ≤ (0x7E#8).toNat ∧ (0x7E#8).toNat ≤ 0x7F ∧
    (respOf (.readR2 0x7E#8) (synced 9#16 0#32 29#5 [0x66#8, 5#8, 0x23#8, 0x55#8, 0xE5#8, 0x08#8])).map Response.flag =
      some true ∧
    (after (exec (.readR2 0x7E#8) (synced 9#16 0#32 29#5 [0x66#8, 5#8, 0x23#8, 0x55#8, 0xE5#8, 0x08#8]))).r2W =
      0x1F#32 := ⟨inv_of (by decide +kernel), by decide, by decide, by decide, by decide +kernel, by decide +kernel⟩
/-- The frame of program P2, after the previous bits 0 0. -/
theorem witness_ValidRtcmV2FramesAreDelivered : p1.Inv ∧ p1.fault = false ∧ p1.r2.phase = 0#2 ∧
    p1.r2W = (0#2).setWidth 32 ∧ R2Frame p1.cfg [0x660523#24, 0x55E508#24, 0xDEADBE#24] ∧
    (∀ b ∈ [0x66#8, 0x41#8, 0x4A#8, 0x71#8, 0x6F#8, 0x55#8, 0x61#8, 0x75#8, 0x7B#8, 0x44#8, 0x7B#8, 0x55#8, 0x5B#8,
      0x5F#8, 0x42#8], b.toNat / 64 = 1) ∧
    [0x66#8, 0x41#8, 0x4A#8, 0x71#8, 0x6F#8, 0x55#8, 0x61#8, 0x75#8, 0x7B#8, 0x44#8, 0x7B#8, 0x55#8, 0x5B#8, 0x5F#8,
      0x42#8].flatMap (r2PayloadBits p1.cfg) = r2Stream p1.cfg 0#2 [0x660523#24, 0x55E508#24, 0xDEADBE#24] :=
  ⟨inv_p1, by decide, by decide, by decide, by decide +kernel, by decide, by decide +kernel⟩
/-- The same frame after the previous bits 0 1, as section 7 of `95_test_vectors.md` gives it. -/
theorem witness_ValidRtcmV2FramesAreDelivered_after_01 : ({ p1 with r2W := 1#32 } : State).Inv ∧
    ({ p1 with r2W := 1#32 } : State).r2W = (1#2).setWidth 32 ∧ p1.cfg.r2InvMask.extractLsb' 22 8 = 0xFF#8 ∧
    hamDecode p1.cfg (((1#2).setWidth 32 <<< 28) ||| ((hamEncode p1.cfg 0x660523#24 1#2).setWidth 32 >>> 2)) = none ∧
    [0x59#8, 0x7E#8, 0x75#8, 0x4E#8, 0x4A#8, 0x6A#8, 0x5E#8, 0x4A#8, 0x44#8, 0x61#8, 0x44#8, 0x6A#8, 0x64#8, 0x60#8,
      0x67#8].flatMap (r2PayloadBits p1.cfg) = r2Stream p1.cfg 1#2 [0x660523#24, 0x55E508#24, 0xDEADBE#24] :=
  ⟨inv_of (by decide), by decide, by decide, by decide +kernel, by decide +kernel⟩

/-! ### Witnesses: buffer access, status, resets, invariants -/

theorem witness_LdbAnswersTheByteAsGetuDoes : p1.Inv ∧ p1.fault = false ∧ p1.blen (.dec .r3) = some 10 ∧
    (9#32).toNat < 10 := ⟨inv_p1, by decide⟩
theorem witness_StbStoresTheByteAsSetuDoes : vector.Inv ∧ vector.fault = false ∧ (7#32).toNat < vector.wbLen.toNat :=
  ⟨inv_vector, by decide⟩
theorem witness_SetlenSetsTheLengthAndClears : vector.Inv ∧ vector.fault = false ∧ (256#32).toNat ≤ vector.cfg.wbMax ∧
    (0#32).toNat ≤ vector.cfg.wbMax := ⟨inv_vector, by decide⟩
theorem witness_StoreCommandsFaultInOrder : vector.fault = false ∧ 5 ≤ (5#3).toNat ∧ 1 ≤ (1#3).toNat ∧ (4#3).toNat ≤ 4 ∧
    vector.wbLen.toNat ≤ (8#32).toNat ∧ vector.cfg.wbMax < (257#32).toNat := by decide
theorem witness_RdsrFaultsOutsideTheMap : 3 ≤ (3#32).toNat ∧ 9 ≤ (9#32).toNat ∧ 7 ≤ (7#32).toNat ∧ 5 ≤ (5#3).toNat ∧
    State.reset.fault = false ∧ (stopped 1#4).fault = true := by decide
theorem witness_ResetClearsOnlyItsDecodersProgress : p1.fault = false ∧ 5 ≤ (5#3).toNat := by decide
theorem witness_RstallReturnsTheBlockToReset : exec (.ldb 1#3 0#32) (stopped 1#4) =
    .next (after (exec (.ldb 1#3 0#32) (stopped 1#4))) ∧ (stopped 1#4).fault = true ∧
    exec .rstall (stopped 1#4) = .next (after (exec .rstall (stopped 1#4))) :=
  ⟨next_of (by decide), by decide, next_of (by decide)⟩
theorem witness_ResetHasTheInvariants : resetConfig.wf ∧ (defaultConfig 1 8).wf ∧ (defaultConfig 65535 65535).wf := by decide
theorem witness_StepKeepsTheInvariants :
    (fed [.command 0x42000000000000040000000000000000#128] vector).Inv ∧
    step (fed [.command 0x42000000000000040000000000000000#128] vector) =
      .next (after (step (fed [.command 0x42000000000000040000000000000000#128] vector))) :=
  ⟨inv_of (by decide), next_of (by decide)⟩
/-- The frame V2, retained: its bytes, length, id and CRC are those of a valid frame. -/
theorem witness_RetainedFramesStayValid : (holding .r3 0x47E#16 (v2 ++ [0x4B#8])).Inv ∧
    (holding .r3 0x47E#16 (v2 ++ [0x4B#8])).FramesInv ∧
    step (holding .r3 0x47E#16 (v2 ++ [0x4B#8])) = .next (holding .r3 0x47E#16 (v2 ++ [0x4B#8])) :=
  ⟨inv_of (by decide),
    ⟨⟨by decide, by decide, by decide, by decide +kernel⟩, ⟨by decide, by decide +kernel⟩,
      ⟨by decide, by decide, by decide +kernel⟩, ⟨by decide, by decide, by decide, by decide +kernel⟩⟩, rfl⟩
/-- The retained frame of p1 over a step that does not touch it (NOP) and one that releases it (RESET R3). -/
theorem witness_RetainedFramesStayValid_lifetime :
    step (fed [.command 0#128] p1) = .next (after (step (fed [.command 0#128] p1))) ∧
    (p1.dec .r3).fvalid = true ∧ ((after (step (fed [.command 0#128] p1))).dec .r3).fvalid = true ∧
    step (fed [.command 0x31600000000000000000000000000000#128] p1) =
      .next (after (step (fed [.command 0x31600000000000000000000000000000#128] p1))) ∧
    ((after (step (fed [.command 0x31600000000000000000000000000000#128] p1))).dec .r3).fvalid = false :=
  ⟨next_of (by decide), by decide, by decide, next_of (by decide), by decide⟩
/-- Two states that differ in byte 5 of a work buffer of length 0 are alike and not equal. -/
theorem witness_alike : State.reset.Inv ∧ ({ State.reset with wb := [(5, 1#8)] } : State).Inv ∧
    State.reset.Alike { State.reset with wb := [(5, 1#8)] } ∧ State.reset ≠ { State.reset with wb := [(5, 1#8)] } := by
  refine ⟨inv_reset_state, inv_of (by decide), ⟨rfl, rfl, rfl, rfl, rfl, rfl, rfl, rfl, ?_, ?_⟩, by decide⟩
  · intro a h; exact absurd h (Nat.not_lt_zero a)
  · intro d; exact ⟨rfl, fun _ _ => rfl, fun _ _ _ => rfl⟩
theorem witness_UnwrittenBytesAreNeverObserved : resetConfig.wf ∧ Memory.wf [(5, 1#8)] ∧
    Memory.within [(5, 1#8)] resetConfig.wbMax ∧
    ∀ d, Memory.wf [(98, 1#8)] ∧ Memory.within [(98, 1#8)] (capacity resetConfig (.dec d)) := by
  refine ⟨by decide, by decide, by decide, fun d => ?_⟩
  cases d <;> decide

end Sys2Proof.Tests
end

section
/-! PROOFS. The step function, one equation per input the host can give, and the statements about the step. -/

namespace Sys2Proof.Machine

/-! ### One step per input -/

theorem step_of_port_nil {s : State} (h : s.port = []) : step s = .next s := by
  simp only [step, takeInput_nil h]

theorem step_of_port_powerOn {s : State} {rest : List HostInput} (h : s.port = .powerOn :: rest) :
    step s = .next (powerOn { s with port := rest }) := by
  simp only [step, takeInput_powerOn h]

theorem step_of_port_command {s : State} {w : CommandWord} {rest : List HostInput} {i : Instr}
    (h : s.port = .command w :: rest) (hw : decode w = .ok i) : step s = exec i { s with port := rest } := by
  simp only [step, takeInput_command h, hw]

/-- Of the state before it, power-on reset keeps only the instance and the inputs still to come (R41). -/
theorem powerOn_eq (s : State) : powerOn s = { State.resetWith s.cfg with port := s.port } := rfl

/-! ### The statements -/

/-- Settles O2: the command is taken off the port, and the word decodes. -/
theorem stepRunsTheDecodedCommand : Obligations.StepRunsTheDecodedCommand := by
  intro s w rest i hport hdecode
  exact step_of_port_command hport hdecode

/-- Settles O4: the two inputs that are no command word, each by its equation of the step. -/
theorem stepIdlesWithoutInputAndResetsOnPowerOn : Obligations.StepIdlesWithoutInputAndResetsOnPowerOn := by
  constructor
  · intro s hport
    exact step_of_port_nil hport
  · intro s rest hport
    rw [step_of_port_powerOn hport, powerOn_eq]

end Sys2Proof.Machine
end

section
/-! PROOFS. READ of the four decoders in one form, and what any command can do to the state: the case analysis of `exec`
that the statements about steps go through. -/

namespace Sys2Proof.Machine

/-! ### READ in one form (R150) -/

/-- A byte-oriented phase rule on the registers of a READ. -/
def R2Run.onByte (rule : Decoder → Option (Decoder × FrameOutcome)) (r : R2Run) : Option R2Run :=
  (rule r.dec).map fun p => { r with dec := p.1, out := p.2 }

/-- The phase rule of a decoder on the registers of a READ. -/
def readRule (cfg : Config) (b : Byte) : DecoderId → R2Run → Option R2Run
  | .asv => R2Run.onByte (asvRule cfg b)
  | .r2 => r2OnBits cfg (r2PayloadBits cfg b)
  | .r3 => R2Run.onByte (r3Rule cfg b)
  | .sbf => R2Run.onByte (sbfRule cfg b)

/-- The bytes a READ looks at: only RTCM v2 has a byte filter (R172). -/
def readAccepts : DecoderId → Byte → Bool
  | .r2, b => r2Accepts b
  | _, _ => true

/-- The registers a READ starts from: the retained frame is released (R150). -/
def State.readRun (s : State) (d : DecoderId) : R2Run := ⟨(s.dec d).release, s.r2W, s.r2Nbit, .more⟩

/-- The decoder at the end of a READ. -/
def R2Run.finished (cfg : Config) (r : R2Run) : Decoder :=
  match r.out with
  | .more => r.dec
  | .ready total id => { r.dec with flen := total, fid := id, fvalid := true }
  | .mismatch _ => { r.dec with errcnt := countUp cfg r.dec.errcnt }

/-- The response at the end of a READ. -/
def FrameOutcome.response : FrameOutcome → Response
  | .more => .ok
  | .ready total id => .frameReady id total
  | .mismatch e => .mismatch e

/-- The state a READ leaves: its decoder and the RTCM v2 accumulator written back, and the response given. -/
def State.putRun (s : State) (d : DecoderId) (r : R2Run) : State :=
  ({ s with r2W := r.w, r2Nbit := r.nbit }.setDec d (r.finished s.cfg)).respond r.out.response

theorem finishRead_eq_putRun (s : State) (d : DecoderId) (r : R2Run) :
    finishRead d r.dec r.out { s with r2W := r.w, r2Nbit := r.nbit } = s.putRun d r := by
  obtain ⟨x, w, nbit, o⟩ := r
  cases o <;> rfl

@[simp] theorem State.putRun_dec_self (s : State) (d : DecoderId) (r : R2Run) :
    (s.putRun d r).dec d = r.finished s.cfg := by simp [State.putRun]

theorem State.putRun_dec_other (s : State) {d e : DecoderId} (r : R2Run) (h : e ≠ d) :
    (s.putRun d r).dec e = s.dec e := by
  rw [State.putRun, State.respond_dec, State.setDec_dec_other _ _ h]
  cases e <;> rfl

@[simp] theorem State.putRun_cfg (s : State) (d : DecoderId) (r : R2Run) : (s.putRun d r).cfg = s.cfg := by
  simp [State.putRun]

@[simp] theorem State.putRun_port (s : State) (d : DecoderId) (r : R2Run) : (s.putRun d r).port = s.port := by
  simp [State.putRun]

@[simp] theorem State.putRun_fault (s : State) (d : DecoderId) (r : R2Run) : (s.putRun d r).fault = s.fault := by
  simp [State.putRun]

@[simp] theorem State.putRun_fcause (s : State) (d : DecoderId) (r : R2Run) : (s.putRun d r).fcause = s.fcause := by
  simp [State.putRun]

@[simp] theorem State.putRun_wbLen (s : State) (d : DecoderId) (r : R2Run) : (s.putRun d r).wbLen = s.wbLen := by
  simp [State.putRun]

@[simp] theorem State.putRun_wb (s : State) (d : DecoderId) (r : R2Run) : (s.putRun d r).wb = s.wb := by
  simp [State.putRun]

@[simp] theorem State.putRun_r2W (s : State) (d : DecoderId) (r : R2Run) : (s.putRun d r).r2W = r.w := by
  simp [State.putRun]

@[simp] theorem State.putRun_r2Nbit (s : State) (d : DecoderId) (r : R2Run) : (s.putRun d r).r2Nbit = r.nbit := by
  simp [State.putRun]

@[simp] theorem State.putRun_resp (s : State) (d : DecoderId) (r : R2Run) :
    (s.putRun d r).resp = some r.out.response := rfl

/-- A byte-oriented rule keeps the RTCM v2 accumulator. -/
theorem R2Run.onByte_eq_some {rule : Decoder → Option (Decoder × FrameOutcome)} {r r' : R2Run} :
    r.onByte rule = some r' ↔ ∃ x o, rule r.dec = some (x, o) ∧ r' = { r with dec := x, out := o } := by
  simp only [R2Run.onByte, Option.map_eq_some_iff, Prod.exists]
  exact ⟨fun ⟨x, o, h, e⟩ => ⟨x, o, h, e.symm⟩, fun ⟨x, o, h, e⟩ => ⟨x, o, h, e.symm⟩⟩

/-- Only READ.R2 works on the RTCM v2 accumulator (R24). -/
theorem readRule_keeps_accumulator {cfg : Config} {b : Byte} {d : DecoderId} {r r' : R2Run} (hd : d ≠ .r2)
    (h : readRule cfg b d r = some r') : r'.w = r.w ∧ r'.nbit = r.nbit := by
  cases d with
  | r2 => exact absurd rfl hd
  | asv | r3 | sbf =>
    obtain ⟨x, o, -, rfl⟩ := R2Run.onByte_eq_some.1 h
    exact ⟨rfl, rfl⟩

/-- The end of a READ of a byte-oriented decoder, as the form of all READs. -/
theorem readByte_eq (d : DecoderId) (rule : Decoder → Option (Decoder × FrameOutcome)) (s : State) :
    readByte d rule s =
      ((s.readRun d).onByte rule).elim (.fault (.noSuchAddress (.dec d))) fun r => .next (s.putRun d r) := by
  unfold readByte R2Run.onByte
  cases h : rule (s.dec d).release with
  | none => simp [State.readRun, h]
  | some p => simp [State.readRun, h, ← finishRead_eq_putRun]

/-- READ of every decoder (R150, R171): refused while FAULT = 1; a byte the filter refuses changes nothing (R172); else
the phase rule runs and the registers are written back. -/
theorem exec_readOf (s : State) (d : DecoderId) (b : Byte) :
    exec (Instr.readOf d b) s = unlessFaulted s fun _ =>
      if readAccepts d b then
        (readRule s.cfg b d (s.readRun d)).elim (.fault (.noSuchAddress (.dec d))) fun r => .next (s.putRun d r)
      else .next (s.respond .ok) := by
  cases d with
  | asv => exact congrArg (unlessFaulted s) (funext fun _ => readByte_eq .asv _ s)
  | r3 => exact congrArg (unlessFaulted s) (funext fun _ => readByte_eq .r3 _ s)
  | sbf => exact congrArg (unlessFaulted s) (funext fun _ => readByte_eq .sbf _ s)
  | r2 =>
    change execReadR2 b s = _
    refine congrArg (unlessFaulted s) (funext fun _ => ?_)
    simp only [readAccepts, readRule, State.readRun, ← finishRead_eq_putRun]
    split
    · split <;> next h => simp only [State.dec, h, Option.elim]
    · rfl

theorem exec_readOf_of_some {s : State} {d : DecoderId} {b : Byte} {r : R2Run} (hf : s.fault = false)
    (ha : readAccepts d b = true) (hr : readRule s.cfg b d (s.readRun d) = some r) :
    exec (Instr.readOf d b) s = .next (s.putRun d r) := by
  rw [exec_readOf, unlessFaulted_of_clear _ hf, if_pos ha, hr, Option.elim]

theorem exec_readOf_of_not_accepts {s : State} {d : DecoderId} {b : Byte} (hf : s.fault = false)
    (ha : readAccepts d b = false) : exec (Instr.readOf d b) s = .next (s.respond .ok) := by
  rw [exec_readOf, unlessFaulted_of_clear _ hf, if_neg (by simp [ha])]

/-- What a READ can answer with a next state. -/
theorem exec_readOf_eq_next {s t : State} {d : DecoderId} {b : Byte} (h : exec (Instr.readOf d b) s = .next t) :
    (s.fault = true ∧ t = s.respond .failed) ∨
    (s.fault = false ∧ readAccepts d b = false ∧ t = s.respond .ok) ∨
    (s.fault = false ∧ readAccepts d b = true ∧
      ∃ r, readRule s.cfg b d (s.readRun d) = some r ∧ t = s.putRun d r) := by
  rw [exec_readOf] at h
  rcases unlessFaulted_eq_next h with hrefused | ⟨hf, h⟩
  · exact .inl hrefused
  · cases ha : readAccepts d b with
    | false =>
      rw [if_neg (by simp [ha])] at h
      cases h
      exact .inr (.inl ⟨hf, rfl, rfl⟩)
    | true =>
      rw [if_pos ha] at h
      cases hr : readRule s.cfg b d (s.readRun d) with
      | none => rw [hr] at h; cases h
      | some r =>
        rw [hr] at h
        cases h
        exact .inr (.inr ⟨hf, rfl, r, rfl, rfl⟩)

/-! ### What a command can do -/

/-- Everything a command can do to the state (R81, R150, R262, R264). -/
inductive CommandEffect (i : Instr) (s : State) : State → Prop
  /-- Nothing but the response: an answer, a refusal, or a byte a filter refuses. -/
  | answered (r : Response) : r.ev = 0#3 → CommandEffect i s (s.respond r)
  | faulted (c : Cause) : CommandEffect i s (raiseFault c s)
  /-- SETU, SETS, STB: bytes of the work buffer. -/
  | stored (m : Memory) : (s.wb.wf → m.wf) → (s.wb.within s.cfg.wbMax → m.within s.cfg.wbMax) →
      CommandEffect i s ({ s with wb := m }.respond .ok)
  /-- SETLEN. -/
  | resized (n : Nat) : n ≤ s.cfg.wbMax →
      CommandEffect i s ({ s with wb := s.wb.zeroFill n, wbLen := BitVec.ofNat 16 n }.respond .ok)
  | reset (d : DecoderId) : i = .reset d.sel → CommandEffect i s ((resetDecoder d s).respond .ok)
  | cleared : i = .rstall → CommandEffect i s ((clearAll s).respond .ok)
  | read (d : DecoderId) (b : Byte) (r : R2Run) : i = Instr.readOf d b → readAccepts d b = true →
      readRule s.cfg b d (s.readRun d) = some r → CommandEffect i s (s.putRun d r)

section
variable {i : Instr} {s t : State}

/-- A gated command has an effect of its own only while FAULT = 0. -/
theorem CommandEffect.of_unlessFaulted {k : Unit → Result} (h : unlessFaulted s k = .next t)
    (hk : k () = .next t → CommandEffect i s t) : CommandEffect i s t := by
  rcases unlessFaulted_eq_next h with ⟨-, rfl⟩ | ⟨-, h⟩
  · exact .answered _ rfl
  · exact hk h

theorem CommandEffect.of_onBuffer {sel : BitVec 3} {k : BufferId → Result} (h : onBuffer sel s k = .next t)
    (hk : ∀ b, k b = .next t → CommandEffect i s t) : CommandEffect i s t := by
  rcases onBuffer_cases sel s k with ⟨-, e⟩ | ⟨b, -, e⟩
  · rw [e] at h; cases h; exact .faulted _
  · exact hk b (e ▸ h)

theorem CommandEffect.of_onWorkBuffer {sel : BitVec 3} {k : Unit → Result} (h : onWorkBuffer sel s k = .next t)
    (hk : k () = .next t → CommandEffect i s t) : CommandEffect i s t := by
  rcases onWorkBuffer_cases sel s k with ⟨-, e⟩ | ⟨d, -, e⟩ | ⟨-, e⟩
  · rw [e] at h; cases h; exact .faulted _
  · rw [e] at h; cases h; exact .faulted _
  · exact hk (e ▸ h)

theorem CommandEffect.of_orFault {check : Option Cause} {k : Unit → Result} (h : orFault check s k = .next t)
    (hk : check = none → k () = .next t → CommandEffect i s t) : CommandEffect i s t := by
  cases check with
  | some c => cases h; exact .faulted _
  | none => exact hk rfl h

/-- The three extract commands change nothing but the response (R112 to R114). -/
theorem CommandEffect.of_extractField {reading : Nat → Nat → BitVec 64} {sel : BitVec 3} {wid : BitVec 6}
    {ofs : BitVec 32} (h : extractField reading sel wid ofs s = .next t) : CommandEffect i s t := by
  refine .of_unlessFaulted h fun h => .of_onBuffer h fun b h => .of_orFault h fun _ h => ?_
  obtain ⟨-, -, h⟩ := onAddresses_eq_next h
  cases h
  exact .answered _ rfl

/-- The two insert commands change bytes of the work buffer (R116, R117). -/
theorem CommandEffect.of_insertField {fits : Bool} {u : Nat} {sel : BitVec 3} {wid : BitVec 6} {ofs : BitVec 32}
    (h : insertField fits u sel wid ofs s = .next t) : CommandEffect i s t := by
  refine .of_unlessFaulted h fun h => .of_onWorkBuffer h fun h => .of_orFault h fun _ h => .of_orFault h fun _ h => ?_
  obtain ⟨-, hcap, h⟩ := onAddresses_eq_next h
  cases h
  exact .stored _ (fun hw => Memory.putU_wf hw _ _ _) (fun hw => Memory.putU_within hw _ hcap)

theorem CommandEffect.of_execStb {sel : BitVec 3} {addr : BitVec 32} {byte : Byte}
    (h : execStb sel addr byte s = .next t) : CommandEffect i s t := by
  refine .of_unlessFaulted h fun h => .of_onWorkBuffer h fun h => .of_orFault h fun _ h => ?_
  obtain ⟨-, hcap, h⟩ := onAddresses_eq_next h
  cases h
  exact .stored _ (fun hw => Memory.write_wf hw _ _) (fun hw => Memory.write_within hw (Nat.lt_of_succ_le hcap) _)

theorem CommandEffect.of_execSetlen {sel : BitVec 3} {len : BitVec 32} (h : execSetlen sel len s = .next t) :
    CommandEffect i s t := by
  refine .of_unlessFaulted h fun h => .of_onWorkBuffer h fun h => .of_orFault h fun hc h => ?_
  cases h
  exact .resized _ (by simpa using hc)

theorem CommandEffect.of_execRdsr {sel : BitVec 3} {idx : BitVec 32} (h : execRdsr sel idx s = .next t) :
    CommandEffect i s t := by
  unfold execRdsr at h
  split at h <;> cases h
  · exact .answered _ rfl
  · exact .faulted _

theorem CommandEffect.of_execHamdec {word : BitVec 32} (h : execHamdec word s = .next t) : CommandEffect i s t := by
  refine .of_unlessFaulted h fun h => ?_
  split at h <;> cases h <;> exact .answered _ rfl

theorem CommandEffect.of_execReset {sel : BitVec 3} (h : execReset sel s = .next t) :
    CommandEffect (.reset sel) s t := by
  refine .of_unlessFaulted h fun h => ?_
  rcases onDecoder_cases sel s fun d => .next ((resetDecoder d s).respond .ok) with ⟨-, e⟩ | ⟨d, rfl, e⟩
  · rw [e] at h; cases h; exact .faulted _
  · rw [e] at h; cases h; exact .reset d rfl

theorem CommandEffect.of_readOf {d : DecoderId} {b : Byte} (h : exec (Instr.readOf d b) s = .next t) :
    CommandEffect (Instr.readOf d b) s t := by
  rcases exec_readOf_eq_next h with ⟨-, rfl⟩ | ⟨-, -, rfl⟩ | ⟨-, ha, r, hr, rfl⟩
  · exact .answered _ rfl
  · exact .answered _ rfl
  · exact .read d b r rfl ha hr

/-- A command that computes a result from a byte range of a buffer changes nothing but the response (R132, R135, R241). -/
theorem CommandEffect.of_rangeCommand {sel : BitVec 3} {check : BufferId → Option Cause} {lo hi : Nat}
    {value : BufferId → BitVec 64}
    (h : (unlessFaulted s fun _ => onBuffer sel s fun b => orFault (check b) s fun _ =>
      onAddresses b lo hi s fun _ => .next (s.respond (.value (value b)))) = .next t) : CommandEffect i s t := by
  refine .of_unlessFaulted h fun h => .of_onBuffer h fun b h => .of_orFault h fun _ h => ?_
  obtain ⟨-, -, h⟩ := onAddresses_eq_next h
  cases h
  exact .answered _ rfl

/-- Every command that answers a next state has one of the effects above. -/
theorem exec_effect (h : exec i s = .next t) : CommandEffect i s t := by
  cases i with
  | nop => cases h; exact .answered _ rfl
  | rstall => cases h; exact .cleared rfl
  | getu sel wid ofs =>
    change execGetu sel wid ofs s = _ at h
    exact .of_extractField h
  | gets sel wid ofs =>
    change execGets sel wid ofs s = _ at h
    exact .of_extractField h
  | getsm sel wid ofs =>
    change execGetsm sel wid ofs s = _ at h
    exact .of_extractField h
  | setu sel wid ofs value =>
    change execSetu sel wid ofs value s = _ at h
    exact .of_insertField h
  | sets sel wid ofs value =>
    change execSets sel wid ofs value s = _ at h
    exact .of_insertField h
  | crc16 sel start len =>
    change execCrc16 sel start len s = _ at h
    exact .of_rangeCommand h
  | crc24q sel stop =>
    change execCrc24q sel stop s = _ at h
    exact .of_rangeCommand h
  | ldb sel addr =>
    change execLdb sel addr s = _ at h
    exact .of_rangeCommand h
  | hamdec word =>
    change execHamdec word s = _ at h
    exact .of_execHamdec h
  | hamenc data prev2 =>
    change execHamenc data prev2 s = _ at h
    exact .of_unlessFaulted h fun h => by cases h; exact .answered _ rfl
  | readAsv b => exact .of_readOf (d := .asv) h
  | readR2 b => exact .of_readOf (d := .r2) h
  | readR3 b => exact .of_readOf (d := .r3) h
  | readSbf b => exact .of_readOf (d := .sbf) h
  | reset sel => exact .of_execReset h
  | stb sel addr byte => exact .of_execStb h
  | setlen sel len => exact .of_execSetlen h
  | rdsr sel idx => exact .of_execRdsr h

end

/-- What a step can do: hold the state, reset it, take a word that selects no row, or execute a command (R11, R81). -/
theorem step_eq_next {s t : State} (h : step s = .next t) :
    (s.port = [] ∧ t = s) ∨
    (∃ rest, s.port = .powerOn :: rest ∧ t = powerOn { s with port := rest }) ∨
    (∃ w rest e, s.port = .command w :: rest ∧ decode w = .error e ∧
      t = raiseFault .illegalCommand { s with port := rest }) ∨
    (∃ w rest i, s.port = .command w :: rest ∧ decode w = .ok i ∧ exec i { s with port := rest } = .next t) := by
  match hp : s.port with
  | [] =>
    rw [step_of_port_nil hp] at h
    cases h
    exact .inl ⟨rfl, rfl⟩
  | .powerOn :: rest =>
    rw [step_of_port_powerOn hp] at h
    cases h
    exact .inr (.inl ⟨rest, rfl, rfl⟩)
  | .command w :: rest =>
    cases hw : decode w with
    | ok i =>
      rw [step_of_port_command hp hw] at h
      exact .inr (.inr (.inr ⟨w, rest, i, rfl, hw, h⟩))
    | error e =>
      simp only [step, takeInput_command hp, hw] at h
      cases h
      exact .inr (.inr (.inl ⟨w, rest, e, rfl, hw, rfl⟩))

end Sys2Proof.Machine
end

section
/-! PROOFS. READ.R2 over the six bits of a byte: at most one of them can complete a word, so a byte has one effect on the
decoder and its outcome (R174 to R182). -/

namespace Sys2Proof.Machine

/-! ### What one bit can do -/

/-- The decoder after a complete word with data `d` while Synced, before the test for completion (R177, R179). -/
def Decoder.withWord (cfg : Config) (d : BitVec 24) (x : Decoder) : Decoder :=
  let buf := x.buf.write3 x.n.toNat d
  { x with buf := buf, n := x.n + 3#16, total := if x.n + 3#16 = 6#16 then r2TotalOf cfg buf else x.total }

/-- What the bits of one byte can do to the registers of a READ.R2. -/
inductive R2Effect (cfg : Config) (r : R2Run) : R2Run → Prop
  /-- No word was completed: the accumulator and the bit count only. -/
  | shifted (w : BitVec 32) (nbit : BitVec 5) : (r.dec.phase = 0#2 → nbit = r.nbit) →
      (r.dec.phase ≠ 0#2 → r.nbit.toNat < 30 → nbit.toNat < 30) → R2Effect cfg r { r with w := w, nbit := nbit }
  /-- The first word of a frame was found (R175), in the accumulator `v`. -/
  | synced (w : BitVec 32) (nbit : BitVec 5) (v : BitVec 32) (d : BitVec 24) : r.dec.phase = 0#2 → nbit.toNat < 30 →
      r2PreambleMatches v = true → hamDecode cfg v = some d →
      R2Effect cfg r { r with
        dec := { r.dec with buf := r.dec.buf.write3 0 d, n := 3#16, phase := 1#2 }, w := w, nbit := nbit }
  /-- A word was rejected (R178). -/
  | rejected (w : BitVec 32) : r.dec.phase ≠ 0#2 →
      R2Effect cfg r ⟨r.dec.resync, w, 0#5, .mismatch .parityMismatch⟩
  /-- A word was stored, the frame is not complete. -/
  | word (w : BitVec 32) (nbit : BitVec 5) (d : BitVec 24) : r.dec.phase ≠ 0#2 → r.dec.n.toNat + 3 ≤ r2BufMax →
      nbit.toNat < 30 → (r.dec.withWord cfg d).n < (r.dec.withWord cfg d).total →
      R2Effect cfg r { r with dec := r.dec.withWord cfg d, w := w, nbit := nbit }
  /-- The last word of a frame was stored (R180). -/
  | complete (w : BitVec 32) (d : BitVec 24) : r.dec.phase ≠ 0#2 → r.dec.n.toNat + 3 ≤ r2BufMax →
      ¬ (r.dec.withWord cfg d).n < (r.dec.withWord cfg d).total →
      R2Effect cfg r ⟨(r.dec.withWord cfg d).resync, w, 0#5,
        .ready (r.dec.withWord cfg d).total (BitVec.ofNat 16 ((r.dec.withWord cfg d).buf.getU 8 6))⟩

/-- The next `k` bits cannot complete a word: in Search the accumulator is too empty for a preamble, while Synced fewer
than 30 bits have come. -/
def R2Run.Quiet (k : Nat) (r : R2Run) : Prop :=
  (r.dec.phase = 0#2 → (r.w.toNat + 1) * 2 ^ k ≤ 2 ^ 22) ∧ (r.dec.phase ≠ 0#2 → r.nbit.toNat + k < 30)

theorem toNat_r2Shift_lt (w : BitVec 32) (bit : Bool) : (r2Shift w bit).toNat < 2 * (w.toNat + 1) := by
  have hbit : ((BitVec.ofBool bit).setWidth 32).toNat < 2 ^ 1 := by cases bit <;> decide
  have hshift : (w <<< 1).toNat = (w.toNat % 2 ^ 31) <<< 1 := by
    simp only [BitVec.toNat_shiftLeft, Nat.shiftLeft_eq]
    omega
  rw [r2Shift, BitVec.toNat_or, hshift, ← Nat.shiftLeft_add_eq_or_of_lt hbit, Nat.shiftLeft_eq]
  omega

/-- An accumulator whose bits from 22 on are 0 holds no preamble (R175). -/
theorem r2PreambleMatches_of_small {w : BitVec 32} (h : w.toNat < 2 ^ 22) : r2PreambleMatches w = false := by
  have hinv : w.getLsbD r2InvBit = false := by
    rw [BitVec.getLsbD]
    exact Nat.testBit_lt_two_pow (by show w.toNat < 2 ^ 30; omega)
  have htop : w.extractLsb' 22 8 = 0#8 := by
    apply BitVec.eq_of_toNat_eq
    simp only [BitVec.extractLsb'_toNat, Nat.shiftRight_eq_div_pow, BitVec.toNat_ofNat]
    rw [Nat.div_eq_of_lt h]
  rw [r2PreambleMatches, hinv, htop]
  rfl

/-- A bit that cannot complete a word. -/
theorem r2OnBit_of_quiet {cfg : Config} {bit : Bool} {k : Nat} {r : R2Run} (h : r.Quiet (k + 1)) :
    ∃ w nbit, r2OnBit cfg bit r = some { r with w := w, nbit := nbit } ∧ R2Run.Quiet k { r with w := w, nbit := nbit } ∧
      (r.dec.phase = 0#2 → nbit = r.nbit) ∧ (r.dec.phase ≠ 0#2 → nbit.toNat < 30) := by
  obtain ⟨hsearch, hsynced⟩ := h
  have hlt := toNat_r2Shift_lt r.w bit
  by_cases hp : r.dec.phase = 0#2
  · have hbound : ((r2Shift r.w bit).toNat + 1) * 2 ^ k ≤ 2 ^ 22 := by
      have := hsearch hp
      rw [pow_succ', ← mul_assoc, Nat.mul_comm _ 2] at this
      exact (Nat.mul_le_mul_right _ (by omega)).trans this
    have hsmall : (r2Shift r.w bit).toNat < 2 ^ 22 :=
      Nat.lt_of_succ_le ((Nat.le_mul_of_pos_right _ (Nat.two_pow_pos k)).trans hbound)
    refine ⟨r2Shift r.w bit, r.nbit, ?_, ⟨fun _ => hbound, fun h => absurd hp h⟩, fun _ => rfl, fun h => absurd hp h⟩
    simp [r2OnBit, hp, r2OnSearch, r2PreambleMatches_of_small hsmall]
  · have hn := hsynced hp
    have hsucc : (r.nbit + 1#5).toNat = r.nbit.toNat + 1 := by
      rw [BitVec.toNat_add]
      exact Nat.mod_eq_of_lt (by simp; omega)
    refine ⟨r2Shift r.w bit, r.nbit + 1#5, ?_, ⟨fun h => absurd h hp, fun _ => ?_⟩, fun h => absurd h hp, fun _ => ?_⟩
    · simp [r2OnBit, hp, show r.nbit.toNat + 1 < 30 by omega]
    · simp only [hsucc]; omega
    · omega

/-- Bits that cannot complete a word. -/
theorem r2OnBits_of_quiet {cfg : Config} {bits : List Bool} {r : R2Run} (h : r.Quiet bits.length) :
    ∃ w nbit, r2OnBits cfg bits r = some { r with w := w, nbit := nbit } ∧
      (r.dec.phase = 0#2 → nbit = r.nbit) ∧ (r.dec.phase ≠ 0#2 → r.nbit.toNat < 30 → nbit.toNat < 30) := by
  induction bits generalizing r with
  | nil => exact ⟨r.w, r.nbit, rfl, fun _ => rfl, fun _ h => h⟩
  | cons bit bits ih =>
    obtain ⟨w, nbit, hbit, hquiet, h0, h1⟩ := r2OnBit_of_quiet (cfg := cfg) (bit := bit) h
    obtain ⟨w', nbit', hbits, h0', h1'⟩ := ih hquiet
    refine ⟨w', nbit', ?_, fun hp => (h0' hp).trans (h0 hp), fun hp _ => h1' hp (h1 hp)⟩
    simp only [r2OnBits, hbit, hbits]

theorem phase_one_ne_zero : (1#2 : BitVec 2) ≠ 0#2 := by decide

/-- A bit that completes no word leaves room for the same effects after it. -/
theorem R2Effect.after_shift {cfg : Config} {r r' : R2Run} {w : BitVec 32} {nbit : BitVec 5}
    (h0 : r.dec.phase = 0#2 → nbit = r.nbit) (h1 : r.dec.phase ≠ 0#2 → nbit.toNat < 30)
    (h : R2Effect cfg { r with w := w, nbit := nbit } r') : R2Effect cfg r r' := by
  cases h with
  | shifted w' nbit' h0' h1' =>
    exact .shifted w' nbit' (fun hp => (h0' hp).trans (h0 hp)) fun hp _ => h1' hp (h1 hp)
  | synced w' nbit' v d hp hn hv hd => exact .synced w' nbit' v d hp hn hv hd
  | rejected w' hp => exact .rejected w' hp
  | word w' nbit' d hp hcap hn hlt => exact .word w' nbit' d hp hcap hn hlt
  | complete w' d hp hcap hlt => exact .complete w' d hp hcap hlt

/-- Bits that complete no word leave an effect as it is. -/
theorem R2Effect.before_shift {cfg : Config} {r r' : R2Run} {w : BitVec 32} {nbit : BitVec 5}
    (h0 : r'.dec.phase = 0#2 → nbit = r'.nbit) (h1 : r'.dec.phase ≠ 0#2 → r'.nbit.toNat < 30 → nbit.toNat < 30)
    (h : R2Effect cfg r r') : R2Effect cfg r { r' with w := w, nbit := nbit } := by
  cases h with
  | shifted w' nbit' h0' h1' =>
    exact .shifted w nbit (fun hp => (h0 hp).trans (h0' hp)) fun hp hn => h1 hp (h1' hp hn)
  | synced w' nbit' v d hp hn hv hd => exact .synced w nbit v d hp (h1 phase_one_ne_zero hn) hv hd
  | rejected w' hp =>
    obtain rfl := h0 rfl
    exact .rejected w hp
  | word w' nbit' d hp hcap hn hlt => exact .word w nbit d hp hcap (h1 hp hn) hlt
  | complete w' d hp hcap hlt =>
    obtain rfl := h0 rfl
    exact .complete w d hp hcap hlt

/-- The accumulator on a return to Search is too empty for a preamble within the next 20 bits (R181). -/
theorem quiet_of_left {x : Decoder} {w : BitVec 32} {nbit : BitVec 5} {o : FrameOutcome} {k : Nat} (hx : x.phase = 0#2)
    (hk : k ≤ 20) : R2Run.Quiet k ⟨x, w &&& 3#32, nbit, o⟩ := by
  refine ⟨fun _ => ?_, fun h => absurd hx h⟩
  have hw : (w &&& 3#32).toNat ≤ 3 := by
    rw [BitVec.toNat_and]
    exact Nat.and_le_right
  calc ((w &&& 3#32).toNat + 1) * 2 ^ k ≤ 4 * 2 ^ 20 :=
        Nat.mul_le_mul (by omega) (Nat.pow_le_pow_right (by omega) hk)
    _ = 2 ^ 22 := by norm_num

/-- A word that starts or continues a frame is followed by 29 bits that complete none. -/
theorem quiet_of_synced {x : Decoder} {w : BitVec 32} {o : FrameOutcome} {k : Nat} (hx : x.phase ≠ 0#2) (hk : k < 30) :
    R2Run.Quiet k ⟨x, w, 0#5, o⟩ := ⟨fun h => absurd h hx, fun _ => by simpa using hk⟩

theorem r2OnWord_of_rejected {cfg : Config} {r : R2Run} (hd : hamDecode cfg r.w = none) :
    r2OnWord cfg r = some (r2Leave (.mismatch .parityMismatch) r) := by simp only [r2OnWord, hd]

theorem r2OnWord_of_accepted {cfg : Config} {r : R2Run} {d : BitVec 24} (hd : hamDecode cfg r.w = some d)
    (hcap : r.dec.n.toNat + 3 ≤ r2BufMax) :
    r2OnWord cfg r = some (
      if (r.dec.withWord cfg d).n < (r.dec.withWord cfg d).total then { r with dec := r.dec.withWord cfg d }
      else r2Leave (.ready (r.dec.withWord cfg d).total (BitVec.ofNat 16 ((r.dec.withWord cfg d).buf.getU 8 6)))
        { r with dec := r.dec.withWord cfg d }) := by
  simp only [r2OnWord, hd, if_pos hcap]
  exact (apply_ite some _ _ _).symm

theorem r2OnWord_of_no_room {cfg : Config} {r : R2Run} {d : BitVec 24} (hd : hamDecode cfg r.w = some d)
    (hcap : ¬ r.dec.n.toNat + 3 ≤ r2BufMax) : r2OnWord cfg r = none := by
  simp only [r2OnWord, hd, if_neg hcap]

/-- What a complete word while Synced does (R177 to R180). -/
theorem r2OnWord_cases (cfg : Config) (r : R2Run) (hp : r.dec.phase ≠ 0#2) (hn : r.nbit = 0#5) :
    (r2OnWord cfg r = none ∧ r2BufMax < r.dec.n.toNat + 3) ∨
    (∃ r', r2OnWord cfg r = some r' ∧ R2Effect cfg r r' ∧ r'.Quiet 20) := by
  obtain ⟨x, w, nbit, o⟩ := r
  obtain rfl : nbit = 0#5 := hn
  cases hd : hamDecode cfg w with
  | none => exact .inr ⟨_, r2OnWord_of_rejected hd, .rejected _ hp, quiet_of_left rfl (by omega)⟩
  | some d =>
    by_cases hcap : x.n.toNat + 3 ≤ r2BufMax
    · refine .inr ⟨_, r2OnWord_of_accepted hd hcap, ?_⟩
      split
      · next hlt => exact ⟨.word _ _ d hp hcap (show (0#5).toNat < 30 by decide) hlt, quiet_of_synced hp (by omega)⟩
      · next hlt => exact ⟨.complete _ d hp hcap hlt, quiet_of_left rfl (by omega)⟩
    · exact .inl ⟨r2OnWord_of_no_room hd hcap, by simpa using hcap⟩

/-- What one bit does (R171, R175 to R180): it completes no word; or it does, and the next bits do not; or the buffer has
no room. -/
theorem r2OnBit_cases (cfg : Config) (bit : Bool) (r : R2Run) :
    (∃ w nbit, r2OnBit cfg bit r = some { r with w := w, nbit := nbit } ∧
      (r.dec.phase = 0#2 → nbit = r.nbit) ∧ (r.dec.phase ≠ 0#2 → nbit.toNat < 30)) ∨
    (∃ r', r2OnBit cfg bit r = some r' ∧ R2Effect cfg r r' ∧ r'.Quiet 20) ∨
    (r2OnBit cfg bit r = none ∧ r.dec.phase ≠ 0#2 ∧ r2BufMax < r.dec.n.toNat + 3) := by
  unfold r2OnBit
  dsimp only
  by_cases hp : r.dec.phase = 0#2
  · rw [if_pos hp]
    unfold r2OnSearch
    dsimp only
    split
    · next hpre =>
      split
      · next d hd =>
        exact .inr (.inl ⟨_, rfl, .synced _ _ _ d hp (by decide) hpre hd, quiet_of_synced phase_one_ne_zero (by omega)⟩)
      · exact .inl ⟨_, r.nbit, rfl, fun _ => rfl, fun h => absurd hp h⟩
    · exact .inl ⟨_, r.nbit, rfl, fun _ => rfl, fun h => absurd hp h⟩
  · rw [if_neg hp]
    split
    · next hn =>
      refine .inl ⟨_, _, rfl, fun h => absurd h hp, fun _ => ?_⟩
      rw [BitVec.toNat_add]
      exact (Nat.mod_le _ _).trans_lt hn
    · rcases r2OnWord_cases cfg { r with w := r2Shift r.w bit, nbit := 0#5 } hp rfl with ⟨h, hcap⟩ | ⟨r', h, heff, hq⟩
      · exact .inr (.inr ⟨h, hp, hcap⟩)
      · exact .inr (.inl ⟨r', h, heff.after_shift (fun h => absurd h hp) (fun _ => by decide), hq⟩)

/-! ### What a byte can do -/

/-- The bits of a byte: one effect, or no room in the buffer. -/
theorem r2OnBits_cases (cfg : Config) (bits : List Bool) (r : R2Run) (hlen : bits.length ≤ 6) :
    (∃ r', r2OnBits cfg bits r = some r' ∧ R2Effect cfg r r') ∨
    (r2OnBits cfg bits r = none ∧ r.dec.phase ≠ 0#2 ∧ r2BufMax < r.dec.n.toNat + 3) := by
  induction bits generalizing r with
  | nil => exact .inl ⟨r, rfl, .shifted r.w r.nbit (fun _ => rfl) fun _ h => h⟩
  | cons bit bits ih =>
    have hlen' : bits.length ≤ 5 := Nat.le_of_succ_le_succ hlen
    rcases r2OnBit_cases cfg bit r with ⟨w, nbit, hbit, h0, h1⟩ | ⟨r', hbit, heff, hquiet⟩ | ⟨hbit, hroom⟩
    · simp only [r2OnBits, hbit]
      rcases ih { r with w := w, nbit := nbit } (by omega) with ⟨r', h, heff⟩ | hnone
      · exact .inl ⟨r', h, heff.after_shift h0 h1⟩
      · exact .inr hnone
    · simp only [r2OnBits, hbit]
      have hquiet' : r'.Quiet bits.length :=
        ⟨fun hp => (Nat.mul_le_mul_left _ (Nat.pow_le_pow_right (by omega) (by omega))).trans (hquiet.1 hp),
          fun hp => by have := hquiet.2 hp; omega⟩
      obtain ⟨w, nbit, h, h0, h1⟩ := r2OnBits_of_quiet (cfg := cfg) hquiet'
      exact .inl ⟨_, h, heff.before_shift h0 h1⟩
    · simp only [r2OnBits, hbit]
      exact .inr ⟨trivial, hroom⟩

theorem length_r2PayloadBits (cfg : Config) (b : Byte) : (r2PayloadBits cfg b).length = 6 := by
  unfold r2PayloadBits
  split <;> rfl

/-- READ.R2's phase rule has one of the effects above. -/
theorem r2Rule_effect {cfg : Config} {b : Byte} {r r' : R2Run} (h : readRule cfg b .r2 r = some r') :
    R2Effect cfg r r' := by
  rcases r2OnBits_cases cfg (r2PayloadBits cfg b) r (length_r2PayloadBits cfg b).le with ⟨m, hm, heff⟩ | ⟨hm, -⟩
  · obtain rfl : m = r' := Option.some.inj (hm.symm.trans h)
    exact heff
  · exact nomatch hm.symm.trans h

/-- READ.R2's phase rule gives a result whenever the buffer has room for a word. -/
theorem r2Rule_of_room {cfg : Config} {r : R2Run} (b : Byte)
    (hroom : r.dec.phase ≠ 0#2 → r.dec.n.toNat + 3 ≤ r2BufMax) :
    ∃ r', readRule cfg b .r2 r = some r' ∧ R2Effect cfg r r' := by
  rcases r2OnBits_cases cfg (r2PayloadBits cfg b) r (length_r2PayloadBits cfg b).le with h | ⟨-, hp, hcap⟩
  · exact h
  · exact absurd (hroom hp) (by omega)

end Sys2Proof.Machine
end

section
/-! PROOFS. The byte-oriented decoders: for each, everything its phase rule can do with a byte, and when it can do nothing
(`42_frame_asv.md`, `44_frame_rtcm3.md`, `45_frame_sbf.md`). -/

namespace Sys2Proof.Machine

/-! ### Storing a byte of a frame -/

/-- The decoder with one more byte of its frame stored (R150). -/
def Decoder.stored (b : Byte) (x : Decoder) : Decoder :=
  { x with buf := x.buf.write x.n.toNat b, n := x.n + 1#16 }

@[simp] theorem Decoder.stored_phase (b : Byte) (x : Decoder) : (x.stored b).phase = x.phase := rfl
@[simp] theorem Decoder.stored_n (b : Byte) (x : Decoder) : (x.stored b).n = x.n + 1#16 := rfl
@[simp] theorem Decoder.stored_total (b : Byte) (x : Decoder) : (x.stored b).total = x.total := rfl
@[simp] theorem Decoder.stored_errcnt (b : Byte) (x : Decoder) : (x.stored b).errcnt = x.errcnt := rfl
@[simp] theorem Decoder.stored_fvalid (b : Byte) (x : Decoder) : (x.stored b).fvalid = x.fvalid := rfl
@[simp] theorem Decoder.stored_flen (b : Byte) (x : Decoder) : (x.stored b).flen = x.flen := rfl
@[simp] theorem Decoder.stored_fid (b : Byte) (x : Decoder) : (x.stored b).fid = x.fid := rfl
@[simp] theorem Decoder.stored_buf (b : Byte) (x : Decoder) : (x.stored b).buf = x.buf.write x.n.toNat b := rfl

theorem Decoder.append_eq_stored {cap : Nat} {b : Byte} {x : Decoder} :
    x.append cap b = if x.n.toNat < cap then some (x.stored b) else none := rfl

theorem phase_cases (p : BitVec 2) : p = 0#2 ∨ p = 1#2 ∨ p = 2#2 ∨ p = 3#2 := by revert p; decide

/-! ### Asv -/

/-- The outcome of the integrity check of a complete Asv frame (R156 to R158). -/
def asvVerdict (cfg : Config) (x : Decoder) : FrameOutcome :=
  if crc16 cfg (x.buf.readRange 0 (x.total.toNat - 2)) = x.buf.word16 cfg.asvCrcLe (x.total.toNat - 2) then
    .ready x.total (x.buf.word16 cfg.asvIdLe asvIdOfs)
  else .mismatch .crcMismatch

theorem asvCheck_eq (cfg : Config) (x : Decoder) :
    asvCheck cfg x =
      if 2 ≤ x.total.toNat ∧ x.total.toNat ≤ asvMax then some (x.resync, asvVerdict cfg x) else none := by
  unfold asvCheck asvVerdict
  dsimp only
  split
  · split <;> rfl
  · rfl

/-- The total length an Asv header announces (R154). -/
def asvAnnounced (x : Decoder) : Nat := (x.buf.word16 true asvLenOfs).toNat + asvOverhead

/-- What the Asv phase rule does with a byte (R152 to R158). -/
inductive AsvStep (cfg : Config) (b : Byte) (x : Decoder) : Decoder → FrameOutcome → Prop
  | ignored : x.phase = 0#2 → b ≠ asvSync1 → AsvStep cfg b x x .more
  | started : x.phase = 0#2 → b = asvSync1 → AsvStep cfg b x (x.start b 1#2) .more
  | dropped : x.phase = 1#2 → b ≠ asvSync2 → AsvStep cfg b x x.resync .more
  | second : x.phase = 1#2 → b = asvSync2 →
      AsvStep cfg b x { x with buf := x.buf.write 1 b, n := 2#16, phase := 2#2 } .more
  | header : x.phase = 2#2 → x.n.toNat < asvMax → x.n + 1#16 ≠ 4#16 → AsvStep cfg b x (x.stored b) .more
  | oversize : x.phase = 2#2 → x.n.toNat < asvMax → x.n + 1#16 = 4#16 → asvMax < asvAnnounced (x.stored b) →
      AsvStep cfg b x (x.stored b).resync .more
  | sized : x.phase = 2#2 → x.n.toNat < asvMax → x.n + 1#16 = 4#16 → asvAnnounced (x.stored b) ≤ asvMax →
      AsvStep cfg b x
        { x.stored b with total := BitVec.ofNat 16 (asvAnnounced (x.stored b)), phase := 3#2 } .more
  | message : x.phase = 3#2 → x.n.toNat < asvMax → x.n + 1#16 < x.total → AsvStep cfg b x (x.stored b) .more
  | last : x.phase = 3#2 → x.n.toNat < asvMax → ¬ x.n + 1#16 < x.total → 2 ≤ x.total.toNat → x.total.toNat ≤ asvMax →
      AsvStep cfg b x (x.stored b).resync (asvVerdict cfg (x.stored b))

theorem asvOnLength_eq (b : Byte) (x : Decoder) :
    asvOnLength b x =
      if x.n.toNat < asvMax then
        if x.n + 1#16 = 4#16 then
          if asvMax < asvAnnounced (x.stored b) then some ((x.stored b).resync, .more)
          else some ({ x.stored b with total := BitVec.ofNat 16 (asvAnnounced (x.stored b)), phase := 3#2 }, .more)
        else some (x.stored b, .more)
      else none := by
  rw [asvOnLength, Decoder.append_eq_stored]
  by_cases hn : x.n.toNat < asvMax
  · simp only [if_pos hn]; rfl
  · simp only [if_neg hn]

theorem asvOnMessage_eq (cfg : Config) (b : Byte) (x : Decoder) :
    asvOnMessage cfg b x =
      if x.n.toNat < asvMax then
        if x.n + 1#16 < x.total then some (x.stored b, .more)
        else if 2 ≤ x.total.toNat ∧ x.total.toNat ≤ asvMax then
          some ((x.stored b).resync, asvVerdict cfg (x.stored b))
        else none
      else none := by
  rw [asvOnMessage, Decoder.append_eq_stored]
  by_cases hn : x.n.toNat < asvMax
  · simp only [if_pos hn, asvCheck_eq]; rfl
  · simp only [if_neg hn]

theorem asvRule_eq_some {cfg : Config} {b : Byte} {x y : Decoder} {o : FrameOutcome} :
    asvRule cfg b x = some (y, o) ↔ AsvStep cfg b x y o := by
  constructor
  · intro h
    rcases phase_cases x.phase with hp | hp | hp | hp
    · replace h : asvOnSync1 b x = some (y, o) := by simpa [asvRule, hp] using h
      unfold asvOnSync1 at h
      split at h
      · next hb => cases h; exact .started hp hb
      · next hb => cases h; exact .ignored hp hb
    · replace h : asvOnSync2 b x = some (y, o) := by simpa [asvRule, hp] using h
      unfold asvOnSync2 at h
      split at h
      · next hb => cases h; exact .second hp hb
      · next hb => cases h; exact .dropped hp hb
    · replace h : asvOnLength b x = some (y, o) := by simpa [asvRule, hp] using h
      rw [asvOnLength_eq] at h
      split at h
      · next hn =>
        split at h
        · next h4 =>
          split at h
          · next hs => cases h; exact .oversize hp hn h4 hs
          · next hs => cases h; exact .sized hp hn h4 (Nat.not_lt.1 hs)
        · next h4 => cases h; exact .header hp hn h4
      · cases h
    · replace h : asvOnMessage cfg b x = some (y, o) := by simpa [asvRule, hp] using h
      rw [asvOnMessage_eq] at h
      split at h
      · next hn =>
        split at h
        · next hlt => cases h; exact .message hp hn hlt
        · next hlt =>
          split at h
          · next ht => cases h; exact .last hp hn hlt ht.1 ht.2
          · cases h
      · cases h
  · intro h
    cases h with
    | ignored hp hb => simp [asvRule, hp, asvOnSync1, hb]
    | started hp hb => simp [asvRule, hp, asvOnSync1, hb]
    | dropped hp hb => simp [asvRule, hp, asvOnSync2, hb]
    | second hp hb => simp [asvRule, hp, asvOnSync2, hb]
    | header hp hn h4 => simp [asvRule, hp, asvOnLength_eq, hn, h4]
    | oversize hp hn h4 hs => simp [asvRule, hp, asvOnLength_eq, hn, h4, hs]
    | sized hp hn h4 hs => simp [asvRule, hp, asvOnLength_eq, hn, h4, hs]
    | message hp hn hlt => simp [asvRule, hp, asvOnMessage_eq, hn, hlt]
    | last hp hn hlt h2 hmax => simp [asvRule, hp, asvOnMessage_eq, hn, hlt, h2, hmax]

/-! ### RTCM v3 -/

/-- The outcome of the integrity check of a complete RTCM v3 frame (R207, R208). -/
def r3Verdict (cfg : Config) (x : Decoder) : FrameOutcome :=
  if (crc24q cfg (x.buf.readRange 0 (x.total.toNat - 3))).toNat = x.buf.getU (8 * (x.total.toNat - 3)) 24 then
    .ready x.total (BitVec.ofNat 16 (x.buf.getU 24 12))
  else .mismatch .crcMismatch

theorem r3Check_eq (cfg : Config) (x : Decoder) :
    r3Check cfg x =
      if 3 ≤ x.total.toNat ∧ x.total.toNat ≤ cfg.r3BufMax then some (x.resync, r3Verdict cfg x) else none := by
  unfold r3Check r3Verdict
  dsimp only
  split
  · split <;> rfl
  · rfl

/-- The payload length an RTCM v3 header announces (R203). -/
def r3Announced (x : Decoder) : Nat := x.buf.getU 14 10

/-- What the RTCM v3 phase rule does with a byte (R202 to R208). -/
inductive R3Step (cfg : Config) (b : Byte) (x : Decoder) : Decoder → FrameOutcome → Prop
  | ignored : x.phase = 0#2 → b ≠ cfg.r3Preamble → R3Step cfg b x x .more
  | started : x.phase = 0#2 → b = cfg.r3Preamble → R3Step cfg b x (x.start b 1#2) .more
  | header : x.phase = 1#2 → x.n.toNat < cfg.r3BufMax → x.n + 1#16 ≠ 3#16 → R3Step cfg b x (x.stored b) .more
  | oversize : x.phase = 1#2 → x.n.toNat < cfg.r3BufMax → x.n + 1#16 = 3#16 →
      cfg.r3BufMax < r3Announced (x.stored b) + 6 → R3Step cfg b x (x.stored b).resync .more
  | sized : x.phase = 1#2 → x.n.toNat < cfg.r3BufMax → x.n + 1#16 = 3#16 →
      r3Announced (x.stored b) + 6 ≤ cfg.r3BufMax →
      R3Step cfg b x
        { x.stored b with
          total := BitVec.ofNat 16 (r3Announced (x.stored b) + 6)
          phase := if r3Announced (x.stored b) = 0 then 3#2 else 2#2 } .more
  | payload : x.phase = 2#2 → x.n.toNat < cfg.r3BufMax → (x.n + 1#16).toNat + 3 ≠ x.total.toNat →
      R3Step cfg b x (x.stored b) .more
  | payloadEnd : x.phase = 2#2 → x.n.toNat < cfg.r3BufMax → (x.n + 1#16).toNat + 3 = x.total.toNat →
      R3Step cfg b x { x.stored b with phase := 3#2 } .more
  | crc : x.phase = 3#2 → x.n.toNat < cfg.r3BufMax → x.n + 1#16 < x.total → R3Step cfg b x (x.stored b) .more
  | last : x.phase = 3#2 → x.n.toNat < cfg.r3BufMax → ¬ x.n + 1#16 < x.total → 3 ≤ x.total.toNat →
      x.total.toNat ≤ cfg.r3BufMax → R3Step cfg b x (x.stored b).resync (r3Verdict cfg (x.stored b))

theorem r3OnLength_eq (cfg : Config) (b : Byte) (x : Decoder) :
    r3OnLength cfg b x =
      if x.n.toNat < cfg.r3BufMax then
        if x.n + 1#16 = 3#16 then
          if cfg.r3BufMax < r3Announced (x.stored b) + 6 then some ((x.stored b).resync, .more)
          else some ({ x.stored b with
            total := BitVec.ofNat 16 (r3Announced (x.stored b) + 6)
            phase := if r3Announced (x.stored b) = 0 then 3#2 else 2#2 }, .more)
        else some (x.stored b, .more)
      else none := by
  rw [r3OnLength, Decoder.append_eq_stored]
  by_cases hn : x.n.toNat < cfg.r3BufMax
  · simp only [if_pos hn]; rfl
  · simp only [if_neg hn]

theorem r3OnPayload_eq (cfg : Config) (b : Byte) (x : Decoder) :
    r3OnPayload cfg b x =
      if x.n.toNat < cfg.r3BufMax then
        if (x.n + 1#16).toNat + 3 = x.total.toNat then some ({ x.stored b with phase := 3#2 }, .more)
        else some (x.stored b, .more)
      else none := by
  rw [r3OnPayload, Decoder.append_eq_stored]
  by_cases hn : x.n.toNat < cfg.r3BufMax
  · simp only [if_pos hn]; rfl
  · simp only [if_neg hn]

theorem r3OnCrc_eq (cfg : Config) (b : Byte) (x : Decoder) :
    r3OnCrc cfg b x =
      if x.n.toNat < cfg.r3BufMax then
        if x.n + 1#16 < x.total then some (x.stored b, .more)
        else if 3 ≤ x.total.toNat ∧ x.total.toNat ≤ cfg.r3BufMax then
          some ((x.stored b).resync, r3Verdict cfg (x.stored b))
        else none
      else none := by
  rw [r3OnCrc, Decoder.append_eq_stored]
  by_cases hn : x.n.toNat < cfg.r3BufMax
  · simp only [if_pos hn, r3Check_eq]; rfl
  · simp only [if_neg hn]

theorem r3Rule_eq_some {cfg : Config} {b : Byte} {x y : Decoder} {o : FrameOutcome} :
    r3Rule cfg b x = some (y, o) ↔ R3Step cfg b x y o := by
  constructor
  · intro h
    rcases phase_cases x.phase with hp | hp | hp | hp
    · replace h : r3OnSync cfg b x = some (y, o) := by simpa [r3Rule, hp] using h
      unfold r3OnSync at h
      split at h
      · next hb => cases h; exact .started hp hb
      · next hb => cases h; exact .ignored hp hb
    · replace h : r3OnLength cfg b x = some (y, o) := by simpa [r3Rule, hp] using h
      rw [r3OnLength_eq] at h
      split at h
      · next hn =>
        split at h
        · next h3 =>
          split at h
          · next hs => cases h; exact .oversize hp hn h3 hs
          · next hs => cases h; exact .sized hp hn h3 (Nat.not_lt.1 hs)
        · next h3 => cases h; exact .header hp hn h3
      · cases h
    · replace h : r3OnPayload cfg b x = some (y, o) := by simpa [r3Rule, hp] using h
      rw [r3OnPayload_eq] at h
      split at h
      · next hn =>
        split at h
        · next he => cases h; exact .payloadEnd hp hn he
        · next he => cases h; exact .payload hp hn he
      · cases h
    · replace h : r3OnCrc cfg b x = some (y, o) := by simpa [r3Rule, hp] using h
      rw [r3OnCrc_eq] at h
      split at h
      · next hn =>
        split at h
        · next hlt => cases h; exact .crc hp hn hlt
        · next hlt =>
          split at h
          · next ht => cases h; exact .last hp hn hlt ht.1 ht.2
          · cases h
      · cases h
  · intro h
    cases h with
    | ignored hp hb => simp [r3Rule, hp, r3OnSync, hb]
    | started hp hb => simp [r3Rule, hp, r3OnSync, hb]
    | header hp hn h3 => simp [r3Rule, hp, r3OnLength_eq, hn, h3]
    | oversize hp hn h3 hs => simp [r3Rule, hp, r3OnLength_eq, hn, h3, hs]
    | sized hp hn h3 hs => simp [r3Rule, hp, r3OnLength_eq, hn, h3, hs]
    | payload hp hn he => simp only [r3Rule, hp, r3OnPayload_eq, if_pos hn, if_neg he]; rfl
    | payloadEnd hp hn he => simp only [r3Rule, hp, r3OnPayload_eq, if_pos hn, if_pos he]; rfl
    | crc hp hn hlt => simp [r3Rule, hp, r3OnCrc_eq, hn, hlt]
    | last hp hn hlt h3 hmax => simp [r3Rule, hp, r3OnCrc_eq, hn, hlt, h3, hmax]

/-! ### SBF-style -/

/-- The outcome of the integrity check of a complete SBF-style frame (R227 to R229). -/
def sbfVerdict (cfg : Config) (x : Decoder) : FrameOutcome :=
  if crc16 cfg (x.buf.readRange 4 (x.total.toNat - 4)) = x.buf.word16 cfg.sbfLe 2 then
    .ready x.total (x.buf.word16 cfg.sbfLe 4)
  else .mismatch .crcMismatch

theorem sbfCheck_eq (cfg : Config) (x : Decoder) :
    sbfCheck cfg x =
      if 4 ≤ x.total.toNat ∧ x.total.toNat ≤ cfg.sbfBufMax then some (x.resync, sbfVerdict cfg x) else none := by
  unfold sbfCheck sbfVerdict
  dsimp only
  split
  · split <;> rfl
  · rfl

/-- The total length an SBF-style header announces (R225). -/
def sbfAnnounced (cfg : Config) (x : Decoder) : BitVec 16 := x.buf.word16 cfg.sbfLe 6

/-- What the SBF-style phase rule does with a byte (R222 to R229). -/
inductive SbfStep (cfg : Config) (b : Byte) (x : Decoder) : Decoder → FrameOutcome → Prop
  | ignored : x.phase = 0#2 → b ≠ cfg.sbfSync1 → SbfStep cfg b x x .more
  | started : x.phase = 0#2 → b = cfg.sbfSync1 → SbfStep cfg b x (x.start b 1#2) .more
  | dropped : x.phase = 1#2 → b ≠ cfg.sbfSync2 → SbfStep cfg b x x.resync .more
  | second : x.phase = 1#2 → b = cfg.sbfSync2 →
      SbfStep cfg b x { x with buf := x.buf.write 1 b, n := 2#16, phase := 2#2 } .more
  | header : x.phase = 2#2 → x.n.toNat < cfg.sbfBufMax → x.n + 1#16 ≠ 8#16 → SbfStep cfg b x (x.stored b) .more
  | badLength : x.phase = 2#2 → x.n.toNat < cfg.sbfBufMax → x.n + 1#16 = 8#16 →
      (sbfAnnounced cfg (x.stored b)).toNat < sbfHdr ∨ cfg.sbfBufMax < (sbfAnnounced cfg (x.stored b)).toNat →
      SbfStep cfg b x (x.stored b).resync .more
  | headerOnly : x.phase = 2#2 → x.n.toNat < cfg.sbfBufMax → x.n + 1#16 = 8#16 →
      (sbfAnnounced cfg (x.stored b)).toNat = sbfHdr → sbfHdr ≤ cfg.sbfBufMax →
      SbfStep cfg b x (x.stored b).resync
        (sbfVerdict cfg { x.stored b with total := sbfAnnounced cfg (x.stored b) })
  | sized : x.phase = 2#2 → x.n.toNat < cfg.sbfBufMax → x.n + 1#16 = 8#16 →
      sbfHdr < (sbfAnnounced cfg (x.stored b)).toNat → (sbfAnnounced cfg (x.stored b)).toNat ≤ cfg.sbfBufMax →
      SbfStep cfg b x { x.stored b with total := sbfAnnounced cfg (x.stored b), phase := 3#2 } .more
  | message : x.phase = 3#2 → x.n.toNat < cfg.sbfBufMax → x.n + 1#16 < x.total → SbfStep cfg b x (x.stored b) .more
  | last : x.phase = 3#2 → x.n.toNat < cfg.sbfBufMax → ¬ x.n + 1#16 < x.total → 4 ≤ x.total.toNat →
      x.total.toNat ≤ cfg.sbfBufMax → SbfStep cfg b x (x.stored b).resync (sbfVerdict cfg (x.stored b))

theorem sbfOnHeader_eq (cfg : Config) (b : Byte) (x : Decoder) :
    sbfOnHeader cfg b x =
      if x.n.toNat < cfg.sbfBufMax then
        if x.n + 1#16 = 8#16 then
          if (sbfAnnounced cfg (x.stored b)).toNat < sbfHdr ∨
              cfg.sbfBufMax < (sbfAnnounced cfg (x.stored b)).toNat then
            some ((x.stored b).resync, .more)
          else if (sbfAnnounced cfg (x.stored b)).toNat = sbfHdr then
            sbfCheck cfg { x.stored b with total := sbfAnnounced cfg (x.stored b) }
          else some ({ x.stored b with total := sbfAnnounced cfg (x.stored b), phase := 3#2 }, .more)
        else some (x.stored b, .more)
      else none := by
  rw [sbfOnHeader, Decoder.append_eq_stored]
  by_cases hn : x.n.toNat < cfg.sbfBufMax
  · simp only [if_pos hn]; rfl
  · simp only [if_neg hn]

theorem sbfOnMessage_eq (cfg : Config) (b : Byte) (x : Decoder) :
    sbfOnMessage cfg b x =
      if x.n.toNat < cfg.sbfBufMax then
        if x.n + 1#16 < x.total then some (x.stored b, .more)
        else if 4 ≤ x.total.toNat ∧ x.total.toNat ≤ cfg.sbfBufMax then
          some ((x.stored b).resync, sbfVerdict cfg (x.stored b))
        else none
      else none := by
  rw [sbfOnMessage, Decoder.append_eq_stored]
  by_cases hn : x.n.toNat < cfg.sbfBufMax
  · simp only [if_pos hn, sbfCheck_eq]; rfl
  · simp only [if_neg hn]

/-- The check of a frame that is its header alone (R225). -/
theorem sbfCheck_of_header {cfg : Config} {x : Decoder} (ht : x.total.toNat = sbfHdr) (hcap : sbfHdr ≤ cfg.sbfBufMax) :
    sbfCheck cfg x = some (x.resync, sbfVerdict cfg x) := by
  rw [sbfCheck_eq, if_pos]
  rw [ht]
  exact ⟨by decide, hcap⟩

theorem sbfRule_of_header {cfg : Config} {b : Byte} {x : Decoder} (hp : x.phase = 2#2) :
    sbfRule cfg b x = sbfOnHeader cfg b x := by simp [sbfRule, hp]

theorem sbfRule_eq_some {cfg : Config} {b : Byte} {x y : Decoder} {o : FrameOutcome} :
    sbfRule cfg b x = some (y, o) ↔ SbfStep cfg b x y o := by
  constructor
  · intro h
    rcases phase_cases x.phase with hp | hp | hp | hp
    · replace h : sbfOnSync1 cfg b x = some (y, o) := by simpa [sbfRule, hp] using h
      unfold sbfOnSync1 at h
      split at h
      · next hb => cases h; exact .started hp hb
      · next hb => cases h; exact .ignored hp hb
    · replace h : sbfOnSync2 cfg b x = some (y, o) := by simpa [sbfRule, hp] using h
      unfold sbfOnSync2 at h
      split at h
      · next hb => cases h; exact .second hp hb
      · next hb => cases h; exact .dropped hp hb
    · replace h : sbfOnHeader cfg b x = some (y, o) := by simpa [sbfRule, hp] using h
      rw [sbfOnHeader_eq] at h
      split at h
      · next hn =>
        split at h
        · next h8 =>
          split at h
          · next hs => cases h; exact .badLength hp hn h8 hs
          · next hs =>
            obtain ⟨hmin, hmax⟩ := not_or.1 hs
            split at h
            · next he =>
              have hcap : sbfHdr ≤ cfg.sbfBufMax := he ▸ Nat.not_lt.1 hmax
              rw [sbfCheck_of_header he hcap] at h
              cases h
              exact .headerOnly hp hn h8 he hcap
            · next he => cases h; exact .sized hp hn h8 (by omega) (Nat.not_lt.1 hmax)
        · next h8 => cases h; exact .header hp hn h8
      · cases h
    · replace h : sbfOnMessage cfg b x = some (y, o) := by simpa [sbfRule, hp] using h
      rw [sbfOnMessage_eq] at h
      split at h
      · next hn =>
        split at h
        · next hlt => cases h; exact .message hp hn hlt
        · next hlt =>
          split at h
          · next ht => cases h; exact .last hp hn hlt ht.1 ht.2
          · cases h
      · cases h
  · intro h
    cases h with
    | ignored hp hb => simp [sbfRule, hp, sbfOnSync1, hb]
    | started hp hb => simp [sbfRule, hp, sbfOnSync1, hb]
    | dropped hp hb => simp [sbfRule, hp, sbfOnSync2, hb]
    | second hp hb => simp [sbfRule, hp, sbfOnSync2, hb]
    | header hp hn h8 => simp [sbfRule, hp, sbfOnHeader_eq, hn, h8]
    | badLength hp hn h8 hs => simp [sbfRule, hp, sbfOnHeader_eq, hn, h8, hs]
    | headerOnly hp hn h8 he hcap =>
      have hs := not_or.2 ⟨Nat.not_lt.2 he.ge, Nat.not_lt.2 (he.trans_le hcap)⟩
      rw [sbfRule_of_header hp, sbfOnHeader_eq, if_pos hn, if_pos h8, if_neg hs, if_pos he, sbfCheck_of_header he hcap]
      rfl
    | sized hp hn h8 hmin hmax =>
      have hs := not_or.2 ⟨Nat.not_lt.2 hmin.le, Nat.not_lt.2 hmax⟩
      rw [sbfRule_of_header hp, sbfOnHeader_eq, if_pos hn, if_pos h8, if_neg hs, if_neg hmin.ne']
    | message hp hn hlt => simp [sbfRule, hp, sbfOnMessage_eq, hn, hlt]
    | last hp hn hlt h4 hmax => simp [sbfRule, hp, sbfOnMessage_eq, hn, hlt, h4, hmax]

/-! ### What every byte-oriented decoder does -/

/-- What a byte-oriented phase rule can do to the registers it works on, the protocol aside. `twoSync` says that a frame
starts with two sync bytes. -/
inductive ByteMove (twoSync : Bool) (b : Byte) (x : Decoder) : Decoder → FrameOutcome → Prop
  | ignored : x.phase = 0#2 → ByteMove twoSync b x x .more
  | started : x.phase = 0#2 → ByteMove twoSync b x (x.start b 1#2) .more
  | dropped : x.phase = 1#2 → ByteMove twoSync b x x.resync .more
  | second : twoSync = true → x.phase = 1#2 →
      ByteMove twoSync b x { x with buf := x.buf.write 1 b, n := 2#16, phase := 2#2 } .more
  | stored (p : BitVec 2) (total : BitVec 16) : x.phase ≠ 0#2 →
      ByteMove twoSync b x { x.stored b with phase := p, total := total } .more
  | ended (o : FrameOutcome) : x.phase ≠ 0#2 → (∀ e, o = .mismatch e → e = .crcMismatch) →
      ByteMove twoSync b x (x.stored b).resync o

theorem phase_ne_zero {p q : BitVec 2} (hp : p = q) (hq : q ≠ 0#2) : p ≠ 0#2 := hp ▸ hq

theorem asvVerdict_mismatch {cfg : Config} {x : Decoder} {e : Event} (h : asvVerdict cfg x = .mismatch e) :
    e = .crcMismatch := by
  unfold asvVerdict at h
  split at h <;> cases h
  rfl

theorem r3Verdict_mismatch {cfg : Config} {x : Decoder} {e : Event} (h : r3Verdict cfg x = .mismatch e) :
    e = .crcMismatch := by
  unfold r3Verdict at h
  split at h <;> cases h
  rfl

theorem sbfVerdict_mismatch {cfg : Config} {x : Decoder} {e : Event} (h : sbfVerdict cfg x = .mismatch e) :
    e = .crcMismatch := by
  unfold sbfVerdict at h
  split at h <;> cases h
  rfl

theorem AsvStep.move {cfg : Config} {b : Byte} {x y : Decoder} {o : FrameOutcome} (h : AsvStep cfg b x y o) :
    ByteMove true b x y o := by
  cases h with
  | ignored hp _ => exact .ignored hp
  | started hp _ => exact .started hp
  | dropped hp _ => exact .dropped hp
  | second hp _ => exact .second rfl hp
  | header hp _ _ | message hp _ _ => exact .stored x.phase x.total (phase_ne_zero hp (by decide))
  | sized hp _ _ _ => exact .stored _ _ (phase_ne_zero hp (by decide))
  | oversize hp _ _ _ => exact .ended _ (phase_ne_zero hp (by decide)) nofun
  | last hp _ _ _ _ => exact .ended _ (phase_ne_zero hp (by decide)) fun _ => asvVerdict_mismatch

theorem R3Step.move {cfg : Config} {b : Byte} {x y : Decoder} {o : FrameOutcome} (h : R3Step cfg b x y o) :
    ByteMove false b x y o := by
  cases h with
  | ignored hp _ => exact .ignored hp
  | started hp _ => exact .started hp
  | header hp _ _ | payload hp _ _ | crc hp _ _ => exact .stored x.phase x.total (phase_ne_zero hp (by decide))
  | payloadEnd hp _ _ => exact .stored _ x.total (phase_ne_zero hp (by decide))
  | sized hp _ _ _ => exact .stored _ _ (phase_ne_zero hp (by decide))
  | oversize hp _ _ _ => exact .ended _ (phase_ne_zero hp (by decide)) nofun
  | last hp _ _ _ _ => exact .ended _ (phase_ne_zero hp (by decide)) fun _ => r3Verdict_mismatch

theorem SbfStep.move {cfg : Config} {b : Byte} {x y : Decoder} {o : FrameOutcome} (h : SbfStep cfg b x y o) :
    ByteMove true b x y o := by
  cases h with
  | ignored hp _ => exact .ignored hp
  | started hp _ => exact .started hp
  | dropped hp _ => exact .dropped hp
  | second hp _ => exact .second rfl hp
  | header hp _ _ | message hp _ _ => exact .stored x.phase x.total (phase_ne_zero hp (by decide))
  | sized hp _ _ _ _ => exact .stored _ _ (phase_ne_zero hp (by decide))
  | badLength hp _ _ _ => exact .ended _ (phase_ne_zero hp (by decide)) nofun
  | headerOnly hp _ _ _ _ | last hp _ _ _ _ =>
    exact .ended _ (phase_ne_zero hp (by decide)) fun _ => sbfVerdict_mismatch

end Sys2Proof.Machine
end

section
/-! PROOFS. What every READ keeps: the counter and the flag of its decoder, every byte but those at address N, the rest of
the block; and the statements about error counters and about a READ's frame. -/

namespace Sys2Proof.Machine

/-! ### Registers and bytes a phase rule keeps -/

/-- A decoder whose flag is clear says nothing of a retained frame. -/
theorem nothing_retained {x : Decoder} {P : Prop} (hv : x.fvalid = false) (h : x.fvalid = true) : P :=
  absurd (hv.symm.trans h) (by decide)

theorem ByteMove.keeps {twoSync : Bool} {b : Byte} {x y : Decoder} {o : FrameOutcome} (h : ByteMove twoSync b x y o) :
    y.errcnt = x.errcnt ∧ y.fvalid = x.fvalid := by
  cases h <;> exact ⟨rfl, rfl⟩

theorem ByteMove.mismatch {twoSync : Bool} {b : Byte} {x y : Decoder} {e : Event}
    (h : ByteMove twoSync b x y (.mismatch e)) : e = .crcMismatch := by
  cases h with
  | ended _ _ he => exact he e rfl

/-- A byte that starts a frame completes none. -/
theorem ByteMove.more_of_search {twoSync : Bool} {b : Byte} {x y : Decoder} {o : FrameOutcome}
    (h : ByteMove twoSync b x y o) (hp : x.phase = 0#2) : o = .more := by
  cases h with
  | ended _ hp' _ => exact absurd hp hp'
  | _ => rfl

/-- A byte-oriented decoder stores at address N only (R150), which is 0 and 1 where the rule says so. -/
theorem ByteMove.read_other {twoSync : Bool} {b : Byte} {x y : Decoder} {o : FrameOutcome}
    (h : ByteMove twoSync b x y o) (h0 : x.phase = 0#2 → x.n = 0#16)
    (h1 : twoSync = true → x.phase = 1#2 → x.n = 1#16) {a : Nat} (ha : a ≠ x.n.toNat) :
    y.buf.read a = x.buf.read a := by
  cases h with
  | ignored _ | dropped _ => rfl
  | started hp => exact Memory.read_write_other _ _ (by simpa [h0 hp] using ha)
  | second ht hp => exact Memory.read_write_other _ _ (by simpa [h1 ht hp] using ha)
  | stored _ _ _ | ended _ _ _ => exact Memory.read_write_other _ _ ha

theorem Memory.read_write3_other (m : Memory) (d : BitVec 24) {a k : Nat} (h : k < a ∨ a + 3 ≤ k) :
    (m.write3 a d).read k = m.read k := by
  rw [Memory.write3, Memory.read_write_other _ _ (by omega), Memory.read_write_other _ _ (by omega),
    Memory.read_write_other _ _ (by omega)]

theorem R2Effect.keeps {cfg : Config} {r r' : R2Run} (h : R2Effect cfg r r') :
    r'.dec.errcnt = r.dec.errcnt ∧ r'.dec.fvalid = r.dec.fvalid := by
  cases h <;> exact ⟨rfl, rfl⟩

theorem R2Effect.mismatch {cfg : Config} {r r' : R2Run} {e : Event} (h : R2Effect cfg r r') (hr : r.out = .more)
    (he : r'.out = .mismatch e) : e = .parityMismatch := by
  cases h with
  | shifted | synced | word => exact nomatch hr.symm.trans he
  | rejected => exact (FrameOutcome.mismatch.inj he).symm
  | complete => cases he

/-- A byte that starts a frame completes none. -/
theorem R2Effect.more_of_search {cfg : Config} {r r' : R2Run} (h : R2Effect cfg r r') (hp : r.dec.phase = 0#2)
    (hr : r.out = .more) : r'.out = .more := by
  cases h with
  | shifted | synced | word => exact hr
  | rejected _ hp' | complete _ _ hp' _ _ => exact absurd hp hp'

/-- RTCM v2 stores at the addresses N to N + 2 only (R139). -/
theorem R2Effect.read_other {cfg : Config} {r r' : R2Run} (h : R2Effect cfg r r') (h0 : r.dec.phase = 0#2 → r.dec.n = 0#16)
    {a : Nat} (ha : a < r.dec.n.toNat ∨ r.dec.n.toNat + 3 ≤ a) : r'.dec.buf.read a = r.dec.buf.read a := by
  cases h with
  | shifted | rejected => rfl
  | synced _ _ _ d hp => exact Memory.read_write3_other _ d (by simpa [h0 hp] using ha)
  | word _ _ d | complete _ d => exact Memory.read_write3_other _ d ha

/-! ### The same for all decoders -/

/-- The move of a byte-oriented decoder's READ. -/
theorem readRule_move {cfg : Config} {b : Byte} {d : DecoderId} {r r' : R2Run} (hd : d ≠ .r2)
    (h : readRule cfg b d r = some r') : ByteMove (decide (d ≠ .r3)) b r.dec r'.dec r'.out := by
  cases d with
  | r2 => exact absurd rfl hd
  | asv =>
    obtain ⟨x, o, hx, rfl⟩ := R2Run.onByte_eq_some.1 h
    exact (asvRule_eq_some.1 hx).move
  | r3 =>
    obtain ⟨x, o, hx, rfl⟩ := R2Run.onByte_eq_some.1 h
    exact (r3Rule_eq_some.1 hx).move
  | sbf =>
    obtain ⟨x, o, hx, rfl⟩ := R2Run.onByte_eq_some.1 h
    exact (sbfRule_eq_some.1 hx).move

section
variable {cfg : Config} {b : Byte} {d : DecoderId} {r r' : R2Run}

/-- A phase rule keeps the counter and the flag of its decoder. -/
theorem readRule_keeps (h : readRule cfg b d r = some r') :
    r'.dec.errcnt = r.dec.errcnt ∧ r'.dec.fvalid = r.dec.fvalid := by
  by_cases hd : d = .r2
  · subst hd; exact (r2Rule_effect h).keeps
  · exact (readRule_move hd h).keeps

/-- The mismatch events of READ are the two of R270. -/
theorem readRule_mismatch {e : Event} (h : readRule cfg b d r = some r') (hr : r.out = .more)
    (he : r'.out = .mismatch e) : e = .crcMismatch ∨ e = .parityMismatch := by
  by_cases hd : d = .r2
  · subst hd; exact .inr ((r2Rule_effect h).mismatch hr he)
  · exact .inl (he ▸ readRule_move hd h).mismatch

/-- A byte taken in the initial phase completes no frame. -/
theorem readRule_more_of_search (h : readRule cfg b d r = some r') (hp : r.dec.phase = 0#2) (hr : r.out = .more) :
    r'.out = .more := by
  by_cases hd : d = .r2
  · subst hd; exact (r2Rule_effect h).more_of_search hp hr
  · exact (readRule_move hd h).more_of_search hp

end

@[simp] theorem R2Run.finished_buf (cfg : Config) (r : R2Run) : (r.finished cfg).buf = r.dec.buf := by
  unfold R2Run.finished
  split <;> rfl

theorem Instr.readOf_inj {d d' : DecoderId} {b b' : Byte} (h : Instr.readOf d b = Instr.readOf d' b') :
    d = d' ∧ b = b' := by
  cases d <;> cases d' <;> cases h <;> exact ⟨rfl, rfl⟩

@[simp] theorem raiseFault_dec (c : Cause) (s : State) (d : DecoderId) : (raiseFault c s).dec d = s.dec d := by
  unfold raiseFault
  split <;> cases d <;> rfl

@[simp] theorem resetDecoder_errcnt (d e : DecoderId) (s : State) :
    ((resetDecoder d s).dec e).errcnt = (s.dec e).errcnt := by
  by_cases h : e = d
  · subst h; rw [resetDecoder_dec_self]
  · rw [resetDecoder_dec_other s h]

@[simp] theorem State.dec_stored (s : State) (m : Memory) (d : DecoderId) : ({ s with wb := m } : State).dec d = s.dec d := by
  cases d <;> rfl

@[simp] theorem State.dec_resized (s : State) (m : Memory) (n : BitVec 16) (d : DecoderId) :
    ({ s with wb := m, wbLen := n } : State).dec d = s.dec d := by cases d <;> rfl

@[simp] theorem State.dec_port (s : State) (port : List HostInput) (d : DecoderId) :
    ({ s with port := port } : State).dec d = s.dec d := by cases d <;> rfl

/-! ### Error counters -/

/-- A response that is no mismatch event, with no counter changed. -/
theorem counts_of_no_event {i : Instr} {s t : State} {r : Response} (hr : t.resp = some r)
    (hev : r.ev ≠ 2#3 ∧ r.ev ≠ 3#3) (h : ∀ d, (t.dec d).errcnt = (s.dec d).errcnt) :
    ∃ r : Response, t.resp = some r ∧ ∀ d,
      ((∃ b, i = Instr.readOf d b) ∧ (r.ev = 2#3 ∨ r.ev = 3#3) →
        (t.dec d).errcnt = ((s.dec d).errcnt + 1) % 2 ^ s.cfg.cntW) ∧
      (¬((∃ b, i = Instr.readOf d b) ∧ (r.ev = 2#3 ∨ r.ev = 3#3)) → (t.dec d).errcnt = (s.dec d).errcnt) :=
  ⟨r, hr, fun d => ⟨fun he => absurd he.2 (by simp [hev]), fun _ => h d⟩⟩

/-- A READ with a mismatch event counts it in its own decoder (R150, R290). -/
theorem errcnt_putRun_of_mismatch {s : State} {d : DecoderId} {r : R2Run} {k : Event}
    (hr : r.dec.errcnt = (s.dec d).errcnt) (hk : r.out = .mismatch k) :
    ((s.putRun d r).dec d).errcnt = countUp s.cfg (s.dec d).errcnt := by
  rw [State.putRun_dec_self, R2Run.finished, hk, hr]

/-- Every other counter, and every counter without such an event, stays. -/
theorem errcnt_putRun_of_not {s : State} {d e : DecoderId} {r : R2Run} (hr : r.dec.errcnt = (s.dec d).errcnt)
    (h : e = d → ∀ k, r.out ≠ .mismatch k) : ((s.putRun d r).dec e).errcnt = (s.dec e).errcnt := by
  by_cases he : e = d
  · subst he
    rw [State.putRun_dec_self, R2Run.finished]
    split
    · exact hr
    · exact hr
    · next k hk => exact absurd hk (h rfl k)
  · rw [State.putRun_dec_other s r he]

/-- Settles O40: only the end of a READ touches a counter, and its response says whether it did. -/
theorem errorCountersCountMismatchEvents : Obligations.ErrorCountersCountMismatchEvents := by
  intro i s t h hi
  cases exec_effect h with
  | answered r hev => exact counts_of_no_event rfl (by simp [hev]) (by simp)
  | faulted c => exact counts_of_no_event (raiseFault_resp c s) (by decide) (by simp)
  | stored m _ _ => exact counts_of_no_event (State.respond_resp _ _) (by decide) (by simp)
  | resized n _ => exact counts_of_no_event (State.respond_resp _ _) (by decide) (by simp)
  | reset d _ => exact counts_of_no_event (State.respond_resp _ _) (by decide) (by simp)
  | cleared hc => exact absurd hc hi
  | read d b r hd _ hr =>
    have hkeep : r.dec.errcnt = (s.dec d).errcnt := (readRule_keeps hr).1
    cases ho : r.out with
    | more =>
      exact counts_of_no_event (State.putRun_resp s d r) (by rw [ho]; decide)
        fun e => errcnt_putRun_of_not hkeep fun _ k => by simp [ho]
    | ready total id =>
      exact counts_of_no_event (State.putRun_resp s d r)
        (by simp [ho, FrameOutcome.response, Response.frameReady, Event.code])
        fun e => errcnt_putRun_of_not hkeep fun _ k => by simp [ho]
    | mismatch k =>
      have hev : r.out.response.ev = 2#3 ∨ r.out.response.ev = 3#3 := by
        rcases readRule_mismatch hr rfl ho with rfl | rfl <;>
          simp [ho, FrameOutcome.response, Response.mismatch, Event.code]
      refine ⟨_, State.putRun_resp s d r, fun e => ⟨?_, fun hno => errcnt_putRun_of_not hkeep fun he => ?_⟩⟩
      · rintro ⟨⟨b', hb'⟩, -⟩
        obtain ⟨rfl, -⟩ := Instr.readOf_inj (hd.symm.trans hb')
        exact errcnt_putRun_of_mismatch hkeep ho
      · exact absurd ⟨⟨b, he ▸ hd⟩, hev⟩ hno

/-! ### The frame of a READ -/

/-- What R34 says of N in the phases whose store has a fixed address. -/
theorem inv_search_and_sync {s : State} (h : s.Inv) (d : DecoderId) :
    ((s.dec d).phase = 0#2 → (s.dec d).n = 0#16) ∧
    (d = .asv ∨ d = .sbf → (s.dec d).phase = 1#2 → (s.dec d).n = 1#16) := by
  cases d with
  | asv => exact ⟨fun hp => (h.asvCommon.1 hp).1, fun _ hp => (h.asv.1 hp).1⟩
  | r2 => exact ⟨fun hp => (h.r2Common.1 hp).1, by simp⟩
  | r3 => exact ⟨fun hp => (h.r3Common.1 hp).1, by simp⟩
  | sbf => exact ⟨fun hp => (h.sbfCommon.1 hp).1, fun _ hp => (h.sbf.1 hp).1⟩

/-- The bytes a READ of a byte-oriented decoder keeps. -/
theorem read_putRun_of_byte {s : State} {d : DecoderId} {b : Byte} {r : R2Run} (hs : s.Inv) (hd : d ≠ .r2)
    (hr : readRule s.cfg b d (s.readRun d) = some r) {a : Nat} (ha : a ≠ (s.dec d).n.toNat) :
    ((s.putRun d r).dec d).buf.read a = (s.dec d).buf.read a := by
  obtain ⟨h0, h1⟩ := inv_search_and_sync hs d
  rw [State.putRun_dec_self, R2Run.finished_buf]
  refine (readRule_move hd hr).read_other h0 (fun htwo => h1 ?_) ha
  cases d <;> simp_all

/-- The bytes a READ.R2 keeps. -/
theorem read_putRun_of_r2 {s : State} {b : Byte} {r : R2Run} (hs : s.Inv)
    (hr : readRule s.cfg b .r2 (s.readRun .r2) = some r) {a : Nat} (ha : a < s.r2.n.toNat ∨ s.r2.n.toNat + 3 ≤ a) :
    (s.putRun .r2 r).r2.buf.read a = s.r2.buf.read a := by
  rw [show (s.putRun .r2 r).r2 = (s.putRun .r2 r).dec .r2 from rfl, State.putRun_dec_self, R2Run.finished_buf]
  exact (r2Rule_effect hr).read_other (inv_search_and_sync hs .r2).1 ha

/-- Settles O38: a READ answers only, or writes back the registers of its own decoder. -/
theorem readTouchesOnlyItsOwnDecoder : Obligations.ReadTouchesOnlyItsOwnDecoder := by
  intro s t d b hs _ h
  rcases exec_readOf_eq_next h with ⟨-, rfl⟩ | ⟨-, -, rfl⟩ | ⟨-, -, r, hr, rfl⟩
  · simp
  · simp
  · refine ⟨fun d' hd' => State.putRun_dec_other s r hd', by simp, by simp, by simp, by simp, by simp, by simp, fun hd => ?_,
      fun hd a ha => ?_⟩
    · obtain ⟨hw, hnbit⟩ := readRule_keeps_accumulator hd hr
      exact ⟨(State.putRun_r2W s d r).trans hw, (State.putRun_r2Nbit s d r).trans hnbit, fun a ha => read_putRun_of_byte hs hd hr ha⟩
    · subst hd
      exact read_putRun_of_r2 hs hr ha

end Sys2Proof.Machine
end

section
/-! PROOFS. The invariants of R34, decoder by decoder: every phase rule keeps them and has a result, every command keeps them,
and so does every step. -/

namespace Sys2Proof.Machine

/-! ### The invariants by decoder -/

/-- The bullet of R34 of a decoder's own protocol. -/
def ProtocolInv (cfg : Config) (nbit : BitVec 5) (x : Decoder) : DecoderId → Prop
  | .asv => AsvInv x
  | .r2 => R2Inv cfg x nbit
  | .r3 => R3Inv cfg x
  | .sbf => SbfInv cfg x

/-- What R34 says of one decoder. -/
structure Decoder.Inv (cfg : Config) (d : DecoderId) (nbit : BitVec 5) (x : Decoder) : Prop where
  common : x.Common (capacity cfg (.dec d))
  protocol : ProtocolInv cfg nbit x d
  counter : x.errcnt < 2 ^ cfg.cntW

theorem State.inv_iff {s : State} :
    s.Inv ↔ s.cfg.wf ∧ s.GlobalInv ∧ ∀ d, (s.dec d).Inv s.cfg d s.r2Nbit := by
  constructor
  · intro h
    obtain ⟨hasv, hr2, hr3, hsbf⟩ := h.counters
    refine ⟨h.cfg, h.globals, fun d => ?_⟩
    cases d with
    | asv => exact ⟨h.asvCommon, h.asv, hasv⟩
    | r2 => exact ⟨h.r2Common, h.r2, hr2⟩
    | r3 => exact ⟨h.r3Common, h.r3, hr3⟩
    | sbf => exact ⟨h.sbfCommon, h.sbf, hsbf⟩
  · rintro ⟨hcfg, hglobal, hdec⟩
    exact ⟨hcfg, hglobal, (hdec .asv).common, (hdec .asv).protocol, (hdec .r2).common, (hdec .r2).protocol,
      (hdec .r3).common, (hdec .r3).protocol, (hdec .sbf).common, (hdec .sbf).protocol,
      (hdec .asv).counter, (hdec .r2).counter, (hdec .r3).counter, (hdec .sbf).counter⟩

theorem State.Inv.dec {s : State} (h : s.Inv) (d : DecoderId) : (s.dec d).Inv s.cfg d s.r2Nbit := by
  obtain ⟨-, -, hdec⟩ := State.inv_iff.1 h
  exact hdec d

/-- Every buffer's addresses fit 16 bits (R60), so N cannot wrap. -/
theorem capacity_lt {cfg : Config} (h : cfg.wf) (d : DecoderId) : capacity cfg (.dec d) < 65536 := by
  obtain ⟨-, ⟨-, hsbf⟩, ⟨-, hr3⟩, -⟩ := h
  cases d with
  | asv => exact (by decide : asvMax < 65536)
  | r2 => exact (by decide : r2BufMax < 65536)
  | r3 => exact Nat.lt_of_le_of_lt hr3 (by decide)
  | sbf => exact Nat.lt_succ_of_le hsbf

/-- A decoder in its initial phase, with no frame retained. -/
theorem Decoder.Inv.of_cleared {cfg : Config} {d : DecoderId} {nbit : BitVec 5} {x : Decoder}
    (hphase : x.phase = 0#2) (hn : x.n = 0#16) (htotal : x.total = 0#16) (hv : x.fvalid = false)
    (hnbit : d = .r2 → nbit = 0#5) (hw : x.buf.wf) (hin : x.buf.within (capacity cfg (.dec d)))
    (hcount : x.errcnt < 2 ^ cfg.cntW) : x.Inv cfg d nbit := by
  refine ⟨⟨fun _ => ⟨hn, htotal⟩, by simp [hn], by simp [hv], hw, hin⟩, ?_, hcount⟩
  cases d with
  | asv => simp [ProtocolInv, AsvInv, hphase]
  | r2 => simp [ProtocolInv, R2Inv, hphase, hn, htotal, hnbit rfl]
  | r3 => simp [ProtocolInv, R3Inv, hphase]
  | sbf => simp [ProtocolInv, SbfInv, hphase]

/-! ### The registers of a READ -/

/-- A completed frame fits its buffer, and its decoder is back in the initial phase (R31, R150). -/
def FrameOutcome.Fits (cap : Nat) (y : Decoder) (o : FrameOutcome) : Prop :=
  ∀ total id, o = .ready total id → y.phase = 0#2 ∧ y.n = 0#16 ∧ 1 ≤ total.toNat ∧ total.toNat ≤ cap

/-- What holds of the registers of a READ, before and after the phase rule. -/
structure R2Run.Inv (cfg : Config) (d : DecoderId) (r : R2Run) : Prop where
  dec : r.dec.Inv cfg d r.nbit
  released : r.dec.fvalid = false
  fits : r.out.Fits (capacity cfg (.dec d)) r.dec

theorem FrameOutcome.fits_more {cap : Nat} {y : Decoder} : FrameOutcome.more.Fits cap y := nofun

theorem State.readRun_inv {s : State} (h : s.Inv) (d : DecoderId) : (s.readRun d).Inv s.cfg d := by
  obtain ⟨⟨h0, hn, -, hw, hin⟩, hprotocol, hcount⟩ := h.dec d
  exact ⟨⟨⟨h0, hn, nofun, hw, hin⟩, by cases d <;> exact hprotocol, hcount⟩, rfl, nofun⟩

/-- The end of a READ keeps the invariants (R150). -/
theorem R2Run.Inv.finished {cfg : Config} {d : DecoderId} {r : R2Run} (h : r.Inv cfg d) :
    (r.finished cfg).Inv cfg d r.nbit := by
  obtain ⟨⟨⟨h0, hn, hv, hw, hin⟩, hprotocol, hcount⟩, -, hfits⟩ := h
  unfold R2Run.finished
  split
  · exact ⟨⟨h0, hn, hv, hw, hin⟩, hprotocol, hcount⟩
  · next total id ho =>
    exact ⟨⟨h0, hn, fun _ => hfits total id ho, hw, hin⟩, by cases d <;> exact hprotocol, hcount⟩
  · exact ⟨⟨h0, hn, hv, hw, hin⟩, by cases d <;> exact hprotocol, countUp_lt _ _⟩

/-! ### Storing and resynchronizing -/

theorem toNat_add_of_lt {n : BitVec 16} {k cap : Nat} (h : n.toNat + k ≤ cap) (hcap : cap < 65536) :
    (n + BitVec.ofNat 16 k).toNat = n.toNat + k := by
  rw [BitVec.toNat_add, BitVec.toNat_ofNat]
  omega

theorem Decoder.Common.resync {cap : Nat} {x : Decoder} (hv : x.fvalid = false) (hw : x.buf.wf) (hin : x.buf.within cap) :
    x.resync.Common cap :=
  ⟨fun _ => ⟨rfl, rfl⟩, Nat.zero_le _, nothing_retained hv, hw, hin⟩

/-- A byte stored inside the buffer, the frame still in progress. -/
theorem Decoder.Common.stored {cap : Nat} {x : Decoder} {b : Byte} {p : BitVec 2} {total : BitVec 16}
    (h : x.Common cap) (hv : x.fvalid = false) (hn : x.n.toNat < cap) (hcap : cap < 65536) (hp : p ≠ 0#2) :
    Decoder.Common cap { x.stored b with phase := p, total := total } := by
  obtain ⟨-, -, -, hw, hin⟩ := h
  refine ⟨fun h => absurd h hp, ?_, nothing_retained hv, Memory.write_wf hw _ _,
    Memory.write_within hin hn _⟩
  exact (toNat_add_of_lt (k := 1) hn hcap).trans_le hn

/-- The first byte of a frame. -/
theorem Decoder.Common.start {cap : Nat} {x : Decoder} {b : Byte} {p : BitVec 2} (h : x.Common cap)
    (hv : x.fvalid = false) (hcap : 1 ≤ cap) (hp : p ≠ 0#2) : (x.start b p).Common cap := by
  obtain ⟨-, -, -, hw, hin⟩ := h
  exact ⟨fun h => absurd h hp, hcap, nothing_retained hv, Memory.write_wf hw _ _,
    Memory.write_within hin hcap _⟩

/-- The second sync byte of a frame. -/
theorem Decoder.Common.second {cap : Nat} {x : Decoder} {b : Byte} (h : x.Common cap) (hv : x.fvalid = false)
    (hcap : 2 ≤ cap) : Decoder.Common cap { x with buf := x.buf.write 1 b, n := 2#16, phase := 2#2 } := by
  obtain ⟨-, -, -, hw, hin⟩ := h
  exact ⟨fun h => absurd h (show 2#2 ≠ 0#2 by decide), hcap, nothing_retained hv,
    Memory.write_wf hw _ _, Memory.write_within hin hcap _⟩

/-- What a phase rule of a byte-oriented decoder establishes. -/
structure ByteKept (cap : Nat) (protocol : Decoder → Prop) (y : Decoder) (o : FrameOutcome) : Prop where
  common : y.Common cap
  protocol : protocol y
  fits : o.Fits cap y

/-- The end of a frame, complete or given up. -/
theorem ByteKept.resync {cap : Nat} {protocol : Decoder → Prop} {x : Decoder} {o : FrameOutcome}
    (hv : x.fvalid = false) (hw : x.buf.wf) (hin : x.buf.within cap) (hp : protocol x.resync)
    (ho : ∀ total id, o = .ready total id → 1 ≤ total.toNat ∧ total.toNat ≤ cap) :
    ByteKept cap protocol x.resync o :=
  ⟨.resync hv hw hin, hp, fun total id h => ⟨rfl, rfl, ho total id h⟩⟩

/-! ### Asv -/

theorem asvInv_of_search {x : Decoder} (hp : x.phase = 0#2) : AsvInv x := by simp [AsvInv, hp]

theorem asvVerdict_ready {cfg : Config} {x : Decoder} {total id : BitVec 16} (h : asvVerdict cfg x = .ready total id) :
    total = x.total ∧ id = x.buf.word16 cfg.asvIdLe asvIdOfs ∧
      crc16 cfg (x.buf.readRange 0 (x.total.toNat - 2)) = x.buf.word16 cfg.asvCrcLe (x.total.toNat - 2) := by
  unfold asvVerdict at h
  split at h <;> cases h
  exact ⟨rfl, rfl, ‹_›⟩

theorem AsvStep.kept {cfg : Config} {b : Byte} {x y : Decoder} {o : FrameOutcome} (h : AsvStep cfg b x y o)
    (hc : x.Common asvMax) (hi : AsvInv x) (hv : x.fvalid = false) : ByteKept asvMax AsvInv y o := by
  have hcap : asvMax < 65536 := by decide
  obtain ⟨hi1, hi2, hi3⟩ := hi
  obtain ⟨h0, -, -, hw, hin⟩ := id hc
  cases h with
  | ignored hp _ => exact ⟨hc, asvInv_of_search hp, nofun⟩
  | started hp _ => exact ⟨hc.start hv (by decide) (by decide), by simp [AsvInv, h0 hp], nofun⟩
  | dropped hp _ => exact .resync hv hw hin (asvInv_of_search rfl) nofun
  | second hp _ => exact ⟨hc.second hv (by decide), by simp [AsvInv, hi1 hp], nofun⟩
  | header hp hn h4 =>
    obtain ⟨hmin, hmax, ht⟩ := hi2 hp
    refine ⟨hc.stored hv hn hcap (phase_ne_zero hp (by decide)), ?_, nofun⟩
    have : (x.n + 1#16).toNat = x.n.toNat + 1 := toNat_add_of_lt (k := 1) hn hcap
    have : (x.n + 1#16).toNat ≠ 4 := fun e => h4 (BitVec.eq_of_toNat_eq e)
    simp only [AsvInv, Decoder.stored_phase, Decoder.stored_n, Decoder.stored_total, hp, ht]
    refine ⟨by simp, fun _ => ⟨by omega, by omega, trivial⟩, by simp⟩
  | oversize hp hn _ _ =>
    exact .resync hv (Memory.write_wf hw _ _) (Memory.write_within hin hn _) (asvInv_of_search rfl) nofun
  | sized hp hn h4 hs =>
    refine ⟨hc.stored hv hn hcap (by decide), ?_, nofun⟩
    have ht : (BitVec.ofNat 16 (asvAnnounced (x.stored b))).toNat = asvAnnounced (x.stored b) := by
      rw [BitVec.toNat_ofNat]; exact Nat.mod_eq_of_lt (by omega)
    have : 12 ≤ asvAnnounced (x.stored b) := Nat.le_add_left _ _
    simp only [AsvInv, Decoder.stored_n, h4, BitVec.lt_def, ht]
    refine ⟨by simp, by simp, fun _ => ⟨by decide, by simp; omega, by omega, hs⟩⟩
  | message hp hn hlt =>
    obtain ⟨hmin, -, ht12, htmax⟩ := hi3 hp
    refine ⟨hc.stored hv hn hcap (phase_ne_zero hp (by decide)), ?_, nofun⟩
    have : (x.n + 1#16).toNat = x.n.toNat + 1 := toNat_add_of_lt (k := 1) hn hcap
    simp only [AsvInv, Decoder.stored_phase, Decoder.stored_n, Decoder.stored_total, hp]
    exact ⟨by simp, by simp, fun _ => ⟨by omega, hlt, ht12, htmax⟩⟩
  | last hp hn _ h2 hmax =>
    refine .resync hv (Memory.write_wf hw _ _) (Memory.write_within hin hn _) (asvInv_of_search rfl) fun total id h => ?_
    obtain ⟨rfl, -, -⟩ := asvVerdict_ready h
    exact ⟨Nat.le_of_succ_le h2, hmax⟩

theorem asvStep_exists (cfg : Config) (b : Byte) {x : Decoder} (hi : AsvInv x) : ∃ y o, AsvStep cfg b x y o := by
  obtain ⟨-, hi2, hi3⟩ := hi
  rcases phase_cases x.phase with hp | hp | hp | hp
  · by_cases hb : b = asvSync1
    · exact ⟨_, _, .started hp hb⟩
    · exact ⟨_, _, .ignored hp hb⟩
  · by_cases hb : b = asvSync2
    · exact ⟨_, _, .second hp hb⟩
    · exact ⟨_, _, .dropped hp hb⟩
  · have hn : x.n.toNat < asvMax := Nat.lt_of_le_of_lt (hi2 hp).2.1 (by decide)
    by_cases h4 : x.n + 1#16 = 4#16
    · rcases Nat.lt_or_ge asvMax (asvAnnounced (x.stored b)) with hs | hs
      · exact ⟨_, _, .oversize hp hn h4 hs⟩
      · exact ⟨_, _, .sized hp hn h4 hs⟩
    · exact ⟨_, _, .header hp hn h4⟩
  · obtain ⟨-, hlt, ht12, htmax⟩ := hi3 hp
    have hn : x.n.toNat < asvMax := Nat.lt_of_lt_of_le hlt htmax
    by_cases hmore : x.n + 1#16 < x.total
    · exact ⟨_, _, .message hp hn hmore⟩
    · exact ⟨_, _, .last hp hn hmore (by omega) htmax⟩

/-! ### RTCM v3 -/

theorem r3Inv_of_search {cfg : Config} {x : Decoder} (hp : x.phase = 0#2) : R3Inv cfg x := by simp [R3Inv, hp]

theorem r3Verdict_ready {cfg : Config} {x : Decoder} {total id : BitVec 16} (h : r3Verdict cfg x = .ready total id) :
    total = x.total ∧ id = BitVec.ofNat 16 (x.buf.getU 24 12) ∧
      (crc24q cfg (x.buf.readRange 0 (x.total.toNat - 3))).toNat = x.buf.getU (8 * (x.total.toNat - 3)) 24 := by
  unfold r3Verdict at h
  split at h <;> cases h
  exact ⟨rfl, rfl, ‹_›⟩

theorem R3Step.kept {cfg : Config} {b : Byte} {x y : Decoder} {o : FrameOutcome} (h : R3Step cfg b x y o)
    (hcfg : cfg.wf) (hc : x.Common cfg.r3BufMax) (hi : R3Inv cfg x) (hv : x.fvalid = false) :
    ByteKept cfg.r3BufMax (R3Inv cfg) y o := by
  have hcap : cfg.r3BufMax < 65536 := capacity_lt hcfg .r3
  obtain ⟨-, -, ⟨hcap6, -⟩, -⟩ := hcfg
  obtain ⟨hi1, hi2, hi3, hit⟩ := hi
  obtain ⟨h0, -, -, hw, hin⟩ := id hc
  cases h with
  | ignored hp _ => exact ⟨hc, r3Inv_of_search hp, nofun⟩
  | started hp _ => exact ⟨hc.start hv (by omega) (by decide), by simp [R3Inv, h0 hp], nofun⟩
  | header hp hn h3 =>
    obtain ⟨hmin, hmax, ht⟩ := hi1 hp
    refine ⟨hc.stored hv hn hcap (phase_ne_zero hp (by decide)), ?_, nofun⟩
    have : (x.n + 1#16).toNat = x.n.toNat + 1 := toNat_add_of_lt (k := 1) hn hcap
    have : (x.n + 1#16).toNat ≠ 3 := fun e => h3 (BitVec.eq_of_toNat_eq e)
    simp only [R3Inv, Decoder.stored_phase, Decoder.stored_n, Decoder.stored_total, hp, ht]
    exact ⟨fun _ => ⟨by omega, by omega, trivial⟩, by simp, by simp, by simp⟩
  | oversize hp hn _ _ =>
    exact .resync hv (Memory.write_wf hw _ _) (Memory.write_within hin hn _) (r3Inv_of_search rfl) nofun
  | sized hp hn h3 hs =>
    have ht : (BitVec.ofNat 16 (r3Announced (x.stored b) + 6)).toNat = r3Announced (x.stored b) + 6 := by
      rw [BitVec.toNat_ofNat]; exact Nat.mod_eq_of_lt (by omega)
    refine ⟨hc.stored hv hn hcap (by split <;> decide), ?_, nofun⟩
    simp only [R3Inv, Decoder.stored_n, h3, BitVec.lt_def, ht]
    split <;> simp <;> omega
  | payload hp hn he =>
    obtain ⟨hmin, hlt⟩ := hi2 hp
    refine ⟨hc.stored hv hn hcap (phase_ne_zero hp (by decide)), ?_, nofun⟩
    have : (x.n + 1#16).toNat = x.n.toNat + 1 := toNat_add_of_lt (k := 1) hn hcap
    simp only [R3Inv, Decoder.stored_phase, Decoder.stored_n, Decoder.stored_total, hp]
    exact ⟨by simp, fun _ => ⟨by omega, by omega⟩, by simp, fun _ => hit (.inl hp)⟩
  | payloadEnd hp hn he =>
    refine ⟨hc.stored hv hn hcap (by decide), ?_, nofun⟩
    simp only [R3Inv, Decoder.stored_n, Decoder.stored_total, BitVec.lt_def]
    exact ⟨by simp, by simp, fun _ => ⟨by omega, by omega⟩, fun _ => hit (.inl hp)⟩
  | crc hp hn hlt =>
    obtain ⟨hend, -⟩ := hi3 hp
    refine ⟨hc.stored hv hn hcap (phase_ne_zero hp (by decide)), ?_, nofun⟩
    have : (x.n + 1#16).toNat = x.n.toNat + 1 := toNat_add_of_lt (k := 1) hn hcap
    simp only [R3Inv, Decoder.stored_phase, Decoder.stored_n, Decoder.stored_total, hp]
    exact ⟨by simp, by simp, fun _ => ⟨by omega, hlt⟩, fun _ => hit (.inr hp)⟩
  | last hp hn _ h3 hmax =>
    refine .resync hv (Memory.write_wf hw _ _) (Memory.write_within hin hn _) (r3Inv_of_search rfl) fun total id h => ?_
    obtain ⟨rfl, -, -⟩ := r3Verdict_ready h
    exact ⟨Nat.le_trans (by decide) h3, hmax⟩

theorem r3Step_exists {cfg : Config} (b : Byte) {x : Decoder} (hcfg : cfg.wf) (hi : R3Inv cfg x) :
    ∃ y o, R3Step cfg b x y o := by
  obtain ⟨-, -, ⟨hcap6, -⟩, -⟩ := hcfg
  obtain ⟨hi1, hi2, hi3, hit⟩ := hi
  rcases phase_cases x.phase with hp | hp | hp | hp
  · by_cases hb : b = cfg.r3Preamble
    · exact ⟨_, _, .started hp hb⟩
    · exact ⟨_, _, .ignored hp hb⟩
  · have hn : x.n.toNat < cfg.r3BufMax := by have := (hi1 hp).2.1; omega
    by_cases h3 : x.n + 1#16 = 3#16
    · rcases Nat.lt_or_ge cfg.r3BufMax (r3Announced (x.stored b) + 6) with hs | hs
      · exact ⟨_, _, .oversize hp hn h3 hs⟩
      · exact ⟨_, _, .sized hp hn h3 hs⟩
    · exact ⟨_, _, .header hp hn h3⟩
  · have hn : x.n.toNat < cfg.r3BufMax := by have := (hi2 hp).2; have := (hit (.inl hp)).2; omega
    by_cases he : (x.n + 1#16).toNat + 3 = x.total.toNat
    · exact ⟨_, _, .payloadEnd hp hn he⟩
    · exact ⟨_, _, .payload hp hn he⟩
  · obtain ⟨ht6, htmax⟩ := hit (.inr hp)
    have hn : x.n.toNat < cfg.r3BufMax := Nat.lt_of_lt_of_le (hi3 hp).2 htmax
    by_cases hmore : x.n + 1#16 < x.total
    · exact ⟨_, _, .crc hp hn hmore⟩
    · exact ⟨_, _, .last hp hn hmore (by omega) htmax⟩

/-! ### SBF-style -/

theorem sbfInv_of_search {cfg : Config} {x : Decoder} (hp : x.phase = 0#2) : SbfInv cfg x := by simp [SbfInv, hp]

theorem sbfVerdict_ready {cfg : Config} {x : Decoder} {total id : BitVec 16} (h : sbfVerdict cfg x = .ready total id) :
    total = x.total ∧ id = x.buf.word16 cfg.sbfLe 4 ∧
      crc16 cfg (x.buf.readRange 4 (x.total.toNat - 4)) = x.buf.word16 cfg.sbfLe 2 := by
  unfold sbfVerdict at h
  split at h <;> cases h
  exact ⟨rfl, rfl, ‹_›⟩

theorem SbfStep.kept {cfg : Config} {b : Byte} {x y : Decoder} {o : FrameOutcome} (h : SbfStep cfg b x y o)
    (hcfg : cfg.wf) (hc : x.Common cfg.sbfBufMax) (hi : SbfInv cfg x) (hv : x.fvalid = false) :
    ByteKept cfg.sbfBufMax (SbfInv cfg) y o := by
  have hcap : cfg.sbfBufMax < 65536 := capacity_lt hcfg .sbf
  have hhdr : sbfHdr = 8 := rfl
  obtain ⟨-, ⟨hcap8, -⟩, -⟩ := hcfg
  obtain ⟨hi1, hi2, hi3⟩ := hi
  obtain ⟨h0, -, -, hw, hin⟩ := id hc
  cases h with
  | ignored hp _ => exact ⟨hc, sbfInv_of_search hp, nofun⟩
  | started hp _ => exact ⟨hc.start hv (by omega) (by decide), by simp [SbfInv, h0 hp], nofun⟩
  | dropped hp _ => exact .resync hv hw hin (sbfInv_of_search rfl) nofun
  | second hp _ => exact ⟨hc.second hv (by omega), by simp [SbfInv, hi1 hp], nofun⟩
  | header hp hn h8 =>
    obtain ⟨hmin, hmax, ht⟩ := hi2 hp
    refine ⟨hc.stored hv hn hcap (phase_ne_zero hp (by decide)), ?_, nofun⟩
    have : (x.n + 1#16).toNat = x.n.toNat + 1 := toNat_add_of_lt (k := 1) hn hcap
    have : (x.n + 1#16).toNat ≠ 8 := fun e => h8 (BitVec.eq_of_toNat_eq e)
    simp only [SbfInv, Decoder.stored_phase, Decoder.stored_n, Decoder.stored_total, hp, ht]
    exact ⟨by simp, fun _ => ⟨by omega, by omega, trivial⟩, by simp⟩
  | badLength hp hn _ _ =>
    exact .resync hv (Memory.write_wf hw _ _) (Memory.write_within hin hn _) (sbfInv_of_search rfl) nofun
  | headerOnly hp hn h8 he hmax =>
    refine .resync hv (Memory.write_wf hw _ _) (Memory.write_within hin hn _) (sbfInv_of_search rfl) fun total id h => ?_
    obtain ⟨rfl, -, -⟩ := sbfVerdict_ready h
    exact ⟨by simp only [he]; decide, by simpa only [he] using hmax⟩
  | sized hp hn h8 hs hmax =>
    refine ⟨hc.stored hv hn hcap (by decide), ?_, nofun⟩
    simp only [SbfInv, Decoder.stored_n, h8, BitVec.lt_def]
    exact ⟨by simp, by simp, fun _ => ⟨by decide, by simpa [hhdr] using hs, by omega, hmax⟩⟩
  | message hp hn hlt =>
    obtain ⟨hmin, -, ht9, htmax⟩ := hi3 hp
    refine ⟨hc.stored hv hn hcap (phase_ne_zero hp (by decide)), ?_, nofun⟩
    have : (x.n + 1#16).toNat = x.n.toNat + 1 := toNat_add_of_lt (k := 1) hn hcap
    simp only [SbfInv, Decoder.stored_phase, Decoder.stored_n, Decoder.stored_total, hp]
    exact ⟨by simp, by simp, fun _ => ⟨by omega, hlt, ht9, htmax⟩⟩
  | last hp hn _ h4 hmax =>
    refine .resync hv (Memory.write_wf hw _ _) (Memory.write_within hin hn _) (sbfInv_of_search rfl) fun total id h => ?_
    obtain ⟨rfl, -, -⟩ := sbfVerdict_ready h
    exact ⟨Nat.le_trans (by decide) h4, hmax⟩

theorem sbfStep_exists {cfg : Config} (b : Byte) {x : Decoder} (hcfg : cfg.wf) (hi : SbfInv cfg x) :
    ∃ y o, SbfStep cfg b x y o := by
  obtain ⟨-, ⟨hcap8, -⟩, -⟩ := hcfg
  obtain ⟨-, hi2, hi3⟩ := hi
  rcases phase_cases x.phase with hp | hp | hp | hp
  · by_cases hb : b = cfg.sbfSync1
    · exact ⟨_, _, .started hp hb⟩
    · exact ⟨_, _, .ignored hp hb⟩
  · by_cases hb : b = cfg.sbfSync2
    · exact ⟨_, _, .second hp hb⟩
    · exact ⟨_, _, .dropped hp hb⟩
  · have hn : x.n.toNat < cfg.sbfBufMax := by have := (hi2 hp).2.1; omega
    by_cases h8 : x.n + 1#16 = 8#16
    · rcases Nat.lt_trichotomy (sbfAnnounced cfg (x.stored b)).toNat sbfHdr with hs | hs | hs
      · exact ⟨_, _, .badLength hp hn h8 (.inl hs)⟩
      · exact ⟨_, _, .headerOnly hp hn h8 hs hcap8⟩
      · rcases Nat.lt_or_ge cfg.sbfBufMax (sbfAnnounced cfg (x.stored b)).toNat with hmax | hmax
        · exact ⟨_, _, .badLength hp hn h8 (.inr hmax)⟩
        · exact ⟨_, _, .sized hp hn h8 hs hmax⟩
    · exact ⟨_, _, .header hp hn h8⟩
  · obtain ⟨-, hlt, ht9, htmax⟩ := hi3 hp
    have hn : x.n.toNat < cfg.sbfBufMax := Nat.lt_of_lt_of_le hlt htmax
    by_cases hmore : x.n + 1#16 < x.total
    · exact ⟨_, _, .message hp hn hmore⟩
    · exact ⟨_, _, .last hp hn hmore (by omega) htmax⟩

/-! ### RTCM v2 -/

theorem Memory.write3_wf {m : Memory} (h : m.wf) (a : Nat) (d : BitVec 24) : (m.write3 a d).wf :=
  Memory.write_wf (Memory.write_wf (Memory.write_wf h _ _) _ _) _ _

theorem Memory.write3_within {m : Memory} {cap a : Nat} (h : m.within cap) (ha : a + 3 ≤ cap) (d : BitVec 24) :
    (m.write3 a d).within cap :=
  Memory.write_within (Memory.write_within (Memory.write_within h (by omega) _) (by omega) _) (by omega) _

/-- A field depends only on the bytes it lies in. -/
theorem Memory.getU_congr_bytes {m m' : Memory} {ofs w : Nat}
    (h : ∀ a, ofs / 8 ≤ a → 8 * a < ofs + w → m.read a = m'.read a) : m.getU ofs w = m'.getU ofs w := by
  refine Memory.getU_congr fun k h1 h2 => ?_
  rw [Memory.bit, Memory.bit, h (k / 8) (by omega) (by omega)]

/-- The announced total length is that of byte 5 (R179). -/
theorem r2TotalOf_congr {cfg : Config} {m m' : Memory} (hshift : cfg.r2LenShift ≤ 3) (h : m.read 5 = m'.read 5) :
    r2TotalOf cfg m = r2TotalOf cfg m' := by
  unfold r2TotalOf r2LengthField
  rw [Memory.getU_congr_bytes fun a h1 h2 => ?_]
  obtain rfl : a = 5 := by omega
  exact h

theorem toNat_r2TotalOf (cfg : Config) (m : Memory) : (r2TotalOf cfg m).toNat = 3 * r2LengthField cfg m + 6 := by
  have : r2LengthField cfg m < 2 ^ 5 := Memory.getU_lt _ _ _
  rw [r2TotalOf, BitVec.toNat_ofNat]
  omega

/-- A word stored while Synced: N, TOTAL and the buffer after it (R177, R179). -/
theorem withWord_spec {cfg : Config} {x : Decoder} {nbit : BitVec 5} (d : BitVec 24) (hcfg : cfg.wf)
    (hc : x.Common r2BufMax) (hi : R2Inv cfg x nbit) (hp : x.phase ≠ 0#2) :
    x.phase = 1#2 ∧ x.n.toNat + 3 ≤ r2BufMax ∧ (x.withWord cfg d).n.toNat = x.n.toNat + 3 ∧
      (x.withWord cfg d).n.toNat % 3 = 0 ∧ 6 ≤ (x.withWord cfg d).n.toNat ∧
      (x.withWord cfg d).total = r2TotalOf cfg (x.withWord cfg d).buf ∧
      (x.withWord cfg d).buf.wf ∧ (x.withWord cfg d).buf.within r2BufMax := by
  have hmax : r2BufMax = 99 := rfl
  obtain ⟨-, -, -, -, hshift, -⟩ := hcfg
  obtain ⟨hphase, -, -, hi1⟩ := hi
  have hp1 : x.phase = 1#2 := hphase.resolve_left hp
  obtain ⟨hmin, hle, hmod, -, -, htotal⟩ := hi1 hp1
  obtain ⟨-, -, -, hw, hin⟩ := hc
  have hroom : x.n.toNat + 3 ≤ r2BufMax := by omega
  have hn : (x.n + 3#16).toNat = x.n.toNat + 3 := toNat_add_of_lt (k := 3) hroom (by decide)
  refine ⟨hp1, hroom, hn, by rw [Decoder.withWord, hn]; omega, by rw [Decoder.withWord, hn]; omega, ?_,
    Memory.write3_wf hw _ _, Memory.write3_within hin hroom _⟩
  unfold Decoder.withWord
  dsimp only
  split
  · rfl
  · next h6 =>
    have hne : (x.n + 3#16).toNat ≠ 6 := fun e => h6 (BitVec.eq_of_toNat_eq e)
    rw [(htotal (by omega)).1]
    exact r2TotalOf_congr hshift (Memory.read_write3_other _ _ (by omega)).symm

/-- The bullet R2 of R34 for a frame of at least two words in progress. -/
theorem r2Inv_of_words {cfg : Config} {y : Decoder} {nbit : BitVec 5} (hp : y.phase = 1#2) (hn : nbit.toNat < 30)
    (hmod : y.n.toNat % 3 = 0) (h6 : 6 ≤ y.n.toNat) (hlt : y.n < y.total) (ht : y.total = r2TotalOf cfg y.buf) :
    R2Inv cfg y nbit ∧ y.n.toNat ≤ 96 := by
  have hfield : r2LengthField cfg y.buf < 2 ^ 5 := Memory.getU_lt _ _ _
  have htotal : y.total.toNat = 3 * r2LengthField cfg y.buf + 6 := ht ▸ toNat_r2TotalOf cfg y.buf
  have hlt' : y.n.toNat < y.total.toNat := hlt
  have hmax : r2BufMax = 99 := rfl
  have hp0 : y.phase ≠ 0#2 := phase_ne_zero hp (by decide)
  have hsmall : ∀ k : BitVec 16, k.toNat < 6 → y.n ≠ k := fun k hk e => by rw [e] at h6; omega
  exact ⟨⟨.inr hp, ⟨fun h => absurd h hp0, fun h => absurd h (hsmall _ (by decide))⟩, fun h => absurd h hp0,
    fun _ => ⟨by omega, by omega, hmod, by omega, fun h => absurd h (hsmall _ (by decide)),
      fun _ => ⟨ht, hlt, by omega⟩⟩⟩, by omega⟩

theorem R2Effect.inv {cfg : Config} {r r' : R2Run} (h : R2Effect cfg r r') (hcfg : cfg.wf) (hr : r.Inv cfg .r2)
    (hmore : r.out = .more) : r'.Inv cfg .r2 := by
  obtain ⟨⟨hc, hi, hcount⟩, hv, -⟩ := hr
  obtain ⟨hphase, h0n, h0, h1⟩ := id hi
  cases h with
  | shifted w nbit hn0 hn1 =>
    refine ⟨⟨hc, ⟨hphase, h0n, fun hp => ⟨(hn0 hp).trans (h0 hp).1, (h0 hp).2⟩, fun hp => ?_⟩, hcount⟩, hv, ?_⟩
    · obtain ⟨hmin, hmax, hmod, hnbit, ht⟩ := h1 hp
      have := hn1 (phase_ne_zero hp (by decide)) (by omega)
      exact ⟨hmin, hmax, hmod, by simp only; omega, ht⟩
    · simpa [hmore] using FrameOutcome.fits_more
  | synced w nbit v d hp hn _ _ =>
    obtain ⟨-, -, -, hw, hin⟩ := hc
    have hroom : 3 ≤ r2BufMax := by decide
    refine ⟨⟨⟨nofun, hroom, nothing_retained hv, Memory.write3_wf hw _ _,
      Memory.write3_within hin hroom _⟩, ?_, hcount⟩, hv, by simpa [hmore] using FrameOutcome.fits_more⟩
    refine ⟨.inr rfl, by simp, nofun, fun _ => ⟨by simp, by simp, by simp, by simp only; omega, ?_, by simp⟩⟩
    exact fun _ => (h0 hp).2
  | rejected w hp =>
    obtain ⟨-, -, -, hw, hin⟩ := hc
    exact ⟨.of_cleared rfl rfl rfl hv (fun _ => rfl) hw hin hcount, hv, nofun⟩
  | word w nbit d hp _ hn hlt =>
    obtain ⟨hp1, hroom, hn3, hmod, h6, ht, hw, hin⟩ := withWord_spec d hcfg hc hi hp
    obtain ⟨hwords, hle⟩ := r2Inv_of_words (y := r.dec.withWord cfg d) hp1 hn hmod h6 hlt ht
    exact ⟨⟨⟨fun h => absurd h hp, hle.trans (by decide : 96 ≤ r2BufMax), nothing_retained hv,
      hw, hin⟩, hwords, hcount⟩, hv, by simpa [hmore] using FrameOutcome.fits_more⟩
  | complete w d hp _ hlt =>
    obtain ⟨hp1, hroom, hn3, -, h6, ht, hw, hin⟩ := withWord_spec d hcfg hc hi hp
    refine ⟨.of_cleared rfl rfl rfl hv (fun _ => rfl) hw hin hcount, hv, fun total id h => ?_⟩
    cases h
    have htotal := toNat_r2TotalOf cfg (r.dec.withWord cfg d).buf
    have hfield : r2LengthField cfg (r.dec.withWord cfg d).buf < 2 ^ 5 := Memory.getU_lt _ _ _
    have hmax : capacity cfg (.dec .r2) = 99 := rfl
    rw [ht, htotal]
    exact ⟨rfl, rfl, by omega, by omega⟩

/-! ### Every phase rule -/

theorem R2Run.inv_of_kept {cfg : Config} {d : DecoderId} {b : Byte} {r : R2Run} {y : Decoder} {o : FrameOutcome}
    {twoSync : Bool} {protocol : Decoder → Prop} (hr : r.Inv cfg d) (hm : ByteMove twoSync b r.dec y o)
    (hk : ByteKept (capacity cfg (.dec d)) protocol y o) (hp : protocol y → ProtocolInv cfg r.nbit y d) :
    R2Run.Inv cfg d { r with dec := y, out := o } := by
  obtain ⟨herr, hv⟩ := hm.keeps
  exact ⟨⟨hk.common, hp hk.protocol, herr ▸ hr.dec.counter⟩, hv.trans hr.released, hk.fits⟩

/-- Every phase rule keeps the invariants. -/
theorem readRule_inv {cfg : Config} {b : Byte} {d : DecoderId} {r r' : R2Run} (h : readRule cfg b d r = some r')
    (hcfg : cfg.wf) (hr : r.Inv cfg d) (hmore : r.out = .more) : r'.Inv cfg d := by
  obtain ⟨hc, hi, -⟩ := hr.dec
  cases d with
  | r2 => exact (r2Rule_effect h).inv hcfg hr hmore
  | asv =>
    obtain ⟨y, o, hy, rfl⟩ := R2Run.onByte_eq_some.1 h
    have hstep := asvRule_eq_some.1 hy
    exact R2Run.inv_of_kept hr hstep.move (hstep.kept hc hi hr.released) id
  | r3 =>
    obtain ⟨y, o, hy, rfl⟩ := R2Run.onByte_eq_some.1 h
    have hstep := r3Rule_eq_some.1 hy
    exact R2Run.inv_of_kept hr hstep.move (hstep.kept hcfg hc hi hr.released) id
  | sbf =>
    obtain ⟨y, o, hy, rfl⟩ := R2Run.onByte_eq_some.1 h
    have hstep := sbfRule_eq_some.1 hy
    exact R2Run.inv_of_kept hr hstep.move (hstep.kept hcfg hc hi hr.released) id

/-- With the invariants every phase rule has a result: no access is outside the buffer (R34). -/
theorem readRule_exists {cfg : Config} (b : Byte) {d : DecoderId} {r : R2Run} (hcfg : cfg.wf) (hr : r.Inv cfg d) :
    ∃ r', readRule cfg b d r = some r' := by
  obtain ⟨hc, hi, -⟩ := hr.dec
  cases d with
  | r2 =>
    obtain ⟨r', h, -⟩ := r2Rule_of_room b fun hp => (withWord_spec (cfg := cfg) 0#24 hcfg hc hi hp).2.1
    exact ⟨r', h⟩
  | asv =>
    obtain ⟨y, o, h⟩ := asvStep_exists cfg b hi
    exact ⟨_, R2Run.onByte_eq_some.2 ⟨y, o, asvRule_eq_some.2 h, rfl⟩⟩
  | r3 =>
    obtain ⟨y, o, h⟩ := r3Step_exists b hcfg hi
    exact ⟨_, R2Run.onByte_eq_some.2 ⟨y, o, r3Rule_eq_some.2 h, rfl⟩⟩
  | sbf =>
    obtain ⟨y, o, h⟩ := sbfStep_exists b hcfg hi
    exact ⟨_, R2Run.onByte_eq_some.2 ⟨y, o, sbfRule_eq_some.2 h, rfl⟩⟩

end Sys2Proof.Machine
end

section
/-! PROOFS. The invariants over commands, resets and steps; the state after reset; READs of two decoders. -/

namespace Sys2Proof.Machine

/-! ### Commands -/

/-- A state whose decoders are those of a state with the invariants. -/
theorem State.Inv.of_same_decoders {s t : State} (h : s.Inv) (hcfg : t.cfg = s.cfg) (hnbit : t.r2Nbit = s.r2Nbit)
    (hdec : ∀ d, t.dec d = s.dec d) (hglobal : t.GlobalInv) : t.Inv := by
  obtain ⟨hwf, -, hall⟩ := State.inv_iff.1 h
  refine State.inv_iff.2 ⟨hcfg ▸ hwf, hglobal, fun d => ?_⟩
  rw [hcfg, hnbit, hdec]
  exact hall d

theorem State.Inv.respond {s : State} (h : s.Inv) (r : Response) : (s.respond r).Inv :=
  h.of_same_decoders rfl rfl (State.respond_dec s r) h.globals

theorem State.Inv.withPort {s : State} (h : s.Inv) (port : List HostInput) : ({ s with port := port } : State).Inv :=
  h.of_same_decoders rfl rfl (State.dec_port s port) h.globals

theorem Cause.code_range (c : Cause) : 1 ≤ c.code.toNat ∧ c.code.toNat ≤ 6 := by cases c <;> decide

/-- Fault entry keeps the invariants (R262). -/
theorem State.Inv.raiseFault {s : State} (h : s.Inv) (c : Cause) : (raiseFault c s).Inv := by
  cases hf : s.fault with
  | true => rw [raiseFault_of_set c hf]; exact h.respond _
  | false =>
    obtain ⟨-, -, hwb⟩ := h.globals
    refine h.of_same_decoders (raiseFault_cfg c s) (raiseFault_r2Nbit c s) (raiseFault_dec c s) ?_
    rw [raiseFault_of_clear c hf]
    exact ⟨nofun, fun _ => c.code_range, hwb⟩

theorem State.Inv.stored {s : State} {m : Memory} (h : s.Inv) (hw : s.wb.wf → m.wf)
    (hin : s.wb.within s.cfg.wbMax → m.within s.cfg.wbMax) : ({ s with wb := m } : State).Inv := by
  obtain ⟨hclear, hset, hlen, hwf, hwithin⟩ := h.globals
  exact h.of_same_decoders rfl rfl (State.dec_stored s m) ⟨hclear, hset, hlen, hw hwf, hin hwithin⟩

/-- SETLEN keeps the invariants (R243): the length fits its register. -/
theorem State.Inv.resized {s : State} {n : Nat} (h : s.Inv) (hn : n ≤ s.cfg.wbMax) :
    ({ s with wb := s.wb.zeroFill n, wbLen := BitVec.ofNat 16 n } : State).Inv := by
  obtain ⟨hclear, hset, -, hwf, hwithin⟩ := h.globals
  refine h.of_same_decoders rfl rfl (State.dec_resized s _ _) ⟨hclear, hset, ?_, Memory.zeroFill_wf hwf n,
    Memory.zeroFill_within hwithin hn⟩
  exact (Nat.mod_le n (2 ^ 16)).trans hn

@[simp] theorem resetDecoder_cfg (d : DecoderId) (s : State) : (resetDecoder d s).cfg = s.cfg := by cases d <;> rfl

theorem resetDecoder_globals {d : DecoderId} {s : State} (h : s.GlobalInv) : (resetDecoder d s).GlobalInv := by
  cases d <;> exact h

theorem resetDecoder_r2Nbit (d : DecoderId) (s : State) :
    (resetDecoder d s).r2Nbit = if d = .r2 then 0#5 else s.r2Nbit := by cases d <;> rfl

/-- RESET keeps the invariants (R42, R247). -/
theorem State.Inv.resetDecoder {s : State} (h : s.Inv) (d : DecoderId) : (resetDecoder d s).Inv := by
  obtain ⟨hcfg, hglobal, hall⟩ := State.inv_iff.1 h
  refine State.inv_iff.2 ⟨(resetDecoder_cfg d s).symm ▸ hcfg, resetDecoder_globals hglobal, fun e => ?_⟩
  rw [resetDecoder_cfg, resetDecoder_r2Nbit]
  by_cases he : e = d
  · subst he
    obtain ⟨⟨-, -, -, hw, hin⟩, -, hcount⟩ := hall e
    rw [resetDecoder_dec_self]
    exact .of_cleared rfl rfl rfl rfl (fun hr2 => if_pos hr2) hw hin hcount
  · obtain ⟨hc, hi, hcount⟩ := hall e
    rw [resetDecoder_dec_other s he]
    refine ⟨hc, ?_, hcount⟩
    cases e with
    | r2 => rw [if_neg fun hd => he hd.symm]; exact hi
    | asv | r3 | sbf => exact hi

theorem clearAll_dec (s : State) (d : DecoderId) : (clearAll s).dec d = (s.dec d).cleared := by cases d <;> rfl

/-- RSTALL keeps the invariants (R249). -/
theorem State.Inv.clearAll {s : State} (h : s.Inv) : (clearAll s).Inv := by
  obtain ⟨hcfg, ⟨-, -, -, hwf, hwithin⟩, hall⟩ := State.inv_iff.1 h
  refine State.inv_iff.2 ⟨hcfg, ⟨fun _ => rfl, nofun, Nat.zero_le _, hwf, hwithin⟩, fun d => ?_⟩
  obtain ⟨⟨-, -, -, hw, hin⟩, -, -⟩ := hall d
  rw [clearAll_dec]
  exact .of_cleared rfl rfl rfl rfl (fun _ => rfl) hw hin (Nat.two_pow_pos _)

/-- The end of a READ keeps the invariants (R150). -/
theorem State.Inv.putRun {s : State} {d : DecoderId} {r : R2Run} (h : s.Inv) (hr : r.Inv s.cfg d)
    (hnbit : d ≠ .r2 → r.nbit = s.r2Nbit) : (s.putRun d r).Inv := by
  obtain ⟨hcfg, hglobal, hall⟩ := State.inv_iff.1 h
  refine State.inv_iff.2 ⟨by simpa using hcfg, by simpa [State.GlobalInv] using hglobal, fun e => ?_⟩
  rw [State.putRun_cfg, State.putRun_r2Nbit]
  by_cases he : e = d
  · subst he
    rw [State.putRun_dec_self]
    exact hr.finished
  · rw [State.putRun_dec_other s r he]
    by_cases hd : d = .r2
    · obtain ⟨hc, hi, hcount⟩ := hall e
      refine ⟨hc, ?_, hcount⟩
      cases e with
      | r2 => exact absurd hd.symm he
      | asv | r3 | sbf => exact hi
    · rw [hnbit hd]
      exact hall e

theorem CommandEffect.cfg {i : Instr} {s t : State} (h : CommandEffect i s t) : t.cfg = s.cfg := by
  cases h <;> simp

/-- Every command keeps the invariants. -/
theorem CommandEffect.inv {i : Instr} {s t : State} (h : CommandEffect i s t) (hs : s.Inv) : t.Inv := by
  cases h with
  | answered r _ => exact hs.respond r
  | faulted c => exact hs.raiseFault c
  | stored m hw hin => exact (hs.stored hw hin).respond _
  | resized n hn => exact (hs.resized hn).respond _
  | reset d _ => exact (hs.resetDecoder d).respond _
  | cleared _ => exact hs.clearAll.respond _
  | read d b r _ _ hr =>
    exact hs.putRun (readRule_inv hr hs.cfg (State.readRun_inv hs d) rfl) fun hd => (readRule_keeps_accumulator hd hr).2

/-! ### Reset and steps -/

theorem resetWith_dec (cfg : Config) (d : DecoderId) : (State.resetWith cfg).dec d = Decoder.reset := by cases d <;> rfl

/-- The state after power-on reset has the invariants (R34, R302). -/
theorem inv_resetWith {cfg : Config} (h : cfg.wf) : (State.resetWith cfg).Inv := by
  refine State.inv_iff.2 ⟨h, ⟨fun _ => rfl, nofun, Nat.zero_le _, ⟨.nil, nofun⟩, nofun⟩, fun d => ?_⟩
  rw [resetWith_dec]
  exact .of_cleared rfl rfl rfl rfl (fun _ => rfl) ⟨.nil, nofun⟩ nofun (Nat.two_pow_pos _)

theorem inv_powerOn {s : State} (h : s.cfg.wf) : (powerOn s).Inv := (inv_resetWith h).withPort s.port

/-- Every step keeps the invariants and the parameters. -/
theorem step_inv {s t : State} (hs : s.Inv) (h : step s = .next t) : t.Inv ∧ t.cfg = s.cfg := by
  rcases step_eq_next h with ⟨-, rfl⟩ | ⟨rest, -, rfl⟩ | ⟨w, rest, e, -, -, rfl⟩ | ⟨w, rest, i, -, -, h⟩
  · exact ⟨hs, rfl⟩
  · exact ⟨inv_powerOn hs.cfg, rfl⟩
  · exact ⟨(hs.withPort rest).raiseFault _, raiseFault_cfg _ _⟩
  · have heff := exec_effect h
    exact ⟨heff.inv (hs.withPort rest), heff.cfg⟩

/-- Settles O56: from the effects a command can have, each of which keeps the invariants. -/
theorem stepKeepsTheInvariants : Obligations.StepKeepsTheInvariants :=
  ⟨fun _ => inv_resetWith, fun _ _ => step_inv⟩

theorem resetConfig_wf : resetConfig.wf := by decide

/-- A decoder after reset holds no frame, begun or retained. -/
theorem framesInv_resetWith (cfg : Config) : (State.resetWith cfg).FramesInv where
  asv := ⟨nofun, nofun, nofun, nofun⟩
  r2 := ⟨fun _ h => absurd h (by simp [State.resetWith, Decoder.reset]), nofun⟩
  r3 := ⟨nofun, fun h => absurd h (by simp [State.resetWith, Decoder.reset]), nofun⟩
  sbf := ⟨nofun, nofun, nofun, nofun⟩

/-- Settles O55: every decoder is in its initial phase and retains nothing. -/
theorem resetHasTheInvariants : Obligations.ResetHasTheInvariants :=
  ⟨fun cfg h => ⟨inv_resetWith h, framesInv_resetWith cfg⟩, inv_resetWith resetConfig_wf, framesInv_resetWith _⟩

/-- Settles O54: decoder by decoder. -/
theorem resetClearsEveryRegister : Obligations.ResetClearsEveryRegister := by
  refine ⟨fun cfg => ⟨rfl, rfl, rfl, rfl, rfl, fun d => ?_⟩, rfl⟩
  rw [resetWith_dec]
  rfl

/-! ### READs of two decoders (R24, R76) -/

/-- A decoder replaced, with the accumulator if the decoder is RTCM v2's. -/
def State.putRead (s : State) (d : DecoderId) (x : Decoder) (w : BitVec 32) (nbit : BitVec 5) : State :=
  match d with
  | .r2 => { s with r2 := x, r2W := w, r2Nbit := nbit }
  | d => s.setDec d x

/-- Two states agree on all that a READ of `d` works on. -/
def State.SameFor (d : DecoderId) (s s' : State) : Prop :=
  s'.cfg = s.cfg ∧ s'.dec d = s.dec d ∧ (d = .r2 → s'.r2W = s.r2W ∧ s'.r2Nbit = s.r2Nbit)

theorem State.putRead_self {s s' : State} {d : DecoderId} (h : State.SameFor d s s') :
    s'.putRead d (s.dec d) s.r2W s.r2Nbit = s' := by
  obtain ⟨-, hdec, hacc⟩ := h
  cases d with
  | r2 =>
    obtain ⟨hw, hn⟩ := hacc rfl
    rw [← hdec, ← hw, ← hn]
    rfl
  | asv | r3 | sbf => rw [← hdec]; rfl

/-- A READ takes the same registers of its decoder to the same registers, whatever the rest of the block holds. -/
theorem readRule_local {s s' : State} {d : DecoderId} {b : Byte} {r : R2Run} (h : State.SameFor d s s')
    (hr : readRule s.cfg b d (s.readRun d) = some r) :
    ∃ r', readRule s'.cfg b d (s'.readRun d) = some r' ∧
      s'.putRun d r' = (s'.putRead d (r.finished s.cfg) r.w r.nbit).respond r.out.response := by
  obtain ⟨hcfg, hdec, hacc⟩ := h
  cases d with
  | r2 =>
    obtain ⟨hw, hn⟩ := hacc rfl
    refine ⟨r, ?_, by rw [← hcfg]; rfl⟩
    simpa only [State.readRun, hcfg, hdec, hw, hn] using hr
  | asv | r3 | sbf =>
    obtain ⟨x, o, hx, rfl⟩ := R2Run.onByte_eq_some.1 hr
    refine ⟨_, R2Run.onByte_eq_some.2 ⟨x, o, ?_, rfl⟩, by rw [← hcfg]; rfl⟩
    simpa only [State.readRun, hcfg, hdec] using hx

/-- What a READ does to its decoder, and answers, is a function of that decoder alone (R24). -/
theorem exec_readOf_local {s : State} (hs : s.Inv) (d : DecoderId) (b : Byte) :
    ∃ x w nbit q, ∀ s', s'.fault = false → State.SameFor d s s' →
      exec (Instr.readOf d b) s' = .next ((s'.putRead d x w nbit).respond q) := by
  cases ha : readAccepts d b with
  | false =>
    refine ⟨s.dec d, s.r2W, s.r2Nbit, .ok, fun s' hf hsame => ?_⟩
    rw [exec_readOf_of_not_accepts hf ha, State.putRead_self hsame]
  | true =>
    obtain ⟨r, hr⟩ := readRule_exists b hs.cfg (State.readRun_inv hs d)
    refine ⟨r.finished s.cfg, r.w, r.nbit, r.out.response, fun s' hf hsame => ?_⟩
    obtain ⟨r', hr', hput⟩ := readRule_local hsame hr
    rw [exec_readOf_of_some hf ha hr', hput]

theorem State.putRead_dec_other (s : State) {d e : DecoderId} (x : Decoder) (w : BitVec 32) (nbit : BitVec 5)
    (h : e ≠ d) : (s.putRead d x w nbit).dec e = s.dec e := by
  cases d with
  | r2 => cases e <;> first | rfl | exact absurd rfl h
  | asv | r3 | sbf => exact State.setDec_dec_other s x h

theorem State.sameFor_putRead {s : State} {d e : DecoderId} (x : Decoder) (w : BitVec 32) (nbit : BitVec 5)
    (q : Response) (h : e ≠ d) : State.SameFor e s ((s.putRead d x w nbit).respond q) := by
  refine ⟨?_, ?_, fun hr2 => ?_⟩
  · cases d <;> rfl
  · rw [State.respond_dec, State.putRead_dec_other s x w nbit h]
  · cases d with
    | r2 => exact absurd hr2 h
    | asv | r3 | sbf => exact ⟨rfl, rfl⟩

theorem State.putRead_fault (s : State) (d : DecoderId) (x : Decoder) (w : BitVec 32) (nbit : BitVec 5) :
    (s.putRead d x w nbit).fault = s.fault := by cases d <;> rfl

/-- Writes to two decoders commute. -/
theorem State.putRead_comm (s : State) {d e : DecoderId} (x y : Decoder) (w v : BitVec 32) (nbit mbit : BitVec 5)
    (h : e ≠ d) : (s.putRead d x w nbit).putRead e y v mbit = (s.putRead e y v mbit).putRead d x w nbit := by
  cases d <;> cases e <;> first | rfl | exact absurd rfl h

theorem State.putRead_respond (s : State) (d : DecoderId) (x : Decoder) (w : BitVec 32) (nbit : BitVec 5) (q : Response) :
    (s.respond q).putRead d x w nbit = (s.putRead d x w nbit).respond q := by cases d <;> rfl

/-- Two READs one after the other, as writes of both decoders. -/
theorem execAll_two_reads {s : State} {d e : DecoderId} {b c : Byte} {x y : Decoder} {w v : BitVec 32}
    {nbit mbit : BitVec 5} {p q : Response} (hf : s.fault = false) (h : e ≠ d)
    (hd : ∀ s', s'.fault = false → State.SameFor d s s' →
      exec (Instr.readOf d b) s' = .next ((s'.putRead d x w nbit).respond p))
    (he : ∀ s', s'.fault = false → State.SameFor e s s' →
      exec (Instr.readOf e c) s' = .next ((s'.putRead e y v mbit).respond q)) :
    execAll [Instr.readOf d b, Instr.readOf e c] s =
      .next (((s.putRead d x w nbit).putRead e y v mbit).respond q) := by
  have hf' : ((s.putRead d x w nbit).respond p).fault = false := (State.putRead_fault s d x w nbit).trans hf
  simp only [execAll, hd s hf ⟨rfl, rfl, fun _ => ⟨rfl, rfl⟩⟩, he _ hf' (State.sameFor_putRead x w nbit p h),
    State.putRead_respond, State.respond_respond]

/-- Settles O39: each READ is a function of its own decoder, and writes to different decoders commute. -/
theorem readsOfDifferentDecodersCommute : Obligations.ReadsOfDifferentDecodersCommute := by
  intro s d e b c hs hf hde
  obtain ⟨x, w, nbit, p, hd⟩ := exec_readOf_local hs d b
  obtain ⟨y, v, mbit, q, he⟩ := exec_readOf_local hs e c
  refine ⟨_, _, execAll_two_reads hf hde.symm hd he, execAll_two_reads hf hde he hd, ?_⟩
  rw [State.putRead_comm s x y w v nbit mbit hde.symm]
  rfl

end Sys2Proof.Machine
end

section
/-! PROOFS. RDSR over the register map (R38, R245), and RESET (R42, R247). -/

namespace Sys2Proof.Machine

/-! ### RDSR -/

theorem exec_rdsr_of_some {s : State} {sel : BitVec 3} {idx : BitVec 32} {v : BitVec 64}
    (h : statusRegister sel idx.toNat s = some v) : exec (.rdsr sel idx) s = .next (s.answered false v) := by
  change execRdsr sel idx s = _
  rw [execRdsr, h]
  rfl

theorem exec_rdsr_of_none {s : State} {sel : BitVec 3} {idx : BitVec 32} (h : statusRegister sel idx.toNat s = none) :
    exec (.rdsr sel idx) s = .next (raiseFault .illegalCommand s) := by
  change execRdsr sel idx s = _
  rw [execRdsr, h]

theorem statusRegister_dec (d : DecoderId) (idx : Nat) (s : State) :
    statusRegister d.sel idx s = decoderRegister d idx s := by cases d <;> rfl

/-- A register of a decoder's block of the map. -/
theorem exec_rdsr_dec {s : State} {d : DecoderId} {idx : BitVec 32} {v u : BitVec 64}
    (h : decoderRegister d idx.toNat s = some v) (hv : v = u) :
    exec (.rdsr d.sel idx) s = .next (s.answered false u) :=
  hv ▸ exec_rdsr_of_some ((statusRegister_dec d _ s).trans h)

theorem setWidth_eq_ofNat {n : Nat} (x : BitVec n) : x.setWidth 64 = BitVec.ofNat 64 x.toNat :=
  (BitVec.ofNat_toNat 64 x).symm

theorem setWidth_ofBool (b : Bool) : (BitVec.ofBool b).setWidth 64 = if b then 1#64 else 0#64 := by cases b <;> rfl

/-- Settles O49: one row of the map after another. -/
theorem rdsrAnswersTheRegisterMap : Obligations.RdsrAnswersTheRegisterMap := by
  intro s
  refine ⟨?_, ?_, ?_, fun d => ⟨?_, ?_, ?_, ?_, ?_, ?_, ?_⟩, ?_, ?_⟩
  · exact exec_rdsr_of_some (congrArg some (setWidth_ofBool s.fault))
  · exact exec_rdsr_of_some (congrArg some (setWidth_eq_ofNat s.fcause))
  · exact exec_rdsr_of_some (congrArg some (setWidth_eq_ofNat s.wbLen))
  · exact exec_rdsr_dec rfl (setWidth_eq_ofNat _)
  · exact exec_rdsr_dec rfl (setWidth_eq_ofNat _)
  · exact exec_rdsr_dec rfl (setWidth_eq_ofNat _)
  · exact exec_rdsr_dec rfl rfl
  · exact exec_rdsr_dec rfl (setWidth_ofBool _)
  · exact exec_rdsr_dec rfl (setWidth_eq_ofNat _)
  · exact exec_rdsr_dec rfl (setWidth_eq_ofNat _)
  · exact exec_rdsr_dec (d := .r2) rfl (setWidth_eq_ofNat s.r2W)
  · exact exec_rdsr_dec (d := .r2) rfl (setWidth_eq_ofNat s.r2Nbit)

theorem statusRegister_of_reserved {sel : BitVec 3} (h : 5 ≤ sel.toNat) (idx : Nat) (s : State) :
    statusRegister sel idx s = none := by
  unfold statusRegister
  rw [selBuffer_eq_none.2 h]

/-- The global block of the map has three rows. -/
theorem statusRegister_global_of_ge {idx : Nat} (h : 3 ≤ idx) (s : State) : statusRegister 0#3 idx s = none := by
  obtain ⟨k, rfl⟩ := Nat.exists_eq_add_of_le' h
  rfl

/-- No decoder has more than nine rows, and only RTCM v2 has more than seven. -/
theorem decoderRegister_of_ge {d : DecoderId} {idx : Nat} (h : 7 ≤ idx) (hd : d = .r2 → 9 ≤ idx) (s : State) :
    decoderRegister d idx s = none := by
  by_cases hr2 : d = .r2
  · obtain ⟨k, rfl⟩ := Nat.exists_eq_add_of_le' (hd hr2)
    rfl
  · obtain ⟨k, rfl⟩ := Nat.exists_eq_add_of_le' h
    match k with
    | 0 | 1 => exact if_neg hr2
    | _ + 2 => rfl

/-- A pair outside the map names no register (R38). -/
theorem statusRegister_outside {sel : BitVec 3} {idx : Nat} (s : State)
    (h : 5 ≤ sel.toNat ∨ (sel = 0#3 ∧ 3 ≤ idx) ∨ (sel = 2#3 ∧ 9 ≤ idx) ∨
      ((sel = 1#3 ∨ sel = 3#3 ∨ sel = 4#3) ∧ 7 ≤ idx)) : statusRegister sel idx s = none := by
  rcases h with h | ⟨rfl, h⟩ | ⟨rfl, h⟩ | ⟨rfl | rfl | rfl, h⟩
  · exact statusRegister_of_reserved h idx s
  · exact statusRegister_global_of_ge h s
  · exact (statusRegister_dec .r2 idx s).trans (decoderRegister_of_ge (Nat.le_trans (by decide) h) (fun _ => h) s)
  · exact (statusRegister_dec .asv idx s).trans (decoderRegister_of_ge (d := .asv) h nofun s)
  · exact (statusRegister_dec .r3 idx s).trans (decoderRegister_of_ge (d := .r3) h nofun s)
  · exact (statusRegister_dec .sbf idx s).trans (decoderRegister_of_ge (d := .sbf) h nofun s)

/-- Settles O50: such a pair names no register, so the command enters the fault. -/
theorem rdsrFaultsOutsideTheMap : Obligations.RdsrFaultsOutsideTheMap := by
  intro s sel idx h
  rw [exec_rdsr_of_none (statusRegister_outside s h)]
  exact ⟨fun hf => congrArg _ (raiseFault_of_clear _ hf), fun hf => congrArg _ (raiseFault_of_set _ hf)⟩

/-! ### RESET -/

theorem exec_reset_dec {s : State} (d : DecoderId) (hf : s.fault = false) :
    exec (.reset d.sel) s = .next ((resetDecoder d s).answered false 0#64) := by
  change execReset d.sel s = _
  rw [execReset, unlessFaulted_of_clear _ hf, onDecoder, show selBuffer d.sel = some (.dec d) from selBuffer_sel (.dec d)]
  rfl

theorem exec_reset_of_no_decoder {s : State} {sel : BitVec 3} (hf : s.fault = false) (h : sel = 0#3 ∨ 5 ≤ sel.toNat) :
    exec (.reset sel) s = .next (s.faulted 5#4) := by
  change execReset sel s = _
  rw [execReset, unlessFaulted_of_clear _ hf]
  rcases onDecoder_cases sel s fun d => .next ((resetDecoder d s).respond .ok) with ⟨-, e⟩ | ⟨d, rfl, -⟩
  · rw [e, raiseFault_of_clear _ hf]
    rfl
  · exact absurd h (by cases d <;> decide)

/-- Settles O51: the four decoders one by one, and the selectors that name none. -/
theorem resetClearsOnlyItsDecodersProgress : Obligations.ResetClearsOnlyItsDecodersProgress := by
  intro s hf
  exact ⟨exec_reset_dec .asv hf, exec_reset_dec .r2 hf, exec_reset_dec .r3 hf, exec_reset_dec .sbf hf,
    fun sel h => exec_reset_of_no_decoder hf h⟩

end Sys2Proof.Machine
end

section
/-! PROOFS. Frames: what the bytes of a frame in progress and of a retained frame are, for each decoder, and that no step
alters a retained frame (R31, R90 to R96, R310). -/

namespace Sys2Proof.Machine

/-! ### Byte strings of a buffer -/

@[simp] theorem Memory.length_bytes (m : Memory) (a n : Nat) : (m.bytes a n).length = n := by simp [Memory.bytes]

theorem Memory.getElem?_bytes (m : Memory) {a n i : Nat} (h : i < n) : (m.bytes a n)[i]? = some (m.read (a + i)) := by
  simp [Memory.bytes, h]

/-- The two ways of reading a range. -/
theorem Memory.bytes_eq_readRange (m : Memory) (a n : Nat) : m.bytes a n = m.readRange a n := by
  apply List.ext_getElem?
  intro i
  by_cases h : i < n
  · rw [Memory.getElem?_bytes m h, Memory.getElem?_readRange m a n i h]
  · rw [List.getElem?_eq_none (by simpa using h), List.getElem?_eq_none (by simpa using h)]

theorem Memory.take_bytes (m : Memory) (a : Nat) {k n : Nat} (h : k ≤ n) : (m.bytes a n).take k = m.bytes a k := by
  rw [Memory.bytes, ← List.map_take, List.take_range, Nat.min_eq_left h, Memory.bytes]

theorem Memory.drop_bytes (m : Memory) (a k n : Nat) : (m.bytes a n).drop k = m.bytes (a + k) (n - k) := by
  apply List.ext_getElem?
  intro i
  rw [List.getElem?_drop]
  by_cases h : k + i < n
  · rw [Memory.getElem?_bytes m h, Memory.getElem?_bytes m (by omega), Nat.add_assoc]
  · rw [List.getElem?_eq_none (by simpa using h), List.getElem?_eq_none (by simp; omega)]

theorem Memory.byteAt_bytes (m : Memory) {a n : Nat} (h : a < n) : byteAt (m.bytes 0 n) a = m.read a := by
  rw [byteAt, List.getD_eq_getElem?_getD, Memory.getElem?_bytes m h, Nat.zero_add]
  rfl

theorem Memory.pairAt_bytes (m : Memory) (le : Bool) {a n : Nat} (h : a + 1 < n) :
    pairAt (m.bytes 0 n) le a = m.pair le a := by
  rw [pairAt, Memory.byteAt_bytes m h, Memory.byteAt_bytes m (Nat.lt_of_succ_lt h), Memory.pair]

/-- A 16-bit field as a number (R97). -/
theorem Memory.toNat_word16 (m : Memory) (le : Bool) (a : Nat) : (m.word16 le a).toNat = m.pair le a := by
  have happend : ∀ x y : Byte, (x ++ y).toNat = 256 * x.toNat + y.toNat := fun x y => by
    rw [BitVec.toNat_append, ← Nat.shiftLeft_add_eq_or_of_lt y.isLt, Nat.shiftLeft_eq]
    omega
  cases le with
  | false => exact happend _ _
  | true => exact (happend _ _).trans (Nat.add_comm _ _)

theorem Memory.pair_write_other (m : Memory) (le : Bool) {a k : Nat} (v : Byte) (h : a + 1 < k) :
    (m.write k v).pair le a = m.pair le a := by
  rw [Memory.pair, Memory.read_write_other _ _ (by omega), Memory.read_write_other _ _ (by omega), Memory.pair]

/-! ### Bit fields as bytes -/

/-- A field is its first bits and its last bits. -/
theorem Memory.getU_add (m : Memory) (ofs v w : Nat) :
    m.getU ofs (v + w) = m.getU ofs v * 2 ^ w + m.getU (ofs + v) w := by
  induction w with
  | zero => simp [Memory.getU]
  | succ w ih =>
    rw [← Nat.add_assoc, Memory.getU, ih, Memory.getU, pow_succ', Nat.add_assoc ofs v w]
    ring

/-- A field inside one byte. -/
theorem Memory.getU_in_byte (m : Memory) (a : Nat) {j w : Nat} (h : j + w ≤ 8) :
    m.getU (8 * a + j) w = (m.read a).toNat / 2 ^ (8 - j - w) % 2 ^ w := by
  apply Nat.eq_of_testBit_eq
  intro i
  rw [Memory.testBit_getU, Nat.testBit_mod_two_pow, Nat.testBit_div_two_pow]
  by_cases hi : i < w
  · have hbyte : (8 * a + j + w - 1 - i) / 8 = a := by omega
    have hbit : 7 - (8 * a + j + w - 1 - i) % 8 = 8 - j - w + i := by omega
    simp only [hi, decide_true, Bool.true_and, Memory.bit, hbyte, hbit]
    rw [BitVec.getLsbD, Nat.add_comm]
  · simp [hi]

/-- A field of whole bytes, one byte. -/
theorem Memory.getU_byte (m : Memory) (a : Nat) : m.getU (8 * a) 8 = (m.read a).toNat := by
  have h := m.getU_in_byte a (j := 0) (w := 8) (by omega)
  simpa [Nat.mod_eq_of_lt (m.read a).isLt] using h

/-- The payload length of an RTCM v3 header (R203). -/
theorem Memory.getU_14_10 (m : Memory) : m.getU 14 10 = 256 * ((m.read 1).toNat % 4) + (m.read 2).toNat := by
  rw [m.getU_add 14 2 8, m.getU_in_byte 1 (j := 6) (w := 2) (by omega), m.getU_byte 2]
  simp only [Nat.reduceSub, Nat.reducePow, Nat.div_one]
  omega

/-- The id of an RTCM v3 message (R207). -/
theorem Memory.getU_24_12 (m : Memory) : m.getU 24 12 = 16 * (m.read 3).toNat + (m.read 4).toNat / 16 := by
  have hlt := (m.read 4).isLt
  rw [m.getU_add 24 8 4, m.getU_byte 3, m.getU_in_byte 4 (j := 0) (w := 4) (by omega)]
  simp only [Nat.reduceSub, Nat.reducePow]
  omega

/-- A field of three whole bytes. -/
theorem Memory.getU_three_bytes (m : Memory) (a : Nat) :
    m.getU (8 * a) 24 = 65536 * (m.read a).toNat + 256 * (m.read (a + 1)).toNat + (m.read (a + 2)).toNat := by
  rw [m.getU_add (8 * a) 16 8, m.getU_add (8 * a) 8 8, show 8 * a + 8 = 8 * (a + 1) by omega,
    show 8 * a + 16 = 8 * (a + 2) by omega, m.getU_byte, m.getU_byte, m.getU_byte]
  omega

/-- The id of an RTCM v2 message (R180). -/
theorem Memory.getU_8_6 (m : Memory) : m.getU 8 6 = (m.read 1).toNat / 4 := by
  have hlt := (m.read 1).isLt
  rw [m.getU_in_byte 1 (j := 0) (w := 6) (by omega)]
  simp only [Nat.reduceSub, Nat.reducePow]
  omega

/-- The length subfield of an RTCM v2 frame (R179). -/
theorem r2LengthField_eq {cfg : Config} (h : cfg.r2LenShift ≤ 3) (m : Memory) :
    r2LengthField cfg m = (m.read 5).toNat / 2 ^ cfg.r2LenShift % 32 := by
  rw [r2LengthField, show 43 - cfg.r2LenShift = 8 * 5 + (3 - cfg.r2LenShift) by omega,
    m.getU_in_byte 5 (by omega), show 8 - (3 - cfg.r2LenShift) - 5 = cfg.r2LenShift by omega]
  rfl

/-! ### The frames by decoder -/

/-- What is said of the frames of one decoder. -/
def ProtocolFrames (cfg : Config) (x : Decoder) : DecoderId → Prop
  | .asv => AsvFramesInv cfg x
  | .r2 => R2FramesInv cfg x
  | .r3 => R3FramesInv cfg x
  | .sbf => SbfFramesInv cfg x

theorem State.framesInv_iff {s : State} : s.FramesInv ↔ ∀ d, ProtocolFrames s.cfg (s.dec d) d := by
  constructor
  · intro h d
    cases d with
    | asv => exact h.asv
    | r2 => exact h.r2
    | r3 => exact h.r3
    | sbf => exact h.sbf
  · intro h
    exact ⟨h .asv, h .r2, h .r3, h .sbf⟩

/-- A decoder that holds no frame, begun or retained. -/
theorem protocolFrames_of_empty {cfg : Config} {x : Decoder} (d : DecoderId) (hp : x.phase = 0#2) (hn : x.n = 0#16)
    (hv : x.fvalid = false) : ProtocolFrames cfg x d := by
  have hno : ¬ 1 ≤ x.n.toNat ∧ ¬ 2 ≤ x.n.toNat := by simp [hn]
  have hnv : x.fvalid ≠ true := by simp [hv]
  cases d with
  | asv => exact ⟨fun h => absurd h hno.1, fun h => absurd h hno.2, by simp [hp], fun h => absurd h hnv⟩
  | r2 => exact ⟨fun _ h => absurd h (by simp [hno, hnv]), fun h => absurd h hnv⟩
  | r3 => exact ⟨fun h => absurd h hno.1, by simp [hp], fun h => absurd h hnv⟩
  | sbf => exact ⟨fun h => absurd h hno.1, fun h => absurd h hno.2, by simp [hp], fun h => absurd h hnv⟩

/-- What is said of a retained frame of `total` bytes with the id `id`. -/
def RetainedFrame (cfg : Config) (m : Memory) (total id : BitVec 16) : DecoderId → Prop
  | .asv => AsvFrame cfg (m.bytes 0 total.toNat) ∧ id.toNat = m.pair cfg.asvIdLe 8
  | .r2 => (cfg.r2InvMask.extractLsb' 22 8 = 0xFF#8 → m.read 0 = 0x66#8) ∧
      total.toNat = 3 * ((m.read 5).toNat / 2 ^ cfg.r2LenShift % 32) + 6 ∧ id.toNat = (m.read 1).toNat / 4
  | .r3 => R3Frame cfg (m.bytes 0 total.toNat) ∧ id.toNat = 16 * (m.read 3).toNat + (m.read 4).toNat / 16
  | .sbf => SbfFrame cfg (m.bytes 0 total.toNat) ∧ id.toNat = m.pair cfg.sbfLe 4

/-- What holds of the frames in the registers of a READ. -/
structure R2Run.FramesInv (cfg : Config) (d : DecoderId) (r : R2Run) : Prop where
  progress : ProtocolFrames cfg r.dec d
  completed : ∀ total id, r.out = .ready total id → r.dec.n = 0#16 ∧ r.dec.phase = 0#2 ∧
    RetainedFrame cfg r.dec.buf total id d

theorem State.readRun_framesInv {s : State} (h : s.FramesInv) (d : DecoderId) : (s.readRun d).FramesInv s.cfg d := by
  refine ⟨?_, nofun⟩
  have hd := State.framesInv_iff.1 h d
  cases d with
  | asv => exact ⟨hd.first, hd.second, hd.length, nofun⟩
  | r2 => exact ⟨fun hmask hn => hd.first hmask (hn.elim .inl nofun), nofun⟩
  | r3 => exact ⟨hd.first, hd.length, nofun⟩
  | sbf => exact ⟨hd.first, hd.second, hd.length, nofun⟩

/-- The end of a READ retains a completed frame (R150). -/
theorem R2Run.FramesInv.finished {cfg : Config} {d : DecoderId} {r : R2Run} (h : r.FramesInv cfg d) :
    ProtocolFrames cfg (r.finished cfg) d := by
  obtain ⟨hprogress, hcompleted⟩ := h
  unfold R2Run.finished
  split
  · exact hprogress
  · next total id ho =>
    obtain ⟨hn, hp, hretained⟩ := hcompleted total id ho
    cases d with
    | asv => exact ⟨by simp [hn], by simp [hn], by simp [hp], fun _ => hretained⟩
    | r2 => exact ⟨fun hmask _ => hretained.1 hmask, fun _ => hretained.2⟩
    | r3 => exact ⟨by simp [hn], by simp [hp], fun _ => hretained⟩
    | sbf => exact ⟨by simp [hn], by simp [hn], by simp [hp], fun _ => hretained⟩
  · cases d with
    | asv => exact ⟨hprogress.first, hprogress.second, hprogress.length, hprogress.retained⟩
    | r2 => exact ⟨hprogress.first, hprogress.retained⟩
    | r3 => exact ⟨hprogress.first, hprogress.length, hprogress.retained⟩
    | sbf => exact ⟨hprogress.first, hprogress.second, hprogress.length, hprogress.retained⟩

/-! ### Asv -/

/-- A complete Asv frame whose CRC agrees is a valid frame (R91, R156). -/
theorem asvFrame_of_checks {cfg : Config} {m : Memory} {t : Nat} (hmin : 12 ≤ t) (hmax : t ≤ asvMax)
    (h0 : m.read 0 = 0xAA#8) (h1 : m.read 1 = 0x44#8) (hlen : m.pair true 2 + 12 = t)
    (hcrc : crc16 cfg (m.readRange 0 (t - 2)) = m.word16 cfg.asvCrcLe (t - 2)) : AsvFrame cfg (m.bytes 0 t) := by
  rw [AsvFrame, Memory.length_bytes, m.byteAt_bytes (by omega), m.byteAt_bytes (by omega), m.pairAt_bytes _ (by omega),
    m.pairAt_bytes _ (by omega), m.take_bytes _ (by omega), m.bytes_eq_readRange, hcrc, m.toNat_word16]
  exact ⟨hmin, hmax, h0, h1, hlen, rfl⟩

/-- The Asv decoder's progress after storing a byte past the length field. -/
theorem asvFramesInv_stored {cfg : Config} {b : Byte} {x : Decoder} (hf : AsvFramesInv cfg x) (hv : x.fvalid = false)
    (hn : 2 ≤ x.n.toNat) (hlen : x.phase = 3#2 → 4 ≤ x.n.toNat) : AsvFramesInv cfg (x.stored b) where
  first _ := (Memory.read_write_other _ _ (by omega)).trans (hf.first (by omega))
  second _ := (Memory.read_write_other _ _ (by omega)).trans (hf.second hn)
  length hp := by
    have := hlen hp
    exact (congrArg (· + 12) (Memory.pair_write_other _ _ _ (by omega))).trans (hf.length hp)
  retained := nothing_retained hv

theorem AsvStep.frames {cfg : Config} {b : Byte} {x y : Decoder} {o : FrameOutcome} {w : BitVec 32} {nbit : BitVec 5}
    (h : AsvStep cfg b x y o) (hc : x.Common asvMax) (hi : AsvInv x) (hf : AsvFramesInv cfg x) (hv : x.fvalid = false) :
    R2Run.FramesInv cfg .asv ⟨y, w, nbit, o⟩ := by
  obtain ⟨hi1, hi2, hi3⟩ := hi
  obtain ⟨-, -, -, hw, -⟩ := hc
  cases h with
  | ignored _ _ => exact ⟨hf, nofun⟩
  | started hp hb =>
    exact ⟨⟨fun _ => hb ▸ Memory.read_write_self hw 0 b, fun h => absurd h (show ¬ 2 ≤ (1#16).toNat by decide),
      fun h => absurd h (show 1#2 ≠ 3#2 by decide), nothing_retained hv⟩, nofun⟩
  | dropped hp _ => exact ⟨protocolFrames_of_empty .asv rfl rfl hv, nofun⟩
  | second hp hb =>
    refine ⟨⟨fun _ => ?_, fun _ => hb ▸ Memory.read_write_self hw 1 b, fun h => absurd h (show 2#2 ≠ 3#2 by decide),
      nothing_retained hv⟩, nofun⟩
    exact (Memory.read_write_other _ _ (by decide)).trans (hf.first (by simp [(hi1 hp).1]))
  | header hp _ _ => exact ⟨asvFramesInv_stored hf hv (hi2 hp).1 (by simp [hp]), nofun⟩
  | oversize hp _ _ _ => exact ⟨protocolFrames_of_empty .asv rfl rfl hv, nofun⟩
  | sized hp hn h4 hs =>
    have hstored := asvFramesInv_stored (b := b) hf hv (hi2 hp).1 (by simp [hp])
    refine ⟨⟨hstored.first, hstored.second, fun _ => ?_, nothing_retained hv⟩, nofun⟩
    have hfit : asvAnnounced (x.stored b) < 2 ^ 16 := Nat.lt_of_le_of_lt hs (by decide)
    rw [BitVec.toNat_ofNat, Nat.mod_eq_of_lt hfit, asvAnnounced, Memory.toNat_word16]
  | message hp _ _ => exact ⟨asvFramesInv_stored hf hv (by have := (hi3 hp).1; omega) fun _ => (hi3 hp).1, nofun⟩
  | last hp hn _ _ _ =>
    obtain ⟨hn4, -, ht12, htmax⟩ := hi3 hp
    have hstored := asvFramesInv_stored (b := b) hf hv (by omega) fun _ => hn4
    have hsucc : (x.stored b).n.toNat = x.n.toNat + 1 := toNat_add_of_lt (k := 1) hn (by decide)
    refine ⟨protocolFrames_of_empty .asv rfl rfl hv, fun total id h => ⟨rfl, rfl, ?_⟩⟩
    obtain ⟨rfl, rfl, hcrc⟩ := asvVerdict_ready h
    exact ⟨asvFrame_of_checks ht12 htmax (hstored.first (by omega)) (hstored.second (by omega)) (hstored.length hp) hcrc,
      Memory.toNat_word16 _ _ _⟩

/-! ### RTCM v3 -/

/-- A complete RTCM v3 frame whose CRC agrees is a valid frame (R95, R207). -/
theorem r3Frame_of_checks {cfg : Config} {m : Memory} {t : Nat} (hmin : 6 ≤ t) (hmax : t ≤ cfg.r3BufMax)
    (h0 : m.read 0 = cfg.r3Preamble) (hlen : 256 * ((m.read 1).toNat % 4) + (m.read 2).toNat + 6 = t)
    (hcrc : (crc24q cfg (m.readRange 0 (t - 3))).toNat = m.getU (8 * (t - 3)) 24) : R3Frame cfg (m.bytes 0 t) := by
  rw [R3Frame, Memory.length_bytes, m.byteAt_bytes (by omega), m.byteAt_bytes (by omega), m.byteAt_bytes (by omega),
    m.byteAt_bytes (by omega), m.byteAt_bytes (by omega), m.byteAt_bytes (by omega), m.take_bytes _ (by omega),
    m.bytes_eq_readRange, hcrc, m.getU_three_bytes, show t - 3 + 1 = t - 2 by omega, show t - 3 + 2 = t - 1 by omega]
  exact ⟨hmin, hmax, h0, hlen, rfl⟩

/-- The RTCM v3 decoder's progress after storing a byte past the preamble. -/
theorem r3FramesInv_stored {cfg : Config} {b : Byte} {x : Decoder} (hf : R3FramesInv cfg x) (hv : x.fvalid = false)
    (hn : 1 ≤ x.n.toNat) (hlen : x.phase = 2#2 ∨ x.phase = 3#2 → 3 ≤ x.n.toNat) : R3FramesInv cfg (x.stored b) where
  first _ := (Memory.read_write_other _ _ (by omega)).trans (hf.first hn)
  length hp := by
    have := hlen hp
    rw [Decoder.stored_buf, Memory.read_write_other _ _ (by omega), Memory.read_write_other _ _ (by omega)]
    exact hf.length hp
  retained := nothing_retained hv

theorem R3Step.frames {cfg : Config} {b : Byte} {x y : Decoder} {o : FrameOutcome} {w : BitVec 32} {nbit : BitVec 5}
    (h : R3Step cfg b x y o) (hcfg : cfg.wf) (hc : x.Common cfg.r3BufMax) (hi : R3Inv cfg x) (hf : R3FramesInv cfg x)
    (hv : x.fvalid = false) : R2Run.FramesInv cfg .r3 ⟨y, w, nbit, o⟩ := by
  have hcap : cfg.r3BufMax < 65536 := capacity_lt hcfg .r3
  obtain ⟨hi1, hi2, hi3, hit⟩ := hi
  obtain ⟨-, -, -, hw, -⟩ := hc
  have hpayload : x.phase = 2#2 ∨ x.phase = 3#2 → 3 ≤ x.n.toNat := fun hp => by
    rcases hp with hp | hp
    · exact (hi2 hp).1
    · have := (hi3 hp).1
      have := (hit (.inr hp)).1
      omega
  cases h with
  | ignored _ _ => exact ⟨hf, nofun⟩
  | started hp hb =>
    exact ⟨⟨fun _ => hb ▸ Memory.read_write_self hw 0 b, fun h => absurd h (show ¬ (1#2 = 2#2 ∨ 1#2 = 3#2) by decide),
      nothing_retained hv⟩, nofun⟩
  | header hp _ _ => exact ⟨r3FramesInv_stored hf hv (hi1 hp).1 (by simp [hp]), nofun⟩
  | oversize hp _ _ _ => exact ⟨protocolFrames_of_empty .r3 rfl rfl hv, nofun⟩
  | sized hp hn h3 hs =>
    have hstored := r3FramesInv_stored (b := b) hf hv (hi1 hp).1 (by simp [hp])
    refine ⟨⟨hstored.first, fun _ => ?_, nothing_retained hv⟩, nofun⟩
    have htotal : (BitVec.ofNat 16 (r3Announced (x.stored b) + 6)).toNat = r3Announced (x.stored b) + 6 := by
      rw [BitVec.toNat_ofNat]; exact Nat.mod_eq_of_lt (by omega)
    exact (congrArg (· + 6) (Memory.getU_14_10 _).symm).trans htotal.symm
  | payload hp _ _ =>
    exact ⟨r3FramesInv_stored hf hv (by have := (hi2 hp).1; omega) hpayload, nofun⟩
  | payloadEnd hp _ _ =>
    have hstored := r3FramesInv_stored (b := b) hf hv (by have := hpayload (.inl hp); omega) hpayload
    exact ⟨⟨hstored.first, fun _ => hstored.length (.inl hp), hstored.retained⟩, nofun⟩
  | crc hp _ _ =>
    exact ⟨r3FramesInv_stored hf hv (by have := hpayload (.inr hp); omega) hpayload, nofun⟩
  | last hp hn _ _ _ =>
    obtain ⟨ht6, htmax⟩ := hit (.inr hp)
    have hn3 := hpayload (.inr hp)
    have hstored := r3FramesInv_stored (b := b) hf hv (by omega) hpayload
    have hsucc : (x.stored b).n.toNat = x.n.toNat + 1 := toNat_add_of_lt (k := 1) hn hcap
    refine ⟨protocolFrames_of_empty .r3 rfl rfl hv, fun total id h => ⟨rfl, rfl, ?_⟩⟩
    obtain ⟨rfl, rfl, hcrc⟩ := r3Verdict_ready h
    have hid : (x.stored b).buf.getU 24 12 < 2 ^ 12 := Memory.getU_lt _ _ _
    refine ⟨r3Frame_of_checks ht6 htmax (hstored.first (by omega)) (hstored.length (.inr hp)) hcrc, ?_⟩
    rw [BitVec.toNat_ofNat, Nat.mod_eq_of_lt (by omega), Memory.getU_24_12]
    rfl

/-! ### SBF-style -/

/-- A complete SBF-style frame whose CRC agrees is a valid frame (R96, R227). -/
theorem sbfFrame_of_checks {cfg : Config} {m : Memory} {t : Nat} (hmin : 8 ≤ t) (hmax : t ≤ cfg.sbfBufMax)
    (h0 : m.read 0 = cfg.sbfSync1) (h1 : m.read 1 = cfg.sbfSync2) (hlen : m.pair cfg.sbfLe 6 = t)
    (hcrc : crc16 cfg (m.readRange 4 (t - 4)) = m.word16 cfg.sbfLe 2) : SbfFrame cfg (m.bytes 0 t) := by
  rw [SbfFrame, Memory.length_bytes, m.byteAt_bytes (by omega), m.byteAt_bytes (by omega), m.pairAt_bytes _ (by omega),
    m.pairAt_bytes _ (by omega), m.drop_bytes, m.bytes_eq_readRange, hcrc, m.toNat_word16]
  exact ⟨hmin, hmax, h0, h1, hlen, rfl⟩

/-- The SBF-style decoder's progress after storing a byte past the sync bytes. -/
theorem sbfFramesInv_stored {cfg : Config} {b : Byte} {x : Decoder} (hf : SbfFramesInv cfg x) (hv : x.fvalid = false)
    (hn : 2 ≤ x.n.toNat) (hlen : x.phase = 3#2 → 8 ≤ x.n.toNat) : SbfFramesInv cfg (x.stored b) where
  first _ := (Memory.read_write_other _ _ (by omega)).trans (hf.first (by omega))
  second _ := (Memory.read_write_other _ _ (by omega)).trans (hf.second hn)
  length hp := by
    have := hlen hp
    exact (Memory.pair_write_other _ _ _ (by omega)).trans (hf.length hp)
  retained := nothing_retained hv

/-- A frame whose total length is the one its header announces, checked. -/
theorem sbf_retained_of_verdict {cfg : Config} {x : Decoder} {total id : BitVec 16} (hf : SbfFramesInv cfg x)
    (hn : 2 ≤ x.n.toNat) (hmin : 8 ≤ x.total.toNat) (hmax : x.total.toNat ≤ cfg.sbfBufMax)
    (hlen : x.buf.pair cfg.sbfLe 6 = x.total.toNat) (h : sbfVerdict cfg x = .ready total id) :
    RetainedFrame cfg x.buf total id .sbf := by
  obtain ⟨rfl, rfl, hcrc⟩ := sbfVerdict_ready h
  exact ⟨sbfFrame_of_checks hmin hmax (hf.first (by omega)) (hf.second hn) hlen hcrc, Memory.toNat_word16 _ _ _⟩

theorem SbfStep.frames {cfg : Config} {b : Byte} {x y : Decoder} {o : FrameOutcome} {w : BitVec 32} {nbit : BitVec 5}
    (h : SbfStep cfg b x y o) (hcfg : cfg.wf) (hc : x.Common cfg.sbfBufMax) (hi : SbfInv cfg x)
    (hf : SbfFramesInv cfg x) (hv : x.fvalid = false) : R2Run.FramesInv cfg .sbf ⟨y, w, nbit, o⟩ := by
  have hcap : cfg.sbfBufMax < 65536 := capacity_lt hcfg .sbf
  obtain ⟨hi1, hi2, hi3⟩ := hi
  obtain ⟨-, -, -, hw, -⟩ := hc
  cases h with
  | ignored _ _ => exact ⟨hf, nofun⟩
  | started hp hb =>
    exact ⟨⟨fun _ => hb ▸ Memory.read_write_self hw 0 b, fun h => absurd h (show ¬ 2 ≤ (1#16).toNat by decide),
      fun h => absurd h (show 1#2 ≠ 3#2 by decide), nothing_retained hv⟩, nofun⟩
  | dropped hp _ => exact ⟨protocolFrames_of_empty .sbf rfl rfl hv, nofun⟩
  | second hp hb =>
    refine ⟨⟨fun _ => ?_, fun _ => hb ▸ Memory.read_write_self hw 1 b, fun h => absurd h (show 2#2 ≠ 3#2 by decide),
      nothing_retained hv⟩, nofun⟩
    exact (Memory.read_write_other _ _ (by decide)).trans (hf.first (by simp [(hi1 hp).1]))
  | header hp _ _ => exact ⟨sbfFramesInv_stored hf hv (hi2 hp).1 (by simp [hp]), nofun⟩
  | badLength hp _ _ _ => exact ⟨protocolFrames_of_empty .sbf rfl rfl hv, nofun⟩
  | headerOnly hp hn h8 he hmax =>
    have hstored := sbfFramesInv_stored (b := b) hf hv (hi2 hp).1 (by simp [hp])
    refine ⟨protocolFrames_of_empty .sbf rfl rfl hv, fun total id h => ⟨rfl, rfl, ?_⟩⟩
    refine sbf_retained_of_verdict (x := { x.stored b with total := sbfAnnounced cfg (x.stored b) })
      ⟨hstored.first, hstored.second, fun h => absurd (hp.symm.trans h) (by decide), hstored.retained⟩ ?_ he.ge
      (he.trans_le hmax) (Memory.toNat_word16 _ _ _).symm h
    simp [h8]
  | sized hp hn h8 hs hmax =>
    have hstored := sbfFramesInv_stored (b := b) hf hv (hi2 hp).1 (by simp [hp])
    exact ⟨⟨hstored.first, hstored.second, fun _ => (Memory.toNat_word16 _ _ _).symm, nothing_retained hv⟩, nofun⟩
  | message hp _ _ => exact ⟨sbfFramesInv_stored hf hv (by have := (hi3 hp).1; omega) fun _ => (hi3 hp).1, nofun⟩
  | last hp hn _ _ _ =>
    obtain ⟨hn8, -, ht9, htmax⟩ := hi3 hp
    have hstored := sbfFramesInv_stored (b := b) hf hv (by omega) fun _ => hn8
    have hsucc : (x.stored b).n.toNat = x.n.toNat + 1 := toNat_add_of_lt (k := 1) hn hcap
    exact ⟨protocolFrames_of_empty .sbf rfl rfl hv, fun total id h => ⟨rfl, rfl,
      sbf_retained_of_verdict (x := x.stored b) hstored (by omega) (Nat.le_of_succ_le ht9) htmax (hstored.length hp) h⟩⟩

/-! ### RTCM v2 -/

/-- The first byte of the data word that follows a preamble is the preamble, if the inversion covers its bits (R139,
R175). -/
theorem first_byte_of_preamble {cfg : Config} {v : BitVec 32} {d : BitVec 24}
    (hmask : cfg.r2InvMask.extractLsb' 22 8 = 0xFF#8) (hpre : r2PreambleMatches v = true)
    (hd : hamDecode cfg v = some d) : d.extractLsb' 16 8 = 0x66#8 := by
  have hdata : d = (hamUninvert cfg v).extractLsb' 6 24 := by
    simp only [hamDecode] at hd
    split at hd <;> cases hd
    rfl
  have htop : d.extractLsb' 16 8 = (hamUninvert cfg v).extractLsb' 22 8 := by
    rw [hdata]
    ext i hi
    simp [show 16 + i < 24 by omega, show 6 + (16 + i) = 22 + i by omega]
  rw [htop, hamUninvert]
  unfold r2PreambleMatches at hpre
  split
  · next hinv =>
    rw [if_pos hinv, beq_iff_eq, ← hmask] at hpre
    refine Eq.trans ?_ hpre
    ext i hi
    simp
  · next hinv =>
    rw [if_neg hinv, beq_iff_eq] at hpre
    exact hpre

theorem Memory.read_write3_first {m : Memory} (h : m.wf) (a : Nat) (d : BitVec 24) :
    (m.write3 a d).read a = d.extractLsb' 16 8 := by
  rw [Memory.write3, Memory.read_write_other _ _ (by omega), Memory.read_write_other _ _ (by omega),
    Memory.read_write_self h]

theorem R2Effect.frames {cfg : Config} {r r' : R2Run} (h : R2Effect cfg r r') (hcfg : cfg.wf) (hr : r.Inv cfg .r2)
    (hf : R2FramesInv cfg r.dec) (hmore : r.out = .more) : r'.FramesInv cfg .r2 := by
  obtain ⟨⟨hc, hi, -⟩, hv, -⟩ := hr
  obtain ⟨-, -, -, hw, -⟩ := id hc
  have hno : ∀ {o : FrameOutcome} {P : BitVec 16 → BitVec 16 → Prop}, o = r.out → ∀ total id, o = .ready total id →
      P total id :=
    fun e _ _ h => nomatch (e.symm.trans h).symm.trans hmore
  have hfirst : cfg.r2InvMask.extractLsb' 22 8 = 0xFF#8 → r.dec.phase ≠ 0#2 →
      ∀ d, (r.dec.withWord cfg d).buf.read 0 = 0x66#8 := by
    intro hmask hp d
    obtain ⟨hphase, -, -, hi1⟩ := id hi
    have hn : 3 ≤ r.dec.n.toNat := (hi1 (hphase.resolve_left hp)).1
    exact (Memory.read_write3_other _ _ (by omega)).trans (hf.first hmask (.inl (by omega)))
  cases h with
  | shifted w nbit _ _ => exact ⟨hf, hno rfl⟩
  | synced w nbit v d _ _ hpre hd =>
    exact ⟨⟨fun hmask _ => (Memory.read_write3_first hw 0 d).trans (first_byte_of_preamble hmask hpre hd),
      nothing_retained hv⟩, hno rfl⟩
  | rejected w _ => exact ⟨protocolFrames_of_empty .r2 rfl rfl hv, nofun⟩
  | word w nbit d hp _ _ _ => exact ⟨⟨fun hmask _ => hfirst hmask hp d, nothing_retained hv⟩, hno rfl⟩
  | complete w d hp _ _ =>
    refine ⟨protocolFrames_of_empty .r2 rfl rfl hv, fun total id h => ⟨rfl, rfl, fun hmask => hfirst hmask hp d, ?_⟩⟩
    cases h
    obtain ⟨-, -, -, -, -, ht, -, -⟩ := withWord_spec d hcfg hc hi hp
    obtain ⟨-, -, -, -, hshift, -⟩ := hcfg
    refine ⟨by rw [ht, toNat_r2TotalOf, r2LengthField_eq hshift]; rfl, ?_⟩
    have hid : (r.dec.withWord cfg d).buf.getU 8 6 < 2 ^ 6 := Memory.getU_lt _ _ _
    rw [BitVec.toNat_ofNat, Nat.mod_eq_of_lt (by omega), Memory.getU_8_6]
    rfl

/-! ### Every phase rule, every command, every step -/

/-- Every phase rule keeps what is said of the frames. -/
theorem readRule_frames {cfg : Config} {b : Byte} {d : DecoderId} {r r' : R2Run} (h : readRule cfg b d r = some r')
    (hcfg : cfg.wf) (hr : r.Inv cfg d) (hf : r.FramesInv cfg d) (hmore : r.out = .more) : r'.FramesInv cfg d := by
  obtain ⟨hc, hi, -⟩ := hr.dec
  cases d with
  | r2 => exact (r2Rule_effect h).frames hcfg hr hf.progress hmore
  | asv =>
    obtain ⟨y, o, hy, rfl⟩ := R2Run.onByte_eq_some.1 h
    exact (asvRule_eq_some.1 hy).frames hc hi hf.progress hr.released
  | r3 =>
    obtain ⟨y, o, hy, rfl⟩ := R2Run.onByte_eq_some.1 h
    exact (r3Rule_eq_some.1 hy).frames hcfg hc hi hf.progress hr.released
  | sbf =>
    obtain ⟨y, o, hy, rfl⟩ := R2Run.onByte_eq_some.1 h
    exact (sbfRule_eq_some.1 hy).frames hcfg hc hi hf.progress hr.released

theorem State.FramesInv.of_same_decoders {s t : State} (h : s.FramesInv) (hcfg : t.cfg = s.cfg)
    (hdec : ∀ d, t.dec d = s.dec d) : t.FramesInv := by
  refine State.framesInv_iff.2 fun d => ?_
  rw [hcfg, hdec]
  exact State.framesInv_iff.1 h d

/-- Every command keeps what is said of the frames. -/
theorem CommandEffect.framesInv {i : Instr} {s t : State} (h : CommandEffect i s t) (hs : s.Inv) (hf : s.FramesInv) :
    t.FramesInv := by
  cases h with
  | answered r _ => exact hf.of_same_decoders rfl (State.respond_dec s r)
  | faulted c => exact hf.of_same_decoders (raiseFault_cfg c s) (raiseFault_dec c s)
  | stored m _ _ => exact hf.of_same_decoders rfl (by simp)
  | resized n _ => exact hf.of_same_decoders rfl (by simp)
  | reset d _ =>
    refine State.framesInv_iff.2 fun e => ?_
    rw [State.respond_cfg, State.respond_dec, resetDecoder_cfg]
    by_cases he : e = d
    · subst he
      rw [resetDecoder_dec_self]
      exact protocolFrames_of_empty e rfl rfl rfl
    · rw [resetDecoder_dec_other s he]
      exact State.framesInv_iff.1 hf e
  | cleared _ =>
    refine State.framesInv_iff.2 fun e => ?_
    rw [State.respond_dec, clearAll_dec]
    exact protocolFrames_of_empty e rfl rfl rfl
  | read d b r _ _ hr =>
    refine State.framesInv_iff.2 fun e => ?_
    rw [State.putRun_cfg]
    by_cases he : e = d
    · subst he
      rw [State.putRun_dec_self]
      exact (readRule_frames hr hs.cfg (State.readRun_inv hs e) (State.readRun_framesInv hf e) rfl).finished
    · rw [State.putRun_dec_other s r he]
      exact State.framesInv_iff.1 hf e

theorem step_framesInv {s t : State} (hs : s.Inv) (hf : s.FramesInv) (h : step s = .next t) : t.FramesInv := by
  have hport : ∀ port, ({ s with port := port } : State).FramesInv := fun port =>
    hf.of_same_decoders rfl (State.dec_port s port)
  rcases step_eq_next h with ⟨-, rfl⟩ | ⟨rest, -, rfl⟩ | ⟨w, rest, e, -, -, rfl⟩ | ⟨w, rest, i, -, -, h⟩
  · exact hf
  · exact (framesInv_resetWith s.cfg).of_same_decoders rfl (State.dec_port _ _)
  · exact (hport rest).of_same_decoders (raiseFault_cfg _ _) (raiseFault_dec _ _)
  · exact (exec_effect h).framesInv (hs.withPort rest) (hport rest)

/-! ### The life of a retained frame (R31, R63, R310) -/

/-- What a command does to a decoder that retains a frame: nothing, or it releases the frame. -/
theorem CommandEffect.retained {i : Instr} {s t : State} {d : DecoderId} (h : CommandEffect i s t)
    (hphase : (s.dec d).fvalid = true → (s.dec d).phase = 0#2) (hv : (s.dec d).fvalid = true) :
    t.dec d = s.dec d ∨ (t.dec d).fvalid = false := by
  cases h with
  | answered r _ | faulted c | stored m _ _ | resized n _ => exact .inl (by simp)
  | reset e _ =>
    rw [State.respond_dec]
    by_cases he : d = e
    · subst he; exact .inr (by rw [resetDecoder_dec_self])
    · exact .inl (resetDecoder_dec_other s he)
  | cleared _ => exact .inr (by rw [State.respond_dec, clearAll_dec]; rfl)
  | read e b r _ _ hr =>
    by_cases he : d = e
    · subst he
      have hmore : r.out = .more := readRule_more_of_search hr (hphase hv) rfl
      refine .inr ?_
      rw [State.putRun_dec_self, R2Run.finished, hmore]
      exact (readRule_keeps hr).2
    · exact .inl (State.putRun_dec_other s r he)

/-- The bytes the filter of RTCM v2 takes (R172). -/
theorem r2Accepts_range {b : Byte} (h : r2Accepts b = true) : 0x40 ≤ b.toNat ∧ b.toNat ≤ 0x7F := by
  have htop : (b.extractLsb' 6 2).toNat = 1 := congrArg BitVec.toNat (beq_iff_eq.1 h)
  rw [BitVec.extractLsb'_toNat, Nat.shiftRight_eq_div_pow] at htop
  omega

/-- The commands that release a retained frame. -/
theorem CommandEffect.released {i : Instr} {s t : State} {d : DecoderId} (h : CommandEffect i s t)
    (hv : (s.dec d).fvalid = true) (hv' : (t.dec d).fvalid = false) :
    i = .rstall ∨ i = .reset d.sel ∨ ∃ b, i = Instr.readOf d b ∧ (d = .r2 → 0x40 ≤ b.toNat ∧ b.toNat ≤ 0x7F) := by
  have hsame : t.dec d ≠ s.dec d := fun e => by rw [e, hv] at hv'; cases hv'
  cases h with
  | answered r _ | faulted c | stored m _ _ | resized n _ => exact absurd (by simp) hsame
  | reset e hi =>
    rw [State.respond_dec] at hsame
    by_cases he : d = e
    · exact .inr (.inl (he ▸ hi))
    · exact absurd (resetDecoder_dec_other s he) hsame
  | cleared hi => exact .inl hi
  | read e b r hi ha _ =>
    by_cases he : d = e
    · subst he
      exact .inr (.inr ⟨b, hi, fun hd => r2Accepts_range (by subst hd; exact ha)⟩)
    · exact absurd (State.putRun_dec_other s r he) hsame

theorem phase_of_retained {s : State} (h : s.Inv) (d : DecoderId) (hv : (s.dec d).fvalid = true) :
    (s.dec d).phase = 0#2 := by
  obtain ⟨⟨-, -, hretained, -⟩, -, -⟩ := h.dec d
  exact (hretained hv).1

theorem powerOn_dec (s : State) (d : DecoderId) : (powerOn s).dec d = Decoder.reset := by cases d <;> rfl

theorem step_keeps_retained {s t : State} {d : DecoderId} (hs : s.Inv) (h : step s = .next t)
    (hv : (s.dec d).fvalid = true) (hv' : (t.dec d).fvalid = true) : t.dec d = s.dec d := by
  rcases step_eq_next h with ⟨-, rfl⟩ | ⟨rest, -, rfl⟩ | ⟨w, rest, e, -, -, rfl⟩ | ⟨w, rest, i, -, -, h⟩
  · rfl
  · rw [powerOn_dec] at hv'; cases hv'
  · simp
  · have hport := State.dec_port s rest d
    rcases (exec_effect h).retained (d := d) (fun hv => by rw [hport] at hv ⊢; exact phase_of_retained hs d hv)
      (by rw [hport]; exact hv) with he | he
    · exact he.trans hport
    · rw [he] at hv'; cases hv'

/-- Settles O58: the frames by decoder, and what each command does to a retained one. -/
theorem retainedFramesStayValid : Obligations.RetainedFramesStayValid := by
  refine ⟨fun _ _ => step_framesInv, fun _ _ _ => step_keeps_retained, fun s t d h hv hv' => ?_⟩
  rcases step_eq_next h with ⟨-, rfl⟩ | ⟨rest, hp, -⟩ | ⟨w, rest, e, -, -, rfl⟩ | ⟨w, rest, i, hp, hw, h⟩
  · rw [hv] at hv'; cases hv'
  · exact .inl ⟨rest, hp⟩
  · rw [raiseFault_dec, State.dec_port, hv] at hv'; cases hv'
  · exact .inr ⟨w, rest, i, hp, hw, (exec_effect h).released (by rw [State.dec_port]; exact hv) hv'⟩

end Sys2Proof.Machine
end

section
/-! PROOFS. Alike states: no phase rule and no command looks at a byte outside the frame in progress, the retained frame and
the work buffer's length, so alike states stay alike (R40 (c), R66). -/

namespace Sys2Proof.Machine

/-! ### Buffers that agree below an address -/

theorem Memory.agreeBelow.mono {k n : Nat} {m m' : Memory} (h : Memory.agreeBelow n m m') (hk : k ≤ n) :
    Memory.agreeBelow k m m' := fun a ha => h a (Nat.lt_of_lt_of_le ha hk)

/-- The same byte written to both buffers: they agree there too. -/
theorem Memory.agreeBelow.write {n k : Nat} {m m' : Memory} (v : Byte) (hw : m.wf) (hw' : m'.wf)
    (h : ∀ a, a < n → a ≠ k → m.read a = m'.read a) : Memory.agreeBelow n (m.write k v) (m'.write k v) := by
  intro a ha
  rw [Memory.read_write hw, Memory.read_write hw']
  split
  · rfl
  · next hne => exact h a ha hne

theorem Memory.agreeBelow.write_same {n k : Nat} {m m' : Memory} (v : Byte) (hw : m.wf) (hw' : m'.wf)
    (h : Memory.agreeBelow n m m') : Memory.agreeBelow n (m.write k v) (m'.write k v) :=
  .write v hw hw' fun a ha _ => h a ha

theorem Memory.agreeBelow.write_next {n : Nat} {m m' : Memory} (v : Byte) (hw : m.wf) (hw' : m'.wf)
    (h : Memory.agreeBelow n m m') : Memory.agreeBelow (n + 1) (m.write n v) (m'.write n v) :=
  .write v hw hw' fun a ha hne => h a (by omega)

theorem Memory.agreeBelow.write3_same {n k : Nat} {m m' : Memory} (d : BitVec 24) (hw : m.wf) (hw' : m'.wf)
    (h : Memory.agreeBelow n m m') : Memory.agreeBelow n (m.write3 k d) (m'.write3 k d) :=
  .write_same _ (Memory.write_wf (Memory.write_wf hw _ _) _ _) (Memory.write_wf (Memory.write_wf hw' _ _) _ _)
    (.write_same _ (Memory.write_wf hw _ _) (Memory.write_wf hw' _ _) (.write_same _ hw hw' h))

theorem Memory.agreeBelow.write3_next {n : Nat} {m m' : Memory} (d : BitVec 24) (hw : m.wf) (hw' : m'.wf)
    (h : Memory.agreeBelow n m m') : Memory.agreeBelow (n + 3) (m.write3 n d) (m'.write3 n d) :=
  .write_next _ (Memory.write_wf (Memory.write_wf hw _ _) _ _) (Memory.write_wf (Memory.write_wf hw' _ _) _ _)
    (.write_next _ (Memory.write_wf hw _ _) (Memory.write_wf hw' _ _) (.write_next _ hw hw' h))

theorem Memory.agreeBelow.putU {n : Nat} {m m' : Memory} (hw : m.wf) (hw' : m'.wf) (h : Memory.agreeBelow n m m')
    (ofs w u : Nat) : Memory.agreeBelow n (m.putU ofs w u) (m'.putU ofs w u) := by
  induction w generalizing u with
  | zero => exact h
  | succ w ih =>
    have hput := Memory.putU_wf hw ofs w (u / 2)
    have hput' := Memory.putU_wf hw' ofs w (u / 2)
    intro a ha
    simp only [Memory.putU, Memory.setBit, Memory.read_write hput, Memory.read_write hput']
    split
    · next e => rw [← e, ih (u / 2) a ha]
    · exact ih (u / 2) a ha

theorem Memory.agreeBelow.word16 {n a : Nat} {m m' : Memory} (le : Bool) (h : Memory.agreeBelow n m m') (ha : a + 1 < n) :
    m.word16 le a = m'.word16 le a := by
  rw [Memory.word16, h (a + 1) ha, h a (by omega), Memory.word16]

theorem Memory.agreeBelow.readRange {n a k : Nat} {m m' : Memory} (h : Memory.agreeBelow n m m') (ha : a + k ≤ n) :
    m.readRange a k = m'.readRange a k := Memory.readRange_congr fun i hi => h (a + i) (by omega)

theorem Memory.agreeBelow.getU {n ofs w : Nat} {m m' : Memory} (h : Memory.agreeBelow n m m') (ha : ofs + w ≤ 8 * n) :
    m.getU ofs w = m'.getU ofs w := Memory.getU_congr_bytes fun a _ h2 => h a (by omega)

/-! ### Phase rules of byte-oriented decoders -/

/-- A decoder with another buffer in place of its own. -/
def Decoder.withBuf (m : Memory) (x : Decoder) : Decoder := { x with buf := m }

/-- The buffer `m` holds the same bytes as a decoder's own, of its frame in progress and of the frame just completed. -/
structure SameFrame (x : Decoder) (o : FrameOutcome) (m : Memory) : Prop where
  progress : Memory.agreeBelow x.n.toNat x.buf m
  completed : ∀ total id, o = .ready total id → Memory.agreeBelow total.toNat x.buf m

theorem toNat_succ_le (n : BitVec 16) : (n + 1#16).toNat ≤ n.toNat + 1 := by
  rw [BitVec.toNat_add]
  exact Nat.mod_le _ _

section
variable {cfg : Config} {b : Byte} {x y : Decoder} {o : FrameOutcome} {m : Memory}

/-- A byte stored in both buffers. -/
theorem SameFrame.stored (hw : x.buf.wf) (hm : m.wf) (h : Memory.agreeBelow x.n.toNat x.buf m) :
    Memory.agreeBelow (x.n.toNat + 1) (x.stored b).buf (m.write x.n.toNat b) := h.write_next b hw hm

theorem asvVerdict_withBuf {m : Memory} (h : Memory.agreeBelow x.total.toNat x.buf m) (ht : 12 ≤ x.total.toNat) :
    asvVerdict cfg (x.withBuf m) = asvVerdict cfg x := by
  unfold asvVerdict Decoder.withBuf
  dsimp only
  have hid : asvIdOfs + 1 < x.total.toNat := Nat.lt_of_lt_of_le (by decide) ht
  rw [h.readRange (by omega), h.word16 _ (by omega), h.word16 cfg.asvIdLe hid]

theorem asvAnnounced_withBuf (h : Memory.agreeBelow 4 x.buf m) : asvAnnounced (x.withBuf m) = asvAnnounced x := by
  rw [asvAnnounced, asvAnnounced, h.word16 true (by decide)]
  rfl

theorem AsvStep.withBuf (h : AsvStep cfg b x y o) (hi : AsvInv x) (hw : x.buf.wf) (hm : m.wf)
    (hag : Memory.agreeBelow x.n.toNat x.buf m) :
    ∃ m', AsvStep cfg b (x.withBuf m) (y.withBuf m') o ∧ SameFrame y o m' := by
  obtain ⟨hi1, hi2, hi3⟩ := hi
  have hstored := SameFrame.stored (b := b) hw hm hag
  have hn := toNat_succ_le x.n
  cases h with
  | ignored hp hb => exact ⟨m, .ignored hp hb, hag, nofun⟩
  | started hp hb => exact ⟨m.write 0 b, .started hp hb, .write_next b hw hm nofun, nofun⟩
  | dropped hp hb => exact ⟨m, .dropped hp hb, nofun, nofun⟩
  | second hp hb =>
    rw [(hi1 hp).1] at hag
    exact ⟨m.write 1 b, .second hp hb, hag.write_next b hw hm, nofun⟩
  | header hp hcap h4 => exact ⟨_, .header hp hcap h4, hstored.mono hn, nofun⟩
  | oversize hp hcap h4 hs =>
    have he := asvAnnounced_withBuf (x := x.stored b) (hstored.mono (by simpa [h4] using hn))
    exact ⟨_, .oversize hp hcap h4 (hs.trans_eq he.symm), nofun, nofun⟩
  | sized hp hcap h4 hs =>
    have he := asvAnnounced_withBuf (x := x.stored b) (hstored.mono (by simpa [h4] using hn))
    have hstep := AsvStep.sized (cfg := cfg) (b := b) (x := x.withBuf m) hp hcap h4 (he.trans_le hs)
    refine ⟨m.write x.n.toNat b, ?_, hstored.mono hn, nofun⟩
    rw [← he]
    exact hstep
  | message hp hcap hlt => exact ⟨_, .message hp hcap hlt, hstored.mono hn, nofun⟩
  | last hp hcap hlt h2 hmax =>
    obtain ⟨-, -, ht12, -⟩ := hi3 hp
    have hall : Memory.agreeBelow x.total.toNat (x.stored b).buf (m.write x.n.toNat b) :=
      hstored.mono ((Nat.not_lt.1 hlt).trans hn)
    have hv := asvVerdict_withBuf (cfg := cfg) (x := x.stored b) hall ht12
    refine ⟨m.write x.n.toNat b, hv ▸ .last hp hcap hlt h2 hmax, nofun, fun total id h => ?_⟩
    obtain ⟨rfl, -, -⟩ := asvVerdict_ready h
    exact hall

theorem r3Verdict_withBuf {m : Memory} (h : Memory.agreeBelow x.total.toNat x.buf m) (ht : 6 ≤ x.total.toNat) :
    r3Verdict cfg (x.withBuf m) = r3Verdict cfg x := by
  unfold r3Verdict Decoder.withBuf
  dsimp only
  rw [h.readRange (by omega), h.getU (by omega), h.getU (show 24 + 12 ≤ _ by omega)]

theorem r3Announced_withBuf (h : Memory.agreeBelow 3 x.buf m) : r3Announced (x.withBuf m) = r3Announced x :=
  (h.getU (by decide)).symm

theorem R3Step.withBuf (h : R3Step cfg b x y o) (hi : R3Inv cfg x) (hw : x.buf.wf) (hm : m.wf)
    (hag : Memory.agreeBelow x.n.toNat x.buf m) :
    ∃ m', R3Step cfg b (x.withBuf m) (y.withBuf m') o ∧ SameFrame y o m' := by
  obtain ⟨-, -, -, hit⟩ := hi
  have hstored := SameFrame.stored (b := b) hw hm hag
  have hn := toNat_succ_le x.n
  cases h with
  | ignored hp hb => exact ⟨m, .ignored hp hb, hag, nofun⟩
  | started hp hb => exact ⟨m.write 0 b, .started hp hb, .write_next b hw hm nofun, nofun⟩
  | header hp hcap h3 => exact ⟨_, .header hp hcap h3, hstored.mono hn, nofun⟩
  | oversize hp hcap h3 hs =>
    have he := r3Announced_withBuf (x := x.stored b) (hstored.mono (by simpa [h3] using hn))
    exact ⟨_, .oversize hp hcap h3 (hs.trans_eq (congrArg (· + 6) he.symm)), nofun, nofun⟩
  | sized hp hcap h3 hs =>
    have he := r3Announced_withBuf (x := x.stored b) (hstored.mono (by simpa [h3] using hn))
    have hstep := R3Step.sized (cfg := cfg) (b := b) (x := x.withBuf m) hp hcap h3 ((congrArg (· + 6) he).trans_le hs)
    refine ⟨m.write x.n.toNat b, ?_, hstored.mono hn, nofun⟩
    rw [← he]
    exact hstep
  | payload hp hcap he => exact ⟨_, .payload hp hcap he, hstored.mono hn, nofun⟩
  | payloadEnd hp hcap he => exact ⟨_, .payloadEnd hp hcap he, hstored.mono hn, nofun⟩
  | crc hp hcap hlt => exact ⟨_, .crc hp hcap hlt, hstored.mono hn, nofun⟩
  | last hp hcap hlt h3 hmax =>
    have hall : Memory.agreeBelow x.total.toNat (x.stored b).buf (m.write x.n.toNat b) :=
      hstored.mono ((Nat.not_lt.1 hlt).trans hn)
    have hv := r3Verdict_withBuf (cfg := cfg) (x := x.stored b) hall (hit (.inr hp)).1
    refine ⟨m.write x.n.toNat b, hv ▸ .last hp hcap hlt h3 hmax, nofun, fun total id h => ?_⟩
    obtain ⟨rfl, -, -⟩ := r3Verdict_ready h
    exact hall

theorem sbfVerdict_withBuf {m : Memory} (h : Memory.agreeBelow x.total.toNat x.buf m) (ht : 8 ≤ x.total.toNat) :
    sbfVerdict cfg (x.withBuf m) = sbfVerdict cfg x := by
  unfold sbfVerdict Decoder.withBuf
  dsimp only
  rw [h.readRange (by omega), h.word16 cfg.sbfLe (show 2 + 1 < _ by omega), h.word16 cfg.sbfLe (show 4 + 1 < _ by omega)]

theorem sbfAnnounced_withBuf (h : Memory.agreeBelow 8 x.buf m) : sbfAnnounced cfg (x.withBuf m) = sbfAnnounced cfg x :=
  (h.word16 cfg.sbfLe (by decide)).symm

theorem SbfStep.withBuf (h : SbfStep cfg b x y o) (hi : SbfInv cfg x) (hw : x.buf.wf) (hm : m.wf)
    (hag : Memory.agreeBelow x.n.toNat x.buf m) :
    ∃ m', SbfStep cfg b (x.withBuf m) (y.withBuf m') o ∧ SameFrame y o m' := by
  obtain ⟨hi1, -, hi3⟩ := hi
  have hstored := SameFrame.stored (b := b) hw hm hag
  have hn := toNat_succ_le x.n
  have hheader : x.n + 1#16 = 8#16 → Memory.agreeBelow 8 (x.stored b).buf (m.write x.n.toNat b) := fun h8 =>
    hstored.mono (by simpa [h8] using hn)
  cases h with
  | ignored hp hb => exact ⟨m, .ignored hp hb, hag, nofun⟩
  | started hp hb => exact ⟨m.write 0 b, .started hp hb, .write_next b hw hm nofun, nofun⟩
  | dropped hp hb => exact ⟨m, .dropped hp hb, nofun, nofun⟩
  | second hp hb =>
    rw [(hi1 hp).1] at hag
    exact ⟨m.write 1 b, .second hp hb, hag.write_next b hw hm, nofun⟩
  | header hp hcap h8 => exact ⟨_, .header hp hcap h8, hstored.mono hn, nofun⟩
  | badLength hp hcap h8 hs =>
    have he := sbfAnnounced_withBuf (cfg := cfg) (x := x.stored b) (hheader h8)
    exact ⟨m.write x.n.toNat b, .badLength hp hcap h8 (he ▸ hs), nofun, nofun⟩
  | headerOnly hp hcap h8 hs hmax =>
    have he := sbfAnnounced_withBuf (cfg := cfg) (x := x.stored b) (hheader h8)
    have hv := sbfVerdict_withBuf (cfg := cfg) (x := { x.stored b with total := sbfAnnounced cfg (x.stored b) })
      (m := m.write x.n.toNat b) ((hheader h8).mono hs.le) hs.ge
    have hstep := SbfStep.headerOnly (cfg := cfg) (b := b) (x := x.withBuf m) hp hcap h8 (he ▸ hs) hmax
    refine ⟨m.write x.n.toNat b, ?_, nofun, fun total id h => ?_⟩
    · rw [← hv, ← he]
      exact hstep
    · obtain ⟨rfl, -, -⟩ := sbfVerdict_ready h
      exact (hheader h8).mono hs.le
  | sized hp hcap h8 hs hmax =>
    have he := sbfAnnounced_withBuf (cfg := cfg) (x := x.stored b) (hheader h8)
    have hstep := SbfStep.sized (cfg := cfg) (b := b) (x := x.withBuf m) hp hcap h8 (he ▸ hs) (he ▸ hmax)
    refine ⟨m.write x.n.toNat b, ?_, hstored.mono hn, nofun⟩
    rw [← he]
    exact hstep
  | message hp hcap hlt => exact ⟨_, .message hp hcap hlt, hstored.mono hn, nofun⟩
  | last hp hcap hlt h4 hmax =>
    obtain ⟨-, -, ht9, -⟩ := hi3 hp
    have hall : Memory.agreeBelow x.total.toNat (x.stored b).buf (m.write x.n.toNat b) :=
      hstored.mono ((Nat.not_lt.1 hlt).trans hn)
    have hv := sbfVerdict_withBuf (cfg := cfg) (x := x.stored b) hall (Nat.le_of_succ_le ht9)
    refine ⟨m.write x.n.toNat b, hv ▸ .last hp hcap hlt h4 hmax, nofun, fun total id h => ?_⟩
    obtain ⟨rfl, -, -⟩ := sbfVerdict_ready h
    exact hall

end

/-! ### The phase rule of RTCM v2 -/

/-- The registers of a READ with another buffer in place of the decoder's own. -/
def R2Run.withBuf (m : Memory) (r : R2Run) : R2Run := { r with dec := r.dec.withBuf m }

/-- The buffer `m` can stand for the decoder's own: both canonical, the same frame. -/
structure R2Run.Interchangeable (r : R2Run) (m : Memory) : Prop where
  own : r.dec.buf.wf
  other : m.wf
  same : SameFrame r.dec r.out m

section
variable {cfg : Config} {r : R2Run} {m : Memory}

/-- A word stored in both buffers. -/
theorem withWord_withBuf (d : BitVec 24) (hshift : cfg.r2LenShift ≤ 3)
    (h : Memory.agreeBelow (r.dec.n.toNat + 3) (r.dec.buf.write3 r.dec.n.toNat d) (m.write3 r.dec.n.toNat d)) :
    (r.dec.withBuf m).withWord cfg d = (r.dec.withWord cfg d).withBuf (m.write3 r.dec.n.toNat d) := by
  unfold Decoder.withWord Decoder.withBuf
  dsimp only
  split
  · next h6 =>
    have hle : 6 ≤ r.dec.n.toNat + 3 := by
      have := congrArg BitVec.toNat h6
      rw [BitVec.toNat_add] at this
      exact (Eq.le this.symm).trans (Nat.mod_le _ _)
    rw [r2TotalOf_congr hshift (h 5 (by omega))]
  · rfl

theorem r2OnWord_withBuf {r' : R2Run} (hcfg : cfg.wf) (h : r2OnWord cfg r = some r') (hm : r.Interchangeable m) :
    ∃ m', r2OnWord cfg (r.withBuf m) = some (r'.withBuf m') ∧ r'.Interchangeable m' := by
  obtain ⟨hw, hw', hag, hready⟩ := hm
  obtain ⟨-, -, -, -, hshift, -⟩ := hcfg
  cases hd : hamDecode cfg r.w with
  | none =>
    cases (r2OnWord_of_rejected hd).symm.trans h
    exact ⟨m, r2OnWord_of_rejected hd, hw, hw', nofun, nofun⟩
  | some d =>
    by_cases hcap : r.dec.n.toNat + 3 ≤ r2BufMax
    · have hnext := hag.write3_next d hw hw'
      have hall := hnext.mono (toNat_add_of_lt (k := 3) hcap (by decide)).le
      have hbuf := Memory.write3_wf hw r.dec.n.toNat d
      have hbuf' := Memory.write3_wf hw' r.dec.n.toNat d
      have hrun := r2OnWord_of_accepted hd hcap
      have hrun' := r2OnWord_of_accepted (r := r.withBuf m) hd hcap
      rw [show (r.withBuf m).dec.withWord cfg d = _ from withWord_withBuf d hshift hnext] at hrun'
      by_cases hlt : (r.dec.withWord cfg d).n < (r.dec.withWord cfg d).total
      · rw [if_pos hlt] at hrun
        cases hrun.symm.trans h
        refine ⟨_, hrun'.trans (congrArg some (if_pos hlt)), hbuf, hbuf', hall, fun total id ho => ?_⟩
        exact (hready total id ho).write3_same d hw hw'
      · rw [if_neg hlt] at hrun
        cases hrun.symm.trans h
        have hid : (r.dec.withWord cfg d).buf.getU 8 6 = (m.write3 r.dec.n.toNat d).getU 8 6 := hnext.getU (by omega)
        refine ⟨m.write3 r.dec.n.toNat d, ?_, hbuf, hbuf', nofun, fun total id ho => ?_⟩
        · rw [hid]
          exact hrun'.trans (congrArg some (if_neg hlt))
        · cases ho
          exact hall.mono (Nat.not_lt.1 hlt)
    · exact nomatch (r2OnWord_of_no_room hd hcap).symm.trans h

theorem r2OnBit_of_search {bit : Bool} (hp : r.dec.phase = 0#2) :
    r2OnBit cfg bit r = some (r2OnSearch cfg { r with w := r2Shift r.w bit }) := if_pos hp

theorem r2OnBit_of_count {bit : Bool} (hp : r.dec.phase ≠ 0#2) (hn : r.nbit.toNat + 1 < 30) :
    r2OnBit cfg bit r = some { r with w := r2Shift r.w bit, nbit := r.nbit + 1#5 } := (if_neg hp).trans (if_pos hn)

theorem r2OnBit_of_word {bit : Bool} (hp : r.dec.phase ≠ 0#2) (hn : ¬ r.nbit.toNat + 1 < 30) :
    r2OnBit cfg bit r = r2OnWord cfg { r with w := r2Shift r.w bit, nbit := 0#5 } := (if_neg hp).trans (if_neg hn)

theorem r2OnSearch_of_found {d : BitVec 24} (hpre : r2PreambleMatches r.w = true) (hd : hamDecode cfg r.w = some d) :
    r2OnSearch cfg r =
      { r with dec := { r.dec with buf := r.dec.buf.write3 0 d, n := 3#16, phase := 1#2 }, nbit := 0#5 } := by
  simp only [r2OnSearch, if_pos hpre, hd]

theorem r2OnSearch_of_not_found (h : r2PreambleMatches r.w = true → hamDecode cfg r.w = none) :
    r2OnSearch cfg r = r := by
  unfold r2OnSearch
  split
  · next hpre => rw [h hpre]
  · rfl

theorem r2OnSearch_withBuf (hm : r.Interchangeable m) :
    ∃ m', r2OnSearch cfg (r.withBuf m) = (r2OnSearch cfg r).withBuf m' ∧ (r2OnSearch cfg r).Interchangeable m' := by
  obtain ⟨hw, hw', hag, hready⟩ := id hm
  by_cases hpre : r2PreambleMatches r.w = true
  · cases hd : hamDecode cfg r.w with
    | none =>
      rw [r2OnSearch_of_not_found fun _ => hd, r2OnSearch_of_not_found (r := r.withBuf m) fun _ => hd]
      exact ⟨m, rfl, hm⟩
    | some d =>
      rw [r2OnSearch_of_found hpre hd, r2OnSearch_of_found (r := r.withBuf m) hpre hd]
      exact ⟨m.write3 0 d, rfl, Memory.write3_wf hw 0 d, Memory.write3_wf hw' 0 d, .write3_next d hw hw' nofun,
        fun total id ho => (hready total id ho).write3_same d hw hw'⟩
  · rw [r2OnSearch_of_not_found fun h => absurd h hpre, r2OnSearch_of_not_found (r := r.withBuf m) fun h => absurd h hpre]
    exact ⟨m, rfl, hm⟩

theorem r2OnBit_withBuf {bit : Bool} {r' : R2Run} (hcfg : cfg.wf) (h : r2OnBit cfg bit r = some r')
    (hm : r.Interchangeable m) :
    ∃ m', r2OnBit cfg bit (r.withBuf m) = some (r'.withBuf m') ∧ r'.Interchangeable m' := by
  obtain ⟨hw, hw', hsame⟩ := hm
  by_cases hp : r.dec.phase = 0#2
  · cases (r2OnBit_of_search hp).symm.trans h
    obtain ⟨m', hrun, hm'⟩ := r2OnSearch_withBuf (cfg := cfg) (r := { r with w := r2Shift r.w bit }) ⟨hw, hw', hsame⟩
    exact ⟨m', (r2OnBit_of_search (r := r.withBuf m) hp).trans (congrArg some hrun), hm'⟩
  · by_cases hn : r.nbit.toNat + 1 < 30
    · cases (r2OnBit_of_count hp hn).symm.trans h
      exact ⟨m, r2OnBit_of_count (r := r.withBuf m) hp hn, hw, hw', hsame⟩
    · obtain ⟨m', hrun, hm'⟩ := r2OnWord_withBuf hcfg ((r2OnBit_of_word hp hn).symm.trans h) ⟨hw, hw', hsame⟩
      exact ⟨m', (r2OnBit_of_word (r := r.withBuf m) hp hn).trans hrun, hm'⟩

theorem r2OnBits_withBuf {bits : List Bool} {r' : R2Run} (hcfg : cfg.wf) (h : r2OnBits cfg bits r = some r')
    (hm : r.Interchangeable m) :
    ∃ m', r2OnBits cfg bits (r.withBuf m) = some (r'.withBuf m') ∧ r'.Interchangeable m' := by
  induction bits generalizing r m with
  | nil => cases h; exact ⟨m, rfl, hm⟩
  | cons bit bits ih =>
    obtain ⟨mid, hbit, hbits⟩ := r2OnBits_cons_eq_some h
    obtain ⟨m', hbit', hm'⟩ := r2OnBit_withBuf hcfg hbit hm
    obtain ⟨m'', hbits', hm''⟩ := ih hbits hm'
    exact ⟨m'', by simp only [r2OnBits, hbit', hbits'], hm''⟩

end

/-! ### READ -/

/-- Every phase rule treats alike decoders alike. -/
theorem readRule_withBuf {cfg : Config} {b : Byte} {d : DecoderId} {r r' : R2Run} {m : Memory} (hcfg : cfg.wf)
    (hr : r.Inv cfg d) (h : readRule cfg b d r = some r') (hm : r.Interchangeable m) :
    ∃ m', readRule cfg b d (r.withBuf m) = some (r'.withBuf m') ∧ SameFrame r'.dec r'.out m' := by
  obtain ⟨-, hi, -⟩ := hr.dec
  obtain ⟨hw, hw', hag, -⟩ := id hm
  cases d with
  | r2 =>
    obtain ⟨m', hrun, hm'⟩ := r2OnBits_withBuf hcfg h hm
    exact ⟨m', hrun, hm'.same⟩
  | asv =>
    obtain ⟨y, o, hy, rfl⟩ := R2Run.onByte_eq_some.1 h
    obtain ⟨m', hstep, hsame⟩ := (asvRule_eq_some.1 hy).withBuf hi hw hw' hag
    exact ⟨m', R2Run.onByte_eq_some.2 ⟨_, o, asvRule_eq_some.2 hstep, rfl⟩, hsame⟩
  | r3 =>
    obtain ⟨y, o, hy, rfl⟩ := R2Run.onByte_eq_some.1 h
    obtain ⟨m', hstep, hsame⟩ := (r3Rule_eq_some.1 hy).withBuf hi hw hw' hag
    exact ⟨m', R2Run.onByte_eq_some.2 ⟨_, o, r3Rule_eq_some.2 hstep, rfl⟩, hsame⟩
  | sbf =>
    obtain ⟨y, o, hy, rfl⟩ := R2Run.onByte_eq_some.1 h
    obtain ⟨m', hstep, hsame⟩ := (sbfRule_eq_some.1 hy).withBuf hi hw hw' hag
    exact ⟨m', R2Run.onByte_eq_some.2 ⟨_, o, sbfRule_eq_some.2 hstep, rfl⟩, hsame⟩

/-- Alike decoders differ in the buffer alone. -/
theorem Decoder.Alike.eq_withBuf {x y : Decoder} (h : x.Alike y) : y = x.withBuf y.buf :=
  calc y = y.registers.withBuf y.buf := rfl
    _ = x.registers.withBuf y.buf := by rw [h.1]
    _ = x.withBuf y.buf := rfl

/-- The end of a READ keeps decoders alike (R150). -/
theorem R2Run.finished_alike {cfg : Config} {r : R2Run} {m : Memory} (hv : r.dec.fvalid = false)
    (h : SameFrame r.dec r.out m) : (r.finished cfg).Alike ((r.withBuf m).finished cfg) := by
  obtain ⟨x, w, nbit, o⟩ := r
  obtain ⟨hag, hready⟩ := h
  have hno : x.fvalid = true → Memory.agreeBelow x.flen.toNat x.buf m := fun h => absurd (hv.symm.trans h) (by decide)
  cases o with
  | more => exact ⟨rfl, hag, hno⟩
  | ready total id => exact ⟨rfl, hag, fun _ => hready total id rfl⟩
  | mismatch e => exact ⟨rfl, hag, hno⟩

section
variable {s s' : State}

theorem State.Alike.dec (h : s.Alike s') (d : DecoderId) : (s.dec d).Alike (s'.dec d) := by
  obtain ⟨-, -, -, -, -, -, -, -, -, hdec⟩ := h
  exact hdec d

theorem State.Alike.cfg (h : s.Alike s') : s.cfg = s'.cfg := by
  obtain ⟨hcfg, -⟩ := h
  exact hcfg

theorem State.Alike.fault (h : s.Alike s') : s.fault = s'.fault := by
  obtain ⟨-, -, -, hfault, -⟩ := h
  exact hfault

/-- The registers a READ starts from. -/
theorem readRun_alike (h : s.Alike s') (d : DecoderId) : s'.readRun d = (s.readRun d).withBuf (s'.dec d).buf := by
  have hd := (h.dec d).eq_withBuf
  obtain ⟨-, -, -, -, -, -, hw, hnbit, -, -⟩ := h
  unfold State.readRun
  rw [← hw, ← hnbit, hd]
  rfl

/-- A READ that looks at its byte keeps states alike. -/
theorem putRun_alike {d : DecoderId} {b : Byte} {r r' : R2Run} (h : s.Alike s') (hs : s.Inv) (hs' : s'.Inv)
    (hr : readRule s.cfg b d (s.readRun d) = some r) (hr' : readRule s'.cfg b d (s'.readRun d) = some r') :
    (s.putRun d r).Alike (s'.putRun d r') := by
  have hrun := State.readRun_inv hs d
  obtain ⟨⟨⟨-, -, -, hwf, -⟩, -, -⟩, -, -⟩ := State.readRun_inv hs' d
  obtain ⟨⟨⟨-, -, -, hwf0, -⟩, -, -⟩, -, -⟩ := id hrun
  obtain ⟨-, hag, -⟩ := h.dec d
  have hinter : (s.readRun d).Interchangeable (s'.dec d).buf := ⟨hwf0, hwf, hag, nofun⟩
  obtain ⟨m, hm, hsame⟩ := readRule_withBuf hs.cfg hrun hr hinter
  rw [← h.cfg, readRun_alike h d] at hr'
  cases hm.symm.trans hr'
  have hv : r.dec.fvalid = false := (readRule_keeps hr).2
  obtain ⟨hcfg, hport, -, hfault, hfcause, hlen, hw, hnbit, hwb, hdec⟩ := h
  refine ⟨by simpa using hcfg, by simpa using hport, rfl, by simpa using hfault, by simpa using hfcause,
    by simpa using hlen, by simp [R2Run.withBuf], by simp [R2Run.withBuf], by simpa using hwb, fun e => ?_⟩
  by_cases he : e = d
  · subst he
    rw [State.putRun_dec_self, State.putRun_dec_self, ← hcfg]
    exact R2Run.finished_alike hv hsame
  · rw [State.putRun_dec_other s r he, State.putRun_dec_other s' _ he]
    exact hdec e

/-! ### Commands -/

theorem State.Alike.respond (h : s.Alike s') (r : Response) : (s.respond r).Alike (s'.respond r) := by
  obtain ⟨hcfg, hport, -, hfault, hfcause, hlen, hw, hnbit, hwb, hdec⟩ := h
  exact ⟨hcfg, hport, rfl, hfault, hfcause, hlen, hw, hnbit, hwb, fun d => by simpa using hdec d⟩

theorem State.Alike.raiseFault (h : s.Alike s') (c : Cause) : (raiseFault c s).Alike (raiseFault c s') := by
  cases hf : s.fault with
  | true =>
    rw [raiseFault_of_set c hf, raiseFault_of_set c (h.fault ▸ hf)]
    exact h.respond _
  | false =>
    rw [raiseFault_of_clear c hf, raiseFault_of_clear c (h.fault ▸ hf)]
    obtain ⟨hcfg, hport, -, -, -, hlen, hw, hnbit, hwb, hdec⟩ := h
    exact ⟨hcfg, hport, rfl, rfl, rfl, hlen, hw, hnbit, hwb, fun d => by have := hdec d; cases d <;> exact this⟩

theorem State.Alike.stored {m m' : Memory} (h : s.Alike s') (hag : Memory.agreeBelow s.wbLen.toNat m m') :
    ({ s with wb := m } : State).Alike { s' with wb := m' } := by
  obtain ⟨hcfg, hport, hresp, hfault, hfcause, hlen, hw, hnbit, -, hdec⟩ := h
  exact ⟨hcfg, hport, hresp, hfault, hfcause, hlen, hw, hnbit, hag, fun d => by simpa using hdec d⟩

/-- SETLEN clears what its new length makes visible (R243). -/
theorem State.Alike.resized (h : s.Alike s') (hw : s.wb.wf) (hw' : s'.wb.wf) (n : Nat) :
    ({ s with wb := s.wb.zeroFill n, wbLen := BitVec.ofNat 16 n } : State).Alike
      { s' with wb := s'.wb.zeroFill n, wbLen := BitVec.ofNat 16 n } := by
  obtain ⟨hcfg, hport, hresp, hfault, hfcause, -, hacc, hnbit, -, hdec⟩ := h
  refine ⟨hcfg, hport, hresp, hfault, hfcause, rfl, hacc, hnbit, fun a ha => ?_, fun d => by simpa using hdec d⟩
  have hlt : a < n := Nat.lt_of_lt_of_le ha (Nat.mod_le n (2 ^ 16))
  rw [Memory.read_zeroFill hw, Memory.read_zeroFill hw', if_pos hlt, if_pos hlt]

theorem Decoder.Alike.reset {x y : Decoder} (h : x.Alike y) :
    Decoder.Alike { x with phase := 0#2, n := 0#16, total := 0#16, fvalid := false }
      { y with phase := 0#2, n := 0#16, total := 0#16, fvalid := false } := by
  rw [h.eq_withBuf]
  exact ⟨rfl, nofun, nofun⟩

theorem State.Alike.resetDecoder (h : s.Alike s') (d : DecoderId) : (resetDecoder d s).Alike (resetDecoder d s') := by
  have hdec' : ∀ e, ((Machine.resetDecoder d s).dec e).Alike ((Machine.resetDecoder d s').dec e) := fun e => by
    by_cases he : e = d
    · subst he
      rw [resetDecoder_dec_self, resetDecoder_dec_self]
      exact (h.dec e).reset
    · rw [resetDecoder_dec_other s he, resetDecoder_dec_other s' he]
      exact h.dec e
  obtain ⟨hcfg, hport, hresp, hfault, hfcause, hlen, hw, hnbit, hwb, -⟩ := h
  cases d with
  | r2 => exact ⟨hcfg, hport, hresp, hfault, hfcause, hlen, rfl, rfl, hwb, hdec'⟩
  | asv | r3 | sbf => exact ⟨hcfg, hport, hresp, hfault, hfcause, hlen, hw, hnbit, hwb, hdec'⟩

theorem State.Alike.clearAll (h : s.Alike s') : (clearAll s).Alike (clearAll s') := by
  obtain ⟨hcfg, hport, hresp, -⟩ := h
  refine ⟨hcfg, hport, hresp, rfl, rfl, rfl, rfl, rfl, nofun, fun d => ?_⟩
  rw [clearAll_dec, clearAll_dec]
  exact ⟨rfl, nofun, nofun⟩

/-! ### What the checks and the answers look at -/

/-- The valid length of a buffer is a register (R64). -/
theorem State.Alike.blen (h : s.Alike s') (b : BufferId) : s.blen b = s'.blen b := by
  cases b with
  | wb =>
    obtain ⟨-, -, -, -, -, hlen, -⟩ := h
    exact congrArg (fun n => some (BitVec.toNat n)) hlen
  | dec d =>
    have hd := (h.dec d).eq_withBuf
    simp only [State.blen]
    rw [hd]
    rfl

/-- Below its valid length a buffer holds the same bytes. -/
theorem State.Alike.buf (h : s.Alike s') {b : BufferId} {len : Nat} (hlen : s.blen b = some len) :
    Memory.agreeBelow len (s.buf b) (s'.buf b) := by
  cases b with
  | wb =>
    obtain ⟨-, -, -, -, -, -, -, -, hwb, -⟩ := h
    cases hlen
    exact hwb
  | dec d =>
    obtain ⟨-, -, hretained⟩ := h.dec d
    simp only [State.blen] at hlen
    split at hlen
    · next hv => cases hlen; exact hretained hv
    · cases hlen

theorem codecCheck_alike (h : s.Alike s') (b : BufferId) (ofs : BitVec 32) (wid : BitVec 6) :
    codecCheck b ofs wid s = codecCheck b ofs wid s' := by
  unfold codecCheck
  rw [h.blen b]

theorem rangeCheck_alike (h : s.Alike s') (b : BufferId) (stop : Nat) :
    rangeCheck b stop s = rangeCheck b stop s' := by
  unfold rangeCheck
  rw [h.blen b]

/-- The registers RDSR answers. -/
theorem statusRegister_alike (h : s.Alike s') (sel : BitVec 3) (idx : Nat) :
    statusRegister sel idx s = statusRegister sel idx s' := by
  have hreg : ∀ d, s'.dec d = (s.dec d).withBuf (s'.dec d).buf := fun d => (h.dec d).eq_withBuf
  obtain ⟨-, -, -, hfault, hfcause, hlen, hw, hnbit, -, -⟩ := h
  unfold statusRegister
  split
  · rfl
  · next d _ =>
    unfold decoderRegister
    rw [hreg d, hw, hnbit]
    rfl
  · rw [hfault, hfcause, hlen]

/-! ### Every command, every step -/

/-- Two outcomes whose next states, if they have them, are alike. -/
def ResultsAlike (p q : Result) : Prop := ∀ t t', p = .next t → q = .next t' → t.Alike t'

theorem ResultsAlike.next {t t' : State} (h : t.Alike t') : ResultsAlike (.next t) (.next t') := by
  intro u u' hu hu'
  cases hu
  cases hu'
  exact h

theorem unlessFaulted_alike (h : s.Alike s') {k k' : Unit → Result} (hk : ResultsAlike (k ()) (k' ())) :
    ResultsAlike (unlessFaulted s k) (unlessFaulted s' k') := by
  cases hf : s.fault with
  | true =>
    rw [unlessFaulted_of_set k hf, unlessFaulted_of_set k' (h.fault ▸ hf)]
    exact .next (h.respond _)
  | false =>
    rw [unlessFaulted_of_clear k hf, unlessFaulted_of_clear k' (h.fault ▸ hf)]
    exact hk

theorem onBuffer_alike (h : s.Alike s') {sel : BitVec 3} {k k' : BufferId → Result}
    (hk : ∀ b, ResultsAlike (k b) (k' b)) : ResultsAlike (onBuffer sel s k) (onBuffer sel s' k') := by
  unfold onBuffer
  split
  · exact .next (h.raiseFault _)
  · exact hk _

theorem onWorkBuffer_alike (h : s.Alike s') {sel : BitVec 3} {k k' : Unit → Result}
    (hk : ResultsAlike (k ()) (k' ())) : ResultsAlike (onWorkBuffer sel s k) (onWorkBuffer sel s' k') := by
  unfold onWorkBuffer
  split
  · exact .next (h.raiseFault _)
  · exact .next (h.raiseFault _)
  · exact hk

theorem onDecoder_alike (h : s.Alike s') {sel : BitVec 3} {k k' : DecoderId → Result}
    (hk : ∀ d, ResultsAlike (k d) (k' d)) : ResultsAlike (onDecoder sel s k) (onDecoder sel s' k') := by
  unfold onDecoder
  split
  · exact hk _
  · exact .next (h.raiseFault _)

theorem orFault_alike (h : s.Alike s') {check check' : Option Cause} {k k' : Unit → Result}
    (hc : check = check') (hk : check = none → ResultsAlike (k ()) (k' ())) :
    ResultsAlike (orFault check s k) (orFault check' s' k') := by
  subst hc
  cases check with
  | none => exact hk rfl
  | some c => exact .next (h.raiseFault c)

theorem onAddresses_alike (h : s.Alike s') {b : BufferId} {lo hi : Nat} {k k' : Unit → Result}
    (hk : ResultsAlike (k ()) (k' ())) : ResultsAlike (onAddresses b lo hi s k) (onAddresses b lo hi s' k') := by
  unfold onAddresses
  rw [← h.cfg]
  split
  · exact hk
  · intro t t' ht
    cases ht

/-- A command that answers a value computed from a byte range inside the valid length (R132, R135, R241). -/
theorem rangeCommand_alike (h : s.Alike s') {sel : BitVec 3} {stop lo hi : Nat} {value value' : BufferId → BitVec 64}
    (hv : ∀ b len, s.blen b = some len → stop ≤ len → value b = value' b) :
    ResultsAlike
      (unlessFaulted s fun _ => onBuffer sel s fun b => orFault (rangeCheck b stop s) s fun _ =>
        onAddresses b lo hi s fun _ => .next (s.respond (.value (value b))))
      (unlessFaulted s' fun _ => onBuffer sel s' fun b => orFault (rangeCheck b stop s') s' fun _ =>
        onAddresses b lo hi s' fun _ => .next (s'.respond (.value (value' b)))) := by
  refine unlessFaulted_alike h <| onBuffer_alike h fun b =>
    orFault_alike h (rangeCheck_alike h b stop) fun hc => onAddresses_alike h ?_
  obtain ⟨len, hlen, hstop⟩ := rangeCheck_eq_none.1 hc
  rw [hv b len hlen hstop]
  exact .next (h.respond _)

theorem extractField_alike (h : s.Alike s') (reading : Nat → Nat → BitVec 64) (sel : BitVec 3) (wid : BitVec 6)
    (ofs : BitVec 32) : ResultsAlike (extractField reading sel wid ofs s) (extractField reading sel wid ofs s') := by
  refine unlessFaulted_alike h <| onBuffer_alike h fun b =>
    orFault_alike h (codecCheck_alike h b ofs wid) fun hc => onAddresses_alike h ?_
  obtain ⟨len, hlen, -, -, hin⟩ := codecCheck_eq_none.1 hc
  rw [(h.buf hlen).getU hin]
  exact .next (h.respond _)

theorem insertField_alike (h : s.Alike s') (hw : s.wb.wf) (hw' : s'.wb.wf) (fits : Bool) (u : Nat) (sel : BitVec 3)
    (wid : BitVec 6) (ofs : BitVec 32) :
    ResultsAlike (insertField fits u sel wid ofs s) (insertField fits u sel wid ofs s') := by
  refine unlessFaulted_alike h <| onWorkBuffer_alike h <|
    orFault_alike h (codecCheck_alike h .wb ofs wid) fun _ => orFault_alike h rfl fun _ => onAddresses_alike h ?_
  exact .next ((h.stored ((h.buf (blen_wb s)).putU hw hw' _ _ _)).respond _)

theorem execStb_alike (h : s.Alike s') (hw : s.wb.wf) (hw' : s'.wb.wf) (sel : BitVec 3) (addr : BitVec 32) (byte : Byte) :
    ResultsAlike (execStb sel addr byte s) (execStb sel addr byte s') := by
  refine unlessFaulted_alike h <| onWorkBuffer_alike h <|
    orFault_alike h (rangeCheck_alike h .wb _) fun _ => onAddresses_alike h ?_
  exact .next ((h.stored ((h.buf (blen_wb s)).write_same byte hw hw')).respond _)

theorem execSetlen_alike (h : s.Alike s') (hw : s.wb.wf) (hw' : s'.wb.wf) (sel : BitVec 3) (len : BitVec 32) :
    ResultsAlike (execSetlen sel len s) (execSetlen sel len s') := by
  refine unlessFaulted_alike h <| onWorkBuffer_alike h <|
    orFault_alike h (by rw [h.cfg]) fun _ => ?_
  exact .next ((h.resized hw hw' len.toNat).respond _)

theorem execHamdec_alike (h : s.Alike s') (word : BitVec 32) : ResultsAlike (execHamdec word s) (execHamdec word s') := by
  refine unlessFaulted_alike h ?_
  rw [← h.cfg]
  cases hamDecode s.cfg word with
  | none => exact .next (h.respond _)
  | some d => exact .next (h.respond _)

theorem execHamenc_alike (h : s.Alike s') (data : BitVec 24) (prev2 : BitVec 2) :
    ResultsAlike (execHamenc data prev2 s) (execHamenc data prev2 s') := by
  refine unlessFaulted_alike h ?_
  rw [← h.cfg]
  exact .next (h.respond _)

theorem execRdsr_alike (h : s.Alike s') (sel : BitVec 3) (idx : BitVec 32) :
    ResultsAlike (execRdsr sel idx s) (execRdsr sel idx s') := by
  unfold execRdsr
  rw [← statusRegister_alike h]
  cases statusRegister sel idx.toNat s with
  | none => exact .next (h.raiseFault _)
  | some v => exact .next (h.respond _)

theorem exec_readOf_alike (h : s.Alike s') (hs : s.Inv) (hs' : s'.Inv) (d : DecoderId) (b : Byte) :
    ResultsAlike (exec (Instr.readOf d b) s) (exec (Instr.readOf d b) s') := by
  rw [exec_readOf, exec_readOf]
  refine unlessFaulted_alike h ?_
  cases ha : readAccepts d b with
  | false => exact .next (h.respond _)
  | true =>
    obtain ⟨r, hr⟩ := readRule_exists b hs.cfg (State.readRun_inv hs d)
    obtain ⟨r', hr'⟩ := readRule_exists b hs'.cfg (State.readRun_inv hs' d)
    rw [if_pos rfl, if_pos rfl, hr, hr']
    exact .next (putRun_alike h hs hs' hr hr')

/-- Every command takes alike states to alike states. -/
theorem exec_alike (i : Instr) (h : s.Alike s') (hs : s.Inv) (hs' : s'.Inv) : ResultsAlike (exec i s) (exec i s') := by
  obtain ⟨-, -, -, hw, -⟩ := hs.globals
  obtain ⟨-, -, -, hw', -⟩ := hs'.globals
  cases i with
  | nop => exact .next (h.respond _)
  | rstall => exact .next (h.clearAll.respond _)
  | getu sel wid ofs =>
    change ResultsAlike (execGetu sel wid ofs s) (execGetu sel wid ofs s')
    exact extractField_alike h _ sel wid ofs
  | gets sel wid ofs =>
    change ResultsAlike (execGets sel wid ofs s) (execGets sel wid ofs s')
    exact extractField_alike h _ sel wid ofs
  | getsm sel wid ofs =>
    change ResultsAlike (execGetsm sel wid ofs s) (execGetsm sel wid ofs s')
    exact extractField_alike h _ sel wid ofs
  | setu sel wid ofs value => exact insertField_alike h hw hw' _ _ sel wid ofs
  | sets sel wid ofs value => exact insertField_alike h hw hw' _ _ sel wid ofs
  | crc16 sel start len =>
    exact rangeCommand_alike h fun b n hn hstop => by rw [← h.cfg, (h.buf hn).readRange hstop]
  | crc24q sel stop =>
    exact rangeCommand_alike h fun b n hn hstop => by rw [← h.cfg, (h.buf hn).readRange (by omega)]
  | ldb sel addr => exact rangeCommand_alike h fun b n hn hstop => by rw [h.buf hn addr.toNat hstop]
  | hamdec word => exact execHamdec_alike h word
  | hamenc data prev2 => exact execHamenc_alike h data prev2
  | readAsv b => exact exec_readOf_alike h hs hs' .asv b
  | readR2 b => exact exec_readOf_alike h hs hs' .r2 b
  | readR3 b => exact exec_readOf_alike h hs hs' .r3 b
  | readSbf b => exact exec_readOf_alike h hs hs' .sbf b
  | reset sel =>
    change ResultsAlike (execReset sel s) (execReset sel s')
    exact unlessFaulted_alike h <| onDecoder_alike h fun d => .next ((h.resetDecoder d).respond _)
  | stb sel addr byte => exact execStb_alike h hw hw' sel addr byte
  | setlen sel len => exact execSetlen_alike h hw hw' sel len
  | rdsr sel idx => exact execRdsr_alike h sel idx

theorem State.Alike.withPort (h : s.Alike s') (port : List HostInput) :
    ({ s with port := port } : State).Alike { s' with port := port } := by
  obtain ⟨hcfg, -, hresp, hfault, hfcause, hlen, hw, hnbit, hwb, hdec⟩ := h
  exact ⟨hcfg, rfl, hresp, hfault, hfcause, hlen, hw, hnbit, hwb, fun d => by simpa using hdec d⟩

theorem State.alike_refl (s : State) : s.Alike s :=
  ⟨rfl, rfl, rfl, rfl, rfl, rfl, rfl, rfl, fun _ _ => rfl, fun _ => ⟨rfl, fun _ _ => rfl, fun _ _ _ => rfl⟩⟩

theorem step_alike (h : s.Alike s') (hs : s.Inv) (hs' : s'.Inv) : ResultsAlike (step s) (step s') := by
  have hport : s'.port = s.port := by
    obtain ⟨-, hport, -⟩ := h
    exact hport.symm
  match hp : s.port with
  | [] =>
    rw [step_of_port_nil hp, step_of_port_nil (hport.trans hp)]
    exact .next h
  | .powerOn :: rest =>
    rw [step_of_port_powerOn hp, step_of_port_powerOn (hport.trans hp), powerOn_eq, powerOn_eq]
    exact .next (h.cfg ▸ State.alike_refl _)
  | .command w :: rest =>
    cases hw : decode w with
    | ok i =>
      rw [step_of_port_command hp hw, step_of_port_command (hport.trans hp) hw]
      exact exec_alike i (h.withPort rest) (hs.withPort rest) (hs'.withPort rest)
    | error e =>
      simp only [step, takeInput_command hp, takeInput_command (hport.trans hp), hw]
      exact .next ((h.withPort rest).raiseFault _)

end

/-- Settles O59: command by command, from what the checks, the answers and the phase rules look at. -/
theorem stepKeepsAlikeStatesAlike : Obligations.StepKeepsAlikeStatesAlike :=
  fun _ _ t t' hs hs' h ht ht' => step_alike h hs hs' t t' ht ht'

end Sys2Proof.Machine
end

section
/-! PROOFS. The commands that read a buffer, GETU, GETS, GETSM, CRC16, CRC24Q and LDB, in one form: the order of their faults
(R110, R132, R135, R241, R263), and the byte LDB answers. -/

namespace Sys2Proof.Machine

/-! ### The check before a read -/

/-- Fault entry while FAULT = 0, as the statements write it (R262). -/
theorem raiseFault_eq_faulted {s : State} (c : Cause) (hf : s.fault = false) : raiseFault c s = s.faulted c.code :=
  raiseFault_of_clear c hf

theorem codecCheck_of_not_valid {b : BufferId} {s : State} (ofs : BitVec 32) (wid : BitVec 6) (h : s.blen b = none) :
    codecCheck b ofs wid s = some .bufferNotValid := by
  simp only [codecCheck, h]

theorem codecCheck_of_width {b : BufferId} {len : Nat} {wid : BitVec 6} {s : State} (ofs : BitVec 32)
    (h : s.blen b = some len) (hw : wid.toNat = 0 ∨ 32 < wid.toNat) :
    codecCheck b ofs wid s = some .widthRange := by
  simp only [codecCheck, h]
  exact if_pos (hw.imp_left fun h0 => h0 ▸ Nat.one_pos)

theorem codecCheck_of_bounds {b : BufferId} {len : Nat} {ofs : BitVec 32} {wid : BitVec 6} {s : State}
    (h : s.blen b = some len) (hmin : 1 ≤ wid.toNat) (hmax : wid.toNat ≤ 32) (hend : 8 * len < ofs.toNat + wid.toNat) :
    codecCheck b ofs wid s = some .boundsExceeded := by
  simp only [codecCheck, h]
  rw [if_neg (not_or.2 ⟨Nat.not_lt.2 hmin, Nat.not_lt.2 hmax⟩), if_pos hend]

theorem rangeCheck_of_not_valid {b : BufferId} {s : State} (stop : Nat) (h : s.blen b = none) :
    rangeCheck b stop s = some .bufferNotValid := by
  simp only [rangeCheck, h]

theorem rangeCheck_of_bounds {b : BufferId} {len stop : Nat} {s : State} (h : s.blen b = some len) (hend : len < stop) :
    rangeCheck b stop s = some .boundsExceeded := by
  simp only [rangeCheck, h]
  exact if_pos hend

/-! ### Commands that read a buffer -/

/-- The common shape of the commands that read a buffer: refused while FAULT = 1, then the selector, then the command's own
check, then its body. -/
def onCheckedBuffer (sel : BitVec 3) (check : BufferId → Option Cause) (s : State) (k : BufferId → Result) : Result :=
  unlessFaulted s fun _ => onBuffer sel s fun b => orFault (check b) s fun _ => k b

section
variable {s : State} {check : BufferId → Option Cause} {k : BufferId → Result}

theorem onCheckedBuffer_of_reserved {sel : BitVec 3} (hf : s.fault = false) (h : 5 ≤ sel.toNat) :
    onCheckedBuffer sel check s k = .next (s.faulted 5#4) := by
  rw [onCheckedBuffer, unlessFaulted_of_clear _ hf, onBuffer, selBuffer_eq_none.2 h]
  exact congrArg _ (raiseFault_eq_faulted .illegalCommand hf)

theorem onCheckedBuffer_of_some {b : BufferId} {c : Cause} (hf : s.fault = false) (h : check b = some c) :
    onCheckedBuffer b.sel check s k = .next (s.faulted c.code) := by
  rw [onCheckedBuffer, unlessFaulted_of_clear _ hf, onBuffer_sel, h, orFault_some, raiseFault_eq_faulted c hf]

theorem onCheckedBuffer_of_none {b : BufferId} (hf : s.fault = false) (h : check b = none) :
    onCheckedBuffer b.sel check s k = k b := by
  rw [onCheckedBuffer, unlessFaulted_of_clear _ hf, onBuffer_sel, h, orFault_none]

end

/-- GETU, GETS and GETSM differ in their bodies alone. -/
theorem exec_extract_eq {i : Instr} {sel : BitVec 3} {wid : BitVec 6} {ofs : BitVec 32} (s : State)
    (hi : i = .getu sel wid ofs ∨ i = .gets sel wid ofs ∨ i = .getsm sel wid ofs) :
    ∃ k, exec i s = onCheckedBuffer sel (codecCheck · ofs wid s) s k := by
  rcases hi with rfl | rfl | rfl <;> exact ⟨_, rfl⟩

/-- CRC16, CRC24Q and LDB differ in where their byte range ends, and in their bodies. -/
theorem exec_range_eq {i : Instr} {sel : BitVec 3} {stop : Nat} (s : State)
    (hi : (∃ start n : BitVec 32, i = .crc16 sel start n ∧ stop = start.toNat + n.toNat) ∨
      (∃ e : BitVec 32, i = .crc24q sel e ∧ stop = e.toNat) ∨
      (∃ a : BitVec 32, i = .ldb sel a ∧ stop = a.toNat + 1)) :
    ∃ k, exec i s = onCheckedBuffer sel (rangeCheck · stop s) s k := by
  rcases hi with ⟨start, n, rfl, rfl⟩ | ⟨e, rfl, rfl⟩ | ⟨a, rfl, rfl⟩ <;> exact ⟨_, rfl⟩

/-- Settles O15: the selector's fault, then each fault of the codec's check. -/
theorem extractCommandsFaultInOrder : Obligations.ExtractCommandsFaultInOrder := by
  intro i s sel wid ofs hf hi
  obtain ⟨k, hexec⟩ := exec_extract_eq s hi
  rw [hexec]
  refine ⟨onCheckedBuffer_of_reserved hf, ?_, ?_⟩
  · rintro b rfl hnone
    exact onCheckedBuffer_of_some (c := .bufferNotValid) hf (codecCheck_of_not_valid ofs wid hnone)
  · rintro b len rfl hlen
    exact ⟨fun hw => onCheckedBuffer_of_some (c := .widthRange) hf (codecCheck_of_width ofs hlen hw),
      fun hmin hmax hend =>
        onCheckedBuffer_of_some (c := .boundsExceeded) hf (codecCheck_of_bounds hlen hmin hmax hend)⟩

/-- Settles O24: the selector's fault, then each fault of the range check. -/
theorem rangeCommandsFaultInOrder : Obligations.RangeCommandsFaultInOrder := by
  intro s i sel stop hf hi
  obtain ⟨k, hexec⟩ := exec_range_eq s hi
  rw [hexec]
  refine ⟨onCheckedBuffer_of_reserved hf, ?_, ?_⟩
  · rintro b rfl hnone
    exact onCheckedBuffer_of_some (c := .bufferNotValid) hf (rangeCheck_of_not_valid stop hnone)
  · rintro b len rfl hlen hend
    exact onCheckedBuffer_of_some (c := .boundsExceeded) hf (rangeCheck_of_bounds hlen hend)

/-! ### Valid lengths and capacities -/

/-- With the invariants the valid length of a buffer is within its capacity (R34). -/
theorem State.Inv.blen_le {s : State} {b : BufferId} {len : Nat} (h : s.Inv) (hlen : s.blen b = some len) :
    len ≤ capacity s.cfg b := by
  cases b with
  | wb =>
    obtain ⟨-, -, hwb, -⟩ := h.globals
    cases hlen
    exact hwb
  | dec d =>
    obtain ⟨-, -, hretained, -⟩ := (h.dec d).common
    cases hv : (s.dec d).fvalid with
    | false => rw [blen_dec_of_not_valid hv] at hlen; cases hlen
    | true =>
      obtain ⟨-, -, -, hflen⟩ := hretained hv
      rw [blen_dec_of_valid hv] at hlen
      cases hlen
      exact hflen

/-- Every buffer has fewer than 2^16 bytes, so its bit addresses fit a command's 32-bit operand (R6, R60). -/
theorem capacity_lt_65536 {cfg : Config} (h : cfg.wf) (b : BufferId) : capacity cfg b < 65536 := by
  cases b with
  | wb =>
    obtain ⟨⟨-, hwb⟩, -⟩ := h
    exact Nat.lt_succ_of_le hwb
  | dec d => exact capacity_lt h d

/-- A byte range that passes its check is inside the buffer. -/
theorem State.Inv.rangeCheck_le {s : State} {b : BufferId} {stop : Nat} (h : s.Inv) (hc : rangeCheck b stop s = none) :
    stop ≤ capacity s.cfg b := by
  obtain ⟨len, hlen, hstop⟩ := rangeCheck_eq_none.1 hc
  exact hstop.trans (h.blen_le hlen)

/-- A field that passes its check is inside the buffer. -/
theorem State.Inv.codecCheck_le {s : State} {b : BufferId} {ofs : BitVec 32} {wid : BitVec 6} (h : s.Inv)
    (hc : codecCheck b ofs wid s = none) : fieldEnd ofs.toNat wid.toNat ≤ capacity s.cfg b := by
  obtain ⟨len, hlen, -, -, hend⟩ := codecCheck_eq_none.1 hc
  have hcap := h.blen_le hlen
  unfold fieldEnd
  omega

/-! ### LDB -/

/-- LDB of a byte below the valid length (R241). -/
theorem exec_ldb_of_lt {s : State} {b : BufferId} {addr : BitVec 32} {len : Nat} (hs : s.Inv) (hf : s.fault = false)
    (hlen : s.blen b = some len) (ha : addr.toNat < len) :
    exec (.ldb b.sel addr) s = .next (s.answered false (((s.buf b).read addr.toNat).setWidth 64)) := by
  have hc : rangeCheck b (addr.toNat + 1) s = none := rangeCheck_eq_none.2 ⟨len, hlen, ha⟩
  change onCheckedBuffer b.sel (rangeCheck · (addr.toNat + 1) s) s _ = _
  rw [onCheckedBuffer_of_none hf hc, onAddresses_of_le _ (Nat.le_succ _) (hs.rangeCheck_le hc)]
  rfl

/-- GETU of the eight bits of such a byte (R111, R112). -/
theorem exec_getu_byte_of_lt {s : State} {b : BufferId} {addr : BitVec 32} {len : Nat} (hs : s.Inv)
    (hf : s.fault = false) (hlen : s.blen b = some len) (ha : addr.toNat < len) :
    exec (.getu b.sel 8#6 (8#32 * addr)) s =
      .next (s.answered false (((s.buf b).read addr.toNat).setWidth 64)) := by
  have hofs : (8#32 * addr).toNat = 8 * addr.toNat := by
    have hcap := capacity_lt_65536 hs.cfg b
    have hle := hs.blen_le hlen
    rw [BitVec.toNat_mul, BitVec.toNat_ofNat]
    omega
  have hc : codecCheck b (8#32 * addr) 8#6 s = none := by
    refine codecCheck_eq_none.2 ⟨len, hlen, by decide, by decide, ?_⟩
    rw [hofs, BitVec.toNat_ofNat]
    omega
  change extractField (fun _ u => BitVec.ofNat 64 u) b.sel 8#6 (8#32 * addr) s = _
  rw [extractField_of_checks hf hc (hs.codecCheck_le hc), hofs, setWidth_eq_ofNat, ← Memory.getU_byte]
  rfl

/-- Settles O45: the byte is the field of its eight bits. -/
theorem ldbAnswersTheByteAsGetuDoes : Obligations.LdbAnswersTheByteAsGetuDoes := by
  intro s b addr len hs hf hlen ha
  have hldb := exec_ldb_of_lt hs hf hlen ha
  exact ⟨hldb, (exec_getu_byte_of_lt hs hf hlen ha).trans hldb.symm⟩

end Sys2Proof.Machine
end

section
/-! PROOFS. Runs from states with the invariants: no command stops the block (R34, R317), so two alike states give the same
responses for ever (R40 (c), R66). -/

namespace Sys2Proof.Machine

/-! ### No command stops the block -/

/-- The outcome is a next state. -/
def Continues (p : Result) : Prop := ∃ t, p = .next t

theorem Continues.next (t : State) : Continues (.next t) := ⟨t, rfl⟩

section
variable {s : State}

theorem unlessFaulted_continues {k : Unit → Result} (hk : Continues (k ())) : Continues (unlessFaulted s k) := by
  unfold unlessFaulted
  split
  · exact .next _
  · exact hk

theorem onWorkBuffer_continues {sel : BitVec 3} {k : Unit → Result} (hk : Continues (k ())) :
    Continues (onWorkBuffer sel s k) := by
  unfold onWorkBuffer
  split
  · exact .next _
  · exact .next _
  · exact hk

theorem onDecoder_continues {sel : BitVec 3} {k : DecoderId → Result} (hk : ∀ d, Continues (k d)) :
    Continues (onDecoder sel s k) := by
  unfold onDecoder
  split
  · exact hk _
  · exact .next _

theorem orFault_continues {check : Option Cause} {k : Unit → Result} (hk : check = none → Continues (k ())) :
    Continues (orFault check s k) := by
  cases check with
  | some c => exact .next _
  | none => exact hk rfl

theorem onAddresses_continues {b : BufferId} {lo hi : Nat} {k : Unit → Result} (hlo : lo ≤ hi)
    (hhi : hi ≤ capacity s.cfg b) (hk : Continues (k ())) : Continues (onAddresses b lo hi s k) := by
  rw [onAddresses_of_le k hlo hhi]
  exact hk

theorem onCheckedBuffer_continues {sel : BitVec 3} {check : BufferId → Option Cause} {k : BufferId → Result}
    (hk : ∀ b, check b = none → Continues (k b)) : Continues (onCheckedBuffer sel check s k) := by
  refine unlessFaulted_continues ?_
  unfold onBuffer
  split
  · exact .next _
  · exact orFault_continues (hk _)

/-- A command that reads a byte range accesses only bytes its check has let pass. -/
theorem rangeCommand_continues {sel : BitVec 3} {lo stop : Nat} {result : BufferId → State} (hs : s.Inv)
    (hlo : lo ≤ stop) :
    Continues (onCheckedBuffer sel (rangeCheck · stop s) s fun b =>
      onAddresses b lo stop s fun _ => .next (result b)) :=
  onCheckedBuffer_continues fun _ hc => onAddresses_continues hlo (hs.rangeCheck_le hc) (.next _)

theorem extractField_continues (hs : s.Inv) (reading : Nat → Nat → BitVec 64) (sel : BitVec 3) (wid : BitVec 6)
    (ofs : BitVec 32) : Continues (extractField reading sel wid ofs s) :=
  onCheckedBuffer_continues (check := (codecCheck · ofs wid s)) fun _ hc =>
    onAddresses_continues (Nat.zero_le _) (hs.codecCheck_le hc) (.next _)

theorem insertField_continues (hs : s.Inv) (fits : Bool) (u : Nat) (sel : BitVec 3) (wid : BitVec 6) (ofs : BitVec 32) :
    Continues (insertField fits u sel wid ofs s) :=
  unlessFaulted_continues <| onWorkBuffer_continues <| orFault_continues fun hc => orFault_continues fun _ =>
    onAddresses_continues (Nat.zero_le _) (hs.codecCheck_le hc) (.next _)

theorem execStb_continues (hs : s.Inv) (sel : BitVec 3) (addr : BitVec 32) (byte : Byte) :
    Continues (execStb sel addr byte s) :=
  unlessFaulted_continues <| onWorkBuffer_continues <| orFault_continues fun hc =>
    onAddresses_continues (Nat.le_succ _) (hs.rangeCheck_le hc) (.next _)

theorem execSetlen_continues (sel : BitVec 3) (len : BitVec 32) : Continues (execSetlen sel len s) :=
  unlessFaulted_continues <| onWorkBuffer_continues <| orFault_continues fun _ => .next _

theorem execReset_continues (sel : BitVec 3) : Continues (execReset sel s) :=
  unlessFaulted_continues <| onDecoder_continues fun _ => .next _

theorem execHamenc_continues (data : BitVec 24) (prev2 : BitVec 2) : Continues (execHamenc data prev2 s) :=
  unlessFaulted_continues (.next _)

theorem execHamdec_continues (word : BitVec 32) : Continues (execHamdec word s) := by
  refine unlessFaulted_continues ?_
  split <;> exact .next _

theorem execRdsr_continues (sel : BitVec 3) (idx : BitVec 32) : Continues (execRdsr sel idx s) := by
  unfold execRdsr
  split <;> exact .next _

/-- A READ stores no byte outside its buffer (R34). -/
theorem exec_readOf_continues (hs : s.Inv) (d : DecoderId) (b : Byte) : Continues (exec (Instr.readOf d b) s) := by
  rw [exec_readOf]
  refine unlessFaulted_continues ?_
  split
  · obtain ⟨r, hr⟩ := readRule_exists b hs.cfg (State.readRun_inv hs d)
    rw [hr]
    exact .next _
  · exact .next _

/-- With the invariants every command has a next state: no access is outside a buffer (R34). -/
theorem exec_continues (i : Instr) (hs : s.Inv) : Continues (exec i s) := by
  cases i with
  | nop => exact .next _
  | rstall => exact .next _
  | getu sel wid ofs => exact extractField_continues hs (fun _ u => BitVec.ofNat 64 u) sel wid ofs
  | gets sel wid ofs => exact extractField_continues hs (fun w u => BitVec.ofInt 64 (signedField w u)) sel wid ofs
  | getsm sel wid ofs => exact extractField_continues hs (fun w u => BitVec.ofInt 64 (signMagnitudeField w u)) sel wid ofs
  | setu sel wid ofs value => exact insertField_continues hs _ _ sel wid ofs
  | sets sel wid ofs value => exact insertField_continues hs _ _ sel wid ofs
  | crc16 sel start len => exact rangeCommand_continues hs (Nat.le_add_right _ _)
  | crc24q sel stop => exact rangeCommand_continues hs (Nat.zero_le _)
  | ldb sel addr => exact rangeCommand_continues hs (Nat.le_succ _)
  | hamdec word => exact execHamdec_continues word
  | hamenc data prev2 => exact execHamenc_continues data prev2
  | readAsv b => exact exec_readOf_continues hs .asv b
  | readR2 b => exact exec_readOf_continues hs .r2 b
  | readR3 b => exact exec_readOf_continues hs .r3 b
  | readSbf b => exact exec_readOf_continues hs .sbf b
  | reset sel => exact execReset_continues sel
  | stb sel addr byte => exact execStb_continues hs sel addr byte
  | setlen sel len => exact execSetlen_continues sel len
  | rdsr sel idx => exact execRdsr_continues sel idx

/-- With the invariants every step has a next state, whatever the input (R317). -/
theorem step_continues (hs : s.Inv) : Continues (step s) := by
  match hp : s.port with
  | [] => exact ⟨_, step_of_port_nil hp⟩
  | .powerOn :: rest => exact ⟨_, step_of_port_powerOn hp⟩
  | .command w :: rest =>
    cases hw : decode w with
    | ok i =>
      rw [step_of_port_command hp hw]
      exact exec_continues i (hs.withPort rest)
    | error e =>
      simp only [step, takeInput_command hp, hw]
      exact .next _

end

/-! ### Transcripts -/

theorem transcript_succ {s t : State} (k : Nat) (h : step s = .next t) :
    transcript (k + 1) s = t.resp :: transcript k t := by
  rw [transcript, h]

/-- No run can tell alike states apart (R66): each step answers the same and leaves alike states. -/
theorem transcript_alike {s s' : State} (k : Nat) (hs : s.Inv) (hs' : s'.Inv) (h : s.Alike s') :
    transcript k s = transcript k s' := by
  induction k generalizing s s' with
  | zero => rfl
  | succ k ih =>
    obtain ⟨t, ht⟩ := step_continues hs
    obtain ⟨t', ht'⟩ := step_continues hs'
    have hnext : t.Alike t' := step_alike h hs hs' t t' ht ht'
    have hresp : t.resp = t'.resp := by
      obtain ⟨-, -, hresp, -⟩ := hnext
      exact hresp
    obtain ⟨hinv, -⟩ := step_inv hs ht
    obtain ⟨hinv', -⟩ := step_inv hs' ht'
    rw [transcript_succ k ht, transcript_succ k ht', hresp, ih hinv hinv' hnext]

/-! ### Power-on with any buffer contents (R41, R302) -/

/-- The state after power-on of a block whose buffers happen to hold the given bytes. -/
def State.resetHolding (cfg : Config) (port : List HostInput) (m : Memory) (ms : DecoderId → Memory) : State :=
  { State.resetWith cfg with
    port := port
    wb := m
    asv := { Decoder.reset with buf := ms .asv }
    r2 := { Decoder.reset with buf := ms .r2 }
    r3 := { Decoder.reset with buf := ms .r3 }
    sbf := { Decoder.reset with buf := ms .sbf } }

section
variable {cfg : Config} {m : Memory} {ms : DecoderId → Memory}

theorem State.resetHolding_dec (port : List HostInput) (d : DecoderId) :
    (State.resetHolding cfg port m ms).dec d = { Decoder.reset with buf := ms d } := by
  cases d <;> rfl

theorem State.inv_resetHolding (port : List HostInput) (hcfg : cfg.wf) (hm : m.wf) (hin : m.within cfg.wbMax)
    (hms : ∀ d, (ms d).wf ∧ (ms d).within (capacity cfg (.dec d))) : (State.resetHolding cfg port m ms).Inv := by
  refine State.inv_iff.2 ⟨hcfg, ⟨fun _ => rfl, nofun, Nat.zero_le _, hm, hin⟩, fun d => ?_⟩
  obtain ⟨hw, hwithin⟩ := hms d
  rw [State.resetHolding_dec]
  exact .of_cleared rfl rfl rfl rfl (fun _ => rfl) hw hwithin (Nat.two_pow_pos _)

/-- After power-on no byte is below a valid length or in a frame in progress. -/
theorem State.resetHolding_alike (port : List HostInput) :
    (State.resetHolding cfg port m ms).Alike { State.resetWith cfg with port := port } := by
  refine ⟨rfl, rfl, rfl, rfl, rfl, rfl, rfl, rfl, nofun, fun d => ?_⟩
  rw [State.resetHolding_dec, State.dec_port, resetWith_dec]
  exact ⟨rfl, nofun, nofun⟩

end

/-- Settles O60: whatever the buffers hold after power-on, the state is alike the one with empty buffers. -/
theorem unwrittenBytesAreNeverObserved : Obligations.UnwrittenBytesAreNeverObserved := by
  refine ⟨?_, fun k s s' hs hs' h => transcript_alike k hs hs' h⟩
  intro k cfg port m ms hcfg hm hin hms
  exact transcript_alike k (State.inv_resetHolding port hcfg hm hin hms) ((inv_resetWith hcfg).withPort port)
    (State.resetHolding_alike port)

end Sys2Proof.Machine
end

section
/-! PROOFS. The command word: its six fields, decoding and encoding as inverses of each other (R80, R82), and the rows of
the opcode table as conditions on the fields (R84). -/

namespace Sys2Proof.Machine

/-! ### A word and its fields (R80) -/

/-- A command word from all six of its fields. -/
def packWord (op : BitVec 8) (sel : BitVec 3) (wid : BitVec 6) (rsv : BitVec 15) (arg : BitVec 32) (val : BitVec 64) :
    CommandWord :=
  op ++ sel ++ wid ++ rsv ++ arg ++ val

theorem packCommand_eq_packWord (op : BitVec 8) (sel : BitVec 3) (wid : BitVec 6) (arg : BitVec 32) (val : BitVec 64) :
    packCommand op sel wid arg val = packWord op sel wid 0#15 arg val := rfl

section
variable (op : BitVec 8) (sel : BitVec 3) (wid : BitVec 6) (rsv : BitVec 15) (arg : BitVec 32) (val : BitVec 64)

@[simp] theorem fieldVal_packWord : fieldVal (packWord op sel wid rsv arg val) = val :=
  BitVec.extractLsb'_append_eq_right

@[simp] theorem fieldArg_packWord : fieldArg (packWord op sel wid rsv arg val) = arg := by
  rw [fieldArg, packWord, BitVec.extractLsb'_append_eq_of_le (by decide)]
  exact BitVec.extractLsb'_append_eq_right

@[simp] theorem fieldRsv_packWord : fieldRsv (packWord op sel wid rsv arg val) = rsv := by
  rw [fieldRsv, packWord, BitVec.extractLsb'_append_eq_of_le (by decide),
    BitVec.extractLsb'_append_eq_of_le (by decide)]
  exact BitVec.extractLsb'_append_eq_right

@[simp] theorem fieldWid_packWord : fieldWid (packWord op sel wid rsv arg val) = wid := by
  rw [fieldWid, packWord, BitVec.extractLsb'_append_eq_of_le (by decide),
    BitVec.extractLsb'_append_eq_of_le (by decide), BitVec.extractLsb'_append_eq_of_le (by decide)]
  exact BitVec.extractLsb'_append_eq_right

@[simp] theorem fieldSel_packWord : fieldSel (packWord op sel wid rsv arg val) = sel := by
  rw [fieldSel, packWord, BitVec.extractLsb'_append_eq_of_le (by decide),
    BitVec.extractLsb'_append_eq_of_le (by decide), BitVec.extractLsb'_append_eq_of_le (by decide),
    BitVec.extractLsb'_append_eq_of_le (by decide)]
  exact BitVec.extractLsb'_append_eq_right

@[simp] theorem fieldOp_packWord : fieldOp (packWord op sel wid rsv arg val) = op := by
  rw [fieldOp, packWord, BitVec.extractLsb'_append_eq_of_le (by decide),
    BitVec.extractLsb'_append_eq_of_le (by decide), BitVec.extractLsb'_append_eq_of_le (by decide),
    BitVec.extractLsb'_append_eq_of_le (by decide)]
  exact BitVec.extractLsb'_append_eq_left

end

/-- The fields of a word make up the word. -/
theorem packWord_fields (w : CommandWord) :
    packWord (fieldOp w) (fieldSel w) (fieldWid w) (fieldRsv w) (fieldArg w) (fieldVal w) = w := by
  unfold packWord fieldOp fieldSel fieldWid fieldRsv fieldArg fieldVal
  iterate 5 rw [BitVec.extractLsb'_append_extractLsb'_eq_extractLsb' (by decide)]
  exact BitVec.extractLsb'_eq_self

theorem packCommand_fields {w : CommandWord} (h : fieldRsv w = 0#15) :
    packCommand (fieldOp w) (fieldSel w) (fieldWid w) (fieldArg w) (fieldVal w) = w := by
  rw [packCommand_eq_packWord, ← h, packWord_fields]

/-- Two words are equal exactly when their fields are. -/
theorem word_eq_packWord_iff {w : CommandWord} {op : BitVec 8} {sel : BitVec 3} {wid : BitVec 6} {rsv : BitVec 15}
    {arg : BitVec 32} {val : BitVec 64} :
    w = packWord op sel wid rsv arg val ↔
      fieldOp w = op ∧ fieldSel w = sel ∧ fieldWid w = wid ∧ fieldRsv w = rsv ∧ fieldArg w = arg ∧ fieldVal w = val := by
  constructor
  · rintro rfl
    simp
  · rintro ⟨rfl, rfl, rfl, rfl, rfl, rfl⟩
    exact (packWord_fields w).symm

/-- A field whose upper part is zero is its lower part, zero-extended. -/
theorem zero_append_of_upper_zero {n m : Nat} {x : BitVec (n + m)} (h : x.extractLsb' m n = 0#n) :
    0#n ++ x.extractLsb' 0 m = x := by
  rw [← h, BitVec.extractLsb'_append_extractLsb'_eq_extractLsb' (by omega)]
  exact BitVec.extractLsb'_eq_self

/-! ### Decoding and encoding -/

/-- A number that names an opcode is that opcode's number (R84). -/
theorem ofBits_eq_some {b : BitVec 8} {op : Opcode} (h : Opcode.ofBits b = some op) : b = op.bits := by
  unfold Opcode.ofBits at h
  simp only [ite_eq_iff, Option.some.injEq] at h
  repeat
    rcases h with ⟨rfl, rfl⟩ | ⟨-, h⟩
    · rfl
  cases h

/-- Decoding a word of an opcode with a zero reserved field (R81): only the format of the opcode is left to check. -/
theorem decode_packCommand (op : Opcode) (sel : BitVec 3) (wid : BitVec 6) (arg : BitVec 32) (val : BitVec 64) :
    decode (packCommand op.bits sel wid arg val) = decodeFields op sel wid arg val := by
  rw [decode, packCommand_eq_packWord, fieldOp_packWord, Laws.ofBits_bits]
  simp

theorem decode_eq_ok_iff {w : CommandWord} {i : Instr} :
    decode w = .ok i ↔ ∃ op, fieldOp w = Opcode.bits op ∧ fieldRsv w = 0#15 ∧
      decodeFields op (fieldSel w) (fieldWid w) (fieldArg w) (fieldVal w) = .ok i := by
  constructor
  · intro h
    unfold decode at h
    split at h
    · cases h
    · next op hop =>
      split at h
      · next hrsv => exact ⟨op, ofBits_eq_some hop, hrsv, h⟩
      · cases h
  · rintro ⟨op, hop, hrsv, h⟩
    rw [← packCommand_fields hrsv, hop, decode_packCommand, h]

theorem ifZero_eq_ok_iff {zero : Bool} {i j : Instr} : ifZero zero i = .ok j ↔ zero = true ∧ i = j := by
  cases zero <;> simp [ifZero]

/-- The lower part of a zero-extended operand, and its upper part. -/
theorem extract_zero_append {n m : Nat} (y : BitVec m) :
    (0#n ++ y).extractLsb' m n = 0#n ∧ (0#n ++ y).extractLsb' 0 m = y :=
  ⟨BitVec.extractLsb'_append_eq_left, BitVec.extractLsb'_append_eq_right⟩

/-- Decoding a READ whose other fields are zero: the row its selector names (R84). -/
theorem decode_readWord (sel : BitVec 3) (b : Byte) :
    decode (packCommand 0x30#8 sel 0#6 (0#24 ++ b) 0#64) = decodeRead sel b := by
  obtain ⟨hupper, hlower⟩ := extract_zero_append (n := 24) b
  refine (decode_packCommand .read sel 0#6 (0#24 ++ b) 0#64).trans ?_
  simp [decodeFields, hupper, hlower]

/-- A command's word is its opcode and its operands, and every zero its format asks for is there. -/
theorem decode_encode (i : Instr) : decode (encode i) = .ok i := by
  cases i with
  | nop => exact decode_packCommand .nop _ _ _ _
  | rstall => exact decode_packCommand .rstall _ _ _ _
  | getu sel wid ofs => exact decode_packCommand .getu _ _ _ _
  | gets sel wid ofs => exact decode_packCommand .gets _ _ _ _
  | getsm sel wid ofs => exact decode_packCommand .getsm _ _ _ _
  | setu sel wid ofs value => exact decode_packCommand .setu _ _ _ _
  | sets sel wid ofs value => exact decode_packCommand .sets _ _ _ _
  | crc16 sel start len =>
    obtain ⟨hupper, hlower⟩ := extract_zero_append (n := 32) len
    refine (decode_packCommand .crc16 sel 0#6 start (0#32 ++ len)).trans ?_
    simp [decodeFields, ifZero, hupper, hlower]
  | crc24q sel stop => exact decode_packCommand .crc24q _ _ _ _
  | hamdec word =>
    obtain ⟨hupper, hlower⟩ := extract_zero_append (n := 32) word
    refine (decode_packCommand .hamdec _ _ _ (0#32 ++ word)).trans ?_
    simp [decodeFields, ifZero, hupper, hlower]
  | hamenc data prev2 =>
    obtain ⟨hupper, hmiddle⟩ := extract_zero_append (n := 38) prev2
    have hlower : (0#38 ++ prev2 ++ data).extractLsb' 0 24 = data := BitVec.extractLsb'_append_eq_right
    rw [← BitVec.extractLsb'_append_eq_of_le (w := 24) (xlo := data) (start := 26) (by decide)] at hupper
    rw [← BitVec.extractLsb'_append_eq_of_le (w := 24) (xlo := data) (start := 24) (by decide)] at hmiddle
    refine (decode_packCommand .hamenc _ _ _ (0#38 ++ prev2 ++ data)).trans ?_
    simp [decodeFields, ifZero, hupper, hmiddle, hlower]
  | readAsv b => exact decode_readWord 1#3 b
  | readR2 b => exact decode_readWord 2#3 b
  | readR3 b => exact decode_readWord 3#3 b
  | readSbf b => exact decode_readWord 4#3 b
  | reset sel => exact decode_packCommand .reset _ _ _ _
  | ldb sel addr => exact decode_packCommand .ldb _ _ _ _
  | stb sel addr b =>
    obtain ⟨hupper, hlower⟩ := extract_zero_append (n := 56) b
    refine (decode_packCommand .stb _ _ _ (0#56 ++ b)).trans ?_
    simp [decodeFields, ifZero, hupper, hlower]
  | setlen sel len => exact decode_packCommand .setlen _ _ _ _
  | rdsr sel idx => exact decode_packCommand .rdsr _ _ _ _

theorem decodeRead_eq_ok {sel : BitVec 3} {b : Byte} {i : Instr} (h : decodeRead sel b = .ok i) :
    encode i = packCommand 0x30#8 sel 0#6 (0#24 ++ b) 0#64 := by
  unfold decodeRead at h
  split_ifs at h with h1 h2 h3 h4 <;> cases h
  · rw [h1]; rfl
  · rw [h2]; rfl
  · rw [h3]; rfl
  · rw [h4]; rfl

/-- The fields an opcode's format lets pass are those of the command's word (R82). -/
theorem encode_of_decodeFields {op : Opcode} {sel : BitVec 3} {wid : BitVec 6} {arg : BitVec 32} {val : BitVec 64}
    {i : Instr} (h : decodeFields op sel wid arg val = .ok i) : encode i = packCommand op.bits sel wid arg val := by
  cases op with
  | nop | rstall =>
    obtain ⟨hzero, rfl⟩ := ifZero_eq_ok_iff.1 h
    simp only [Bool.and_eq_true, beq_iff_eq] at hzero
    obtain ⟨⟨⟨rfl, rfl⟩, rfl⟩, rfl⟩ := hzero
    rfl
  | getu | gets | getsm =>
    obtain ⟨hzero, rfl⟩ := ifZero_eq_ok_iff.1 h
    rw [beq_iff_eq.1 hzero]
    rfl
  | setu | sets => cases h; rfl
  | crc24q | ldb | setlen | rdsr =>
    obtain ⟨hzero, rfl⟩ := ifZero_eq_ok_iff.1 h
    simp only [Bool.and_eq_true, beq_iff_eq] at hzero
    obtain ⟨rfl, rfl⟩ := hzero
    rfl
  | reset =>
    obtain ⟨hzero, rfl⟩ := ifZero_eq_ok_iff.1 h
    simp only [Bool.and_eq_true, beq_iff_eq] at hzero
    obtain ⟨⟨rfl, rfl⟩, rfl⟩ := hzero
    rfl
  | crc16 =>
    obtain ⟨hzero, rfl⟩ := ifZero_eq_ok_iff.1 h
    simp only [Bool.and_eq_true, beq_iff_eq] at hzero
    obtain ⟨rfl, hval⟩ := hzero
    exact congrArg (packCommand _ _ _ _) (zero_append_of_upper_zero (n := 32) (m := 32) hval)
  | stb =>
    obtain ⟨hzero, rfl⟩ := ifZero_eq_ok_iff.1 h
    simp only [Bool.and_eq_true, beq_iff_eq] at hzero
    obtain ⟨rfl, hval⟩ := hzero
    exact congrArg (packCommand _ _ _ _) (zero_append_of_upper_zero (n := 56) (m := 8) hval)
  | hamdec =>
    obtain ⟨hzero, rfl⟩ := ifZero_eq_ok_iff.1 h
    simp only [Bool.and_eq_true, beq_iff_eq] at hzero
    obtain ⟨⟨⟨rfl, rfl⟩, rfl⟩, hval⟩ := hzero
    exact congrArg (packCommand _ _ _ _) (zero_append_of_upper_zero (n := 32) (m := 32) hval)
  | hamenc =>
    obtain ⟨hzero, rfl⟩ := ifZero_eq_ok_iff.1 h
    simp only [Bool.and_eq_true, beq_iff_eq] at hzero
    obtain ⟨⟨⟨rfl, rfl⟩, rfl⟩, hval⟩ := hzero
    refine congrArg (packCommand _ _ _ _) ?_
    rw [← hval, BitVec.extractLsb'_append_extractLsb'_eq_extractLsb' (by decide),
      BitVec.extractLsb'_append_extractLsb'_eq_extractLsb' (by decide)]
    exact BitVec.extractLsb'_eq_self
  | read =>
    change (if _ then _ else _) = _ at h
    split at h
    · next hzero =>
      simp only [Bool.and_eq_true, beq_iff_eq] at hzero
      obtain ⟨⟨rfl, harg⟩, rfl⟩ := hzero
      rw [decodeRead_eq_ok h]
      exact congrArg (packCommand _ _ _ · _) (zero_append_of_upper_zero (n := 24) (m := 8) harg)
    · cases h

/-- A word that decodes is the word of the command it decodes to, and only it. -/
theorem decode_eq_ok_iff_encode {w : CommandWord} {i : Instr} : decode w = .ok i ↔ encode i = w := by
  constructor
  · intro h
    obtain ⟨op, hop, hrsv, hfields⟩ := decode_eq_ok_iff.1 h
    rw [encode_of_decodeFields hfields, ← hop, packCommand_fields hrsv]
  · rintro rfl
    exact decode_encode i

/-- Settles O5: command by command, from the fields of its word. -/
theorem decodeOfEncodeIsTheCommand : Obligations.DecodeOfEncodeIsTheCommand := decode_encode

/-- Settles O6: the fields make up the word, and those a format does not give an operand are zero. -/
theorem encodeOfDecodeIsTheWord : Obligations.EncodeOfDecodeIsTheWord :=
  fun _ _ => decode_eq_ok_iff_encode.1

/-- Settles O1: each word is the word of its command. -/
theorem decodeReadsWordsWrittenFromTheSpec : Obligations.DecodeReadsWordsWrittenFromTheSpec := by
  refine ⟨?_, ?_, ?_, ?_, ?_, ?_, ?_, ?_, ?_, ?_⟩ <;> exact decode_eq_ok_iff_encode.2 (by decide)

/-! ### The rows of the opcode table (R84) -/

/-- The mask of the bits from `k` on. -/
def onesFrom (w k : Nat) : BitVec w := BitVec.allOnes w <<< k

/-- The bits from `k` on are zero exactly when the value fits `k` bits. -/
theorem and_onesFrom_eq_zero {w k : Nat} (x : BitVec w) : x &&& onesFrom w k = 0#w ↔ x.toNat < 2 ^ k := by
  constructor
  · intro h
    refine Nat.lt_pow_two_of_testBit _ fun i hi => ?_
    by_cases hw : i < w
    · have hbit := congrArg (BitVec.getLsbD · i) h
      simpa [onesFrom, hw, Nat.not_lt.2 hi, show i - k < w by omega, BitVec.testBit_toNat] using hbit
    · exact BitVec.getLsbD_of_ge x i (Nat.not_lt.1 hw)
  · intro h
    ext i hi
    by_cases hk : i < k
    · simp [onesFrom, hk]
    · have hzero : x.toNat.testBit i = false :=
        Nat.testBit_lt_two_pow (h.trans_le (Nat.pow_le_pow_right (by decide) (Nat.not_lt.1 hk)))
      rw [BitVec.testBit_toNat, BitVec.getLsbD_eq_getElem hi] at hzero
      simp [hzero]

/-- A row that fixes the opcode and the reserved field, and the selector if one is given, and leaves the low `widFree`,
`argFree` and `valFree` bits of the other fields free, the bits above them zero. -/
def fieldRow (mnemonic : String) (op : BitVec 8) (sel : Option (BitVec 3)) (widFree argFree valFree : Nat) : OpcodeRow where
  mnemonic := mnemonic
  pattern := packWord op (sel.getD 0#3) 0#6 0#15 0#32 0#64
  mask := packWord (BitVec.allOnes 8) (onesFrom 3 (if sel.isSome then 0 else 3)) (onesFrom 6 widFree)
    (BitVec.allOnes 15) (onesFrom 32 argFree) (onesFrom 64 valFree)

/-- The table by fields (R82, R84): the operands of a row are its free bits. -/
theorem opcodeTable_eq : opcodeTable = [
    fieldRow "NOP" 0x00#8 (some 0#3) 0 0 0,
    fieldRow "RSTALL" 0x01#8 (some 0#3) 0 0 0,
    fieldRow "GETU" 0x10#8 none 6 32 0,
    fieldRow "GETS" 0x11#8 none 6 32 0,
    fieldRow "GETSM" 0x12#8 none 6 32 0,
    fieldRow "SETU" 0x14#8 none 6 32 64,
    fieldRow "SETS" 0x15#8 none 6 32 64,
    fieldRow "CRC16" 0x20#8 none 0 32 32,
    fieldRow "CRC24Q" 0x21#8 none 0 32 0,
    fieldRow "HAMDEC" 0x28#8 (some 0#3) 0 0 32,
    fieldRow "HAMENC" 0x29#8 (some 0#3) 0 0 26,
    fieldRow "READ.ASV" 0x30#8 (some 1#3) 0 8 0,
    fieldRow "READ.R2" 0x30#8 (some 2#3) 0 8 0,
    fieldRow "READ.R3" 0x30#8 (some 3#3) 0 8 0,
    fieldRow "READ.SBF" 0x30#8 (some 4#3) 0 8 0,
    fieldRow "RESET" 0x31#8 none 0 0 0,
    fieldRow "LDB" 0x40#8 none 0 32 0,
    fieldRow "STB" 0x41#8 none 0 32 8,
    fieldRow "SETLEN" 0x42#8 none 0 32 0,
    fieldRow "RDSR" 0x48#8 none 0 32 0] := by
  decide

/-! Masking a word masks its fields. -/

section
variable (v w : CommandWord)

theorem fieldOp_and : fieldOp (v &&& w) = fieldOp v &&& fieldOp w := BitVec.extractLsb'_and
theorem fieldSel_and : fieldSel (v &&& w) = fieldSel v &&& fieldSel w := BitVec.extractLsb'_and
theorem fieldWid_and : fieldWid (v &&& w) = fieldWid v &&& fieldWid w := BitVec.extractLsb'_and
theorem fieldRsv_and : fieldRsv (v &&& w) = fieldRsv v &&& fieldRsv w := BitVec.extractLsb'_and
theorem fieldArg_and : fieldArg (v &&& w) = fieldArg v &&& fieldArg w := BitVec.extractLsb'_and
theorem fieldVal_and : fieldVal (v &&& w) = fieldVal v &&& fieldVal w := BitVec.extractLsb'_and

end

/-- The selector under the mask of a row. -/
theorem and_selMask_eq_iff (x : BitVec 3) (sel : Option (BitVec 3)) :
    x &&& onesFrom 3 (if sel.isSome then 0 else 3) = sel.getD 0#3 ↔ ∀ y ∈ sel, x = y := by
  cases sel with
  | none => simp [and_onesFrom_eq_zero, x.isLt]
  | some y =>
    have hmask : x &&& onesFrom 3 0 = x := BitVec.and_allOnes
    simp [hmask]

/-- A word selects a row exactly when its fields do. -/
theorem fieldRow_selects_iff {mnemonic : String} {op : BitVec 8} {sel : Option (BitVec 3)}
    {widFree argFree valFree : Nat} {w : CommandWord} :
    (fieldRow mnemonic op sel widFree argFree valFree).selects w = true ↔
      fieldOp w = op ∧ (∀ y ∈ sel, fieldSel w = y) ∧ (fieldWid w).toNat < 2 ^ widFree ∧ fieldRsv w = 0#15 ∧
        (fieldArg w).toNat < 2 ^ argFree ∧ (fieldVal w).toNat < 2 ^ valFree := by
  rw [OpcodeRow.selects, beq_iff_eq, fieldRow, word_eq_packWord_iff]
  simp only [fieldOp_and, fieldSel_and, fieldWid_and, fieldRsv_and, fieldArg_and, fieldVal_and, fieldOp_packWord,
    fieldSel_packWord, fieldWid_packWord, fieldRsv_packWord, fieldArg_packWord, fieldVal_packWord, BitVec.and_allOnes,
    and_selMask_eq_iff, and_onesFrom_eq_zero]

theorem toNat_append_eq {n m : Nat} (x : BitVec n) (y : BitVec m) : (x ++ y).toNat = x.toNat * 2 ^ m + y.toNat := by
  rw [BitVec.toNat_append, ← Nat.shiftLeft_add_eq_or_of_lt y.isLt, Nat.shiftLeft_eq]

/-- A zero-extended operand fits its own bits. -/
theorem toNat_zero_append_lt {n m : Nat} (y : BitVec m) : (0#n ++ y).toNat < 2 ^ m := by
  rw [toNat_append_eq]
  simpa using y.isLt

theorem toNat_hamenc_operand_lt (data : BitVec 24) (prev2 : BitVec 2) : (0#38 ++ prev2 ++ data).toNat < 2 ^ 26 := by
  have := data.isLt
  have := prev2.isLt
  rw [toNat_append_eq, toNat_append_eq]
  simp only [BitVec.toNat_ofNat]
  omega

@[simp] theorem fieldRow_mnemonic (mnemonic : String) (op : BitVec 8) (sel : Option (BitVec 3))
    (widFree argFree valFree : Nat) : (fieldRow mnemonic op sel widFree argFree valFree).mnemonic = mnemonic := rfl

/-- The row of a command is in the table, and the command's word selects it: its operands are the row's free bits. -/
theorem exists_row_of_encode (i : Instr) : ∃ r ∈ opcodeTable, r.mnemonic = i.mnemonic ∧ r.selects (encode i) = true := by
  have hwid : ∀ x : BitVec 6, x.toNat < 64 := BitVec.isLt
  have harg : ∀ x : BitVec 32, x.toNat < 4294967296 := BitVec.isLt
  have hval : ∀ x : BitVec 64, x.toNat < 18446744073709551616 := BitVec.isLt
  rw [opcodeTable_eq]
  cases i with
  | crc16 _ _ n | hamdec n =>
    have hoperand := toNat_zero_append_lt (n := 32) n
    simpa [fieldRow_selects_iff, encode, packCommand_eq_packWord, Instr.mnemonic, harg] using hoperand
  | hamenc data prev2 =>
    have hoperand := toNat_hamenc_operand_lt data prev2
    simpa [fieldRow_selects_iff, encode, packCommand_eq_packWord, Instr.mnemonic] using hoperand
  | readAsv b | readR2 b | readR3 b | readSbf b =>
    have hoperand := toNat_zero_append_lt (n := 24) b
    simpa [fieldRow_selects_iff, encode, packCommand_eq_packWord, Instr.mnemonic] using hoperand
  | stb _ _ b =>
    have hoperand := toNat_zero_append_lt (n := 56) b
    simpa [fieldRow_selects_iff, encode, packCommand_eq_packWord, Instr.mnemonic, harg] using hoperand
  | _ => simp [fieldRow_selects_iff, encode, packCommand_eq_packWord, Instr.mnemonic, hwid, harg, hval]

/-- The upper part of a field that fits its lower part is zero. -/
theorem upper_eq_zero_of_lt {w n m : Nat} {x : BitVec w} (h : x.toNat < 2 ^ m) : x.extractLsb' m n = 0#n := by
  apply BitVec.eq_of_toNat_eq
  rw [BitVec.extractLsb'_toNat, Nat.shiftRight_eq_div_pow, Nat.div_eq_of_lt h]
  simp

/-- A field without a free bit is zero. -/
theorem field_eq_zero {w : Nat} {x : BitVec w} (h : x.toNat < 2 ^ 0) : x = 0#w :=
  BitVec.eq_of_toNat_eq (by simpa using h)

section
variable {w : CommandWord} {i : Instr} {mnemonic : String}

/-- A word with an opcode of the table and a zero reserved field decodes if the opcode's format lets its fields pass. -/
theorem decodes_of_fields (op : Opcode) (hop : fieldOp w = op.bits) (hrsv : fieldRsv w = 0#15)
    (h : decodeFields op (fieldSel w) (fieldWid w) (fieldArg w) (fieldVal w) = .ok i) (hi : i.mnemonic = mnemonic) :
    ∃ i, decode w = .ok i ∧ i.mnemonic = mnemonic :=
  ⟨i, decode_eq_ok_iff.2 ⟨op, hop, hrsv, h⟩, hi⟩

/-- The same where all the format asks for are zeros. -/
theorem decodes_of_zeros {zero : Bool} (op : Opcode) (hop : fieldOp w = op.bits) (hrsv : fieldRsv w = 0#15)
    (hformat : decodeFields op (fieldSel w) (fieldWid w) (fieldArg w) (fieldVal w) = ifZero zero i)
    (hi : i.mnemonic = mnemonic) (hzero : zero = true) : ∃ i, decode w = .ok i ∧ i.mnemonic = mnemonic :=
  decodes_of_fields op hop hrsv (hformat.trans (ifZero_eq_ok_iff.2 ⟨hzero, rfl⟩)) hi

/-- The same for the four rows of READ. -/
theorem decodes_of_read {sel : BitVec 3} (hop : fieldOp w = 0x30#8) (hsel : fieldSel w = sel)
    (hwid : (fieldWid w).toNat < 2 ^ 0) (hrsv : fieldRsv w = 0#15) (harg : (fieldArg w).toNat < 2 ^ 8)
    (hval : (fieldVal w).toNat < 2 ^ 0) (h : decodeRead sel ((fieldArg w).extractLsb' 0 8) = .ok i)
    (hi : i.mnemonic = mnemonic) : ∃ i, decode w = .ok i ∧ i.mnemonic = mnemonic := by
  refine decodes_of_fields .read hop hrsv ?_ hi
  rw [← h, hsel, field_eq_zero hwid, field_eq_zero hval]
  exact if_pos (by simp [upper_eq_zero_of_lt harg])

end

/-- A word that selects a row decodes to a command of it: what the opcode's format asks to be zero has no free bit. -/
theorem decodes_of_selects {w : CommandWord} {r : OpcodeRow} (hr : r ∈ opcodeTable) (h : r.selects w = true) :
    ∃ i, decode w = .ok i ∧ i.mnemonic = r.mnemonic := by
  rw [opcodeTable_eq] at hr
  simp only [List.mem_cons, List.not_mem_nil, or_false] at hr
  rcases hr with rfl | rfl | rfl | rfl | rfl | rfl | rfl | rfl | rfl | rfl | rfl | rfl | rfl | rfl | rfl | rfl | rfl |
    rfl | rfl | rfl <;> obtain ⟨hop, hsel, hwid, hrsv, harg, hval⟩ := fieldRow_selects_iff.1 h
  · exact decodes_of_zeros .nop hop hrsv rfl rfl
      (by simp [hsel _ rfl, field_eq_zero hwid, field_eq_zero harg, field_eq_zero hval])
  · exact decodes_of_zeros .rstall hop hrsv rfl rfl
      (by simp [hsel _ rfl, field_eq_zero hwid, field_eq_zero harg, field_eq_zero hval])
  · exact decodes_of_zeros .getu hop hrsv rfl rfl (by simp [field_eq_zero hval])
  · exact decodes_of_zeros .gets hop hrsv rfl rfl (by simp [field_eq_zero hval])
  · exact decodes_of_zeros .getsm hop hrsv rfl rfl (by simp [field_eq_zero hval])
  · exact decodes_of_fields .setu hop hrsv rfl rfl
  · exact decodes_of_fields .sets hop hrsv rfl rfl
  · exact decodes_of_zeros .crc16 hop hrsv rfl rfl (by simp [field_eq_zero hwid, upper_eq_zero_of_lt hval])
  · exact decodes_of_zeros .crc24q hop hrsv rfl rfl (by simp [field_eq_zero hwid, field_eq_zero hval])
  · exact decodes_of_zeros .hamdec hop hrsv rfl rfl
      (by simp [hsel _ rfl, field_eq_zero hwid, field_eq_zero harg, upper_eq_zero_of_lt hval])
  · exact decodes_of_zeros .hamenc hop hrsv rfl rfl
      (by simp [hsel _ rfl, field_eq_zero hwid, field_eq_zero harg, upper_eq_zero_of_lt hval])
  · exact decodes_of_read hop (hsel _ rfl) hwid hrsv harg hval rfl rfl
  · exact decodes_of_read hop (hsel _ rfl) hwid hrsv harg hval rfl rfl
  · exact decodes_of_read hop (hsel _ rfl) hwid hrsv harg hval rfl rfl
  · exact decodes_of_read hop (hsel _ rfl) hwid hrsv harg hval rfl rfl
  · exact decodes_of_zeros .reset hop hrsv rfl rfl
      (by simp [field_eq_zero hwid, field_eq_zero harg, field_eq_zero hval])
  · exact decodes_of_zeros .ldb hop hrsv rfl rfl (by simp [field_eq_zero hwid, field_eq_zero hval])
  · exact decodes_of_zeros .stb hop hrsv rfl rfl (by simp [field_eq_zero hwid, upper_eq_zero_of_lt hval])
  · exact decodes_of_zeros .setlen hop hrsv rfl rfl (by simp [field_eq_zero hwid, field_eq_zero hval])
  · exact decodes_of_zeros .rdsr hop hrsv rfl rfl (by simp [field_eq_zero hwid, field_eq_zero hval])

/-- No two rows have the same name. -/
theorem row_eq_of_mnemonic : ∀ r ∈ opcodeTable, ∀ r' ∈ opcodeTable, r.mnemonic = r'.mnemonic → r = r' := by decide

/-- A word selects a row exactly when it decodes to a command of that row. -/
theorem selects_iff_decodes {w : CommandWord} {r : OpcodeRow} (hr : r ∈ opcodeTable) :
    r.selects w = true ↔ ∃ i, decode w = .ok i ∧ i.mnemonic = r.mnemonic := by
  refine ⟨decodes_of_selects hr, ?_⟩
  rintro ⟨i, hi, hname⟩
  obtain ⟨r', hr', hname', hsel⟩ := exists_row_of_encode i
  rwa [row_eq_of_mnemonic r hr r' hr' (hname.symm.trans hname'.symm), ← decode_eq_ok_iff_encode.1 hi]

/-- Settles O7: a word selects the row of the command it decodes to, and rows differ in their names. -/
theorem decodeSelectsExactlyTheRowsOfTheTable : Obligations.DecodeSelectsExactlyTheRowsOfTheTable := by
  refine ⟨fun w => ⟨?_, ?_⟩, fun w i hi r hr => ⟨fun h => ?_, fun h => ?_⟩, fun w r hr r' hr' h h' => ?_⟩
  · rintro ⟨i, hi⟩
    obtain ⟨r, hr, -, hsel⟩ := exists_row_of_encode i
    exact ⟨r, hr, by rwa [← decode_eq_ok_iff_encode.1 hi]⟩
  · rintro ⟨r, hr, h⟩
    obtain ⟨i, hi, -⟩ := decodes_of_selects hr h
    exact ⟨i, hi⟩
  · obtain ⟨j, hj, hname⟩ := decodes_of_selects hr h
    cases hi.symm.trans hj
    exact hname.symm
  · exact (selects_iff_decodes hr).2 ⟨i, hi, h.symm⟩
  · obtain ⟨i, hi, hname⟩ := decodes_of_selects hr h
    obtain ⟨j, hj, hname'⟩ := decodes_of_selects hr' h'
    cases hi.symm.trans hj
    exact row_eq_of_mnemonic r hr r' hr' (hname.symm.trans hname')

/-! ### A word outside the table -/

theorem step_of_port_illegal {s : State} {w : CommandWord} {rest : List HostInput} {e : DecodeError}
    (h : s.port = .command w :: rest) (hw : decode w = .error e) :
    step s = .next (raiseFault .illegalCommand { s with port := rest }) := by
  simp only [step, takeInput_command h, hw]

/-- Settles O3: fault entry with the cause IllegalCommand, in its two cases. -/
theorem stepFaultsOnWordsOutsideTheTable : Obligations.StepFaultsOnWordsOutsideTheTable := by
  intro s w rest e hport hw
  rw [step_of_port_illegal hport hw]
  exact ⟨fun hf => congrArg _ (raiseFault_eq_faulted (s := { s with port := rest }) .illegalCommand hf),
    fun hf => congrArg _ (raiseFault_of_set (s := { s with port := rest }) .illegalCommand hf)⟩

end Sys2Proof.Machine
end

section
/-! PROOFS. The shape of the responses (R83): what every check answers, then each command's own answer. -/

namespace Sys2Proof.Machine

/-! ### Answers -/

/-- Every next state of an outcome carries a response with the property `P`. -/
def Answers (P : Response → Prop) (p : Result) : Prop := ∀ t, p = .next t → ∃ r, t.resp = some r ∧ P r

/-- The responses of a command that is neither READ nor HAMDEC: a fault, or a value. -/
def Response.IsPlain (r : Response) : Prop := r = .failed ∨ ∃ v, r = .value v

section
variable {P : Response → Prop} {s : State}

theorem Answers.next {t : State} {r : Response} (hr : t.resp = some r) (h : P r) : Answers P (.next t) := by
  rintro u ⟨⟩
  exact ⟨r, hr, h⟩

theorem Answers.mono {Q : Response → Prop} {p : Result} (h : Answers P p) (hPQ : ∀ r, P r → Q r) : Answers Q p := by
  intro t ht
  obtain ⟨r, hr, hP⟩ := h t ht
  exact ⟨r, hr, hPQ r hP⟩

theorem answers_raiseFault (c : Cause) (hfail : P .failed) : Answers P (.next (raiseFault c s)) :=
  .next (raiseFault_resp c s) hfail

theorem unlessFaulted_answers {k : Unit → Result} (hfail : P .failed) (hk : Answers P (k ())) :
    Answers P (unlessFaulted s k) := by
  unfold unlessFaulted
  split
  · exact .next rfl hfail
  · exact hk

theorem onBuffer_answers {sel : BitVec 3} {k : BufferId → Result} (hfail : P .failed) (hk : ∀ b, Answers P (k b)) :
    Answers P (onBuffer sel s k) := by
  unfold onBuffer
  split
  · exact answers_raiseFault _ hfail
  · exact hk _

theorem onWorkBuffer_answers {sel : BitVec 3} {k : Unit → Result} (hfail : P .failed) (hk : Answers P (k ())) :
    Answers P (onWorkBuffer sel s k) := by
  unfold onWorkBuffer
  split
  · exact answers_raiseFault _ hfail
  · exact answers_raiseFault _ hfail
  · exact hk

theorem onDecoder_answers {sel : BitVec 3} {k : DecoderId → Result} (hfail : P .failed) (hk : ∀ d, Answers P (k d)) :
    Answers P (onDecoder sel s k) := by
  unfold onDecoder
  split
  · exact hk _
  · exact answers_raiseFault _ hfail

theorem orFault_answers {check : Option Cause} {k : Unit → Result} (hfail : P .failed) (hk : Answers P (k ())) :
    Answers P (orFault check s k) := by
  cases check with
  | some c => exact answers_raiseFault c hfail
  | none => exact hk

theorem onAddresses_answers {b : BufferId} {lo hi : Nat} {k : Unit → Result} (hk : Answers P (k ())) :
    Answers P (onAddresses b lo hi s k) := by
  unfold onAddresses
  split
  · exact hk
  · intro t ht
    cases ht

end

/-! ### Commands that answer a fault or a value -/

section
variable {s : State}

theorem Response.isPlain_failed : Response.IsPlain .failed := .inl rfl

theorem Response.isPlain_value (v : BitVec 64) : Response.IsPlain (.value v) := .inr ⟨v, rfl⟩

/-- A command that reads a buffer, once its check has passed (R110, R132, R135, R241). -/
theorem onCheckedBuffer_answers {sel : BitVec 3} {check : BufferId → Option Cause} {k : BufferId → Result}
    (hk : ∀ b, Answers Response.IsPlain (k b)) : Answers Response.IsPlain (onCheckedBuffer sel check s k) :=
  unlessFaulted_answers Response.isPlain_failed <| onBuffer_answers Response.isPlain_failed fun b =>
    orFault_answers Response.isPlain_failed (hk b)

theorem extractField_answers (reading : Nat → Nat → BitVec 64) (sel : BitVec 3) (wid : BitVec 6) (ofs : BitVec 32) :
    Answers Response.IsPlain (extractField reading sel wid ofs s) :=
  onCheckedBuffer_answers (check := (codecCheck · ofs wid s)) fun _ =>
    onAddresses_answers (.next rfl (Response.isPlain_value _))

theorem insertField_answers (fits : Bool) (u : Nat) (sel : BitVec 3) (wid : BitVec 6) (ofs : BitVec 32) :
    Answers Response.IsPlain (insertField fits u sel wid ofs s) :=
  unlessFaulted_answers Response.isPlain_failed <| onWorkBuffer_answers Response.isPlain_failed <|
    orFault_answers Response.isPlain_failed <| orFault_answers Response.isPlain_failed <|
    onAddresses_answers (.next rfl (Response.isPlain_value _))

theorem rangeCommand_answers {sel : BitVec 3} {lo stop : Nat} {value : BufferId → BitVec 64} :
    Answers Response.IsPlain (onCheckedBuffer sel (rangeCheck · stop s) s fun b =>
      onAddresses b lo stop s fun _ => .next (s.respond (.value (value b)))) :=
  onCheckedBuffer_answers fun _ => onAddresses_answers (.next rfl (Response.isPlain_value _))

theorem execStb_answers (sel : BitVec 3) (addr : BitVec 32) (byte : Byte) :
    Answers Response.IsPlain (execStb sel addr byte s) :=
  unlessFaulted_answers Response.isPlain_failed <| onWorkBuffer_answers Response.isPlain_failed <|
    orFault_answers Response.isPlain_failed <| onAddresses_answers (.next rfl (Response.isPlain_value _))

theorem execSetlen_answers (sel : BitVec 3) (len : BitVec 32) : Answers Response.IsPlain (execSetlen sel len s) :=
  unlessFaulted_answers Response.isPlain_failed <| onWorkBuffer_answers Response.isPlain_failed <|
    orFault_answers Response.isPlain_failed (.next rfl (Response.isPlain_value _))

theorem execReset_answers (sel : BitVec 3) : Answers Response.IsPlain (execReset sel s) :=
  unlessFaulted_answers Response.isPlain_failed <| onDecoder_answers Response.isPlain_failed fun _ =>
    .next rfl (Response.isPlain_value _)

theorem execHamenc_answers (data : BitVec 24) (prev2 : BitVec 2) :
    Answers Response.IsPlain (execHamenc data prev2 s) :=
  unlessFaulted_answers Response.isPlain_failed (.next rfl (Response.isPlain_value _))

theorem execRdsr_answers (sel : BitVec 3) (idx : BitVec 32) : Answers Response.IsPlain (execRdsr sel idx s) := by
  unfold execRdsr
  split
  · exact .next rfl (Response.isPlain_value _)
  · exact answers_raiseFault _ Response.isPlain_failed

/-! ### Every command -/

/-- What R83 says of a response to a command of an opcode. -/
def Response.FitsOpcode (op : Opcode) (r : Response) : Prop :=
  (r.st = true → r = ⟨true, false, 0#3, 0#64⟩) ∧ (r.ev ≠ 0#3 → op = .read ∧ r.ev.toNat ≤ 3) ∧
    (r.flag = true → op = .read ∨ op = .hamdec) ∧ (op = .read → (r.flag = true ↔ r.ev = 1#3))

theorem Response.IsPlain.fitsOpcode {r : Response} (h : r.IsPlain) (op : Opcode) : r.FitsOpcode op := by
  rcases h with rfl | ⟨v, rfl⟩ <;> simp [Response.FitsOpcode, Response.failed, Response.value, Event.code]

theorem execHamdec_answers (word : BitVec 32) : Answers (Response.FitsOpcode .hamdec) (execHamdec word s) := by
  have hflagged : ∀ f v, (Response.flagged f v).FitsOpcode .hamdec := fun f v => by
    simp [Response.FitsOpcode, Response.flagged, Event.code]
  refine unlessFaulted_answers (Response.isPlain_failed.fitsOpcode _) ?_
  split
  · exact .next rfl (hflagged _ _)
  · exact .next rfl (hflagged _ _)

/-- The response at the end of a READ: a mismatch event is one of the two of R270. -/
theorem response_fitsOpcode {cfg : Config} {b : Byte} {d : DecoderId} {r r' : R2Run}
    (h : readRule cfg b d r = some r') (hr : r.out = .more) : r'.out.response.FitsOpcode .read := by
  cases ho : r'.out with
  | more => exact (Response.isPlain_value _).fitsOpcode _
  | ready total id => simp [FrameOutcome.response, Response.frameReady, Response.FitsOpcode, Event.code]
  | mismatch e =>
    rcases readRule_mismatch h hr ho with rfl | rfl <;>
      simp [FrameOutcome.response, Response.mismatch, Response.FitsOpcode, Event.code]

theorem exec_readOf_answers (d : DecoderId) (b : Byte) :
    Answers (Response.FitsOpcode .read) (exec (Instr.readOf d b) s) := by
  intro t h
  rcases exec_readOf_eq_next h with ⟨-, rfl⟩ | ⟨-, -, rfl⟩ | ⟨-, -, r, hr, rfl⟩
  · exact ⟨_, rfl, Response.isPlain_failed.fitsOpcode _⟩
  · exact ⟨_, rfl, (Response.isPlain_value _).fitsOpcode _⟩
  · exact ⟨_, State.putRun_resp s d r, response_fitsOpcode hr rfl⟩

/-- A command that answers a fault or a value has a response of the shape of R83. -/
theorem Answers.fitsOpcode {p : Result} {op : Opcode} (h : Answers Response.IsPlain p) :
    Answers (Response.FitsOpcode op) p := h.mono fun _ hr => hr.fitsOpcode op

theorem exec_answers (i : Instr) : Answers (Response.FitsOpcode i.opcode) (exec i s) := by
  cases i with
  | nop => exact .next rfl ((Response.isPlain_value _).fitsOpcode _)
  | rstall => exact .next rfl ((Response.isPlain_value _).fitsOpcode _)
  | getu sel wid ofs => exact (extractField_answers (fun _ u => BitVec.ofNat 64 u) sel wid ofs).fitsOpcode
  | gets sel wid ofs => exact (extractField_answers (fun w u => BitVec.ofInt 64 (signedField w u)) sel wid ofs).fitsOpcode
  | getsm sel wid ofs =>
    exact (extractField_answers (fun w u => BitVec.ofInt 64 (signMagnitudeField w u)) sel wid ofs).fitsOpcode
  | setu sel wid ofs value => exact (insertField_answers _ _ sel wid ofs).fitsOpcode
  | sets sel wid ofs value => exact (insertField_answers _ _ sel wid ofs).fitsOpcode
  | crc16 sel start len => exact rangeCommand_answers.fitsOpcode
  | crc24q sel stop => exact rangeCommand_answers.fitsOpcode
  | ldb sel addr => exact rangeCommand_answers.fitsOpcode
  | hamdec word => exact execHamdec_answers word
  | hamenc data prev2 => exact (execHamenc_answers data prev2).fitsOpcode
  | readAsv b => exact exec_readOf_answers .asv b
  | readR2 b => exact exec_readOf_answers .r2 b
  | readR3 b => exact exec_readOf_answers .r3 b
  | readSbf b => exact exec_readOf_answers .sbf b
  | reset sel => exact (execReset_answers sel).fitsOpcode
  | stb sel addr byte => exact (execStb_answers sel addr byte).fitsOpcode
  | setlen sel len => exact (execSetlen_answers sel len).fitsOpcode
  | rdsr sel idx => exact (execRdsr_answers sel idx).fitsOpcode

end

/-- Settles O11: command by command. -/
theorem responsesHaveTheShapeOfR83 : Obligations.ResponsesHaveTheShapeOfR83 :=
  fun i _ t h => exec_answers i t h

end Sys2Proof.Machine
end

section
/-! PROOFS. Feeding bytes to a decoder one READ after another (R88, R150): a run of the phase rule over the bytes, and the
bytes a frame in progress has stored. -/

namespace Sys2Proof.Machine

/-! ### READs of one decoder in a row -/

/-- The phase rule takes the registers `r` over the bytes to `r'`, with no outcome on the way (R150). -/
inductive Absorbs (cfg : Config) (d : DecoderId) (r : R2Run) : List Byte → R2Run → Prop
  | nil : Absorbs cfg d r [] r
  | snoc {bytes : List Byte} {r' r'' : R2Run} {b : Byte} : Absorbs cfg d r bytes r' → readAccepts d b = true →
      readRule cfg b d r' = some r'' → r''.out = .more → Absorbs cfg d r (bytes ++ [b]) r''

/-- The state `t` reached by READs of `d` from `s`, whose registers are now `r`: in all else it is `s`, the last response
aside. -/
structure ReadsTo (s : State) (d : DecoderId) (r : R2Run) (t : State) : Prop where
  fault : t.fault = false
  cfg : t.cfg = s.cfg
  run : t.readRun d = r
  put : ∀ r', t.putRun d r' = s.putRun d r'

theorem State.putRun_putRun (s : State) (d : DecoderId) (r r' : R2Run) : (s.putRun d r).putRun d r' = s.putRun d r' := by
  cases d <;> rfl

/-- The next READ starts from the registers the last one left, if it gave no outcome. -/
theorem readRun_putRun {s : State} {d : DecoderId} {r : R2Run} (hv : r.dec.fvalid = false) (ho : r.out = .more) :
    (s.putRun d r).readRun d = r := by
  obtain ⟨x, w, nbit, o⟩ := r
  obtain rfl : o = .more := ho
  have hrelease : x.release = x := by rw [Decoder.release, ← show x.fvalid = false from hv]
  rw [State.readRun, State.putRun_dec_self, State.putRun_r2W, State.putRun_r2Nbit, R2Run.finished, hrelease]

theorem execAll_append {s t : State} {is js : List Instr} (h : execAll is s = .next t) :
    execAll (is ++ js) s = execAll js t := by
  induction is generalizing s with
  | nil => cases h; rfl
  | cons i is ih =>
    simp only [List.cons_append, execAll] at h ⊢
    split at h
    · exact ih h
    · cases h
    · cases h

theorem execAll_singleton {s t : State} {i : Instr} (h : exec i s = .next t) : execAll [i] s = .next t := by
  simp only [execAll, h]

theorem feed_append (d : DecoderId) (bytes : List Byte) (b : Byte) :
    Pseudo.feed d (bytes ++ [b]) = Pseudo.feed d bytes ++ [Instr.readOf d b] := by
  simp [Pseudo.feed]

/-- A run of the phase rule keeps the flag cleared (R150). -/
theorem Absorbs.released {cfg : Config} {d : DecoderId} {r r' : R2Run} {bytes : List Byte}
    (h : Absorbs cfg d r bytes r') (hr : r.dec.fvalid = false) : r'.dec.fvalid = false := by
  induction h with
  | nil => exact hr
  | snoc _ _ hrule _ ih => exact (readRule_keeps hrule).2.trans ih

/-- Bytes without an outcome, fed to the decoder. -/
theorem Absorbs.execAll {s : State} {d : DecoderId} {r : R2Run} {bytes : List Byte}
    (h : Absorbs s.cfg d (s.readRun d) bytes r) (hf : s.fault = false) :
    ∃ t, Machine.execAll (Pseudo.feed d bytes) s = .next t ∧ ReadsTo s d r t := by
  induction h with
  | nil => exact ⟨s, rfl, hf, rfl, rfl, fun _ => rfl⟩
  | @snoc bytes r' r'' b hbytes ha hrule hmore ih =>
    obtain ⟨t, ht, hfault, hcfg, hrun, hput⟩ := ih
    have hv : r''.dec.fvalid = false := (hbytes.snoc ha hrule hmore).released rfl
    rw [← hcfg, ← hrun] at hrule
    refine ⟨t.putRun d r'', ?_, by simpa using hfault, by simpa using hcfg, readRun_putRun hv hmore, fun q => ?_⟩
    · rw [feed_append, execAll_append ht]
      exact execAll_singleton (exec_readOf_of_some hfault ha hrule)
    · rw [State.putRun_putRun, hput]

/-- Bytes without an outcome, then one that has one, fed to the decoder. -/
theorem execAll_feed_of_absorbs {s : State} {d : DecoderId} {r r' : R2Run} {bytes : List Byte} {b : Byte}
    (hf : s.fault = false) (h : Absorbs s.cfg d (s.readRun d) bytes r) (ha : readAccepts d b = true)
    (hrule : readRule s.cfg b d r = some r') :
    execAll (Pseudo.feed d (bytes ++ [b])) s = .next (s.putRun d r') := by
  obtain ⟨t, ht, hfault, hcfg, hrun, hput⟩ := h.execAll hf
  rw [← hcfg, ← hrun] at hrule
  rw [feed_append, execAll_append ht, execAll_singleton (exec_readOf_of_some hfault ha hrule), hput]

/-! ### The bytes of a frame in progress -/

/-- A buffer with the first `k` bytes of a string stored from address 0 on. -/
def Memory.load (m : Memory) (f : List Byte) : Nat → Memory
  | 0 => m
  | k + 1 => (m.load f k).write k (byteAt f k)

section
variable {m : Memory} {f : List Byte}

theorem Memory.load_wf (h : m.wf) (f : List Byte) (k : Nat) : (m.load f k).wf := by
  induction k with
  | zero => exact h
  | succ k ih => exact Memory.write_wf ih _ _

theorem Memory.read_load (h : m.wf) (f : List Byte) (k a : Nat) :
    (m.load f k).read a = if a < k then byteAt f a else m.read a := by
  induction k with
  | zero => rfl
  | succ k ih =>
    rw [Memory.load, Memory.read_write (Memory.load_wf h f k), ih]
    by_cases ha : a = k
    · simp [ha]
    · simp [ha, show a < k + 1 ↔ a < k by omega]

theorem Memory.read_load_of_lt (h : m.wf) {k a : Nat} (ha : a < k) : (m.load f k).read a = byteAt f a := by
  rw [Memory.read_load h, if_pos ha]

theorem Memory.read_load_of_ge (h : m.wf) {k a : Nat} (ha : k ≤ a) : (m.load f k).read a = m.read a := by
  rw [Memory.read_load h, if_neg (Nat.not_lt.2 ha)]

/-- A whole string stored is read back. -/
theorem Memory.bytes_load (h : m.wf) (f : List Byte) : (m.load f f.length).bytes 0 f.length = f := by
  apply List.ext_getElem?
  intro i
  by_cases hi : i < f.length
  · rw [Memory.getElem?_bytes _ hi, Memory.read_load_of_lt h (by omega), byteAt, List.getD_eq_getElem?_getD,
      Nat.zero_add, List.getElem?_eq_getElem hi]
    rfl
  · rw [List.getElem?_eq_none (by simpa using hi), List.getElem?_eq_none (by simpa using hi)]

theorem Memory.pair_load (h : m.wf) (le : Bool) {k a : Nat} (ha : a + 1 < k) : (m.load f k).pair le a = pairAt f le a := by
  rw [Memory.pair, Memory.read_load_of_lt h ha, Memory.read_load_of_lt h (by omega), pairAt]

end

/-- The decoder with the first `k` bytes of a frame stored, in a phase, with a total length. -/
def Decoder.holding (x : Decoder) (f : List Byte) (phase : BitVec 2) (total : BitVec 16) (k : Nat) : Decoder :=
  { x with phase := phase, n := BitVec.ofNat 16 k, total := total, buf := x.buf.load f k }

theorem toNat_holding_n {x : Decoder} {f : List Byte} {p : BitVec 2} {total : BitVec 16} {k : Nat} (hk : k < 65536) :
    (x.holding f p total k).n.toNat = k := Nat.mod_eq_of_lt hk

theorem holding_n_succ (x : Decoder) (f : List Byte) (p : BitVec 2) (total : BitVec 16) (k : Nat) :
    (x.holding f p total k).n + 1#16 = BitVec.ofNat 16 (k + 1) := (BitVec.ofNat_add k 1).symm

/-- Storing the next byte of the frame. -/
theorem stored_holding {x : Decoder} {f : List Byte} {p : BitVec 2} {total : BitVec 16} {k : Nat} (hk : k < 65536) :
    (x.holding f p total k).stored (byteAt f k) = x.holding f p total (k + 1) := by
  rw [Decoder.stored, holding_n_succ, toNat_holding_n hk]
  rfl

/-- A decoder in its initial phase holds no byte (R34). -/
theorem holding_zero {x : Decoder} {f : List Byte} (hp : x.phase = 0#2) (hn : x.n = 0#16) (ht : x.total = 0#16) :
    x.holding f 0#2 0#16 0 = x := by
  obtain ⟨phase, n, total, errcnt, fvalid, flen, fid, buf⟩ := x
  cases hp
  cases hn
  cases ht
  rfl

/-! ### A frame fed to a byte-oriented decoder -/

theorem byteAt_eq_getElem {f : List Byte} {k : Nat} (hk : k < f.length) : byteAt f k = f[k] := by
  rw [byteAt, List.getD_eq_getElem?_getD, List.getElem?_eq_getElem hk]
  rfl

/-- A byte-oriented decoder that goes through the registers `prog 0`, `prog 1` and so on absorbs all but the last byte of
a frame. -/
theorem absorbs_of_steps {cfg : Config} {d : DecoderId} {rule : Byte → Decoder → Option (Decoder × FrameOutcome)}
    {f : List Byte} {prog : Nat → Decoder} {w : BitVec 32} {nbit : BitVec 5} (ha : ∀ b, readAccepts d b = true)
    (hrule : ∀ b, readRule cfg b d = R2Run.onByte (rule b))
    (hstep : ∀ k, k + 1 < f.length → rule (byteAt f k) (prog k) = some (prog (k + 1), .more)) {k : Nat}
    (hk : k < f.length) : Absorbs cfg d ⟨prog 0, w, nbit, .more⟩ (f.take k) ⟨prog k, w, nbit, .more⟩ := by
  induction k with
  | zero => exact .nil
  | succ k ih =>
    rw [← List.take_append_getElem (Nat.lt_of_succ_lt hk), ← byteAt_eq_getElem (Nat.lt_of_succ_lt hk)]
    refine (ih (Nat.lt_of_succ_lt hk)).snoc (ha _) ?_ rfl
    rw [hrule]
    exact R2Run.onByte_eq_some.2 ⟨_, _, hstep k hk, rfl⟩

/-- The end of a READ of a byte-oriented decoder that completes a frame (R150). -/
theorem putRun_ready (s : State) (d : DecoderId) (y : Decoder) (total id : BitVec 16) :
    s.putRun d ⟨y, s.r2W, s.r2Nbit, .ready total id⟩ =
      (s.setDec d { y with flen := total, fid := id, fvalid := true }).respond (.frameReady id total) := by
  cases d <;> rfl

/-- A frame whose last byte completes it. -/
theorem execAll_feed_of_steps {s : State} {d : DecoderId} {rule : Byte → Decoder → Option (Decoder × FrameOutcome)}
    {f : List Byte} {prog : Nat → Decoder} {k : Nat} {y : Decoder} {total id : BitVec 16} (hf : s.fault = false)
    (ha : ∀ b, readAccepts d b = true) (hrule : ∀ b, readRule s.cfg b d = R2Run.onByte (rule b))
    (hstart : prog 0 = (s.dec d).release)
    (hstep : ∀ k, k + 1 < f.length → rule (byteAt f k) (prog k) = some (prog (k + 1), .more))
    (hlen : f.length = k + 1) (hlast : rule (byteAt f k) (prog k) = some (y, .ready total id)) :
    execAll (Pseudo.feed d f) s =
      .next ((s.setDec d { y with flen := total, fid := id, fvalid := true }).respond (.frameReady id total)) := by
  have habsorbs := absorbs_of_steps (w := s.r2W) (nbit := s.r2Nbit) ha hrule hstep (Nat.lt_of_succ_le hlen.ge)
  rw [hstart] at habsorbs
  have hsplit : f = f.take k ++ [byteAt f k] := by
    rw [byteAt_eq_getElem (by omega), List.take_append_getElem, ← hlen, List.take_length]
  rw [hsplit, ← putRun_ready]
  refine execAll_feed_of_absorbs hf habsorbs (ha _) ?_
  rw [hrule]
  exact R2Run.onByte_eq_some.2 ⟨_, _, hlast, rfl⟩

/-- The response to the last byte of a frame, as a number (R150). -/
theorem frameReady_eq {id total : Nat} (hid : id < 65536) (ht : total < 65536) :
    Response.frameReady (BitVec.ofNat 16 id) (BitVec.ofNat 16 total) =
      ⟨false, true, 1#3, BitVec.ofNat 64 (65536 * id + total)⟩ := by
  refine congrArg (Response.mk false true 1#3) (BitVec.eq_of_toNat_eq ?_)
  rw [BitVec.toNat_setWidth, toNat_append_eq, BitVec.toNat_ofNat, BitVec.toNat_ofNat, BitVec.toNat_ofNat,
    Nat.mod_eq_of_lt hid, Nat.mod_eq_of_lt ht, Nat.mul_comm]
  norm_num

end Sys2Proof.Machine
end

section
/-! PROOFS. A valid frame fed to a byte-oriented decoder in its initial phase is delivered: the decoder's registers after
each byte (R152 to R158, R202 to R208, R222 to R229). -/

namespace Sys2Proof.Machine

/-! ### A stored frame -/

section
variable {m : Memory} {f : List Byte}

/-- The first bytes of a stored frame. -/
theorem Memory.readRange_load (h : m.wf) {k : Nat} (hk : k ≤ f.length) :
    (m.load f f.length).readRange 0 k = f.take k := by
  rw [← Memory.bytes_eq_readRange, ← Memory.take_bytes _ _ hk, Memory.bytes_load h]

/-- The last bytes of a stored frame. -/
theorem Memory.readRange_load_drop (h : m.wf) (k : Nat) :
    (m.load f f.length).readRange k (f.length - k) = f.drop k := by
  have hdrop := Memory.drop_bytes (m.load f f.length) 0 k f.length
  rw [Memory.bytes_load h, Nat.zero_add] at hdrop
  rw [← Memory.bytes_eq_readRange, hdrop]

/-- A 16-bit field of a stored frame. -/
theorem Memory.word16_load (h : m.wf) (le : Bool) {k a : Nat} (ha : a + 1 < k) :
    (m.load f k).word16 le a = BitVec.ofNat 16 (pairAt f le a) := by
  rw [← Memory.pair_load h le ha, ← Memory.toNat_word16, BitVec.ofNat_toNat, BitVec.setWidth_eq]

end

theorem pairAt_lt (f : List Byte) (le : Bool) (a : Nat) : pairAt f le a < 65536 := by
  have h := (byteAt f a).isLt
  have h' := (byteAt f (a + 1)).isLt
  unfold pairAt
  split <;> omega

/-- The registers an initial phase leaves to a frame (R34, R150). -/
theorem release_eq_holding {x : Decoder} {f : List Byte} (h : x.phase = 0#2 → x.n = 0#16 ∧ x.total = 0#16)
    (hp : x.phase = 0#2) : x.release.holding f 0#2 0#16 0 = x.release := by
  obtain ⟨hn, ht⟩ := h hp
  exact holding_zero hp hn ht

/-- A decoder back in its initial phase after a frame: only the flag, the length, the id and the buffer are new. -/
theorem resync_holding {x : Decoder} {f : List Byte} {p : BitVec 2} {total flen fid : BitVec 16} {k : Nat}
    (h : x.phase = 0#2 → x.n = 0#16 ∧ x.total = 0#16) (hp : x.phase = 0#2) :
    { (x.release.holding f p total k).resync with flen := flen, fid := fid, fvalid := true } =
      { x with fvalid := true, flen := flen, fid := fid, buf := x.buf.load f k } := by
  obtain ⟨hn, ht⟩ := h hp
  obtain ⟨phase, n, total, errcnt, fvalid, flen, fid, buf⟩ := x
  cases hp
  cases hn
  cases ht
  rfl

section
variable {x : Decoder} {f : List Byte} {p : BitVec 2} {total : BitVec 16} {k cap : Nat}

/-- There is room for a byte of a frame that fits the buffer. -/
theorem holding_room (hk : k < f.length) (hcap : f.length ≤ cap) : (x.holding f p total k).n.toNat < cap :=
  (Nat.mod_le k _).trans_lt (hk.trans_le hcap)

theorem toNat_ofNat_length (hlen : f.length < 65536) : (BitVec.ofNat 16 f.length).toNat = f.length :=
  Nat.mod_eq_of_lt hlen

/-- Short of the last byte, the frame goes on. -/
theorem holding_more (hk : k + 1 < f.length) (hlen : f.length < 65536) :
    (x.holding f p total k).n + 1#16 < BitVec.ofNat 16 f.length := by
  rw [holding_n_succ, BitVec.lt_def, BitVec.toNat_ofNat, toNat_ofNat_length hlen]
  omega

/-- With the last byte it does not. -/
theorem holding_done (hk : f.length = k + 1) :
    ¬ (x.holding f p total k).n + 1#16 < BitVec.ofNat 16 f.length := by
  rw [holding_n_succ, hk]
  exact BitVec.lt_irrefl _

end

/-! ### Asv -/

/-- PHASE of the Asv decoder after `k` bytes of a frame (R152 to R155). -/
def asvPhaseAt : Nat → BitVec 2
  | 0 => 0#2
  | 1 => 1#2
  | 2 | 3 => 2#2
  | _ + 4 => 3#2

/-- The Asv decoder after `k` bytes of a frame. -/
def asvAt (x : Decoder) (f : List Byte) (k : Nat) : Decoder :=
  x.holding f (asvPhaseAt k) (if k < 4 then 0#16 else BitVec.ofNat 16 f.length) k

section
variable {cfg : Config} {x : Decoder} {f : List Byte}

theorem asvAnnounced_holding (hw : x.buf.wf) (hf : AsvFrame cfg f) :
    asvAnnounced (x.holding f 2#2 0#16 4) = f.length := by
  obtain ⟨-, -, -, -, hlen, -⟩ := hf
  rw [asvAnnounced, Memory.toNat_word16, ← hlen]
  exact congrArg (· + asvOverhead) (Memory.pair_load hw true (by decide))

/-- A byte short of the last takes the decoder on. -/
theorem asvRule_asvAt (hw : x.buf.wf) (hf : AsvFrame cfg f) {k : Nat} (hk : k + 1 < f.length) :
    asvRule cfg (byteAt f k) (asvAt x f k) = some (asvAt x f (k + 1), .more) := by
  have hannounced := asvAnnounced_holding (x := x) hw hf
  obtain ⟨-, hmax, h0, h1, -, -⟩ := hf
  have hroom : (asvAt x f k).n.toNat < asvMax := holding_room (Nat.lt_of_succ_lt hk) hmax
  refine asvRule_eq_some.2 ?_
  match k with
  | 0 => exact .started rfl h0
  | 1 => exact .second rfl h1
  | 2 => exact .header rfl hroom (show 2#16 + 1#16 ≠ 4#16 by decide)
  | 3 =>
    have hstored : (asvAt x f 3).stored (byteAt f 3) = x.holding f 2#2 0#16 4 := stored_holding (by decide)
    have hstep := AsvStep.sized (cfg := cfg) (b := byteAt f 3) rfl hroom (show 3#16 + 1#16 = 4#16 by decide)
      (by rwa [hstored, hannounced])
    rwa [hstored, hannounced] at hstep
  | k + 4 =>
    have hstored : (asvAt x f (k + 4)).stored (byteAt f (k + 4)) = asvAt x f (k + 5) := stored_holding (by omega)
    rw [← hstored]
    exact .message rfl hroom (holding_more hk (by omega))

/-- The last byte completes the frame, and the CRC agrees (R156, R157). -/
theorem asvRule_asvAt_last (hw : x.buf.wf) (hf : AsvFrame cfg f) {k : Nat} (hk : f.length = k + 1) :
    asvRule cfg (byteAt f k) (asvAt x f k) = some ((asvAt x f f.length).resync,
      .ready (BitVec.ofNat 16 f.length) (BitVec.ofNat 16 (pairAt f cfg.asvIdLe 8))) := by
  obtain ⟨hmin, hmax, -, -, -, hcrc⟩ := hf
  obtain ⟨j, rfl⟩ : ∃ j, k = j + 4 := ⟨k - 4, by omega⟩
  have hlen := toNat_ofNat_length (f := f) (by omega)
  have hstored : (asvAt x f (j + 4)).stored (byteAt f (j + 4)) = asvAt x f f.length := by
    rw [hk]
    exact stored_holding (by omega)
  have htotal : (asvAt x f f.length).total = BitVec.ofNat 16 f.length := if_neg (by omega)
  have hready : asvVerdict cfg (asvAt x f f.length) =
      .ready (BitVec.ofNat 16 f.length) (BitVec.ofNat 16 (pairAt f cfg.asvIdLe 8)) := by
    have hbuf : (asvAt x f f.length).buf = x.buf.load f f.length := rfl
    rw [asvVerdict, htotal, hlen, hbuf, Memory.readRange_load hw (Nat.sub_le _ _), Memory.word16_load hw _ (by omega),
      ← hcrc, BitVec.ofNat_toNat, BitVec.setWidth_eq, if_pos rfl, Memory.word16_load hw _ (by show 8 + 1 < _; omega)]
  refine asvRule_eq_some.2 ?_
  rw [← hready, ← hstored]
  exact .last rfl (holding_room (by omega) hmax) (holding_done hk) (by show 2 ≤ (BitVec.ofNat 16 f.length).toNat; omega)
    (hlen.trans_le hmax)

end

/-- Settles O41: the decoder goes through the registers of `asvAt`, and the last byte completes the frame. -/
theorem validAsvFramesAreDelivered : Obligations.ValidAsvFramesAreDelivered := by
  intro s f hs hfault hphase hf
  obtain ⟨h0, -, -, hw, -⟩ := hs.asvCommon
  have hw' : s.asv.release.buf.wf := hw
  obtain ⟨k, hk⟩ : ∃ k, f.length = k + 1 := ⟨f.length - 1, by have := hf.1; omega⟩
  have hexec := execAll_feed_of_steps (d := .asv) (rule := asvRule s.cfg) (prog := asvAt s.asv.release f) hfault
    (fun _ => rfl) (fun _ => rfl) (release_eq_holding h0 hphase) (fun _ => asvRule_asvAt hw' hf) hk
    (asvRule_asvAt_last hw' hf hk)
  refine ⟨s.asv.buf.load f f.length, Memory.bytes_load hw f, fun a ha => Memory.read_load_of_ge hw ha, ?_⟩
  rw [hexec, asvAt, resync_holding h0 hphase, frameReady_eq (pairAt_lt _ _ _) (by have := hf.2.1; omega)]
  rfl

/-! ### RTCM v3 -/

/-- PHASE of the RTCM v3 decoder after `k` bytes of a frame of `len` bytes (R202 to R206). -/
def r3PhaseAt (len : Nat) : Nat → BitVec 2
  | 0 => 0#2
  | 1 | 2 => 1#2
  | k + 3 => if k + 6 < len then 2#2 else 3#2

/-- The RTCM v3 decoder after `k` bytes of a frame. -/
def r3At (x : Decoder) (f : List Byte) (k : Nat) : Decoder :=
  x.holding f (r3PhaseAt f.length k) (if k < 3 then 0#16 else BitVec.ofNat 16 f.length) k

section
variable {cfg : Config} {x : Decoder} {f : List Byte}

theorem r3Announced_holding (hw : x.buf.wf) (hf : R3Frame cfg f) :
    r3Announced (x.holding f 1#2 0#16 3) + 6 = f.length := by
  obtain ⟨-, -, -, hlen, -⟩ := hf
  have hbuf : (x.holding f 1#2 0#16 3).buf = x.buf.load f 3 := rfl
  rw [r3Announced, hbuf, Memory.getU_14_10, Memory.read_load_of_lt hw (by decide), Memory.read_load_of_lt hw (by decide),
    hlen]

theorem r3At_of_phase {k : Nat} {p : BitVec 2} (hp : r3PhaseAt f.length (k + 3) = p) :
    r3At x f (k + 3) = x.holding f p (BitVec.ofNat 16 f.length) (k + 3) := by
  rw [r3At, hp, if_neg (by omega)]

/-- A byte of the payload or of the CRC, short of the last (R205, R206). -/
theorem r3Step_r3At (hcap : f.length ≤ cfg.r3BufMax) (hlen : f.length < 65536) {k : Nat} (hk : k + 4 < f.length) :
    R3Step cfg (byteAt f (k + 3)) (r3At x f (k + 3)) (r3At x f (k + 4)) .more := by
  have hstored : ∀ p, (x.holding f p (BitVec.ofNat 16 f.length) (k + 3)).stored (byteAt f (k + 3)) =
      x.holding f p (BitVec.ofNat 16 f.length) (k + 4) := fun p => stored_holding (by omega)
  have hsucc : ∀ p, ((x.holding f p (BitVec.ofNat 16 f.length) (k + 3)).n + 1#16).toNat = k + 4 := fun p => by
    rw [holding_n_succ]
    exact Nat.mod_eq_of_lt (by omega)
  have htotal := toNat_ofNat_length hlen
  have hroom : ∀ p, (x.holding f p (BitVec.ofNat 16 f.length) (k + 3)).n.toNat < cfg.r3BufMax := fun _ =>
    holding_room (by omega) hcap
  by_cases hp : k + 6 < f.length
  · rw [r3At_of_phase (p := 2#2) (if_pos hp)]
    by_cases he : k + 7 = f.length
    · have hstep := R3Step.payloadEnd (b := byteAt f (k + 3)) rfl (hroom 2#2) (by rw [hsucc]; exact he.trans htotal.symm)
      rw [hstored] at hstep
      rw [r3At_of_phase (k := k + 1) (p := 3#2) (if_neg (by omega))]
      exact hstep
    · have hstep := R3Step.payload (b := byteAt f (k + 3)) rfl (hroom 2#2)
        (by rw [hsucc]; exact fun h => he (h.trans htotal))
      rw [hstored] at hstep
      rwa [r3At_of_phase (k := k + 1) (p := 2#2) (if_pos (by omega))]
  · have hstep := R3Step.crc (b := byteAt f (k + 3)) rfl (hroom 3#2) (holding_more hk hlen)
    rw [hstored] at hstep
    rwa [r3At_of_phase (p := 3#2) (if_neg hp), r3At_of_phase (k := k + 1) (p := 3#2) (if_neg (by omega))]

/-- A byte short of the last takes the decoder on. -/
theorem r3Rule_r3At (hcfg : cfg.wf) (hw : x.buf.wf) (hf : R3Frame cfg f) {k : Nat} (hk : k + 1 < f.length) :
    r3Rule cfg (byteAt f k) (r3At x f k) = some (r3At x f (k + 1), .more) := by
  have hannounced := r3Announced_holding (x := x) hw hf
  have hcap : cfg.r3BufMax < 65536 := capacity_lt hcfg .r3
  obtain ⟨-, hmax, h0, -, -⟩ := hf
  have hroom : (r3At x f k).n.toNat < cfg.r3BufMax := holding_room (Nat.lt_of_succ_lt hk) hmax
  refine r3Rule_eq_some.2 ?_
  match k with
  | 0 => exact .started rfl h0
  | 1 => exact .header rfl hroom (show 1#16 + 1#16 ≠ 3#16 by decide)
  | 2 =>
    have hstored : (r3At x f 2).stored (byteAt f 2) = x.holding f 1#2 0#16 3 := stored_holding (by decide)
    have hstep := R3Step.sized (cfg := cfg) (b := byteAt f 2) rfl hroom (show 2#16 + 1#16 = 3#16 by decide)
      (by rwa [hstored, hannounced])
    have hphase : (if r3Announced (x.holding f 1#2 0#16 3) = 0 then 3#2 else 2#2) = r3PhaseAt f.length 3 := by
      rw [r3PhaseAt]
      by_cases hempty : r3Announced (x.holding f 1#2 0#16 3) = 0
      · rw [if_pos hempty, if_neg (by omega)]
      · rw [if_neg hempty, if_pos (by omega)]
    rwa [hstored, hannounced, hphase] at hstep
  | k + 3 => exact r3Step_r3At hmax (by omega) hk

/-- The last byte completes the frame, and the CRC agrees (R207). -/
theorem r3Rule_r3At_last (hcfg : cfg.wf) (hw : x.buf.wf) (hf : R3Frame cfg f) {k : Nat} (hk : f.length = k + 1) :
    r3Rule cfg (byteAt f k) (r3At x f k) = some ((r3At x f f.length).resync,
      .ready (BitVec.ofNat 16 f.length) (BitVec.ofNat 16 (16 * (byteAt f 3).toNat + (byteAt f 4).toNat / 16))) := by
  have hcap : cfg.r3BufMax < 65536 := capacity_lt hcfg .r3
  obtain ⟨hmin, hmax, -, -, hcrc⟩ := hf
  obtain ⟨j, rfl⟩ : ∃ j, k = j + 3 := ⟨k - 3, by omega⟩
  have hlen := toNat_ofNat_length (f := f) (by omega)
  have hstored : (x.holding f 3#2 (BitVec.ofNat 16 f.length) (j + 3)).stored (byteAt f (j + 3)) = r3At x f f.length := by
    rw [stored_holding (by omega), hk, r3At_of_phase (k := j + 1) (p := 3#2) (if_neg (by omega)), hk]
  have htotal : (r3At x f f.length).total = BitVec.ofNat 16 f.length := if_neg (by omega)
  have hready : r3Verdict cfg (r3At x f f.length) = .ready (BitVec.ofNat 16 f.length)
      (BitVec.ofNat 16 (16 * (byteAt f 3).toNat + (byteAt f 4).toNat / 16)) := by
    have hbuf : (r3At x f f.length).buf = x.buf.load f f.length := rfl
    have hread : ∀ a, a < f.length → (x.buf.load f f.length).read a = byteAt f a := fun a => Memory.read_load_of_lt hw
    rw [r3Verdict, htotal, hlen, hbuf, Memory.readRange_load hw (Nat.sub_le _ _), Memory.getU_three_bytes,
      Memory.getU_24_12, hread _ (by omega), hread _ (by omega), hread _ (by omega), hread _ (by omega),
      hread _ (by omega), hcrc, show f.length - 3 + 1 = f.length - 2 by omega,
      show f.length - 3 + 2 = f.length - 1 by omega, if_pos rfl]
  refine r3Rule_eq_some.2 ?_
  rw [← hready, ← hstored, r3At_of_phase (p := 3#2) (if_neg (by omega))]
  exact .last rfl (holding_room (by omega) hmax) (holding_done hk)
    (by show 3 ≤ (BitVec.ofNat 16 f.length).toNat; omega) (hlen.trans_le hmax)

end

/-- Settles O42: the decoder goes through the registers of `r3At`, and the last byte completes the frame. -/
theorem validRtcmV3FramesAreDelivered : Obligations.ValidRtcmV3FramesAreDelivered := by
  rintro s f id hs hfault hphase hf rfl
  obtain ⟨h0, -, -, hw, -⟩ := hs.r3Common
  have hw' : s.r3.release.buf.wf := hw
  have hcap : s.cfg.r3BufMax < 65536 := capacity_lt hs.cfg .r3
  obtain ⟨hmin, hmax, -⟩ := id hf
  obtain ⟨k, hk⟩ : ∃ k, f.length = k + 1 := ⟨f.length - 1, by omega⟩
  have hexec := execAll_feed_of_steps (d := .r3) (rule := r3Rule s.cfg) (prog := r3At s.r3.release f) hfault
    (fun _ => rfl) (fun _ => rfl) (release_eq_holding h0 hphase) (fun _ => r3Rule_r3At hs.cfg hw' hf) hk
    (r3Rule_r3At_last hs.cfg hw' hf hk)
  refine ⟨s.r3.buf.load f f.length, Memory.bytes_load hw f, fun a ha => Memory.read_load_of_ge hw ha, ?_⟩
  rw [hexec, r3At, resync_holding h0 hphase, frameReady_eq (by omega) (by omega)]
  rfl

/-! ### SBF-style -/

/-- PHASE of the SBF-style decoder after `k` bytes of a frame (R222 to R226). -/
def sbfPhaseAt : Nat → BitVec 2
  | 0 => 0#2
  | 1 => 1#2
  | 2 | 3 | 4 | 5 | 6 | 7 => 2#2
  | _ + 8 => 3#2

/-- The SBF-style decoder after `k` bytes of a frame. -/
def sbfAt (x : Decoder) (f : List Byte) (k : Nat) : Decoder :=
  x.holding f (sbfPhaseAt k) (if k < 8 then 0#16 else BitVec.ofNat 16 f.length) k

section
variable {cfg : Config} {x : Decoder} {f : List Byte}

theorem sbfAnnounced_holding (hw : x.buf.wf) (hf : SbfFrame cfg f) :
    sbfAnnounced cfg (x.holding f 2#2 0#16 8) = BitVec.ofNat 16 f.length := by
  obtain ⟨-, -, -, -, hlen, -⟩ := hf
  rw [sbfAnnounced, ← hlen]
  exact Memory.word16_load hw cfg.sbfLe (by decide)

/-- A byte of the header past the sync bytes, short of its last (R224). -/
theorem sbfStep_header {k : Nat} (hk : k < 5) (hroom : (sbfAt x f (k + 2)).n.toNat < cfg.sbfBufMax) :
    SbfStep cfg (byteAt f (k + 2)) (sbfAt x f (k + 2)) (sbfAt x f (k + 3)) .more := by
  have hheader : ∀ j, j < 6 → sbfAt x f (j + 2) = x.holding f 2#2 0#16 (j + 2) := fun j hj => by
    rw [sbfAt, if_pos (by omega)]
    match j, hj with
    | 0, _ | 1, _ | 2, _ | 3, _ | 4, _ | 5, _ => rfl
  have hstored : (sbfAt x f (k + 2)).stored (byteAt f (k + 2)) = sbfAt x f (k + 3) := by
    rw [hheader k (by omega), stored_holding (by omega), ← hheader (k + 1) (by omega)]
  rw [← hstored]
  refine .header (congrArg Decoder.phase (hheader k (by omega))) hroom fun he => ?_
  rw [hheader k (by omega), holding_n_succ] at he
  have heq : (k + 3) % 2 ^ 16 = 8 := congrArg BitVec.toNat he
  omega

/-- A byte short of the last takes the decoder on. -/
theorem sbfRule_sbfAt (hcfg : cfg.wf) (hw : x.buf.wf) (hf : SbfFrame cfg f) {k : Nat} (hk : k + 1 < f.length) :
    sbfRule cfg (byteAt f k) (sbfAt x f k) = some (sbfAt x f (k + 1), .more) := by
  have hannounced := sbfAnnounced_holding (x := x) hw hf
  have hcap : cfg.sbfBufMax < 65536 := capacity_lt hcfg .sbf
  obtain ⟨-, hmax, h0, h1, -, -⟩ := hf
  have hlen := toNat_ofNat_length (f := f) (by omega)
  have hroom : (sbfAt x f k).n.toNat < cfg.sbfBufMax := holding_room (Nat.lt_of_succ_lt hk) hmax
  refine sbfRule_eq_some.2 ?_
  match k with
  | 0 => exact .started rfl h0
  | 1 => exact .second rfl h1
  | 2 | 3 | 4 | 5 | 6 => exact sbfStep_header (by decide) hroom
  | 7 =>
    have hstored : (sbfAt x f 7).stored (byteAt f 7) = x.holding f 2#2 0#16 8 := stored_holding (by decide)
    have hstep := SbfStep.sized (cfg := cfg) (b := byteAt f 7) rfl hroom (show 7#16 + 1#16 = 8#16 by decide)
      (by rwa [hstored, hannounced, hlen]) (by rwa [hstored, hannounced, hlen])
    rwa [hstored, hannounced] at hstep
  | k + 8 =>
    have hstored : (sbfAt x f (k + 8)).stored (byteAt f (k + 8)) = sbfAt x f (k + 9) := stored_holding (by omega)
    rw [← hstored]
    exact .message rfl hroom (holding_more hk (by omega))

/-- The CRC of a stored frame agrees (R227). -/
theorem sbfVerdict_sbfAt (hlen : f.length < 65536) (hw : x.buf.wf) (hf : SbfFrame cfg f) :
    sbfVerdict cfg (sbfAt x f f.length) =
      .ready (BitVec.ofNat 16 f.length) (BitVec.ofNat 16 (pairAt f cfg.sbfLe 4)) := by
  obtain ⟨hmin, -, -, -, -, hcrc⟩ := hf
  have htotal : (sbfAt x f f.length).total = BitVec.ofNat 16 f.length := if_neg (by omega)
  have hbuf : (sbfAt x f f.length).buf = x.buf.load f f.length := rfl
  rw [sbfVerdict, htotal, toNat_ofNat_length hlen, hbuf, Memory.readRange_load_drop hw, Memory.word16_load hw _ (by omega),
    ← hcrc, BitVec.ofNat_toNat, BitVec.setWidth_eq, if_pos rfl, Memory.word16_load hw _ (by omega)]

/-- The last byte completes the frame, which may be its header alone (R225, R226). -/
theorem sbfRule_sbfAt_last (hcfg : cfg.wf) (hw : x.buf.wf) (hf : SbfFrame cfg f) {k : Nat} (hk : f.length = k + 1) :
    sbfRule cfg (byteAt f k) (sbfAt x f k) = some ((sbfAt x f f.length).resync,
      .ready (BitVec.ofNat 16 f.length) (BitVec.ofNat 16 (pairAt f cfg.sbfLe 4))) := by
  have hannounced := sbfAnnounced_holding (x := x) hw hf
  have hcap : cfg.sbfBufMax < 65536 := capacity_lt hcfg .sbf
  obtain ⟨hmin, hmax, -⟩ := id hf
  have hlen := toNat_ofNat_length (f := f) (by omega)
  have hroom : (sbfAt x f k).n.toNat < cfg.sbfBufMax := holding_room (by omega) hmax
  refine sbfRule_eq_some.2 ?_
  rw [← sbfVerdict_sbfAt (by omega) hw hf, hk]
  obtain rfl | ⟨j, rfl⟩ : k = 7 ∨ ∃ j, k = j + 8 := by
    rcases Nat.lt_or_ge k 8 with h | h
    · exact .inl (by omega)
    · exact .inr ⟨k - 8, by omega⟩
  · have hstored : (sbfAt x f 7).stored (byteAt f 7) = x.holding f 2#2 0#16 8 := stored_holding (by decide)
    have hstep := SbfStep.headerOnly (cfg := cfg) (b := byteAt f 7) rfl hroom (show 7#16 + 1#16 = 8#16 by decide)
      (by rw [hstored, hannounced, hlen, hk]) (hmin.trans hmax)
    rwa [hstored, hannounced] at hstep
  · have hstored : (sbfAt x f (j + 8)).stored (byteAt f (j + 8)) = sbfAt x f (j + 9) := stored_holding (by omega)
    rw [← hstored]
    exact .last rfl hroom (holding_done hk) (by show 4 ≤ (BitVec.ofNat 16 f.length).toNat; omega) (hlen.trans_le hmax)

end

/-- Settles O43: the decoder goes through the registers of `sbfAt`, and the last byte completes the frame. -/
theorem validSbfFramesAreDelivered : Obligations.ValidSbfFramesAreDelivered := by
  intro s f hs hfault hphase hf
  obtain ⟨h0, -, -, hw, -⟩ := hs.sbfCommon
  have hw' : s.sbf.release.buf.wf := hw
  have hcap : s.cfg.sbfBufMax < 65536 := capacity_lt hs.cfg .sbf
  obtain ⟨hmin, hmax, -⟩ := id hf
  obtain ⟨k, hk⟩ : ∃ k, f.length = k + 1 := ⟨f.length - 1, by omega⟩
  have hexec := execAll_feed_of_steps (d := .sbf) (rule := sbfRule s.cfg) (prog := sbfAt s.sbf.release f) hfault
    (fun _ => rfl) (fun _ => rfl) (release_eq_holding h0 hphase) (fun _ => sbfRule_sbfAt hs.cfg hw' hf) hk
    (sbfRule_sbfAt_last hs.cfg hw' hf hk)
  refine ⟨s.sbf.buf.load f f.length, Memory.bytes_load hw f, fun a ha => Memory.read_load_of_ge hw ha, ?_⟩
  rw [hexec, sbfAt, resync_holding h0 hphase, frameReady_eq (pairAt_lt _ _ _) (by omega)]
  rfl

end Sys2Proof.Machine
end

section
/-! PROOFS. The Hamming word and its bits: a decoded encoded word is its data (R138 to R141), and the accumulator while the
30 bits of a word are shifted in (R93, R174, R175). -/

namespace Sys2Proof.Machine

/-! ### An encoded word -/

/-- The 32 bits of an encoded word before the inversion: two previous bits, data, parity (R141). -/
def plainWord (d : BitVec 24) (q : BitVec 2) : BitVec 32 := q ++ d ++ hamParity (q ++ d ++ 0#6)

/-- The parity does not depend on the six bits it fills (R138). -/
theorem hamParity_of_parity_bits (p : BitVec 6) : hamParity (0#26 ++ p) = 0#6 := by
  revert p
  decide +kernel

theorem hamParity_append (x : BitVec 26) (p : BitVec 6) : hamParity (x ++ p) = hamParity (x ++ 0#6) := by
  have hsplit : (x ++ p : BitVec 32) = (x ++ 0#6) ^^^ (0#26 ++ p) := by
    rw [BitVec.xor_append, BitVec.xor_zero, BitVec.zero_xor]
  rw [hsplit, hamParity_xor, hamParity_of_parity_bits, BitVec.xor_zero]

theorem or_parity_eq (x : BitVec 26) (p : BitVec 6) : (x ++ 0#6 : BitVec 32) ||| p.setWidth 32 = x ++ p := by
  have hp : p.setWidth 32 = 0#26 ++ p := by revert p; decide
  rw [hp, BitVec.or_append, BitVec.or_zero, BitVec.zero_or]

/-- The mask leaves the two previous bits alone (R139, R141). -/
theorem mask_upper_eq_zero {cfg : Config} (h : cfg.wf) : cfg.r2InvMask.extractLsb' 30 2 = 0#2 := by
  obtain ⟨-, -, -, hmask, -⟩ := h
  have hand := congrArg (BitVec.extractLsb' 30 2) hmask
  rw [BitVec.extractLsb'_and] at hand
  exact BitVec.and_allOnes.symm.trans hand

/-- An encoded word after its two previous bits, as the decoder sees it (R141). -/
theorem append_hamEncode {cfg : Config} (h : cfg.wf) (d : BitVec 24) (q : BitVec 2) :
    q ++ hamEncode cfg d q = if q.getLsbD 0 then plainWord d q ^^^ cfg.r2InvMask else plainWord d q := by
  have hplain : (q ++ d ++ 0#6 : BitVec 32) ||| (hamParity (q ++ d ++ 0#6)).setWidth 32 = plainWord d q := or_parity_eq _ _
  have htop : (plainWord d q).extractLsb' 30 2 = q := by
    rw [plainWord, BitVec.extractLsb'_append_eq_of_le (by decide), BitVec.extractLsb'_append_eq_of_le (by decide)]
    exact BitVec.extractLsb'_eq_self
  have hjoin : ∀ v : BitVec 32, v.extractLsb' 30 2 = q → q ++ v.extractLsb' 0 30 = v := by
    rintro v rfl
    exact (BitVec.extractLsb'_append_extractLsb'_eq_extractLsb' (by decide)).trans BitVec.extractLsb'_eq_self
  simp only [hamEncode, hplain]
  split
  · refine hjoin _ ?_
    rw [BitVec.extractLsb'_xor, htop, mask_upper_eq_zero h, BitVec.xor_zero]
  · exact hjoin _ htop

theorem plainWord_parity (d : BitVec 24) (q : BitVec 2) :
    hamParity (plainWord d q) = (plainWord d q).extractLsb' 0 6 := by
  rw [plainWord, hamParity_append]
  exact BitVec.extractLsb'_append_eq_right.symm

theorem plainWord_data (d : BitVec 24) (q : BitVec 2) : (plainWord d q).extractLsb' 6 24 = d := by
  rw [plainWord, BitVec.extractLsb'_append_eq_of_le (by decide)]
  exact BitVec.extractLsb'_append_eq_right

/-- The inversion control bit is the last of the two previous bits (R139, R141). -/
theorem getLsbD_append_30 (q : BitVec 2) (h : BitVec 30) : (q ++ h).getLsbD r2InvBit = q.getLsbD 0 := by
  rw [BitVec.getLsbD_append]
  rfl

/-- Decoding an encoded word gives its data (R139, R141). -/
theorem hamDecode_hamEncode {cfg : Config} (h : cfg.wf) (d : BitVec 24) (q : BitVec 2) :
    hamDecode cfg (q ++ hamEncode cfg d q) = some d := by
  have huninvert : hamUninvert cfg (q ++ hamEncode cfg d q) = plainWord d q := by
    unfold hamUninvert
    rw [getLsbD_append_30, append_hamEncode h]
    cases q.getLsbD 0 with
    | false => rfl
    | true =>
      simp only [if_true]
      rw [BitVec.xor_assoc, BitVec.xor_self, BitVec.xor_zero]
  simp only [hamDecode, huninvert, plainWord_data, if_pos (plainWord_parity d q)]

/-! ### The preamble in the accumulator (R175) -/

/-- The first byte of an encoded word, after a previous bit 1 inverted. -/
theorem hamEncode_first_byte {cfg : Config} (h : cfg.wf) {d : BitVec 24} {q : BitVec 2} (hd : d.extractLsb' 16 8 = 0x66#8)
    (hmask : q.getLsbD 0 = true → cfg.r2InvMask.extractLsb' 22 8 = 0xFF#8) :
    (hamEncode cfg d q).extractLsb' 22 8 = if q.getLsbD 0 then 0x99#8 else 0x66#8 := by
  have hplain : (plainWord d q).extractLsb' 22 8 = 0x66#8 := by
    rw [plainWord, BitVec.extractLsb'_append_eq_of_le (by decide), BitVec.extractLsb'_append_eq_of_add_le (by decide)]
    exact hd
  have hword := congrArg (BitVec.extractLsb' 22 8) (append_hamEncode h d q)
  rw [BitVec.extractLsb'_append_eq_of_add_le (by decide)] at hword
  rw [hword]
  cases hq : q.getLsbD 0 with
  | false => exact hplain
  | true =>
    simp only [if_true]
    rw [BitVec.extractLsb'_xor, hplain, hmask hq]
    rfl

/-- The accumulator after `j` of the 30 bits of a word, sent while it held `w` (R174). -/
def window (w : BitVec 32) (h : BitVec 30) (j : Nat) : BitVec 32 := (w ++ h).extractLsb' (30 - j) 32

section
variable (w : BitVec 32) (h : BitVec 30)

theorem window_zero : window w h 0 = w := BitVec.extractLsb'_append_eq_left

theorem r2Shift_window {j : Nat} (hj : j < 30) : r2Shift (window w h j) (h.getMsbD j) = window w h (j + 1) := by
  ext i hi
  rw [← BitVec.getLsbD_eq_getElem, ← BitVec.getLsbD_eq_getElem, getLsbD_r2Shift _ _ _ hi]
  unfold window
  rw [BitVec.getLsbD_extractLsb', BitVec.getLsbD_extractLsb']
  simp only [hi, decide_true, Bool.true_and]
  by_cases h0 : i = 0
  · subst h0
    rw [if_pos rfl, BitVec.getLsbD_append, if_pos (by omega), BitVec.getMsbD_eq_getLsbD]
    simp [hj, show 30 - (j + 1) = 29 - j by omega]
  · rw [if_neg h0]
    simp only [show i - 1 < 32 by omega, decide_true, Bool.true_and]
    congr 1
    omega

/-- After a whole word: the last two bits before it, and the word. -/
theorem window_all {q : BitVec 2} (hq : w.extractLsb' 0 2 = q) : window w h 30 = q ++ h := by
  subst hq
  ext i hi
  unfold window
  rw [← BitVec.getLsbD_eq_getElem, ← BitVec.getLsbD_eq_getElem, BitVec.getLsbD_extractLsb', BitVec.getLsbD_append,
    BitVec.getLsbD_append]
  simp [hi, show i - 30 < 2 by omega]

end

/-- The accumulator's last bits do not matter to the preamble test (R175). -/
theorem r2PreambleMatches_eq (w : BitVec 32) :
    r2PreambleMatches w =
      ((if (w.extractLsb' 22 10).getLsbD 8 then (w.extractLsb' 22 10).setWidth 8 ^^^ 0xFF#8
        else (w.extractLsb' 22 10).setWidth 8) == r2Preamble) := by
  have hinv : (w.extractLsb' 22 10).getLsbD 8 = w.getLsbD r2InvBit := BitVec.getLsbD_extractLsb' 22 10 w 8
  have htop : (w.extractLsb' 22 10).setWidth 8 = w.extractLsb' 22 8 := by
    ext i hi
    simp
    omega
  rw [hinv, htop]
  rfl

/-- The first ten bits of a frame's stream, its two previous bits included. -/
def frameStart (q : BitVec 2) : BitVec 10 := q ++ (if q.getLsbD 0 then 0x99#8 else 0x66#8)

/-- Among the first 30 places of a frame's stream the preamble test passes at the 30th, and two places early after the
previous bits 01 (R175). -/
theorem preamble_places : ∀ (q : BitVec 2) (i : Fin 30),
    ((if (frameStart q >>> i.val).getLsbD 8 then (frameStart q >>> i.val).setWidth 8 ^^^ 0xFF#8
        else (frameStart q >>> i.val).setWidth 8) == r2Preamble) = decide (i = 0 ∨ q = 1#2 ∧ i = 2) := by
  decide

/-- The top of the accumulator while the first word of a frame is shifted in. -/
theorem window_top {q : BitVec 2} {h : BitVec 30} (hh : h.extractLsb' 22 8 = if q.getLsbD 0 then 0x99#8 else 0x66#8)
    {j : Nat} (hj : j ≤ 30) : (window (q.setWidth 32) h j).extractLsb' 22 10 = frameStart q >>> (30 - j) := by
  rw [frameStart, ← hh]
  ext i hi
  rw [← BitVec.getLsbD_eq_getElem, ← BitVec.getLsbD_eq_getElem, BitVec.getLsbD_ushiftRight, BitVec.getLsbD_append,
    window, BitVec.getLsbD_extractLsb', BitVec.getLsbD_extractLsb', BitVec.getLsbD_append]
  simp only [hi, show 22 + i < 32 by omega, decide_true, Bool.true_and]
  by_cases hlow : 30 - j + i < 8
  · rw [if_pos hlow, if_pos (by omega), BitVec.getLsbD_extractLsb']
    simp only [hlow, decide_true, Bool.true_and]
    congr 1
    omega
  · rw [if_neg hlow, if_neg (by omega), BitVec.getLsbD_setWidth]
    rw [show 30 - j + (22 + i) - 30 = 30 - j + i - 8 by omega]
    simp only [show 30 - j + i - 8 < 32 by omega, decide_true, Bool.true_and]

end Sys2Proof.Machine
end

section
/-! PROOFS. The data words of a valid RTCM v2 frame, encoded and fed to a searching decoder, are delivered: the run over the
bits of each word (R174 to R180), and the run over the bytes. -/

namespace Sys2Proof.Machine

/-! ### Runs over bits -/

section
variable {cfg : Config}

theorem r2OnBits_append (bits bits' : List Bool) (r : R2Run) :
    r2OnBits cfg (bits ++ bits') r = (r2OnBits cfg bits r).bind (r2OnBits cfg bits') := by
  induction bits generalizing r with
  | nil => rfl
  | cons bit bits ih =>
    simp only [List.cons_append, r2OnBits]
    cases r2OnBit cfg bit r with
    | none => rfl
    | some m => exact ih m

theorem r2OnBits_singleton (bit : Bool) (r : R2Run) : r2OnBits cfg [bit] r = r2OnBit cfg bit r := by
  simp only [r2OnBits]
  cases r2OnBit cfg bit r <;> rfl

theorem r2OnBits_append_eq_some {bits bits' : List Bool} {r r' : R2Run}
    (h : r2OnBits cfg (bits ++ bits') r = some r') :
    ∃ m, r2OnBits cfg bits r = some m ∧ r2OnBits cfg bits' m = some r' := by
  rw [r2OnBits_append] at h
  exact Option.bind_eq_some_iff.1 h

/-- Numbered bits that take the registers through `prog 0`, `prog 1` and so on. -/
theorem r2OnBits_range {bit : Nat → Bool} {prog : Nat → R2Run} {k : Nat}
    (h : ∀ j, j < k → r2OnBit cfg (bit j) (prog j) = some (prog (j + 1))) :
    r2OnBits cfg ((List.range k).map bit) (prog 0) = some (prog k) := by
  induction k with
  | zero => rfl
  | succ k ih =>
    rw [List.range_succ, List.map_append, r2OnBits_append, ih fun j hj => h j (by omega)]
    exact (r2OnBits_singleton _ _).trans (h k (Nat.lt_succ_self k))

/-- An outcome stays: none at the end means none before. -/
theorem R2Effect.more {r r' : R2Run} (h : R2Effect cfg r r') (hmore : r'.out = .more) : r.out = .more := by
  cases h with
  | shifted | synced | word => exact hmore
  | rejected | complete => cases hmore

theorem r2OnBit_more {bit : Bool} {r r' : R2Run} (h : r2OnBit cfg bit r = some r') (hmore : r'.out = .more) :
    r.out = .more := by
  rcases r2OnBit_cases cfg bit r with ⟨w, nbit, hbit, -, -⟩ | ⟨m, hbit, heff, -⟩ | ⟨hbit, -⟩
  · cases hbit.symm.trans h
    exact hmore
  · cases hbit.symm.trans h
    exact heff.more hmore
  · cases hbit.symm.trans h

theorem r2OnBits_more {bits : List Bool} {r r' : R2Run} (h : r2OnBits cfg bits r = some r') (hmore : r'.out = .more) :
    r.out = .more := by
  induction bits generalizing r with
  | nil => cases h; exact hmore
  | cons bit bits ih =>
    obtain ⟨m, hbit, hbits⟩ := r2OnBits_cons_eq_some h
    exact r2OnBit_more hbit (ih hbits)

/-- The bits take the registers `r` to `r'`, with no outcome before the last of them. -/
def Completes (cfg : Config) (r : R2Run) (bits : List Bool) (r' : R2Run) : Prop :=
  ∃ init last m, bits = init ++ [last] ∧ r2OnBits cfg init r = some m ∧ m.out = .more ∧ r2OnBit cfg last m = some r'

theorem Completes.after {bits bits' : List Bool} {r m r' : R2Run} (hbits : r2OnBits cfg bits r = some m)
    (h : Completes cfg m bits' r') : Completes cfg r (bits ++ bits') r' := by
  obtain ⟨init, last, m', rfl, hinit, hmore, hlast⟩ := h
  refine ⟨bits ++ init, last, m', (List.append_assoc _ _ _).symm, ?_, hmore, hlast⟩
  rw [r2OnBits_append, hbits]
  exact hinit

/-! ### Runs over bytes -/

/-- Bytes whose bits give no outcome (R171). -/
theorem absorbs_of_r2OnBits {bytes : List Byte} {r r' : R2Run} (ha : ∀ b ∈ bytes, r2Accepts b = true)
    (h : r2OnBits cfg (bytes.flatMap (r2PayloadBits cfg)) r = some r') (hmore : r'.out = .more) :
    Absorbs cfg .r2 r bytes r' := by
  induction bytes using List.reverseRecOn generalizing r' with
  | nil => cases h; exact .nil
  | append_singleton bytes b ih =>
    rw [List.flatMap_append] at h
    obtain ⟨m, hm, hb⟩ := r2OnBits_append_eq_some h
    rw [List.flatMap_singleton] at hb
    exact (ih (fun c hc => ha c (by simp [hc])) hm (r2OnBits_more hb hmore)).snoc (ha b (by simp)) hb hmore

/-- Bytes whose last bit gives the outcome, fed to the decoder. -/
theorem execAll_feed_r2 {s : State} {bytes : List Byte} {r : R2Run} (hf : s.fault = false)
    (ha : ∀ b ∈ bytes, r2Accepts b = true)
    (h : Completes s.cfg (s.readRun .r2) (bytes.flatMap (r2PayloadBits s.cfg)) r) :
    execAll (Pseudo.feed .r2 bytes) s = .next (s.putRun .r2 r) := by
  obtain ⟨init, last, m, hbits, hinit, hmore, hlast⟩ := h
  obtain rfl | ⟨bytes, b, rfl⟩ := List.eq_nil_or_concat bytes
  · exact absurd hbits (by simp)
  have hpayload : r2PayloadBits s.cfg b ≠ [] := fun he => by simpa [he] using length_r2PayloadBits s.cfg b
  rw [List.concat_eq_append, List.flatMap_append, List.flatMap_singleton, ← List.dropLast_append_getLast hpayload,
    ← List.append_assoc] at hbits
  obtain ⟨rfl, hend⟩ := List.append_inj' hbits rfl
  obtain ⟨m', hm', hrest⟩ := r2OnBits_append_eq_some hinit
  have habsorbs := absorbs_of_r2OnBits (fun c hc => ha c (by simp [hc])) hm' (r2OnBits_more hrest hmore)
  rw [List.concat_eq_append]
  refine execAll_feed_of_absorbs hf habsorbs (ha b (by simp)) ?_
  change r2OnBits s.cfg (r2PayloadBits s.cfg b) m' = some r
  rw [← List.dropLast_append_getLast hpayload, hend, r2OnBits_append, hrest]
  exact (r2OnBits_singleton _ _).trans hlast

end

/-! ### The data bytes of a frame -/

theorem length_r2DataBytes (words : List (BitVec 24)) : (r2DataBytes words).length = 3 * words.length := by
  induction words with
  | nil => rfl
  | cons d words ih =>
    rw [r2DataBytes, List.flatMap_cons, List.length_append, ← r2DataBytes, ih, List.length_cons]
    simp only [List.length_cons, List.length_nil]
    omega

/-- The three bytes of a word (R94). -/
theorem byteAt_r2DataBytes (before after : List (BitVec 24)) (d : BitVec 24) :
    byteAt (r2DataBytes (before ++ d :: after)) (3 * before.length) = d.extractLsb' 16 8 ∧
      byteAt (r2DataBytes (before ++ d :: after)) (3 * before.length + 1) = d.extractLsb' 8 8 ∧
      byteAt (r2DataBytes (before ++ d :: after)) (3 * before.length + 2) = d.extractLsb' 0 8 := by
  have hsplit : r2DataBytes (before ++ d :: after) = r2DataBytes before ++
      (d.extractLsb' 16 8 :: d.extractLsb' 8 8 :: d.extractLsb' 0 8 :: r2DataBytes after) := by
    simp [r2DataBytes]
  have hlen := length_r2DataBytes before
  simp only [byteAt, hsplit, List.getD_eq_getElem?_getD]
  refine ⟨?_, ?_, ?_⟩ <;> rw [List.getElem?_append_right (by omega)] <;> simp [hlen]

/-- Storing a word stores its three bytes. -/
theorem write3_load {m : Memory} (before after : List (BitVec 24)) (d : BitVec 24) :
    (m.load (r2DataBytes (before ++ d :: after)) (3 * before.length)).write3 (3 * before.length) d =
      m.load (r2DataBytes (before ++ d :: after)) (3 * before.length + 3) := by
  obtain ⟨h0, h1, h2⟩ := byteAt_r2DataBytes before after d
  rw [Memory.write3, ← h0, ← h1, ← h2]
  rfl

/-! ### The bits of one word -/

/-- The bits of an encoded word in the order they are sent, first-received first (R93). -/
def wordBits (h : BitVec 30) : List Bool := (List.range 30).map h.getMsbD

theorem wordBits_eq (h : BitVec 30) : wordBits h = (List.range 29).map h.getMsbD ++ [h.getMsbD 29] := by
  rw [wordBits, List.range_succ, List.map_append]
  rfl

section
variable {cfg : Config} {x : Decoder} {w : BitVec 32} {h : BitVec 30} {q : BitVec 2}

/-- While Synced, the first 29 bits of a word are counted (R176). -/
theorem r2OnBits_count (hp : x.phase ≠ 0#2) :
    r2OnBits cfg ((List.range 29).map h.getMsbD) ⟨x, w, 0#5, .more⟩ = some ⟨x, window w h 29, 29#5, .more⟩ := by
  have hrun := r2OnBits_range (cfg := cfg) (bit := h.getMsbD)
    (prog := fun j => ⟨x, window w h j, BitVec.ofNat 5 j, .more⟩) (k := 29) fun j hj => by
      have hn : (BitVec.ofNat 5 j).toNat = j := Nat.mod_eq_of_lt (by omega)
      rw [r2OnBit_of_count hp (by simp only [hn]; omega), r2Shift_window w h (by omega), ← BitVec.ofNat_add]
  rwa [window_zero] at hrun

/-- The 30th completes the word, after its two previous bits (R177). -/
theorem r2OnBit_count_last (hp : x.phase ≠ 0#2) (hq : w.extractLsb' 0 2 = q) :
    r2OnBit cfg (h.getMsbD 29) ⟨x, window w h 29, 29#5, .more⟩ = r2OnWord cfg ⟨x, q ++ h, 0#5, .more⟩ := by
  rw [r2OnBit_of_word hp (show ¬ (29#5).toNat + 1 < 30 by decide), r2Shift_window w h (by decide), window_all w h hq]

/-- A word that does not end its frame. -/
theorem r2OnBits_word {m : R2Run} (hp : x.phase ≠ 0#2) (hq : w.extractLsb' 0 2 = q)
    (hword : r2OnWord cfg ⟨x, q ++ h, 0#5, .more⟩ = some m) :
    r2OnBits cfg (wordBits h) ⟨x, w, 0#5, .more⟩ = some m := by
  rw [wordBits_eq, r2OnBits_append, r2OnBits_count hp]
  exact (r2OnBits_singleton _ _).trans ((r2OnBit_count_last hp hq).trans hword)

/-- A word that ends its frame. -/
theorem completes_word {m : R2Run} (hp : x.phase ≠ 0#2) (hq : w.extractLsb' 0 2 = q)
    (hword : r2OnWord cfg ⟨x, q ++ h, 0#5, .more⟩ = some m) :
    Completes cfg ⟨x, w, 0#5, .more⟩ (wordBits h) m :=
  ⟨_, _, _, wordBits_eq h, r2OnBits_count hp, rfl, (r2OnBit_count_last hp hq).trans hword⟩

theorem extract_setWidth (q : BitVec 2) : (q.setWidth 32).extractLsb' 0 2 = q := by
  revert q
  decide

/-- In Search, the bits short of the last start no frame: the preamble test fails, but for the one place where the word
is rejected (R175). -/
theorem r2OnBits_search (hp : x.phase = 0#2)
    (hh : h.extractLsb' 22 8 = if q.getLsbD 0 then 0x99#8 else 0x66#8)
    (hearly : q = 1#2 → hamDecode cfg (window (q.setWidth 32) h 28) = none) :
    r2OnBits cfg ((List.range 29).map h.getMsbD) ⟨x, q.setWidth 32, 0#5, .more⟩ =
      some ⟨x, window (q.setWidth 32) h 29, 0#5, .more⟩ := by
  have hrun := r2OnBits_range (cfg := cfg) (bit := h.getMsbD)
    (prog := fun j => ⟨x, window (q.setWidth 32) h j, 0#5, .more⟩) (k := 29) fun j hj => by
      rw [r2OnBit_of_search hp, r2Shift_window _ h (by omega), r2OnSearch_of_not_found]
      intro hpre
      rw [r2PreambleMatches_eq, window_top hh (by omega), preamble_places q ⟨30 - (j + 1), by omega⟩, decide_eq_true_iff,
        Fin.ext_iff, Fin.ext_iff] at hpre
      obtain hplace | ⟨hq, hplace⟩ := hpre
      · exact absurd hplace (show 30 - (j + 1) ≠ 0 by omega)
      · replace hplace : 30 - (j + 1) = 2 := hplace
        obtain rfl : j = 27 := by omega
        exact hearly hq
  rwa [window_zero] at hrun

/-- The 30th bit shows the preamble, and the word is accepted: the frame has begun (R175). -/
theorem r2OnBits_first_word {d : BitVec 24} (hp : x.phase = 0#2)
    (hh : h.extractLsb' 22 8 = if q.getLsbD 0 then 0x99#8 else 0x66#8)
    (hearly : q = 1#2 → hamDecode cfg (window (q.setWidth 32) h 28) = none)
    (hd : hamDecode cfg (q ++ h) = some d) :
    r2OnBits cfg (wordBits h) ⟨x, q.setWidth 32, 0#5, .more⟩ =
      some ⟨{ x with buf := x.buf.write3 0 d, n := 3#16, phase := 1#2 }, q ++ h, 0#5, .more⟩ := by
  have hq : (q.setWidth 32).extractLsb' 0 2 = q := extract_setWidth q
  have hall := window_all (q.setWidth 32) h hq
  have hpre : r2PreambleMatches (q ++ h) = true := by
    rw [← hall, r2PreambleMatches_eq, window_top hh (by omega)]
    exact (preamble_places q 0).trans (decide_eq_true (.inl rfl))
  rw [wordBits_eq, r2OnBits_append, r2OnBits_search hp hh hearly]
  refine (r2OnBits_singleton _ _).trans ?_
  rw [r2OnBit_of_search hp, r2Shift_window _ h (by decide), hall,
    r2OnSearch_of_found (r := ⟨x, q ++ h, 0#5, .more⟩) hpre hd]

end

/-! ### The words of a frame -/

/-- The RTCM v2 decoder after `i` words of a frame, one at least (R175 to R179). -/
def r2At (x : Decoder) (words : List (BitVec 24)) (i : Nat) : Decoder :=
  x.holding (r2DataBytes words) 1#2 (if i < 2 then 0#16 else BitVec.ofNat 16 (3 * words.length)) (3 * i)

section
variable {cfg : Config} {x : Decoder} {words : List (BitVec 24)}

theorem r2Frame_length_le (hf : R2Frame cfg words) : words.length ≤ 33 := by
  obtain ⟨-, -, hlen⟩ := hf
  omega

/-- The total length the first two words announce (R179). -/
theorem r2TotalOf_load (hcfg : cfg.wf) (hw : x.buf.wf) (hf : R2Frame cfg words) :
    r2TotalOf cfg (x.buf.load (r2DataBytes words) 6) = BitVec.ofNat 16 (3 * words.length) := by
  obtain ⟨-, -, -, -, hshift, -⟩ := hcfg
  obtain ⟨-, -, hlen⟩ := hf
  rw [r2TotalOf, r2LengthField_eq hshift, Memory.read_load_of_lt hw (by decide), ← hlen]
  rfl

/-- A word stored by a decoder that holds `k` bytes (R177, R179). -/
theorem withWord_holding {f : List Byte} {p : BitVec 2} {total : BitVec 16} {k : Nat} {d : BitVec 24} (hk : k + 3 < 65536)
    (hbuf : (x.buf.load f k).write3 k d = x.buf.load f (k + 3)) :
    (x.holding f p total k).withWord cfg d =
      x.holding f p (if k = 3 then r2TotalOf cfg (x.buf.load f 6) else total) (k + 3) := by
  have hn : (x.holding f p total k).n.toNat = k := toNat_holding_n (by omega)
  have hnext : (x.holding f p total k).n + 3#16 = BitVec.ofNat 16 (k + 3) := (BitVec.ofNat_add k 3).symm
  have hbuf' : (x.holding f p total k).buf.write3 k d = x.buf.load f (k + 3) := hbuf
  have hsix : BitVec.ofNat 16 (k + 3) = 6#16 ↔ k = 3 := by
    refine ⟨fun he => ?_, fun he => by rw [he]⟩
    have heq : (k + 3) % 2 ^ 16 = 6 := congrArg BitVec.toNat he
    omega
  simp only [Decoder.withWord, hn, hnext, hbuf', hsix]
  by_cases h3 : k = 3
  · subst h3
    rfl
  · rw [if_neg h3, if_neg h3]
    rfl

/-- A word stored after the first: the second announces the total length (R177, R179). -/
theorem withWord_r2At (hcfg : cfg.wf) (hw : x.buf.wf) (hf : R2Frame cfg words) {before after : List (BitVec 24)}
    {d : BitVec 24} (hwords : words = before ++ d :: after) (hbefore : 1 ≤ before.length) :
    (r2At x words before.length).withWord cfg d = r2At x words (before.length + 1) := by
  have hle := r2Frame_length_le hf
  have htotal := r2TotalOf_load (x := x) hcfg hw hf
  have hlen : words.length = before.length + (after.length + 1) := by simp [hwords]
  have hbuf : (x.buf.load (r2DataBytes words) (3 * before.length)).write3 (3 * before.length) d =
      x.buf.load (r2DataBytes words) (3 * before.length + 3) := by
    rw [hwords]
    exact write3_load before after d
  rw [r2At, withWord_holding (by omega) hbuf, htotal, r2At, Nat.mul_add_one]
  congr 1
  rw [if_neg (show ¬ before.length + 1 < 2 by omega)]
  by_cases hone : before.length = 1
  · rw [if_pos (by omega)]
  · rw [if_neg (by omega), if_neg (by omega)]

theorem toNat_r2At_n {i : Nat} (hi : i ≤ 33) : (r2At x words i).n.toNat = 3 * i := toNat_holding_n (by omega)

theorem r2At_total {i : Nat} (hi : 2 ≤ i) : (r2At x words i).total = BitVec.ofNat 16 (3 * words.length) :=
  if_neg (by omega)

/-- The frame is complete exactly with its last word (R180). -/
theorem r2At_n_lt_total_iff (hle : words.length ≤ 33) {i : Nat} (hi : 2 ≤ i) (hi' : i ≤ 33) :
    (r2At x words i).n < (r2At x words i).total ↔ i < words.length := by
  have htotal : (BitVec.ofNat 16 (3 * words.length)).toNat = 3 * words.length := Nat.mod_eq_of_lt (by omega)
  rw [BitVec.lt_def, toNat_r2At_n hi', r2At_total hi, htotal]
  omega

/-- A word accepted while Synced (R177). -/
theorem r2OnWord_r2At (hcfg : cfg.wf) (hw : x.buf.wf) (hf : R2Frame cfg words) {before after : List (BitVec 24)}
    {d : BitVec 24} {v : BitVec 32} (hwords : words = before ++ d :: after) (hbefore : 1 ≤ before.length)
    (hd : hamDecode cfg v = some d) :
    r2OnWord cfg ⟨r2At x words before.length, v, 0#5, .more⟩ =
      some (if before.length + 1 < words.length then ⟨r2At x words (before.length + 1), v, 0#5, .more⟩
        else ⟨(r2At x words words.length).resync, v &&& 3#32, 0#5, .ready (BitVec.ofNat 16 (3 * words.length))
          (BitVec.ofNat 16 ((byteAt (r2DataBytes words) 1).toNat / 4))⟩) := by
  have hle := r2Frame_length_le hf
  have hlen : words.length = before.length + (after.length + 1) := by simp [hwords]
  have hroom : (r2At x words before.length).n.toNat + 3 ≤ r2BufMax := by
    rw [toNat_r2At_n (by omega)]
    show 3 * before.length + 3 ≤ 99
    omega
  rw [r2OnWord_of_accepted (r := ⟨r2At x words before.length, v, 0#5, .more⟩) hd hroom,
    withWord_r2At hcfg hw hf hwords hbefore]
  simp only [r2At_n_lt_total_iff hle (show 2 ≤ before.length + 1 by omega) (by omega)]
  by_cases hlast : before.length + 1 < words.length
  · rw [if_pos hlast, if_pos hlast]
  · obtain hend : before.length + 1 = words.length := by omega
    have hbuf : (r2At x words words.length).buf = x.buf.load (r2DataBytes words) (3 * words.length) := rfl
    rw [if_neg hlast, if_neg hlast, hend, r2At_total (by omega), hbuf, Memory.getU_8_6,
      Memory.read_load_of_lt hw (by omega)]
    rfl

/-- The last two bits of a stream (R93). -/
def lastTwo (bits : List Bool) : BitVec 32 :=
  BitVec.ofNat 32 (2 * (bits.getD (bits.length - 2) false).toNat + (bits.getD (bits.length - 1) false).toNat)

theorem lastTwo_append (bits bits' : List Bool) (h : 2 ≤ bits'.length) : lastTwo (bits ++ bits') = lastTwo bits' := by
  have hget : ∀ k, 1 ≤ k → k ≤ 2 →
      (bits ++ bits').getD ((bits ++ bits').length - k) false = bits'.getD (bits'.length - k) false := fun k h1 h2 => by
    rw [List.getD_eq_getElem?_getD, List.getD_eq_getElem?_getD, List.length_append,
      List.getElem?_append_right (by omega), show bits.length + bits'.length - k - bits.length = bits'.length - k by omega]
  rw [lastTwo, hget 2 (by decide) (by decide), hget 1 (by decide) (by decide), lastTwo]

/-- The two bits an outcome keeps in the accumulator (R181). -/
theorem and_three_eq (v : BitVec 32) :
    v &&& 3#32 = BitVec.ofNat 32 (2 * (v.getLsbD 1).toNat + (v.getLsbD 0).toNat) := by
  have hsplit : v = v.extractLsb' 2 30 ++ v.extractLsb' 0 2 := by
    rw [BitVec.extractLsb'_append_extractLsb'_eq_extractLsb' (by decide), BitVec.extractLsb'_eq_self]
  have hvalue : ∀ u : BitVec 2, 0#30 ++ u = BitVec.ofNat 32 (2 * (u.getLsbD 1).toNat + (u.getLsbD 0).toNat) := by decide
  have hbit : ∀ i, i < 2 → (v.extractLsb' 0 2).getLsbD i = v.getLsbD i := fun i hi => by simp [hi]
  have hand : v &&& 3#32 = 0#30 ++ v.extractLsb' 0 2 := by
    conv_lhs => rw [hsplit, show 3#32 = 0#30 ++ 3#2 by decide, BitVec.and_append]
    congr 1
    · exact BitVec.and_zero
    · exact BitVec.and_allOnes
  rw [hand, hvalue, hbit 1 (by decide), hbit 0 (by decide)]

theorem lastTwo_wordBits (q : BitVec 2) (h : BitVec 30) : lastTwo (wordBits h) = (q ++ h) &&& 3#32 := by
  have hbit : ∀ i, i < 30 → (q ++ h).getLsbD i = h.getLsbD i := fun i hi => by
    rw [BitVec.getLsbD_append, if_pos hi]
  rw [and_three_eq, hbit 1 (by decide), hbit 0 (by decide)]
  rfl

theorem r2Stream_cons (cfg : Config) (q : BitVec 2) (d : BitVec 24) (ds : List (BitVec 24)) :
    r2Stream cfg q (d :: ds) =
      wordBits (hamEncode cfg d q) ++ r2Stream cfg ((hamEncode cfg d q).extractLsb' 0 2) ds := rfl

theorem length_r2Stream (cfg : Config) (q : BitVec 2) (ds : List (BitVec 24)) :
    (r2Stream cfg q ds).length = 30 * ds.length := by
  induction ds generalizing q with
  | nil => rfl
  | cons d ds ih =>
    rw [r2Stream_cons, List.length_append, ih, wordBits, List.length_map, List.length_range, List.length_cons]
    omega

/-- The words after the first complete the frame (R177 to R181). -/
theorem completes_rest (hcfg : cfg.wf) (hw : x.buf.wf) (hf : R2Frame cfg words) {before after : List (BitVec 24)}
    {q : BitVec 2} {w : BitVec 32} (hwords : words = before ++ after) (hbefore : 1 ≤ before.length) (hafter : after ≠ [])
    (hq : w.extractLsb' 0 2 = q) :
    Completes cfg ⟨r2At x words before.length, w, 0#5, .more⟩ (r2Stream cfg q after)
      ⟨(r2At x words words.length).resync, lastTwo (r2Stream cfg q after), 0#5,
        .ready (BitVec.ofNat 16 (3 * words.length)) (BitVec.ofNat 16 ((byteAt (r2DataBytes words) 1).toNat / 4))⟩ := by
  induction after generalizing before q w with
  | nil => exact absurd rfl hafter
  | cons d after ih =>
    have hlen : words.length = before.length + (after.length + 1) := by simp [hwords]
    have hphase : (r2At x words before.length).phase ≠ 0#2 := phase_one_ne_zero
    have hword := r2OnWord_r2At hcfg hw hf hwords hbefore (hamDecode_hamEncode hcfg d q)
    rw [r2Stream_cons]
    cases after with
    | nil =>
      rw [if_neg (by simp [hlen]), ← lastTwo_wordBits] at hword
      simpa only [r2Stream, List.append_nil] using completes_word hphase hq hword
    | cons d' after =>
      rw [if_pos (by simp [hlen])] at hword
      have hrest := ih (before := before ++ [d]) (q := (hamEncode cfg d q).extractLsb' 0 2)
        (w := q ++ hamEncode cfg d q) (by simp [hwords]) (by simp) (by simp)
        (BitVec.extractLsb'_append_eq_of_add_le (by decide))
      rw [List.length_append] at hrest
      rw [lastTwo_append _ _ (by rw [length_r2Stream, List.length_cons]; omega)]
      exact hrest.after (r2OnBits_word hphase hq hword)

end

end Sys2Proof.Machine
end

section
/-! PROOFS. The RTCM v2 frame as a whole: its first word, found by the preamble, the words after it, and the bytes that carry
the bits (R175 to R181). -/

namespace Sys2Proof.Machine

/-- The accumulator two bits before the end of a frame's first word. -/
theorem window_28 (q : BitVec 2) (h : BitVec 30) :
    window (q.setWidth 32) h 28 = (q.setWidth 32 <<< 28) ||| (h.setWidth 32 >>> 2) := by
  ext i hi
  rw [window, ← BitVec.getLsbD_eq_getElem, ← BitVec.getLsbD_eq_getElem, BitVec.getLsbD_extractLsb', BitVec.getLsbD_append,
    BitVec.getLsbD_or, BitVec.getLsbD_shiftLeft, BitVec.getLsbD_ushiftRight, BitVec.getLsbD_setWidth,
    BitVec.getLsbD_setWidth, BitVec.getLsbD_setWidth]
  by_cases hlow : i < 28
  · simp [hi, hlow, show 2 + i < 30 by omega, show 2 + i < 32 by omega]
  · have hout : h.getLsbD (2 + i) = false := BitVec.getLsbD_of_ge _ _ (by omega)
    simp [hi, hlow, hout, show ¬ 2 + i < 30 by omega, show 2 + i - 30 = i - 28 by omega]

section
variable {cfg : Config} {x : Decoder} {words : List (BitVec 24)} {q : BitVec 2}

/-- The first word of a frame, stored (R175). -/
theorem r2At_one (ht : x.total = 0#16) (d : BitVec 24) (rest : List (BitVec 24)) :
    { x with buf := x.buf.write3 0 d, n := 3#16, phase := 1#2 } = r2At x (d :: rest) 1 := by
  have hbuf : x.buf.write3 0 d = x.buf.load (r2DataBytes (d :: rest)) 3 := write3_load [] rest d
  rw [r2At, Decoder.holding, hbuf, if_pos (by decide), ← ht]

/-- The stream of a frame takes a searching decoder to the end of the frame (R175 to R181). -/
theorem completes_frame (hcfg : cfg.wf) (hw : x.buf.wf) (hp : x.phase = 0#2) (ht : x.total = 0#16)
    (hf : R2Frame cfg words) (hmask : q.getLsbD 0 = true → cfg.r2InvMask.extractLsb' 22 8 = 0xFF#8)
    (hearly : q = 1#2 → hamDecode cfg
      ((q.setWidth 32 <<< 28) ||| ((hamEncode cfg (words.headD 0#24) q).setWidth 32 >>> 2)) = none) :
    Completes cfg ⟨x, q.setWidth 32, 0#5, .more⟩ (r2Stream cfg q words)
      ⟨(r2At x words words.length).resync, lastTwo (r2Stream cfg q words), 0#5,
        .ready (BitVec.ofNat 16 (3 * words.length)) (BitVec.ofNat 16 ((byteAt (r2DataBytes words) 1).toNat / 4))⟩ := by
  obtain ⟨hpreamble, hlen, -⟩ := id hf
  obtain - | ⟨d, - | ⟨d', rest⟩⟩ := words
  · exact absurd hlen (by decide : ¬ 2 ≤ 0)
  · exact absurd hlen (by decide : ¬ 2 ≤ 1)
  · rw [← window_28] at hearly
    have hfirst := r2OnBits_first_word (x := x) hp
      (hamEncode_first_byte hcfg ((byteAt_r2DataBytes [] (d' :: rest) d).1.symm.trans hpreamble) hmask) hearly
      (hamDecode_hamEncode hcfg d q)
    rw [r2At_one ht d (d' :: rest)] at hfirst
    rw [r2Stream_cons, lastTwo_append _ _ (by rw [length_r2Stream, List.length_cons]; omega)]
    exact (completes_rest (before := [d]) hcfg hw hf rfl (Nat.le_refl 1) (List.cons_ne_nil _ _)
      (BitVec.extractLsb'_append_eq_of_add_le (by decide))).after hfirst

end

/-- The bytes R171 accepts, as numbers. -/
theorem r2Accepts_of_div {b : Byte} (h : b.toNat / 64 = 1) : r2Accepts b = true := by
  refine beq_iff_eq.2 (BitVec.eq_of_toNat_eq ?_)
  rw [BitVec.extractLsb'_toNat, Nat.shiftRight_eq_div_pow]
  exact congrArg (· % 4) h

/-- Settles O44: the bits of the bytes take the decoder word by word through the registers of `r2At`, and the last one
completes the frame. -/
theorem validRtcmV2FramesAreDelivered : Obligations.ValidRtcmV2FramesAreDelivered := by
  intro s q words bytes hs hfault hphase hwindow hf hmask hearly haccepts hstream
  obtain ⟨h0, -, -, hw, -⟩ := hs.r2Common
  obtain ⟨-, -, hsearch, -⟩ := hs.r2
  obtain ⟨hnbit, htotal⟩ := hsearch hphase
  have hle := r2Frame_length_le hf
  have hlen := length_r2DataBytes words
  have hbits := completes_frame (x := s.r2.release) hs.cfg hw hphase htotal hf hmask hearly
  have hstart : s.readRun .r2 = ⟨s.r2.release, q.setWidth 32, 0#5, .more⟩ := by
    rw [State.readRun, hwindow, hnbit]
    rfl
  rw [← hstream, ← hstart] at hbits
  have hexec := execAll_feed_r2 hfault (fun b hb => r2Accepts_of_div (haccepts b hb)) hbits
  have hbytes := Memory.bytes_load hw (r2DataBytes words)
  rw [hlen] at hbytes
  have hid : (byteAt (r2DataBytes words) 1).toNat / 4 < 65536 := by
    have := (byteAt (r2DataBytes words) 1).isLt
    omega
  refine ⟨s.r2.buf.load (r2DataBytes words) (3 * words.length), hbytes, fun a ha => Memory.read_load_of_ge hw ha, ?_⟩
  rw [hexec, ← frameReady_eq hid (by omega), hstream, lastTwo, length_r2Stream]
  have hresync := resync_holding (f := r2DataBytes words) (p := 1#2)
    (total := if words.length < 2 then 0#16 else BitVec.ofNat 16 (3 * words.length)) (k := 3 * words.length)
    (flen := BitVec.ofNat 16 (3 * words.length))
    (fid := BitVec.ofNat 16 ((byteAt (r2DataBytes words) 1).toNat / 4)) h0 hphase
  rw [State.putRun, r2At, ← hresync, ← hnbit]
  rfl

end Sys2Proof.Machine
end

section
/-! PROOFS. The bit fields: the sum of R111 is the extracted field, what a put leaves of every field and byte (R115), and that
a buffer is its bytes. -/

namespace Sys2Proof.Machine

/-! ### The extracted field -/

/-- A field one bit longer is the shorter field and its last bit. -/
theorem Memory.fieldSum_succ (m : Memory) (ofs w : Nat) :
    m.fieldSum ofs (w + 1) = 2 * m.fieldSum ofs w + (m.bit (ofs + w)).toNat := by
  have hlast : w + 1 - 1 - w = 0 := by omega
  rw [Memory.fieldSum, Finset.sum_range_succ, hlast, pow_zero, mul_one, Memory.fieldSum, Finset.mul_sum]
  refine congrArg (· + _) (Finset.sum_congr rfl fun i hi => ?_)
  have hpow : w + 1 - 1 - i = w - 1 - i + 1 := by
    have := Finset.mem_range.1 hi
    omega
  rw [hpow, pow_succ', mul_left_comm]

/-- The model's extraction gives the sum of R111. -/
theorem Memory.fieldSum_eq_getU (m : Memory) (ofs w : Nat) : m.fieldSum ofs w = m.getU ofs w := by
  induction w with
  | zero => rfl
  | succ w ih => rw [Memory.fieldSum_succ, ih, Memory.getU]

theorem Memory.getU_one (m : Memory) (k : Nat) : m.getU k 1 = (m.bit k).toNat := by
  simp [Memory.getU]

/-- A field is its first bit and the remaining ones (R113, R114). -/
theorem Memory.getU_first_bit (m : Memory) (ofs : Nat) {w : Nat} (hw : 1 ≤ w) :
    m.getU ofs w = (m.bit ofs).toNat * 2 ^ (w - 1) + m.getU (ofs + 1) (w - 1) := by
  obtain ⟨v, rfl⟩ := Nat.exists_eq_add_of_le hw
  rw [Memory.getU_add, Memory.getU_one, Nat.add_sub_cancel_left]

theorem Memory.testBit_getU_first (m : Memory) (ofs : Nat) {w : Nat} (hw : 1 ≤ w) :
    (m.getU ofs w).testBit (w - 1) = m.bit ofs := by
  have hlt : w - 1 < w := by omega
  have hfirst : ofs + w - 1 - (w - 1) = ofs := by omega
  rw [Memory.testBit_getU, hfirst, decide_eq_true hlt, Bool.true_and]

/-- The remaining bits of a field are its value below its first bit's weight. -/
theorem Memory.getU_mod_first (m : Memory) (ofs : Nat) {w : Nat} (hw : 1 ≤ w) :
    m.getU ofs w % 2 ^ (w - 1) = m.getU (ofs + 1) (w - 1) := by
  rw [m.getU_first_bit ofs hw, Nat.mul_add_mod', Nat.mod_eq_of_lt (m.getU_lt (ofs + 1) (w - 1))]

/-! ### The put field -/

/-- A field just put reads back, in its width (R115, R119). -/
theorem Memory.getU_putU_self {m : Memory} (h : m.wf) (ofs w u : Nat) : (m.putU ofs w u).getU ofs w = u % 2 ^ w := by
  apply Nat.eq_of_testBit_eq
  intro i
  rw [Memory.testBit_getU, Nat.testBit_mod_two_pow]
  by_cases hi : i < w
  · have hin : ofs ≤ ofs + w - 1 - i ∧ ofs + w - 1 - i < ofs + w := by omega
    have hbit : ofs + w - 1 - (ofs + w - 1 - i) = i := by omega
    rw [Memory.bit_putU h, if_pos hin, hbit]
  · simp [hi]

/-- A put leaves every bit outside its field (R115). -/
theorem Memory.bit_putU_outside {m : Memory} (h : m.wf) {ofs w k : Nat} (u : Nat) (hk : k < ofs ∨ ofs + w ≤ k) :
    (m.putU ofs w u).bit k = m.bit k := by
  rw [Memory.bit_putU h, if_neg (by omega)]

/-- A put leaves every field outside its own (R119). -/
theorem Memory.getU_putU_disjoint {m : Memory} (h : m.wf) {ofs w ofs' w' : Nat} (u : Nat)
    (hdisj : ofs' + w' ≤ ofs ∨ ofs + w ≤ ofs') : (m.putU ofs w u).getU ofs' w' = m.getU ofs' w' :=
  Memory.getU_congr fun k h1 h2 => Memory.bit_putU_outside h u (by omega)

/-- A put leaves every byte its field does not touch (R115). -/
theorem Memory.read_putU_outside {m : Memory} (h : m.wf) {ofs w a : Nat} (u : Nat)
    (ha : 8 * a + 8 ≤ ofs ∨ ofs + w ≤ 8 * a) : (m.putU ofs w u).read a = m.read a := by
  apply BitVec.eq_of_toNat_eq
  rw [← Memory.getU_byte, ← Memory.getU_byte, Memory.getU_putU_disjoint h u ha]

/-! ### A buffer is its bytes -/

/-- The entries after the first list no address up to its own. -/
theorem Memory.read_tail_of_le {a k : Nat} {v : Byte} {m : Memory} (h : Memory.wf ((a, v) :: m)) (hk : k ≤ a) :
    m.read k = unwrittenByte := by
  obtain ⟨hrise, -⟩ := h
  rw [List.pairwise_cons] at hrise
  exact Memory.read_of_all_gt fun c hc => lt_of_le_of_lt hk (hrise.1 c hc)

theorem Memory.wf_tail {c : Host.Cell} {m : Memory} (h : Memory.wf (c :: m)) : m.wf :=
  ⟨(List.pairwise_cons.1 h.1).2, fun d hd => h.2 d (List.mem_cons_of_mem c hd)⟩

theorem Memory.read_head {a : Nat} {v : Byte} {m : Memory} : Memory.read ((a, v) :: m) a = v := if_pos rfl

theorem Memory.read_cons_of_ne {a k : Nat} {v : Byte} {m : Memory} (h : a ≠ k) :
    Memory.read ((a, v) :: m) k = m.read k := if_neg h

/-- The first address listed reads as no unlisted one does. -/
theorem Memory.read_head_ne {a : Nat} {v : Byte} {m : Memory} (h : Memory.wf ((a, v) :: m)) :
    Memory.read ((a, v) :: m) a ≠ unwrittenByte := by
  rw [Memory.read_head]
  exact h.2 (a, v) List.mem_cons_self

/-- Of two buffers with the same bytes neither lists an address before the other's first. -/
theorem Memory.first_le {a b : Nat} {v x : Byte} {m m' : Memory} (h : Memory.wf ((a, v) :: m))
    (h' : Memory.wf ((b, x) :: m')) (hread : Memory.read ((a, v) :: m) a = Memory.read ((b, x) :: m') a) : b ≤ a := by
  by_contra hlt
  have hab : a < b := Nat.lt_of_not_le hlt
  apply Memory.read_head_ne h
  rw [hread, Memory.read_cons_of_ne (ne_of_gt hab), Memory.read_tail_of_le h' (le_of_lt hab)]

/-- Two buffers in canonical form with the same bytes are equal. -/
theorem Memory.eq_of_read {m m' : Memory} (h : m.wf) (h' : m'.wf) (hread : ∀ a, m.read a = m'.read a) : m = m' := by
  induction m generalizing m' with
  | nil =>
    cases m' with
    | nil => rfl
    | cons c m' => exact absurd (hread c.1).symm (Memory.read_head_ne h')
  | cons c m ih =>
    obtain ⟨a, v⟩ := c
    cases m' with
    | nil => exact absurd (hread a) (Memory.read_head_ne h)
    | cons d m' =>
      obtain ⟨b, x⟩ := d
      obtain rfl : a = b :=
        le_antisymm (Memory.first_le h' h (hread b).symm) (Memory.first_le h h' (hread a))
      have hv : v = x := by simpa only [Memory.read_head] using hread a
      have htail : m = m' := by
        refine ih (Memory.wf_tail h) (Memory.wf_tail h') fun k => ?_
        by_cases hk : a = k
        · rw [Memory.read_tail_of_le h hk.ge, Memory.read_tail_of_le h' hk.ge]
        · simpa only [Memory.read_cons_of_ne hk] using hread k
      rw [hv, htail]

/-- Two buffers in canonical form with the same bits are equal. -/
theorem Memory.eq_of_bit {m m' : Memory} (h : m.wf) (h' : m'.wf) (hbit : ∀ k, m.bit k = m'.bit k) : m = m' := by
  refine Memory.eq_of_read h h' fun a => BitVec.eq_of_toNat_eq ?_
  rw [← Memory.getU_byte, ← Memory.getU_byte, Memory.getU_congr fun k _ _ => hbit k]

/-- Putting back what a field holds changes nothing (R119). -/
theorem Memory.putU_getU {m : Memory} (h : m.wf) (ofs w : Nat) : m.putU ofs w (m.getU ofs w) = m := by
  refine Memory.eq_of_bit (Memory.putU_wf h _ _ _) h fun k => ?_
  rw [Memory.bit_putU h]
  split
  · next hk =>
    have hi : ofs + w - 1 - k < w := by omega
    have hback : ofs + w - 1 - (ofs + w - 1 - k) = k := by omega
    rw [Memory.testBit_getU, hback, decide_eq_true hi, Bool.true_and]
  · rfl

end Sys2Proof.Machine
end

section
/-! PROOFS. GETU, GETS and GETSM of a field inside the buffer (R111 to R114): the three readings of a field's value, each as
the rules give it. -/

namespace Sys2Proof.Machine

/-! ### Readings of a field -/

/-- A sum of R111 over one bit is that bit. -/
theorem Memory.fieldSum_one (m : Memory) (k : Nat) : m.fieldSum k 1 = (m.bit k).toNat := by
  rw [Memory.fieldSum_eq_getU, Memory.getU_one]

/-- `signed_w` by the field's first bit (R113). -/
theorem signedField_getU (m : Memory) (ofs : Nat) {w : Nat} (hw : 1 ≤ w) :
    signedField w (m.getU ofs w) =
      ((m.fieldSum ofs w : Nat) : Int) - if m.fieldSum ofs 1 = 1 then 2 ^ w else 0 := by
  have hsplit := m.getU_first_bit ofs hw
  have hrest := m.getU_lt (ofs + 1) (w - 1)
  rw [signedField, Memory.fieldSum_eq_getU, Memory.fieldSum_one]
  cases hb : m.bit ofs with
  | true =>
    rw [hb, Bool.toNat_true, one_mul] at hsplit
    rw [if_pos (by omega), if_pos Bool.toNat_true]
  | false =>
    rw [hb, Bool.toNat_false, zero_mul, zero_add] at hsplit
    rw [if_neg (by omega), if_neg (by decide), sub_zero]

/-- Sign flag and magnitude by the field's first bit and its remaining ones (R114). -/
theorem signMagnitudeField_getU (m : Memory) (ofs : Nat) {w : Nat} (hw : 1 ≤ w) :
    signMagnitudeField w (m.getU ofs w) =
      (if m.fieldSum ofs 1 = 1 then -1 else 1) * ((m.fieldSum (ofs + 1) (w - 1) : Nat) : Int) := by
  rw [signMagnitudeField, m.testBit_getU_first ofs hw, m.getU_mod_first ofs hw, Memory.fieldSum_one,
    Memory.fieldSum_eq_getU]
  cases m.bit ofs with
  | true => rw [if_pos rfl, if_pos Bool.toNat_true, neg_one_mul]
  | false => rw [if_neg Bool.false_ne_true, if_neg (by decide), one_mul]

/-! ### The commands -/

section
variable {s : State} {b : BufferId} {wid : BitVec 6} {ofs : BitVec 32} {len : Nat}

/-- An extract command on a field inside the buffer answers its reading of the field (R112 to R114). -/
theorem extractField_of_inside (reading : Nat → Nat → BitVec 64) (hs : s.Inv) (hf : s.fault = false)
    (hlen : s.blen b = some len) (hmin : 1 ≤ wid.toNat) (hmax : wid.toNat ≤ 32)
    (hend : ofs.toNat + wid.toNat ≤ 8 * len) :
    extractField reading b.sel wid ofs s =
      .next (s.answered false (reading wid.toNat ((s.buf b).getU ofs.toNat wid.toNat))) :=
  have hcheck := codecCheck_eq_none.2 ⟨len, hlen, hmin, hmax, hend⟩
  extractField_of_checks hf hcheck (hs.codecCheck_le hcheck)

/-- GETU of such a field (R112). -/
theorem exec_getu_of_inside (hs : s.Inv) (hf : s.fault = false) (hlen : s.blen b = some len) (hmin : 1 ≤ wid.toNat)
    (hmax : wid.toNat ≤ 32) (hend : ofs.toNat + wid.toNat ≤ 8 * len) :
    exec (.getu b.sel wid ofs) s =
      .next (s.answered false (BitVec.ofNat 64 ((s.buf b).getU ofs.toNat wid.toNat))) :=
  extractField_of_inside (fun _ u => BitVec.ofNat 64 u) hs hf hlen hmin hmax hend

/-- GETS of such a field (R113). -/
theorem exec_gets_of_inside (hs : s.Inv) (hf : s.fault = false) (hlen : s.blen b = some len) (hmin : 1 ≤ wid.toNat)
    (hmax : wid.toNat ≤ 32) (hend : ofs.toNat + wid.toNat ≤ 8 * len) :
    exec (.gets b.sel wid ofs) s =
      .next (s.answered false (BitVec.ofInt 64 (signedField wid.toNat ((s.buf b).getU ofs.toNat wid.toNat)))) :=
  extractField_of_inside (fun w u => BitVec.ofInt 64 (signedField w u)) hs hf hlen hmin hmax hend

/-- GETSM of such a field (R114). -/
theorem exec_getsm_of_inside (hs : s.Inv) (hf : s.fault = false) (hlen : s.blen b = some len) (hmin : 1 ≤ wid.toNat)
    (hmax : wid.toNat ≤ 32) (hend : ofs.toNat + wid.toNat ≤ 8 * len) :
    exec (.getsm b.sel wid ofs) s =
      .next (s.answered false (BitVec.ofInt 64 (signMagnitudeField wid.toNat ((s.buf b).getU ofs.toNat wid.toNat)))) :=
  extractField_of_inside (fun w u => BitVec.ofInt 64 (signMagnitudeField w u)) hs hf hlen hmin hmax hend

end

/-- Settles O12: the extraction is the sum of R111. -/
theorem getuAnswersTheUnsignedField : Obligations.GetuAnswersTheUnsignedField := by
  intro s b wid ofs len hs hf hlen hmin hmax hend
  rw [exec_getu_of_inside hs hf hlen hmin hmax hend, Memory.fieldSum_eq_getU]

/-- Settles O13: a field whose first bit is 1 is at least `2^(wid-1)`, and no other is. -/
theorem getsAnswersTheTwosComplementField : Obligations.GetsAnswersTheTwosComplementField := by
  intro s b wid ofs len hs hf hlen hmin hmax hend
  rw [exec_gets_of_inside hs hf hlen hmin hmax hend, signedField_getU _ _ hmin]

/-- Settles O14: the first bit is the sign flag, the value modulo `2^(wid-1)` the remaining bits. -/
theorem getsmAnswersTheSignAndMagnitudeField : Obligations.GetsmAnswersTheSignAndMagnitudeField := by
  intro s b wid ofs len hs hf hlen hmin hmax hend
  rw [exec_getsm_of_inside hs hf hlen hmin hmax hend, signMagnitudeField_getU _ _ hmin]

end Sys2Proof.Machine
end

section
/-! PROOFS. SETU and SETS: the order of their faults (R110, R116, R117, R263), and the field they put (R115). -/

namespace Sys2Proof.Machine

/-! ### Commands that store into the work buffer -/

/-- The common shape of the commands that store into the work buffer: refused while FAULT = 1, then the selector, then the
command's own check, then its body. -/
def onCheckedWorkBuffer (sel : BitVec 3) (check : Option Cause) (s : State) (k : Unit → Result) : Result :=
  unlessFaulted s fun _ => onWorkBuffer sel s fun _ => orFault check s k

section
variable {s : State} {sel : BitVec 3} {check : Option Cause} {k : Unit → Result}

theorem onCheckedWorkBuffer_of_reserved (hf : s.fault = false) (h : 5 ≤ sel.toNat) :
    onCheckedWorkBuffer sel check s k = .next (s.faulted 5#4) := by
  rw [onCheckedWorkBuffer, unlessFaulted_of_clear _ hf, onWorkBuffer, selBuffer_eq_none.2 h]
  exact congrArg _ (raiseFault_eq_faulted .illegalCommand hf)

/-- A decoder's buffer is never stored into (R263). -/
theorem onCheckedWorkBuffer_of_decoder (d : DecoderId) (hf : s.fault = false) :
    onCheckedWorkBuffer d.sel check s k = .next (s.faulted 6#4) := by
  rw [onCheckedWorkBuffer, unlessFaulted_of_clear _ hf, onWorkBuffer,
    show selBuffer d.sel = some (.dec d) from selBuffer_sel (.dec d)]
  exact congrArg _ (raiseFault_eq_faulted .bufferReadOnly hf)

theorem onCheckedWorkBuffer_of_some {c : Cause} (hf : s.fault = false) (h : check = some c) :
    onCheckedWorkBuffer 0#3 check s k = .next (s.faulted c.code) := by
  rw [onCheckedWorkBuffer, unlessFaulted_of_clear _ hf, onWorkBuffer_zero, h, orFault_some, raiseFault_eq_faulted c hf]

theorem onCheckedWorkBuffer_of_none (hf : s.fault = false) (h : check = none) :
    onCheckedWorkBuffer 0#3 check s k = k () := by
  rw [onCheckedWorkBuffer, unlessFaulted_of_clear _ hf, onWorkBuffer_zero, h, orFault_none]

end

/-- The selectors of the decoders are 1 to 4 (R24). -/
theorem exists_decoder_sel_iff {sel : BitVec 3} : (∃ d, sel = DecoderId.sel d) ↔ 1 ≤ sel.toNat ∧ sel.toNat ≤ 4 := by
  constructor
  · rintro ⟨d, rfl⟩
    cases d <;> decide
  · rintro ⟨hmin, hmax⟩
    cases hsel : selBuffer sel with
    | none =>
      have := selBuffer_eq_none.1 hsel
      omega
    | some b =>
      have hb := selBuffer_eq_some.1 hsel
      cases b with
      | wb =>
        subst hb
        exact absurd hmin (by decide)
      | dec d => exact ⟨d, hb⟩

/-! ### The faults -/

/-- Whether a value fits the field of an insert command (R116, R117). -/
def insertValueFits : Instr → Bool
  | .setu _ wid _ value => decide (value.toNat < 2 ^ wid.toNat)
  | .sets _ wid _ value =>
    decide (-(2 ^ (wid.toNat - 1) : Int) ≤ value.toInt ∧ value.toInt ≤ 2 ^ (wid.toNat - 1) - 1)
  | _ => true

/-- SETU and SETS differ in which values fit, and in the field they put. -/
theorem exec_insert_eq {i : Instr} {sel : BitVec 3} {wid : BitVec 6} {ofs : BitVec 32} {value : BitVec 64} (s : State)
    (hi : i = .setu sel wid ofs value ∨ i = .sets sel wid ofs value) :
    ∃ u, exec i s = insertField (insertValueFits i) u sel wid ofs s := by
  rcases hi with rfl | rfl <;> exact ⟨_, rfl⟩

/-- ValueRange, once every check before it has passed (R116, R117). -/
theorem insertField_of_not_fits {fits : Bool} {u : Nat} {wid : BitVec 6} {ofs : BitVec 32} {s : State}
    (hf : s.fault = false) (hmin : 1 ≤ wid.toNat) (hmax : wid.toNat ≤ 32)
    (hend : ofs.toNat + wid.toNat ≤ 8 * s.wbLen.toNat) (hfits : fits = false) :
    insertField fits u 0#3 wid ofs s = .next (s.faulted 4#4) := by
  have hcheck : codecCheck .wb ofs wid s = none := codecCheck_eq_none.2 ⟨_, blen_wb s, hmin, hmax, hend⟩
  change onCheckedWorkBuffer 0#3 (codecCheck .wb ofs wid s) s _ = _
  rw [onCheckedWorkBuffer_of_none hf hcheck, hfits, if_neg Bool.false_ne_true, orFault_some]
  exact congrArg _ (raiseFault_eq_faulted .valueRange hf)

/-- Settles O18: the selector's faults, then each fault of the codec's check, then the value's. -/
theorem insertCommandsFaultInOrder : Obligations.InsertCommandsFaultInOrder := by
  intro i s sel wid ofs value hf hi
  obtain ⟨u, hexec⟩ := exec_insert_eq s hi
  rw [hexec]
  refine ⟨onCheckedWorkBuffer_of_reserved hf, fun hmin hmax => ?_, ?_⟩
  · obtain ⟨d, rfl⟩ := exists_decoder_sel_iff.2 ⟨hmin, hmax⟩
    exact onCheckedWorkBuffer_of_decoder d hf
  · rintro rfl
    refine ⟨fun hw => ?_, fun hmin hmax => ⟨fun hend => ?_, fun hend => ⟨?_, ?_⟩⟩⟩
    · exact onCheckedWorkBuffer_of_some (c := .widthRange) hf (codecCheck_of_width ofs (blen_wb s) hw)
    · exact onCheckedWorkBuffer_of_some (c := .boundsExceeded) hf (codecCheck_of_bounds (blen_wb s) hmin hmax hend)
    · rintro rfl hvalue
      exact insertField_of_not_fits hf hmin hmax hend (decide_eq_false (Nat.not_lt.2 hvalue))
    · rintro rfl hvalue
      exact insertField_of_not_fits hf hmin hmax hend (decide_eq_false (by omega))

/-! ### The put field -/

section
variable {s : State} {wid : BitVec 6} {ofs : BitVec 32}

/-- The state after an insert command: the field put into the work buffer, and the response. -/
def State.withField (s : State) (ofs w u : Nat) : State :=
  { s with wb := s.wb.putU ofs w u }.answered false 0#64

@[simp] theorem State.withField_wb (s : State) (ofs w u : Nat) : (s.withField ofs w u).wb = s.wb.putU ofs w u := rfl
@[simp] theorem State.withField_wbLen (s : State) (ofs w u : Nat) : (s.withField ofs w u).wbLen = s.wbLen := rfl
@[simp] theorem State.withField_fault (s : State) (ofs w u : Nat) : (s.withField ofs w u).fault = s.fault := rfl

/-- SETU of a value that fits, on a field inside the work buffer (R116). -/
theorem exec_setu_of_inside {value : BitVec 64} (hs : s.Inv) (hf : s.fault = false) (hmin : 1 ≤ wid.toNat)
    (hmax : wid.toNat ≤ 32) (hend : ofs.toNat + wid.toNat ≤ 8 * s.wbLen.toNat) (hfits : value.toNat < 2 ^ wid.toNat) :
    exec (.setu 0#3 wid ofs value) s = .next (s.withField ofs.toNat wid.toNat value.toNat) := by
  have hcheck : codecCheck .wb ofs wid s = none := codecCheck_eq_none.2 ⟨_, blen_wb s, hmin, hmax, hend⟩
  change insertField (decide _) value.toNat 0#3 wid ofs s = _
  rw [decide_eq_true hfits]
  exact insertField_of_checks hf hcheck (hs.codecCheck_le hcheck)

/-- SETS of a value that fits, on such a field (R117). -/
theorem exec_sets_of_inside {value : BitVec 64} (hs : s.Inv) (hf : s.fault = false) (hmin : 1 ≤ wid.toNat)
    (hmax : wid.toNat ≤ 32) (hend : ofs.toNat + wid.toNat ≤ 8 * s.wbLen.toNat)
    (hlow : -(2 ^ (wid.toNat - 1) : Int) ≤ value.toInt) (hhigh : value.toInt ≤ 2 ^ (wid.toNat - 1) - 1) :
    exec (.sets 0#3 wid ofs value) s =
      .next (s.withField ofs.toNat wid.toNat (value.toNat % 2 ^ wid.toNat)) := by
  have hcheck : codecCheck .wb ofs wid s = none := codecCheck_eq_none.2 ⟨_, blen_wb s, hmin, hmax, hend⟩
  change insertField (decide _) (value.toNat % 2 ^ wid.toNat) 0#3 wid ofs s = _
  rw [decide_eq_true ⟨hlow, hhigh⟩]
  exact insertField_of_checks hf hcheck (hs.codecCheck_le hcheck)

end

section
variable {m : Memory} (h : m.wf) (ofs w u : Nat)
include h

theorem Memory.fieldSum_putU_self : (m.putU ofs w u).fieldSum ofs w = u % 2 ^ w := by
  rw [Memory.fieldSum_eq_getU, Memory.getU_putU_self h]

theorem Memory.fieldSum_putU_outside (k : Nat) (hk : k < ofs ∨ ofs + w ≤ k) :
    (m.putU ofs w u).fieldSum k 1 = m.fieldSum k 1 := by
  rw [Memory.fieldSum_one, Memory.fieldSum_one, Memory.bit_putU_outside h u hk]

end

/-- The low bits of a word are its two's-complement value modulo the field's range (R117). -/
theorem toNat_mod_two_pow_eq_toInt_emod (v : BitVec 64) {w : Nat} (hw : w ≤ 64) :
    ((v.toNat % 2 ^ w : Nat) : Int) = v.toInt % 2 ^ w := by
  have hdvd : ((2 : Int) ^ w) ∣ ((2 ^ 64 : Nat) : Int) := by
    rw [Nat.cast_pow]
    exact pow_dvd_pow 2 hw
  rw [BitVec.toInt_eq_toNat_bmod, ← Int.emod_emod_of_dvd (Int.bmod _ _) hdvd, Int.bmod_emod, Int.emod_emod_of_dvd _ hdvd,
    Int.natCast_mod, Nat.cast_pow]
  rfl

/-- Settles O16: the put leaves the value in the field and every bit and byte outside it. -/
theorem setuPutsTheUnsignedField : Obligations.SetuPutsTheUnsignedField := by
  intro s wid ofs value hs hf hmin hmax hend hfits
  obtain ⟨-, -, -, hw, -⟩ := hs.globals
  refine ⟨_, exec_setu_of_inside hs hf hmin hmax hend hfits, Memory.putU_wf hw _ _ _, ?_,
    Memory.fieldSum_putU_outside hw _ _ _, fun a ha => Memory.read_putU_outside hw _ ha⟩
  rw [Memory.fieldSum_putU_self hw, Nat.mod_eq_of_lt hfits]

/-- Settles O17: as SETU of the low bits of the two's complement. -/
theorem setsPutsTheTwosComplementField : Obligations.SetsPutsTheTwosComplementField := by
  intro s wid ofs value hs hf hmin hmax hend hlow hhigh
  obtain ⟨-, -, -, hw, -⟩ := hs.globals
  refine ⟨_, exec_sets_of_inside hs hf hmin hmax hend hlow hhigh, Memory.putU_wf hw _ _ _, ?_,
    Memory.fieldSum_putU_outside hw _ _ _, fun a ha => Memory.read_putU_outside hw _ ha⟩
  rw [Memory.fieldSum_putU_self hw, Nat.mod_mod, toNat_mod_two_pow_eq_toInt_emod value (by omega)]

end Sys2Proof.Machine
end

section
/-! PROOFS. The four round-trip laws of the codec (R119). -/

namespace Sys2Proof.Machine

/-- A field put keeps the invariants (R34). -/
theorem State.Inv.withField {s : State} {ofs w : Nat} (h : s.Inv) (u : Nat) (hend : ofs + w ≤ 8 * s.wbLen.toNat) :
    (s.withField ofs w u).Inv := by
  obtain ⟨-, -, hlen, -⟩ := h.globals
  have hcap : fieldEnd ofs w ≤ s.cfg.wbMax := by
    unfold fieldEnd
    omega
  exact (h.stored (fun hw => Memory.putU_wf hw ofs w u) fun hin => Memory.putU_within hin u hcap).respond _

/-- Reading the low bits of a value that fits as two's complement gives the value (R117, R119). -/
theorem signedField_low_bits {v : BitVec 64} {w : Nat} (hmin : 1 ≤ w) (hmax : w ≤ 64)
    (hlow : -(2 ^ (w - 1) : Int) ≤ v.toInt) (hhigh : v.toInt ≤ 2 ^ (w - 1) - 1) :
    signedField w (v.toNat % 2 ^ w) = v.toInt := by
  have hcast := toNat_mod_two_pow_eq_toInt_emod v hmax
  have hpow : (2 : Int) ^ w = 2 * 2 ^ (w - 1) := by rw [← pow_succ', Nat.sub_add_cancel hmin]
  have hhalf : (((2 ^ (w - 1) : Nat) : Int)) = 2 ^ (w - 1) := by rw [Nat.cast_pow]; rfl
  rw [signedField]
  rcases lt_or_ge v.toInt 0 with hneg | hpos
  · have hmod : v.toInt % 2 ^ w = v.toInt + 2 ^ w := by
      rw [← Int.add_emod_right, Int.emod_eq_of_lt (by omega) (by omega)]
    rw [if_pos (by omega), hcast, hmod, Int.add_sub_cancel]
  · have hmod : v.toInt % 2 ^ w = v.toInt := Int.emod_eq_of_lt hpos (by omega)
    rw [if_neg (by omega), hcast, hmod]

section
variable {s : State} {wid wid' : BitVec 6} {ofs ofs' : BitVec 32}

/-- GETU after a field has been put into the work buffer. -/
theorem exec_getu_withField {o w u : Nat} (hs : s.Inv) (hf : s.fault = false) (hin : o + w ≤ 8 * s.wbLen.toNat)
    (hmin : 1 ≤ wid.toNat) (hmax : wid.toNat ≤ 32) (hend : ofs.toNat + wid.toNat ≤ 8 * s.wbLen.toNat) :
    exec (.getu 0#3 wid ofs) (s.withField o w u) =
      .next ((s.withField o w u).answered false
        (BitVec.ofNat 64 ((s.wb.putU o w u).getU ofs.toNat wid.toNat))) :=
  exec_getu_of_inside (b := .wb) (hs.withField u hin) hf (blen_wb _) hmin hmax hend

/-- First law of R119: GETU gives back what SETU put. -/
theorem exec_getu_after_setu {u : BitVec 64} (hs : s.Inv) (hf : s.fault = false) (hmin : 1 ≤ wid.toNat)
    (hmax : wid.toNat ≤ 32) (hend : ofs.toNat + wid.toNat ≤ 8 * s.wbLen.toNat) (hfits : u.toNat < 2 ^ wid.toNat) :
    exec (.getu 0#3 wid ofs) (s.withField ofs.toNat wid.toNat u.toNat) =
      .next ((s.withField ofs.toNat wid.toNat u.toNat).answered false u) := by
  obtain ⟨-, -, -, hw, -⟩ := hs.globals
  rw [exec_getu_withField hs hf hend hmin hmax hend, Memory.getU_putU_self hw, Nat.mod_eq_of_lt hfits,
    BitVec.ofNat_toNat, BitVec.setWidth_eq]

/-- Second law of R119: GETS gives back what SETS put. -/
theorem exec_gets_after_sets {v : BitVec 64} (hs : s.Inv) (hf : s.fault = false) (hmin : 1 ≤ wid.toNat)
    (hmax : wid.toNat ≤ 32) (hend : ofs.toNat + wid.toNat ≤ 8 * s.wbLen.toNat)
    (hlow : -(2 ^ (wid.toNat - 1) : Int) ≤ v.toInt) (hhigh : v.toInt ≤ 2 ^ (wid.toNat - 1) - 1) :
    exec (.gets 0#3 wid ofs) (s.withField ofs.toNat wid.toNat (v.toNat % 2 ^ wid.toNat)) =
      .next ((s.withField ofs.toNat wid.toNat (v.toNat % 2 ^ wid.toNat)).answered false v) := by
  obtain ⟨-, -, -, hw, -⟩ := hs.globals
  have hexec := exec_gets_of_inside (b := .wb) (hs.withField (v.toNat % 2 ^ wid.toNat) hend) hf (blen_wb _) hmin hmax hend
  rw [show (s.withField ofs.toNat wid.toNat (v.toNat % 2 ^ wid.toNat)).buf .wb =
      s.wb.putU ofs.toNat wid.toNat (v.toNat % 2 ^ wid.toNat) from rfl,
    Memory.getU_putU_self hw, Nat.mod_mod, signedField_low_bits hmin (by omega) hlow hhigh, BitVec.ofInt_toInt] at hexec
  exact hexec

/-- Third law of R119: SETU of what GETU gives changes nothing. -/
theorem exec_setu_after_getu {u : BitVec 64} (hs : s.Inv) (hf : s.fault = false) (hmin : 1 ≤ wid.toNat)
    (hmax : wid.toNat ≤ 32) (hend : ofs.toNat + wid.toNat ≤ 8 * s.wbLen.toNat)
    (hget : exec (.getu 0#3 wid ofs) s = .next (s.answered false u)) :
    exec (.setu 0#3 wid ofs u) s = .next (s.answered false 0#64) := by
  obtain ⟨-, -, -, hw, -⟩ := hs.globals
  have hlt := s.wb.getU_lt ofs.toNat wid.toNat
  have hle : 2 ^ wid.toNat ≤ 2 ^ 64 := Nat.pow_le_pow_right (by decide) (by omega)
  have hexec := exec_getu_of_inside (b := .wb) hs hf (blen_wb s) hmin hmax hend
  have hvalue : BitVec.ofNat 64 (s.wb.getU ofs.toNat wid.toNat) = u := by
    have hresp := congrArg State.resp (Host.Outcome.next.inj (hexec.symm.trans hget))
    exact congrArg Response.res (Option.some.inj hresp)
  have hu : u.toNat = s.wb.getU ofs.toNat wid.toNat := by
    rw [← hvalue, BitVec.toNat_ofNat, Nat.mod_eq_of_lt (hlt.trans_le hle)]
  rw [exec_setu_of_inside hs hf hmin hmax hend (hu ▸ hlt), State.withField, hu, Memory.putU_getU hw]

/-- Fourth law of R119: two fields that do not overlap, put one after the other, both read back. -/
theorem exec_getu_after_two_setu {u u' : BitVec 64} (hs : s.Inv) (hf : s.fault = false) (hmin : 1 ≤ wid.toNat)
    (hmax : wid.toNat ≤ 32) (hend : ofs.toNat + wid.toNat ≤ 8 * s.wbLen.toNat) (hmin' : 1 ≤ wid'.toNat)
    (hmax' : wid'.toNat ≤ 32) (hend' : ofs'.toNat + wid'.toNat ≤ 8 * s.wbLen.toNat)
    (hdisj : ofs.toNat + wid.toNat ≤ ofs'.toNat ∨ ofs'.toNat + wid'.toNat ≤ ofs.toNat)
    (hfits : u.toNat < 2 ^ wid.toNat) (hfits' : u'.toNat < 2 ^ wid'.toNat) :
    ∃ t, execAll [.setu 0#3 wid ofs u, .setu 0#3 wid' ofs' u'] s = .next t ∧
      exec (.getu 0#3 wid ofs) t = .next (t.answered false u) ∧
      exec (.getu 0#3 wid' ofs') t = .next (t.answered false u') := by
  obtain ⟨-, -, -, hw, -⟩ := hs.globals
  have hs' := hs.withField u.toNat hend
  have hfirst := exec_setu_of_inside hs hf hmin hmax hend hfits
  have hsecond := exec_setu_of_inside hs' hf hmin' hmax' hend' hfits'
  refine ⟨_, ?_, ?_, exec_getu_after_setu hs' hf hmin' hmax' hend' hfits'⟩
  · simp only [execAll, hfirst, hsecond]
  · rw [exec_getu_withField hs' hf hend' hmin hmax hend, State.withField_wb,
      Memory.getU_putU_disjoint (Memory.putU_wf hw _ _ _) _ hdisj, Memory.getU_putU_self hw, Nat.mod_eq_of_lt hfits,
      BitVec.ofNat_toNat, BitVec.setWidth_eq]

end

/-- Settles O19: one law after another. -/
theorem codecRoundTripLaws : Obligations.CodecRoundTripLaws := by
  intro s wid ofs hs hf hmin hmax hend
  refine ⟨fun u hfits => ?_, fun v hlow hhigh => ?_, fun u hget => ?_, ?_⟩
  · exact ⟨_, _, exec_setu_of_inside hs hf hmin hmax hend hfits,
      exec_getu_after_setu hs hf hmin hmax hend hfits, rfl⟩
  · exact ⟨_, _, exec_sets_of_inside hs hf hmin hmax hend hlow hhigh,
      exec_gets_after_sets hs hf hmin hmax hend hlow hhigh, rfl⟩
  · exact exec_setu_after_getu hs hf hmin hmax hend hget
  · intro wid' ofs' u u' hmin' hmax' hend' hdisj hfits hfits'
    exact exec_getu_after_two_setu hs hf hmin hmax hend hmin' hmax' hend' hdisj hfits hfits'

end Sys2Proof.Machine
end

section
/-! PROOFS. READ completes without a fault in every phase, with every byte (R121, R265). -/

namespace Sys2Proof.Machine

/-- No end of a READ fails (R150). -/
theorem FrameOutcome.response_st (o : FrameOutcome) : o.response.st = false := by cases o <;> rfl

/-- Settles O37: a byte the filter refuses changes nothing; on any other the decoder's phase rule, under the invariants,
has an outcome. -/
theorem everyReadCompletesWithoutFault : Obligations.EveryReadCompletesWithoutFault := by
  intro s d b hs hf
  cases ha : readAccepts d b with
  | false => exact ⟨_, .ok, exec_readOf_of_not_accepts hf ha, hf, rfl, rfl, rfl⟩
  | true =>
    obtain ⟨r, hr⟩ := readRule_exists b hs.cfg (State.readRun_inv hs d)
    exact ⟨_, _, exec_readOf_of_some hf ha hr, (State.putRun_fault s d r).trans hf, State.putRun_fcause s d r,
      State.putRun_resp s d r, r.out.response_st⟩

end Sys2Proof.Machine
end

section
/-! PROOFS. What a command's fields alone say of its faults (R263, R267): a well-formed command faults only by what the state
holds, an ill-formed one always faults. -/

namespace Sys2Proof.Machine

/-! ### Well-formed operands -/

theorem readableBuffer_iff {sel : BitVec 3} : WellFormed.readableBuffer sel = true ↔ ∃ b, sel = BufferId.sel b := by
  rw [WellFormed.readableBuffer, decide_eq_true_iff]
  constructor
  · intro h
    cases hsel : selBuffer sel with
    | none =>
      have := selBuffer_eq_none.1 hsel
      omega
    | some b => exact ⟨b, selBuffer_eq_some.1 hsel⟩
  · rintro ⟨b, rfl⟩
    cases b with
    | wb => decide
    | dec d => exact (exists_decoder_sel_iff.1 ⟨d, rfl⟩).2

theorem readableBuffer_eq_false {sel : BitVec 3} : WellFormed.readableBuffer sel = false ↔ 5 ≤ sel.toNat := by
  rw [WellFormed.readableBuffer, decide_eq_false_iff_not, Nat.not_le]
  rfl

theorem writableBuffer_iff {sel : BitVec 3} : WellFormed.writableBuffer sel = true ↔ sel = 0#3 := decide_eq_true_iff

/-- A selector of no writable buffer is reserved or a decoder's (R24). -/
theorem writableBuffer_eq_false {sel : BitVec 3} (h : WellFormed.writableBuffer sel = false) :
    5 ≤ sel.toNat ∨ ∃ d, sel = DecoderId.sel d := by
  have hne : sel.toNat ≠ 0 := fun h0 => of_decide_eq_false h (BitVec.eq_of_toNat_eq h0)
  by_cases h5 : 5 ≤ sel.toNat
  · exact .inl h5
  · exact .inr (exists_decoder_sel_iff.2 (by omega))

theorem decoder_iff {sel : BitVec 3} : WellFormed.decoder sel = true ↔ ∃ d, sel = DecoderId.sel d := by
  rw [WellFormed.decoder, decide_eq_true_iff, exists_decoder_sel_iff]

theorem decoder_eq_false {sel : BitVec 3} (h : WellFormed.decoder sel = false) : sel = 0#3 ∨ 5 ≤ sel.toNat := by
  have hrange := of_decide_eq_false h
  by_cases h5 : 5 ≤ sel.toNat
  · exact .inr h5
  · exact .inl (BitVec.eq_of_toNat_eq (by rw [BitVec.toNat_zero]; omega))

theorem width_iff {wid : BitVec 6} : WellFormed.width wid = true ↔ 1 ≤ wid.toNat ∧ wid.toNat ≤ 32 := decide_eq_true_iff

theorem width_eq_false {wid : BitVec 6} (h : WellFormed.width wid = false) : wid.toNat = 0 ∨ 32 < wid.toNat := by
  have hrange := of_decide_eq_false h
  omega

/-! ### Faults of a well-formed command -/

/-- The causes that depend on what the state holds: a bound, a retained frame, a value against its width. -/
def Cause.DependsOnState (c : Cause) : Prop := c = .boundsExceeded ∨ c = .bufferNotValid ∨ c = .valueRange

/-- A next state with FAULT set has one of these causes. -/
def FaultsByState (p : Result) : Prop :=
  ∀ t, p = .next t → t.fault = true → ∃ c : Cause, c.DependsOnState ∧ t.fcause = c.code

theorem Cause.DependsOnState.code {c : Cause} (h : c.DependsOnState) : c.code = 2#4 ∨ c.code = 3#4 ∨ c.code = 4#4 := by
  rcases h with rfl | rfl | rfl
  · exact .inl rfl
  · exact .inr (.inl rfl)
  · exact .inr (.inr rfl)

theorem FaultsByState.of_no_fault {t : State} (h : t.fault = false) : FaultsByState (.next t) := by
  rintro u ⟨⟩ hset
  exact absurd hset (by simp [h])

section
variable {s : State}

theorem unlessFaulted_faultsByState {k : Unit → Result} (hf : s.fault = false) (hk : FaultsByState (k ())) :
    FaultsByState (unlessFaulted s k) := by
  rw [unlessFaulted_of_clear _ hf]
  exact hk

theorem orFault_faultsByState {check : Option Cause} {k : Unit → Result} (hf : s.fault = false)
    (hcheck : ∀ c, check = some c → c.DependsOnState) (hk : FaultsByState (k ())) :
    FaultsByState (orFault check s k) := by
  cases check with
  | none => exact hk
  | some c =>
    rintro t ⟨⟩ -
    exact ⟨c, hcheck c rfl, by rw [raiseFault_of_clear c hf]⟩

/-- An access outside the buffer is no next state. -/
theorem onAddresses_faultsByState {b : BufferId} {lo hi : Nat} {k : Unit → Result} (hk : FaultsByState (k ())) :
    FaultsByState (onAddresses b lo hi s k) := by
  intro t ht
  obtain ⟨-, -, hnext⟩ := onAddresses_eq_next ht
  exact hk t hnext

theorem codecCheck_dependsOnState {b : BufferId} {ofs : BitVec 32} {wid : BitVec 6}
    (hw : WellFormed.width wid = true) (c : Cause) (h : codecCheck b ofs wid s = some c) : c.DependsOnState := by
  obtain ⟨hmin, hmax⟩ := width_iff.1 hw
  cases hlen : s.blen b with
  | none =>
    rw [codecCheck_of_not_valid ofs wid hlen] at h
    cases h
    exact .inr (.inl rfl)
  | some len =>
    by_cases hend : 8 * len < ofs.toNat + wid.toNat
    · rw [codecCheck_of_bounds hlen hmin hmax hend] at h
      cases h
      exact .inl rfl
    · rw [codecCheck_eq_none.2 ⟨len, hlen, hmin, hmax, Nat.le_of_not_lt hend⟩] at h
      cases h

theorem rangeCheck_dependsOnState {b : BufferId} {stop : Nat} (c : Cause) (h : rangeCheck b stop s = some c) :
    c.DependsOnState := by
  cases hlen : s.blen b with
  | none =>
    rw [rangeCheck_of_not_valid stop hlen] at h
    cases h
    exact .inr (.inl rfl)
  | some len =>
    by_cases hend : len < stop
    · rw [rangeCheck_of_bounds hlen hend] at h
      cases h
      exact .inl rfl
    · rw [rangeCheck_eq_none.2 ⟨len, hlen, Nat.le_of_not_lt hend⟩] at h
      cases h

/-- A check that is one of two by a condition. -/
theorem ite_dependsOnState {p : Prop} [Decidable p] {a b : Option Cause} (ha : ∀ c, a = some c → c.DependsOnState)
    (hb : ∀ c, b = some c → c.DependsOnState) (c : Cause) (h : (if p then a else b) = some c) : c.DependsOnState := by
  split at h
  · exact ha c h
  · exact hb c h

theorem onCheckedBuffer_faultsByState {sel : BitVec 3} {check : BufferId → Option Cause} {k : BufferId → Result}
    (hf : s.fault = false) (hsel : WellFormed.readableBuffer sel = true)
    (hcheck : ∀ b c, check b = some c → c.DependsOnState) (hk : ∀ b, FaultsByState (k b)) :
    FaultsByState (onCheckedBuffer sel check s k) := by
  obtain ⟨b, rfl⟩ := readableBuffer_iff.1 hsel
  refine unlessFaulted_faultsByState hf ?_
  rw [onBuffer_sel]
  exact orFault_faultsByState hf (hcheck b) (hk b)

theorem onCheckedWorkBuffer_faultsByState {sel : BitVec 3} {check : Option Cause} {k : Unit → Result}
    (hf : s.fault = false) (hsel : WellFormed.writableBuffer sel = true)
    (hcheck : ∀ c, check = some c → c.DependsOnState) (hk : FaultsByState (k ())) :
    FaultsByState (onCheckedWorkBuffer sel check s k) := by
  obtain rfl := writableBuffer_iff.1 hsel
  exact unlessFaulted_faultsByState hf (orFault_faultsByState hf hcheck hk)

theorem extractField_faultsByState {reading : Nat → Nat → BitVec 64} {sel : BitVec 3} {wid : BitVec 6}
    {ofs : BitVec 32} (hf : s.fault = false)
    (hwf : (WellFormed.readableBuffer sel && WellFormed.width wid) = true) :
    FaultsByState (extractField reading sel wid ofs s) := by
  obtain ⟨hsel, hw⟩ := Bool.and_eq_true_iff.1 hwf
  exact onCheckedBuffer_faultsByState (check := (codecCheck · ofs wid s)) hf hsel
    (fun _ => codecCheck_dependsOnState hw) fun _ => onAddresses_faultsByState (.of_no_fault hf)

theorem rangeCommand_faultsByState {sel : BitVec 3} {lo stop : Nat} {value : BufferId → BitVec 64}
    (hf : s.fault = false) (hsel : WellFormed.readableBuffer sel = true) :
    FaultsByState (onCheckedBuffer sel (rangeCheck · stop s) s fun b =>
      onAddresses b lo stop s fun _ => .next (s.respond (.value (value b)))) :=
  onCheckedBuffer_faultsByState hf hsel (fun _ => rangeCheck_dependsOnState) fun _ =>
    onAddresses_faultsByState (.of_no_fault hf)

theorem insertField_faultsByState {fits : Bool} {u : Nat} {sel : BitVec 3} {wid : BitVec 6} {ofs : BitVec 32}
    (hf : s.fault = false) (hwf : (WellFormed.writableBuffer sel && WellFormed.width wid) = true) :
    FaultsByState (insertField fits u sel wid ofs s) := by
  obtain ⟨hsel, hw⟩ := Bool.and_eq_true_iff.1 hwf
  refine onCheckedWorkBuffer_faultsByState hf hsel (codecCheck_dependsOnState hw) ?_
  refine orFault_faultsByState hf (ite_dependsOnState nofun ?_) (onAddresses_faultsByState (.of_no_fault hf))
  rintro c ⟨⟩
  exact .inr (.inr rfl)

theorem execStb_faultsByState {sel : BitVec 3} {addr : BitVec 32} {byte : Byte} (hf : s.fault = false)
    (hsel : WellFormed.writableBuffer sel = true) : FaultsByState (execStb sel addr byte s) :=
  onCheckedWorkBuffer_faultsByState hf hsel rangeCheck_dependsOnState (onAddresses_faultsByState (.of_no_fault hf))

theorem execSetlen_faultsByState {sel : BitVec 3} {len : BitVec 32} (hf : s.fault = false)
    (hsel : WellFormed.writableBuffer sel = true) : FaultsByState (execSetlen sel len s) := by
  refine onCheckedWorkBuffer_faultsByState hf hsel (ite_dependsOnState ?_ nofun) (.of_no_fault hf)
  rintro c ⟨⟩
  exact .inl rfl

theorem execHamdec_faultsByState {word : BitVec 32} (hf : s.fault = false) : FaultsByState (execHamdec word s) := by
  refine unlessFaulted_faultsByState hf ?_
  split
  · exact .of_no_fault hf
  · exact .of_no_fault hf

theorem execHamenc_faultsByState {data : BitVec 24} {prev2 : BitVec 2} (hf : s.fault = false) :
    FaultsByState (execHamenc data prev2 s) := by
  refine unlessFaulted_faultsByState hf ?_
  exact .of_no_fault hf

/-- READ raises no fault (R121, R265). -/
theorem exec_readOf_faultsByState (d : DecoderId) (b : Byte) (hf : s.fault = false) :
    FaultsByState (exec (Instr.readOf d b) s) := by
  intro t ht
  have hclear : t.fault = false := by
    rcases exec_readOf_eq_next ht with ⟨hset, -⟩ | ⟨-, -, rfl⟩ | ⟨-, -, r, -, rfl⟩
    · exact absurd hset (by simp [hf])
    · exact hf
    · rw [State.putRun_fault, hf]
  exact fun hset => absurd hset (by simp [hclear])

theorem exec_reset_faultsByState {sel : BitVec 3} (hf : s.fault = false) (hsel : WellFormed.decoder sel = true) :
    FaultsByState (exec (.reset sel) s) := by
  obtain ⟨d, rfl⟩ := decoder_iff.1 hsel
  rw [exec_reset_dec d hf]
  exact .of_no_fault ((resetDecoder_fault d s).trans hf)

theorem decoderRegister_of_le {idx : Nat} (d : DecoderId) (h : idx ≤ 6) (s : State) :
    ∃ v, decoderRegister d idx s = some v := by
  match idx, h with
  | 0, _ | 1, _ | 2, _ | 3, _ | 4, _ | 5, _ | 6, _ => exact ⟨_, rfl⟩

/-- A pair of the map names a register (R38). -/
theorem statusRegister_of_register {sel : BitVec 3} {idx : BitVec 32} (h : WellFormed.register sel idx = true)
    (s : State) : ∃ v, statusRegister sel idx.toNat s = some v := by
  simp only [WellFormed.register, Bool.or_eq_true, Bool.and_eq_true, decide_eq_true_iff, decoder_iff] at h
  rcases h with (⟨rfl, hidx⟩ | ⟨⟨d, rfl⟩, hidx⟩) | ⟨rfl, hidx⟩
  · generalize idx.toNat = k at hidx
    match k, hidx with
    | 0, _ | 1, _ | 2, _ => exact ⟨_, rfl⟩
  · rw [statusRegister_dec]
    exact decoderRegister_of_le d hidx s
  · generalize idx.toNat = k at hidx
    match k, hidx with
    | 0, _ | 1, _ | 2, _ | 3, _ | 4, _ | 5, _ | 6, _ | 7, _ | 8, _ => exact ⟨_, rfl⟩

/-- A pair that is no row of the map names none (R38). -/
theorem statusRegister_of_no_register {sel : BitVec 3} {idx : BitVec 32} (h : WellFormed.register sel idx = false)
    (s : State) : statusRegister sel idx.toNat s = none := by
  simp only [WellFormed.register, Bool.or_eq_false_iff, Bool.and_eq_false_iff, decide_eq_false_iff_not, Nat.not_le] at h
  obtain ⟨⟨hglobal, hdec⟩, hr2⟩ := h
  cases hsel : selBuffer sel with
  | none => exact statusRegister_of_reserved (selBuffer_eq_none.1 hsel) _ s
  | some b =>
    obtain rfl := selBuffer_eq_some.1 hsel
    cases b with
    | wb => exact statusRegister_global_of_ge (hglobal.resolve_left fun hne => hne rfl) s
    | dec d =>
      have hrow : WellFormed.decoder d.sel = true := decoder_iff.2 ⟨d, rfl⟩
      have hidx : 7 ≤ idx.toNat := hdec.resolve_left fun hno => Bool.false_ne_true (hno.symm.trans hrow)
      refine (statusRegister_dec d _ s).trans (decoderRegister_of_ge hidx ?_ s)
      rintro rfl
      exact hr2.resolve_left fun hne => hne rfl

theorem exec_rdsr_faultsByState {sel : BitVec 3} {idx : BitVec 32} (hf : s.fault = false)
    (hreg : WellFormed.register sel idx = true) : FaultsByState (exec (.rdsr sel idx) s) := by
  obtain ⟨v, hv⟩ := statusRegister_of_register hreg s
  rw [exec_rdsr_of_some hv]
  exact .of_no_fault hf

/-- No well-formed command faults for its fields alone. -/
theorem exec_faultsByState {i : Instr} (hf : s.fault = false) (h : i.wellFormed = true) : FaultsByState (exec i s) := by
  cases i with
  | nop => exact .of_no_fault hf
  | rstall => exact .of_no_fault rfl
  | getu sel wid ofs => exact extractField_faultsByState (reading := fun _ u => BitVec.ofNat 64 u) hf h
  | gets sel wid ofs =>
    exact extractField_faultsByState (reading := fun w u => BitVec.ofInt 64 (signedField w u)) hf h
  | getsm sel wid ofs =>
    exact extractField_faultsByState (reading := fun w u => BitVec.ofInt 64 (signMagnitudeField w u)) hf h
  | setu sel wid ofs value => exact insertField_faultsByState hf h
  | sets sel wid ofs value => exact insertField_faultsByState hf h
  | crc16 sel start len => exact rangeCommand_faultsByState hf h
  | crc24q sel stop => exact rangeCommand_faultsByState hf h
  | ldb sel addr => exact rangeCommand_faultsByState hf h
  | hamdec word => exact execHamdec_faultsByState hf
  | hamenc data prev2 => exact execHamenc_faultsByState hf
  | readAsv b => exact exec_readOf_faultsByState .asv b hf
  | readR2 b => exact exec_readOf_faultsByState .r2 b hf
  | readR3 b => exact exec_readOf_faultsByState .r3 b hf
  | readSbf b => exact exec_readOf_faultsByState .sbf b hf
  | reset sel => exact exec_reset_faultsByState hf h
  | stb sel addr byte => exact execStb_faultsByState hf h
  | setlen sel len => exact execSetlen_faultsByState hf h
  | rdsr sel idx => exact exec_rdsr_faultsByState hf h

/-! ### Faults of an ill-formed command -/

/-- The outcome is fault entry with a cause of R263 that comes before the checks on bounds and values. -/
def FaultsByFields (s : State) (p : Result) : Prop :=
  ∃ c : BitVec 4, p = .next (s.faulted c) ∧ (c = 1#4 ∨ c = 3#4 ∨ c = 5#4 ∨ c = 6#4)

theorem faultsByFields_of_width {p : Result} (h : p = .next (s.faulted 1#4)) : FaultsByFields s p :=
  ⟨_, h, .inl rfl⟩

theorem faultsByFields_of_not_valid {p : Result} (h : p = .next (s.faulted 3#4)) : FaultsByFields s p :=
  ⟨_, h, .inr (.inl rfl)⟩

theorem faultsByFields_of_illegal {p : Result} (h : p = .next (s.faulted 5#4)) : FaultsByFields s p :=
  ⟨_, h, .inr (.inr (.inl rfl))⟩

theorem faultsByFields_of_readOnly {p : Result} (h : p = .next (s.faulted 6#4)) : FaultsByFields s p :=
  ⟨_, h, .inr (.inr (.inr rfl))⟩

theorem onCheckedBuffer_faultsByFields {sel : BitVec 3} {check : BufferId → Option Cause} {k : BufferId → Result}
    (hf : s.fault = false) (hsel : WellFormed.readableBuffer sel = false) :
    FaultsByFields s (onCheckedBuffer sel check s k) :=
  faultsByFields_of_illegal (onCheckedBuffer_of_reserved hf (readableBuffer_eq_false.1 hsel))

theorem onCheckedWorkBuffer_faultsByFields {sel : BitVec 3} {check : Option Cause} {k : Unit → Result}
    (hf : s.fault = false) (hsel : WellFormed.writableBuffer sel = false) :
    FaultsByFields s (onCheckedWorkBuffer sel check s k) := by
  rcases writableBuffer_eq_false hsel with h5 | ⟨d, rfl⟩
  · exact faultsByFields_of_illegal (onCheckedWorkBuffer_of_reserved hf h5)
  · exact faultsByFields_of_readOnly (onCheckedWorkBuffer_of_decoder d hf)

/-- A width out of range, or no selector of a buffer: BufferNotValid comes before WidthRange (R110, R263). -/
theorem extractField_faultsByFields {reading : Nat → Nat → BitVec 64} {sel : BitVec 3} {wid : BitVec 6}
    {ofs : BitVec 32} (hf : s.fault = false)
    (hwf : (WellFormed.readableBuffer sel && WellFormed.width wid) = false) :
    FaultsByFields s (extractField reading sel wid ofs s) := by
  change FaultsByFields s (onCheckedBuffer sel (codecCheck · ofs wid s) s _)
  cases hsel : WellFormed.readableBuffer sel with
  | false => exact onCheckedBuffer_faultsByFields hf hsel
  | true =>
    obtain ⟨b, rfl⟩ := readableBuffer_iff.1 hsel
    rw [hsel, Bool.true_and] at hwf
    cases hlen : s.blen b with
    | none =>
      exact faultsByFields_of_not_valid
        (onCheckedBuffer_of_some (c := .bufferNotValid) hf (codecCheck_of_not_valid ofs wid hlen))
    | some len =>
      exact faultsByFields_of_width
        (onCheckedBuffer_of_some (c := .widthRange) hf (codecCheck_of_width ofs hlen (width_eq_false hwf)))

/-- A width out of range, or not the work buffer (R110, R263). -/
theorem insertField_faultsByFields {fits : Bool} {u : Nat} {sel : BitVec 3} {wid : BitVec 6} {ofs : BitVec 32}
    (hf : s.fault = false) (hwf : (WellFormed.writableBuffer sel && WellFormed.width wid) = false) :
    FaultsByFields s (insertField fits u sel wid ofs s) := by
  change FaultsByFields s (onCheckedWorkBuffer sel (codecCheck .wb ofs wid s) s _)
  cases hsel : WellFormed.writableBuffer sel with
  | false => exact onCheckedWorkBuffer_faultsByFields hf hsel
  | true =>
    obtain rfl := writableBuffer_iff.1 hsel
    rw [hsel, Bool.true_and] at hwf
    exact faultsByFields_of_width
      (onCheckedWorkBuffer_of_some (c := .widthRange) hf (codecCheck_of_width ofs (blen_wb s) (width_eq_false hwf)))

/-- Every ill-formed command faults, whatever the state holds. -/
theorem exec_faultsByFields {i : Instr} (hf : s.fault = false) (h : i.wellFormed = false) :
    FaultsByFields s (exec i s) := by
  cases i with
  | nop | rstall | hamdec _ | hamenc _ _ | readAsv _ | readR2 _ | readR3 _ | readSbf _ => cases h
  | getu sel wid ofs => exact extractField_faultsByFields (reading := fun _ u => BitVec.ofNat 64 u) hf h
  | gets sel wid ofs =>
    exact extractField_faultsByFields (reading := fun w u => BitVec.ofInt 64 (signedField w u)) hf h
  | getsm sel wid ofs =>
    exact extractField_faultsByFields (reading := fun w u => BitVec.ofInt 64 (signMagnitudeField w u)) hf h
  | setu sel wid ofs value => exact insertField_faultsByFields hf h
  | sets sel wid ofs value => exact insertField_faultsByFields hf h
  | crc16 sel start len => exact onCheckedBuffer_faultsByFields (check := (rangeCheck · _ s)) hf h
  | crc24q sel stop => exact onCheckedBuffer_faultsByFields (check := (rangeCheck · _ s)) hf h
  | ldb sel addr => exact onCheckedBuffer_faultsByFields (check := (rangeCheck · _ s)) hf h
  | reset sel => exact faultsByFields_of_illegal (exec_reset_of_no_decoder hf (decoder_eq_false h))
  | stb sel addr byte => exact onCheckedWorkBuffer_faultsByFields hf h
  | setlen sel len => exact onCheckedWorkBuffer_faultsByFields hf h
  | rdsr sel idx =>
    rw [exec_rdsr_of_none (statusRegister_of_no_register h s), raiseFault_eq_faulted _ hf]
    exact faultsByFields_of_illegal rfl

end

/-- Settles O10: command by command, the checks on the fields come before those on the state. -/
theorem illFormedCommandsAlwaysFault : Obligations.IllFormedCommandsAlwaysFault := by
  refine ⟨fun i s t hwf hf hexec hset => ?_, fun i s hwf hf => exec_faultsByFields hf hwf⟩
  obtain ⟨c, hc, hcause⟩ := exec_faultsByState hf hwf t hexec hset
  rw [hcause]
  exact hc.code

end Sys2Proof.Machine
end

section
/-! PROOFS. The two CRCs: the commands that answer them (R132, R135), and the shift register they share, whose step is linear
and only shifts while its top bits are 0. From these follow the table-driven and the reflected form of CRC-16 (R131) and the
residue of CRC-24Q (R134). -/

namespace Sys2Proof.Machine

/-! ### CRC16 and CRC24Q -/

/-- CRC16 of a range below the valid length (R132). -/
theorem exec_crc16_of_le {s : State} {b : BufferId} {start n : BitVec 32} {len : Nat} (hs : s.Inv) (hf : s.fault = false)
    (hlen : s.blen b = some len) (hend : start.toNat + n.toNat ≤ len) :
    exec (.crc16 b.sel start n) s =
      .next (s.answered false ((crc16 s.cfg ((s.buf b).readRange start.toNat n.toNat)).setWidth 64)) := by
  have hc : rangeCheck b (start.toNat + n.toNat) s = none := rangeCheck_eq_none.2 ⟨len, hlen, hend⟩
  change onCheckedBuffer b.sel (rangeCheck · (start.toNat + n.toNat) s) s _ = _
  rw [onCheckedBuffer_of_none hf hc, onAddresses_of_le _ (Nat.le_add_right _ _) (hs.rangeCheck_le hc)]
  rfl

/-- CRC24Q of a range below the valid length (R135). -/
theorem exec_crc24q_of_le {s : State} {b : BufferId} {stop : BitVec 32} {len : Nat} (hs : s.Inv) (hf : s.fault = false)
    (hlen : s.blen b = some len) (hend : stop.toNat ≤ len) :
    exec (.crc24q b.sel stop) s =
      .next (s.answered false ((crc24q s.cfg ((s.buf b).readRange 0 stop.toNat)).setWidth 64)) := by
  have hc : rangeCheck b stop.toNat s = none := rangeCheck_eq_none.2 ⟨len, hlen, hend⟩
  change onCheckedBuffer b.sel (rangeCheck · stop.toNat s) s _ = _
  rw [onCheckedBuffer_of_none hf hc, onAddresses_of_le _ (Nat.zero_le _) (hs.rangeCheck_le hc)]
  rfl

/-- Settles O20: every check of CRC16 passes. -/
theorem crc16AnswersTheCrcOfTheRange : Obligations.Crc16AnswersTheCrcOfTheRange := by
  intro s b start n len hs hf hlen hend
  rw [Memory.bytes_eq_readRange]
  exact exec_crc16_of_le hs hf hlen hend

/-- Settles O21: every check of CRC24Q passes. -/
theorem crc24qAnswersTheCrcOfTheRange : Obligations.Crc24qAnswersTheCrcOfTheRange := by
  intro s b stop len hs hf hlen hend
  rw [Memory.bytes_eq_readRange]
  exact exec_crc24q_of_le hs hf hlen hend

/-! ### The shift register -/

/-- One bit of a CRC register of any width: a shift towards the top bit, which feeds the generator back. -/
def feedbackStep {n : Nat} (poly c : BitVec n) : BitVec n := if c.msb then (c <<< 1) ^^^ poly else c <<< 1

theorem crc16Bit_eq_feedbackStep (cfg : Config) : crc16Bit cfg = feedbackStep (cfg.crc16Poly.setWidth 16) := by
  funext c
  rw [feedbackStep, BitVec.msb_eq_getLsbD_last]
  rfl

theorem crc24qBit_eq_feedbackStep (cfg : Config) : crc24qBit cfg = feedbackStep (cfg.crc24qPoly.setWidth 24) := by
  funext c
  rw [feedbackStep, BitVec.msb_eq_getLsbD_last]
  rfl

/-- The register step is linear. -/
theorem feedbackStep_xor {n : Nat} (poly a b : BitVec n) :
    feedbackStep poly (a ^^^ b) = feedbackStep poly a ^^^ feedbackStep poly b := by
  unfold feedbackStep
  rw [BitVec.msb_xor, BitVec.shiftLeft_xor_distrib]
  cases a.msb with
  | false => cases b.msb <;> simp [BitVec.xor_assoc]
  | true =>
    cases b.msb with
    | false => simp [BitVec.xor_assoc, BitVec.xor_comm poly]
    | true => simp [BitVec.xor_assoc, BitVec.xor_comm poly]

/-- A repeated linear function is linear. -/
theorem repeatTimes_xor {n : Nat} {f : BitVec n → BitVec n} (hf : ∀ a b, f (a ^^^ b) = f a ^^^ f b) (k : Nat)
    (a b : BitVec n) : repeatTimes f k (a ^^^ b) = repeatTimes f k a ^^^ repeatTimes f k b := by
  induction k generalizing a b with
  | zero => rfl
  | succ k ih => simp only [repeatTimes_succ, hf, ih]

/-- Repeating a function that another one carries over. -/
theorem repeatTimes_semiconj {α : Type} {f g h : α → α} (hh : ∀ x, g (h x) = h (f x)) (k : Nat) (x : α) :
    repeatTimes g k (h x) = h (repeatTimes f k x) := by
  induction k generalizing x with
  | zero => rfl
  | succ k ih => rw [repeatTimes_succ, repeatTimes_succ, hh, ih]

/-- While the bits that leave the register are 0, nothing is fed back. -/
theorem repeatTimes_feedbackStep_of_clear {n : Nat} (poly : BitVec n) (k : Nat) {c : BitVec n}
    (hc : ∀ i, i < k → c.getMsbD i = false) : repeatTimes (feedbackStep poly) k c = c <<< k := by
  induction k generalizing c with
  | zero => exact (BitVec.shiftLeft_zero c).symm
  | succ k ih =>
    have hstep : feedbackStep poly c = c <<< 1 := if_neg (by simpa [BitVec.msb] using hc 0 (by omega))
    rw [repeatTimes_succ, hstep, ih fun i hi => ?_, Nat.add_comm, BitVec.shiftLeft_add]
    rw [BitVec.getMsbD_shiftLeft, hc (i + 1) (by omega)]

/-! ### CRC-16 by tables (R131) -/

theorem crc16Byte_of_unreflected {cfg : Config} (h : cfg.crc16Reflect = false) (c : BitVec 16) (b : Byte) :
    crc16Byte cfg c b =
      repeatTimes (feedbackStep (cfg.crc16Poly.setWidth 16)) 8 (c ^^^ (b.setWidth 16 <<< 8)) := by
  rw [← crc16Bit_eq_feedbackStep]
  simp [crc16Byte, h]

/-- The table of R131 holds what a byte does to the register 0. -/
theorem crc16_table (cfg : Config) (b : Byte) :
    crc16 { cfg with crc16Init := 0#16, crc16XorOut := 0#16 } [b] = crc16Byte cfg 0#16 b := BitVec.xor_zero

/-- One byte of the form that is not reflected: the high byte meets the input, the low byte is shifted up. -/
theorem crc16Byte_by_table {cfg : Config} (h : cfg.crc16Reflect = false) (c : BitVec 16) (b : Byte) :
    crc16Byte cfg c b = (c <<< 8) ^^^ crc16Byte cfg 0#16 ((c >>> 8).setWidth 8 ^^^ b) := by
  have hsplit : c ^^^ (b.setWidth 16 <<< 8) =
      (c.setWidth 8).setWidth 16 ^^^ (0#16 ^^^ (((c >>> 8).setWidth 8 ^^^ b).setWidth 16 <<< 8)) := by
    ext i hi
    by_cases hlow : i < 8
    · simp [hlow, BitVec.getLsbD_eq_getElem hi]
    · simp [hlow, BitVec.getLsbD_eq_getElem hi, show i - 8 < 8 by omega, show 8 + (i - 8) = i by omega]
  have hclear : ∀ i, i < 8 → ((c.setWidth 8).setWidth 16).getMsbD i = false := by
    intro i hi
    simp [BitVec.getMsbD_eq_getLsbD, show ¬ 15 - i < 8 by omega]
  have hshift : ((c.setWidth 8).setWidth 16) <<< 8 = c <<< 8 := by
    ext i hi
    by_cases hlow : i < 8
    · simp [hlow]
    · simp [hlow, show i - 8 < 8 by omega, show i - 8 < 16 by omega]
  rw [crc16Byte_of_unreflected h, crc16Byte_of_unreflected h, hsplit, repeatTimes_xor (feedbackStep_xor _),
    repeatTimes_feedbackStep_of_clear _ _ hclear, hshift]

/-! ### The reflected CRC-16 as a bit reversal -/

theorem reverse_xor {n : Nat} (a b : BitVec n) : (a ^^^ b).reverse = a.reverse ^^^ b.reverse := by
  ext i hi
  simp only [BitVec.getElem_xor, BitVec.getElem_reverse, BitVec.getMsbD_xor]

theorem reverse_shiftLeft {n : Nat} (a : BitVec n) (k : Nat) : (a <<< k).reverse = a.reverse >>> k := by
  ext i hi
  rw [BitVec.getElem_reverse, BitVec.getMsbD_shiftLeft, BitVec.getElem_ushiftRight, BitVec.getLsbD_reverse, Nat.add_comm]

/-- A byte that enters at the top of the register, mirrored, enters at the bottom. -/
theorem reverse_byte_shiftLeft (b : Byte) : (b.setWidth 16 <<< 8).reverse = b.reverse.setWidth 16 := by
  revert b
  decide

theorem setWidth_reverse_ushiftRight (c : BitVec 16) : (c.reverse >>> 8).setWidth 8 = (c.setWidth 8).reverse := by
  ext i hi
  rw [BitVec.getElem_reverse, BitVec.getElem_setWidth, BitVec.getLsbD_ushiftRight, BitVec.getLsbD_reverse,
    BitVec.getMsbD_eq_getLsbD, BitVec.getMsbD_eq_getLsbD, BitVec.getLsbD_setWidth]
  simp [hi, show 8 + i < 16 by omega, show 7 - i < 8 by omega, show 15 - (8 + i) = 7 - i by omega]

/-- The mirrored step. -/
theorem crc16BitReflected_reverse {cfg cfg' : Config} (hp : cfg'.crc16Poly = cfg.crc16Poly) (c : BitVec 16) :
    crc16BitReflected cfg c.reverse = (crc16Bit cfg' c).reverse := by
  have hbit : c.reverse.getLsbD 0 = c.getLsbD 15 := BitVec.getLsbD_reverse
  unfold crc16BitReflected crc16Bit
  rw [hbit, hp, apply_ite BitVec.reverse, reverse_xor, reverse_shiftLeft]

theorem crc16Byte_of_reflected {cfg : Config} (h : cfg.crc16Reflect = true) (c : BitVec 16) (b : Byte) :
    crc16Byte cfg c b = repeatTimes (crc16BitReflected cfg) 8 (c ^^^ b.setWidth 16) := if_pos h

section
variable {cfg cfg' : Config} (h : cfg.crc16Reflect = true) (h' : cfg'.crc16Reflect = false)
  (hp : cfg'.crc16Poly = cfg.crc16Poly)
include h h' hp

/-- One byte of the reflected form is one byte of the other, mirrored. -/
theorem crc16Byte_reverse (c : BitVec 16) (b : Byte) :
    crc16Byte cfg c.reverse b.reverse = (crc16Byte cfg' c b).reverse := by
  have hin : c.reverse ^^^ b.reverse.setWidth 16 = (c ^^^ (b.setWidth 16 <<< 8)).reverse := by
    rw [reverse_xor, reverse_byte_shiftLeft]
  rw [crc16Byte_of_reflected h, crc16Byte_of_unreflected h', hin,
    repeatTimes_semiconj (crc16BitReflected_reverse hp), crc16Bit_eq_feedbackStep]

theorem crc16Byte_eq_reverse (c : BitVec 16) (b : Byte) :
    crc16Byte cfg c b = (crc16Byte cfg' c.reverse b.reverse).reverse := by
  rw [← crc16Byte_reverse h h' hp, BitVec.reverse_reverse_eq, BitVec.reverse_reverse_eq]

/-- A byte string through the reflected form is the mirrored string through the other, mirrored. -/
theorem foldl_crc16Byte_reverse (bytes : List Byte) (c : BitVec 16) :
    ((bytes.map BitVec.reverse).foldl (crc16Byte cfg') c.reverse).reverse = bytes.foldl (crc16Byte cfg) c := by
  rw [List.foldl_map, ← List.foldl_hom BitVec.reverse (g₂ := crc16Byte cfg), BitVec.reverse_reverse_eq]
  intro x b
  exact (congrArg (crc16Byte cfg x.reverse) BitVec.reverse_reverse_eq.symm).trans (crc16Byte_reverse h h' hp x _)

end

/-- One byte of the reflected form: the low byte meets the input, the high byte is shifted down. -/
theorem crc16Byte_by_table_of_reflected {cfg : Config} (h : cfg.crc16Reflect = true) (c : BitVec 16) (b : Byte) :
    crc16Byte cfg c b = (c >>> 8) ^^^ crc16Byte cfg 0#16 (c.setWidth 8 ^^^ b) := by
  obtain ⟨cfg', h', hp⟩ : ∃ cfg' : Config, cfg'.crc16Reflect = false ∧ cfg'.crc16Poly = cfg.crc16Poly :=
    ⟨{ cfg with crc16Reflect := false }, rfl, rfl⟩
  calc crc16Byte cfg c b
      = (crc16Byte cfg' c.reverse b.reverse).reverse := crc16Byte_eq_reverse h h' hp c b
    _ = ((c.reverse <<< 8) ^^^ crc16Byte cfg' 0#16 (c.setWidth 8 ^^^ b).reverse).reverse := by
        rw [crc16Byte_by_table h', setWidth_reverse_ushiftRight, reverse_xor (c.setWidth 8)]
    _ = (c >>> 8) ^^^ crc16Byte cfg 0#16 (c.setWidth 8 ^^^ b) := by
        rw [reverse_xor, reverse_shiftLeft, BitVec.reverse_reverse_eq, crc16Byte_eq_reverse h h' hp 0#16]
        rfl

/-- Settles O22: byte by byte, the table-driven forms by linearity and the reversal by mirroring the register. -/
theorem crc16IsItsTableDrivenForm : Obligations.Crc16IsItsTableDrivenForm := by
  refine ⟨fun cfg bytes h => ?_, fun cfg bytes h => ?_, fun cfg bytes h => ?_⟩
  · simp only [crc16_table, ← crc16Byte_by_table h]
    rfl
  · simp only [crc16_table, ← crc16Byte_by_table_of_reflected h]
    rfl
  · rw [crc16, crc16, reverse_xor, BitVec.reverse_reverse_eq]
    exact congrArg (· ^^^ cfg.crc16XorOut)
      (foldl_crc16Byte_reverse (cfg' := { cfg with crc16Reflect := false }) h rfl rfl bytes cfg.crc16Init).symm

/-! ### The residue of CRC-24Q (R134) -/

/-- A byte equal to the top byte of the register shifts that byte out. -/
theorem crc24qByte_append_self (cfg : Config) (t : Byte) (r : BitVec 16) : crc24qByte cfg (t ++ r) t = r ++ 0#8 := by
  have htop : t.setWidth 24 <<< 16 = t ++ 0#16 := by revert t; decide
  have hclear : ∀ i, i < 8 → (0#8 ++ r).getMsbD i = false := by
    intro i hi
    rw [BitVec.getMsbD_append]
    simp [hi]
  have hshift : (0#8 ++ r : BitVec 24) <<< 8 = r ++ 0#8 := by
    refine BitVec.eq_of_getLsbD_eq fun i hi => ?_
    rw [BitVec.getLsbD_shiftLeft, BitVec.getLsbD_append, BitVec.getLsbD_append]
    by_cases hlow : i < 8
    · simp [hlow]
    · simp [hlow, hi, show i - 8 < 16 by omega]
  rw [crc24qByte, htop, BitVec.xor_append, BitVec.xor_self, BitVec.xor_zero, crc24qBit_eq_feedbackStep,
    repeatTimes_feedbackStep_of_clear _ _ hclear, hshift]

/-- A register is its three bytes. -/
theorem append_extractLsb'_bytes (c : BitVec 24) :
    c.extractLsb' 16 8 ++ (c.extractLsb' 8 8 ++ c.extractLsb' 0 8) = c := by
  rw [BitVec.extractLsb'_append_extractLsb'_eq_extractLsb' (start₁ := 0) (len₁ := 8) rfl]
  exact (BitVec.extractLsb'_append_extractLsb'_eq_extractLsb' rfl).trans BitVec.extractLsb'_eq_self

/-- The three bytes of a register, fed to it, shift it out. -/
theorem crc24qByte_append_bytes (cfg : Config) (x y z : Byte) :
    crc24qByte cfg (crc24qByte cfg (crc24qByte cfg (x ++ (y ++ z)) x) y) z = 0#24 := by
  have hsecond : ((y ++ z) ++ 0#8 : BitVec 24) = y ++ (z ++ 0#8) := by
    rw [BitVec.append_assoc]; rfl
  have hthird : ((z ++ 0#8) ++ 0#8 : BitVec 24) = z ++ 0#16 := by
    rw [BitVec.append_assoc]; rfl
  rw [crc24qByte_append_self, hsecond, crc24qByte_append_self, hthird, crc24qByte_append_self]
  rfl

/-- Settles O23: each byte of the CRC, most significant first, is the one the register is about to shift out. -/
theorem crc24qOfStringWithItsCrcIsZero : Obligations.Crc24qOfStringWithItsCrcIsZero := by
  intro cfg bytes
  have hself := crc24qByte_append_bytes cfg ((crc24q cfg bytes).extractLsb' 16 8) ((crc24q cfg bytes).extractLsb' 8 8)
    ((crc24q cfg bytes).extractLsb' 0 8)
  rw [append_extractLsb'_bytes] at hself
  rw [crc24q, List.foldl_append]
  exact hself

end Sys2Proof.Machine
end

section
/-! PROOFS. HAMDEC and HAMENC: the parity as the bit lists of R138, the words HAMDEC accepts as the encoded words (R139 to
R142), and the syndrome of a word, which a single flipped bit changes (R143). -/

namespace Sys2Proof.Machine

/-! ### What HAMDEC answers -/

/-- A word is accepted when its parity bits are its parity, and gives its data bits (R139). -/
theorem hamDecode_eq_some_iff {cfg : Config} {w : BitVec 32} {d : BitVec 24} :
    hamDecode cfg w = some d ↔
      hamParity (hamUninvert cfg w) = (hamUninvert cfg w).extractLsb' 0 6 ∧ (hamUninvert cfg w).extractLsb' 6 24 = d := by
  simp [hamDecode]

theorem hamDecode_eq_none_iff {cfg : Config} {w : BitVec 32} :
    hamDecode cfg w = none ↔ hamParity (hamUninvert cfg w) ≠ (hamUninvert cfg w).extractLsb' 0 6 := by
  simp [hamDecode]

theorem exec_hamdec_of_accepted {s : State} {w : BitVec 32} {d : BitVec 24} (hf : s.fault = false)
    (hd : hamDecode s.cfg w = some d) : exec (.hamdec w) s = .next (s.answered true (d.setWidth 64)) := by
  change execHamdec w s = _
  rw [execHamdec, unlessFaulted_of_clear _ hf, hd]
  rfl

theorem exec_hamdec_of_rejected {s : State} {w : BitVec 32} (hf : s.fault = false) (hd : hamDecode s.cfg w = none) :
    exec (.hamdec w) s = .next (s.answered false 0#64) := by
  change execHamdec w s = _
  rw [execHamdec, unlessFaulted_of_clear _ hf, hd]
  rfl

theorem answered_inj {s : State} {f f' : Bool} {u u' : BitVec 64} :
    s.answered f u = s.answered f' u' ↔ f = f' ∧ u = u' := by
  simp [State.answered]

/-- HAMDEC accepts exactly the words that decode (R140). -/
theorem exec_hamdec_accepts_iff {s : State} {w : BitVec 32} {u : BitVec 64} (hf : s.fault = false) :
    exec (.hamdec w) s = .next (s.answered true u) ↔ ∃ d, hamDecode s.cfg w = some d ∧ d.setWidth 64 = u := by
  cases hd : hamDecode s.cfg w with
  | none => simp [exec_hamdec_of_rejected hf hd, answered_inj]
  | some d => simp [exec_hamdec_of_accepted hf hd, answered_inj]

/-! ### The parity by bit lists (R138) -/

/-- The bits a mask selects. -/
def maskBits (m : BitVec 32) : List Nat := (List.range 32).filter m.getLsbD

/-- The fold of a masked word is the exclusive or of the bits the mask selects. -/
theorem foldBits_and_eq (w m : BitVec 32) (k : Nat) :
    foldBits (w &&& m) k = xorOfBits w ((List.range k).filter m.getLsbD) := by
  induction k with
  | zero => rfl
  | succ k ih =>
    rw [foldBits, ih, List.range_succ, List.filter_append, BitVec.getLsbD_and]
    cases hm : m.getLsbD k <;> simp [xorOfBits, hm]

theorem fold_and_eq (w m : BitVec 32) : fold (w &&& m) = xorOfBits w (maskBits m) := foldBits_and_eq w m 32

/-- The order of the bits does not matter. -/
theorem xorOfBits_perm (w : BitVec 32) {l l' : List Nat} (h : l.Perm l') : xorOfBits w l = xorOfBits w l' :=
  h.foldl_eq' (fun _ _ _ _ _ => Bool.xor_right_comm _ _ _) false

/-- The lists of R138 are the bits of its masks. -/
theorem hamBitLists_perm : ∀ k, k < 6 → (maskBits (r2Masks.getD k 0#32)).Perm (hamBitLists.getD k []) := by
  decide

/-- Six bits appended one after another, by index. -/
theorem getLsbD_hamParity (w : BitVec 32) {k : Nat} (hk : k < 6) :
    (hamParity w).getLsbD (5 - k) = fold (w &&& r2Masks.getD k 0#32) := by
  rw [hamParity_eq]
  interval_cases k <;> simp [r2Masks]

/-- Each parity bit is the exclusive or of the bits its list names (R138). -/
theorem getLsbD_hamParity_eq_xorOfBits (w : BitVec 32) {k : Nat} (hk : k < 6) :
    (hamParity w).getLsbD (5 - k) = xorOfBits w (hamBitLists.getD k []) := by
  rw [getLsbD_hamParity w hk, fold_and_eq, xorOfBits_perm w (hamBitLists_perm k hk)]

/-- The parity check of R139, bit by bit. -/
theorem hamParity_eq_low_iff (v : BitVec 32) :
    hamParity v = v.extractLsb' 0 6 ↔ ∀ k, k < 6 → v.getLsbD (5 - k) = xorOfBits v (hamBitLists.getD k []) := by
  have hbit : ∀ k, k < 6 → (v.extractLsb' 0 6).getLsbD (5 - k) = v.getLsbD (5 - k) := by
    intro k hk
    simp [show 5 - k < 6 by omega]
  constructor
  · intro h k hk
    rw [← getLsbD_hamParity_eq_xorOfBits v hk, h, hbit k hk]
  · intro h
    refine BitVec.eq_of_getLsbD_eq fun i hi => ?_
    obtain ⟨k, hk, rfl⟩ : ∃ k, k < 6 ∧ i = 5 - k := ⟨5 - i, by omega, by omega⟩
    rw [getLsbD_hamParity_eq_xorOfBits v hk, hbit k hk, h k hk]

/-- Settles O25: the parity check bit by bit. -/
theorem hamdecChecksTheSixParities : Obligations.HamdecChecksTheSixParities := by
  rintro s w v hf rfl
  change (_ → exec _ s = .next (s.answered true (((hamUninvert s.cfg w).extractLsb' 6 24).setWidth 64))) ∧ _
  constructor
  · intro h
    exact exec_hamdec_of_accepted hf (hamDecode_eq_some_iff.2 ⟨(hamParity_eq_low_iff _).2 h, rfl⟩)
  · rintro ⟨k, hk, hne⟩
    exact exec_hamdec_of_rejected hf (hamDecode_eq_none_iff.2 fun h => hne ((hamParity_eq_low_iff _).1 h k hk))

/-! ### The encoded word is the only one accepted (R142) -/

/-- A word is its two previous bits, its data and its parity bits. -/
theorem append_word_parts (v : BitVec 32) :
    v.extractLsb' 30 2 ++ v.extractLsb' 6 24 ++ v.extractLsb' 0 6 = v := by
  rw [BitVec.extractLsb'_append_extractLsb'_eq_extractLsb' (start₁ := 6) (len₁ := 24) rfl]
  exact (BitVec.extractLsb'_append_extractLsb'_eq_extractLsb' rfl).trans BitVec.extractLsb'_eq_self

/-- A word with the right parity is the encoded word of its data after its two top bits. -/
theorem eq_plainWord_of_parity {v : BitVec 32} (h : hamParity v = v.extractLsb' 0 6) :
    v = plainWord (v.extractLsb' 6 24) (v.extractLsb' 30 2) := by
  have hpar : hamParity (v.extractLsb' 30 2 ++ v.extractLsb' 6 24 ++ 0#6) = v.extractLsb' 0 6 := by
    rw [← hamParity_append _ (v.extractLsb' 0 6), append_word_parts, h]
  rw [plainWord, hpar, append_word_parts]

/-- The conditional complement leaves the two previous bits alone (R139). -/
theorem hamUninvert_top {cfg : Config} (h : cfg.wf) (w : BitVec 32) :
    (hamUninvert cfg w).extractLsb' 30 2 = w.extractLsb' 30 2 := by
  unfold hamUninvert
  split
  · rw [BitVec.extractLsb'_xor, mask_upper_eq_zero h, BitVec.xor_zero]
  · rfl

/-- After given previous bits the conditional complement loses nothing (R139). -/
theorem hamUninvert_append_inj {cfg : Config} {q : BitVec 2} {e e' : BitVec 30}
    (h : hamUninvert cfg (q ++ e) = hamUninvert cfg (q ++ e')) : e = e' := by
  have hword : q ++ e = q ++ e' := by
    unfold hamUninvert at h
    rw [getLsbD_append_30, getLsbD_append_30] at h
    split at h
    · exact (BitVec.xor_left_inj _).1 h
    · exact h
  exact (BitVec.append_right_inj _).1 hword

/-- The words that decode to given data after given previous bits are the encoded word alone (R141, R142). -/
theorem hamDecode_append_eq_some_iff {cfg : Config} (h : cfg.wf) {d : BitVec 24} {q : BitVec 2} {e : BitVec 30} :
    hamDecode cfg (q ++ e) = some d ↔ e = hamEncode cfg d q := by
  have hplain : ∀ e : BitVec 30, hamDecode cfg (q ++ e) = some d → hamUninvert cfg (q ++ e) = plainWord d q := by
    intro e hd
    obtain ⟨hpar, hdata⟩ := hamDecode_eq_some_iff.1 hd
    have htop : (q ++ e).extractLsb' 30 2 = q := BitVec.extractLsb'_append_eq_left
    rw [eq_plainWord_of_parity hpar, hdata, hamUninvert_top h, htop]
  constructor
  · intro hd
    exact hamUninvert_append_inj ((hplain e hd).trans (hplain _ (hamDecode_hamEncode h d q)).symm)
  · rintro rfl
    exact hamDecode_hamEncode h d q

/-- HAMENC answers the encoded word (R142). -/
theorem exec_hamenc {s : State} (hf : s.fault = false) (d : BitVec 24) (q : BitVec 2) :
    exec (.hamenc d q) s = .next (s.answered false ((hamEncode s.cfg d q).setWidth 64)) :=
  show execHamenc d q s = _ from unlessFaulted_of_clear _ hf

theorem setWidth_64_inj {d d' : BitVec 24} : d.setWidth 64 = d'.setWidth 64 ↔ d = d' := by
  constructor
  · intro h
    simpa using congrArg (BitVec.setWidth 24) h
  · rintro rfl
    rfl

/-- Settles O26: the word is the encoded one. -/
theorem hamencIsTheInverseOfHamdec : Obligations.HamencIsTheInverseOfHamdec := by
  intro s d q hf hwf
  refine ⟨hamEncode s.cfg d q, exec_hamenc hf d q, fun e' => ?_⟩
  simp only [exec_hamdec_accepts_iff hf, setWidth_64_inj, exists_eq_right]
  exact hamDecode_append_eq_some_iff hwf

/-! ### Single-bit errors (R143) -/

/-- Where the parity of a word and its parity bits differ. -/
def hamSyndrome (v : BitVec 32) : BitVec 6 := hamParity v ^^^ v.extractLsb' 0 6

theorem hamSyndrome_xor (a b : BitVec 32) : hamSyndrome (a ^^^ b) = hamSyndrome a ^^^ hamSyndrome b := by
  rw [hamSyndrome, hamParity_xor, BitVec.extractLsb'_xor]
  unfold hamSyndrome
  ac_rfl

theorem hamSyndrome_eq_zero_iff {v : BitVec 32} : hamSyndrome v = 0#6 ↔ hamParity v = v.extractLsb' 0 6 :=
  BitVec.xor_eq_zero_iff

/-- What flipping bit `i` changes after the conditional complement: that bit, and with the inversion control bit every bit of
the mask (R139). -/
def flipEffect (mask : BitVec 32) (i : Nat) : BitVec 32 :=
  if i = r2InvBit then BitVec.twoPow 32 i ^^^ mask else BitVec.twoPow 32 i

theorem hamUninvert_xor_twoPow (cfg : Config) (w : BitVec 32) (i : Nat) :
    hamUninvert cfg (w ^^^ BitVec.twoPow 32 i) = hamUninvert cfg w ^^^ flipEffect cfg.r2InvMask i := by
  have hbit : (BitVec.twoPow 32 i).getLsbD r2InvBit = decide (i = r2InvBit) := by
    rw [BitVec.getLsbD_twoPow]
    by_cases hi : i = r2InvBit
    · subst hi; rfl
    · simp [hi]
  unfold hamUninvert flipEffect
  rw [BitVec.getLsbD_xor, hbit]
  by_cases hi : i = r2InvBit
  · cases w.getLsbD r2InvBit <;> simp [hi, BitVec.xor_assoc]
  · cases w.getLsbD r2InvBit <;> simp [hi, BitVec.xor_assoc, BitVec.xor_comm cfg.r2InvMask]

/-- No flipped bit leaves the syndrome as it was, under either inversion mask. -/
theorem hamSyndrome_flipEffect_ne_zero {mask : BitVec 32} (hm : mask = 0x3FFFFFFF#32 ∨ mask = 0x3FFFFFC0#32) {i : Nat}
    (hi : i < 32) : hamSyndrome (flipEffect mask i) ≠ 0#6 := by
  have hdefault : ∀ i, i < 32 → hamSyndrome (flipEffect 0x3FFFFFFF#32 i) ≠ 0#6 := by decide +kernel
  have halternative : ∀ i, i < 32 → hamSyndrome (flipEffect 0x3FFFFFC0#32 i) ≠ 0#6 := by decide +kernel
  rcases hm with rfl | rfl
  · exact hdefault i hi
  · exact halternative i hi

/-- Settles O27: the syndrome of an accepted word is 0, and the flipped bit's is not. -/
theorem hamdecDetectsEverySingleBitError : Obligations.HamdecDetectsEverySingleBitError := by
  intro s w i res hf hm hi hexec
  obtain ⟨d, hd, -⟩ := (exec_hamdec_accepts_iff hf).1 hexec
  obtain ⟨hpar, -⟩ := hamDecode_eq_some_iff.1 hd
  refine exec_hamdec_of_rejected hf (hamDecode_eq_none_iff.2 fun hflip => ?_)
  rw [← hamSyndrome_eq_zero_iff, hamUninvert_xor_twoPow, hamSyndrome_xor, hamSyndrome_eq_zero_iff.2 hpar,
    BitVec.zero_xor] at hflip
  exact hamSyndrome_flipEffect_ne_zero hm hi hflip

end Sys2Proof.Machine
end

section
/-! PROOFS. One READ of the Asv and of the RTCM v3 decoder, row by row of its transition table (R159, R209): each row is
a case of the phase rule, said in the registers of the state. -/

namespace Sys2Proof.Machine

/-! ### The end of one READ -/

/-- One READ of a byte-oriented decoder (R150). -/
theorem exec_readOf_of_rule {s : State} {d : DecoderId} {b : Byte} {rule : Decoder → Option (Decoder × FrameOutcome)}
    {y : Decoder} {o : FrameOutcome} (hf : s.fault = false) (ha : readAccepts d b = true)
    (hrule : readRule s.cfg b d = R2Run.onByte rule) (h : rule (s.dec d).release = some (y, o)) :
    exec (Instr.readOf d b) s = .next (finishRead d y o s) := by
  rw [exec_readOf_of_some (r := ⟨y, s.r2W, s.r2Nbit, o⟩) hf ha, ← finishRead_eq_putRun]
  rw [hrule]
  exact R2Run.onByte_eq_some.2 ⟨y, o, h, rfl⟩

/-- The response to the last byte of a frame, by the values of its two fields (R150). -/
theorem frameReady_of_toNat {id total : BitVec 16} {i t : Nat} (hid : id.toNat = i) (ht : total.toNat = t) :
    Response.frameReady id total = ⟨false, true, 1#3, BitVec.ofNat 64 (65536 * i + t)⟩ := by
  subst hid ht
  rw [← frameReady_eq id.isLt total.isLt]
  simp only [BitVec.ofNat_toNat, BitVec.setWidth_eq]

theorem Memory.isStore_write {m : Memory} (h : m.wf) (a : Nat) (v : Byte) : Memory.IsStore m (m.write a v) a v :=
  ⟨Memory.read_write_self h a v, fun _ hk => Memory.read_write_other m v hk⟩

/-- Whether the frame goes on after a byte, as numbers (R155, R206). -/
theorem n_succ_lt_total_iff {n total : BitVec 16} {cap : Nat} (hn : n.toNat < cap) (hcap : cap < 65536) :
    n + 1#16 < total ↔ n.toNat + 1 < total.toNat := by
  have hsucc : (n + 1#16).toNat = n.toNat + 1 := toNat_add_of_lt (k := 1) hn hcap
  rw [BitVec.lt_def, hsucc]

/-! ### Asv -/

section
variable {cfg : Config} {x : Decoder}

/-- The total length an Asv header announces, as a number (R154). -/
theorem asvAnnounced_eq (x : Decoder) : asvAnnounced x = x.buf.pair true 2 + 12 :=
  congrArg (· + asvOverhead) (Memory.toNat_word16 x.buf true 2)

/-- The CRC of an Asv frame agrees, as numbers (R156). -/
theorem asv_crc_agrees_iff :
    crc16 cfg (x.buf.readRange 0 (x.total.toNat - 2)) = x.buf.word16 cfg.asvCrcLe (x.total.toNat - 2) ↔
      (crc16 cfg (x.buf.bytes 0 (x.total.toNat - 2))).toNat = x.buf.pair cfg.asvCrcLe (x.total.toNat - 2) := by
  rw [← Memory.bytes_eq_readRange, ← Memory.toNat_word16, BitVec.toNat_inj]

theorem asvVerdict_of_agrees
    (h : (crc16 cfg (x.buf.bytes 0 (x.total.toNat - 2))).toNat = x.buf.pair cfg.asvCrcLe (x.total.toNat - 2)) :
    asvVerdict cfg x = .ready x.total (x.buf.word16 cfg.asvIdLe 8) := if_pos (asv_crc_agrees_iff.2 h)

theorem asvVerdict_of_disagrees
    (h : (crc16 cfg (x.buf.bytes 0 (x.total.toNat - 2))).toNat ≠ x.buf.pair cfg.asvCrcLe (x.total.toNat - 2)) :
    asvVerdict cfg x = .mismatch .crcMismatch := if_neg fun he => h (asv_crc_agrees_iff.1 he)

end

section
variable {s : State} {b : Byte} {y : Decoder} {o : FrameOutcome}

theorem exec_readAsv_of_step (hf : s.fault = false) (h : AsvStep s.cfg b s.asv.release y o) :
    exec (.readAsv b) s = .next (finishRead .asv y o s) :=
  exec_readOf_of_rule (d := .asv) hf rfl rfl (asvRule_eq_some.2 h)

/-- A byte without an outcome: only the Asv decoder is new. -/
theorem exec_readAsv_of_more (hf : s.fault = false) (h : AsvStep s.cfg b s.asv.release y .more) :
    exec (.readAsv b) s = .next ({ s with asv := y }.answered false 0#64) := exec_readAsv_of_step hf h

/-- The last byte of a frame whose CRC agrees (R156). -/
theorem exec_readAsv_of_ready {total : BitVec 16} {m : Memory} {le : Bool} (hf : s.fault = false)
    (h : AsvStep s.cfg b s.asv.release y (.ready total (m.word16 le 8))) :
    exec (.readAsv b) s = .next { s with
      asv := { y with flen := total, fid := BitVec.ofNat 16 (m.pair le 8), fvalid := true }
      resp := some ⟨false, true, 1#3, BitVec.ofNat 64 (65536 * m.pair le 8 + total.toNat)⟩ } := by
  rw [exec_readAsv_of_step hf h, finishRead, frameReady_of_toNat (Memory.toNat_word16 m le 8) rfl,
    ← Memory.toNat_word16, BitVec.ofNat_toNat, BitVec.setWidth_eq]
  rfl

end

/-- Settles O28: each row is one case of `AsvStep`. -/
theorem asvDecoderFollowsItsTransitionTable : Obligations.AsvDecoderFollowsItsTransitionTable := by
  intro s b hs hf
  obtain ⟨h0, -, -, hw, -⟩ := hs.asvCommon
  obtain ⟨h1, h2, h3⟩ := hs.asv
  have hheader : s.asv.phase = 2#2 → s.asv.n.toNat < asvMax := fun hp => (h2 hp).2.1.trans_lt (by decide)
  have hmessage : s.asv.phase = 3#2 → s.asv.n.toNat < asvMax := fun hp => by
    obtain ⟨-, hlt, -, hmax⟩ := h3 hp
    exact Nat.lt_of_lt_of_le hlt hmax
  have hmore : s.asv.phase = 3#2 → (s.asv.n + 1#16 < s.asv.total ↔ s.asv.n.toNat + 1 < s.asv.total.toNat) := fun hp =>
    n_succ_lt_total_iff (hmessage hp) (by decide)
  have hannounced := asvAnnounced_eq (s.asv.release.stored b)
  refine ⟨fun hp hb => exec_readAsv_of_more hf (.ignored hp hb),
    fun hp hb => exec_readAsv_of_more hf (.dropped hp hb), fun hsync1 hsync2 =>
    ⟨s.asv.buf.write s.asv.n.toNat b, Memory.isStore_write hw _ _, fun hp => ?_, fun hp => ?_, fun hp hn => ?_,
      fun hp hn hle => ?_, fun hp hn hlt => ?_, fun hp hlt => ?_, fun hp heq => ?_⟩⟩
  · obtain ⟨hn, -⟩ := h0 hp
    rw [hn]
    exact exec_readAsv_of_more hf (.started hp (hsync1 hp))
  · obtain ⟨hn, -⟩ := h1 hp
    rw [hn]
    exact exec_readAsv_of_more hf (.second hp (hsync2 hp))
  · have hnext : s.asv.n + 1#16 = 3#16 := by rw [hn]; rfl
    rw [← hnext]
    exact exec_readAsv_of_more hf (.header hp (hheader hp) (by rw [Decoder.release_n, hnext]; decide))
  · have hnext : s.asv.n + 1#16 = 4#16 := by rw [hn]; rfl
    have hstep := exec_readAsv_of_more hf (.sized hp (hheader hp) hnext (hannounced.trans_le hle))
    rw [hannounced] at hstep
    rw [← hnext]
    exact hstep
  · have hnext : s.asv.n + 1#16 = 4#16 := by rw [hn]; rfl
    exact exec_readAsv_of_more hf (.oversize hp (hheader hp) hnext (hlt.trans_eq hannounced.symm))
  · exact exec_readAsv_of_more hf (.message hp (hmessage hp) ((hmore hp).2 hlt))
  · obtain ⟨-, -, hmin, hmax⟩ := h3 hp
    have hlast : AsvStep s.cfg b s.asv.release _ _ := .last hp (hmessage hp)
      (fun hlt => ((hmore hp).1 hlt).ne heq) (Nat.le_trans (show 2 ≤ 12 by decide) hmin) hmax
    refine ⟨fun hcrc => ?_, fun hcrc => ?_⟩
    · rw [asvVerdict_of_agrees (x := s.asv.release.stored b) hcrc] at hlast
      exact exec_readAsv_of_ready hf hlast
    · rw [asvVerdict_of_disagrees (x := s.asv.release.stored b) hcrc] at hlast
      exact exec_readAsv_of_step hf hlast

/-! ### RTCM v3 -/

section
variable {cfg : Config} {x : Decoder}

/-- The CRC that an RTCM v3 frame carries in its last three bytes (R206). -/
theorem getU_last_three (m : Memory) {t : Nat} (ht : 3 ≤ t) :
    m.getU (8 * (t - 3)) 24 =
      65536 * (m.read (t - 3)).toNat + 256 * (m.read (t - 2)).toNat + (m.read (t - 1)).toNat := by
  rw [m.getU_three_bytes, show t - 3 + 1 = t - 2 by omega, show t - 3 + 2 = t - 1 by omega]

theorem r3Verdict_of_agrees {id : Nat}
    (h : (crc24q cfg (x.buf.bytes 0 (x.total.toNat - 3))).toNat = x.buf.getU (8 * (x.total.toNat - 3)) 24)
    (hid : id = 16 * (x.buf.read 3).toNat + (x.buf.read 4).toNat / 16) :
    r3Verdict cfg x = .ready x.total (BitVec.ofNat 16 id) := by
  rw [hid, ← Memory.getU_24_12]
  exact if_pos (by rwa [← Memory.bytes_eq_readRange])

theorem r3Verdict_of_disagrees
    (h : (crc24q cfg (x.buf.bytes 0 (x.total.toNat - 3))).toNat ≠ x.buf.getU (8 * (x.total.toNat - 3)) 24) :
    r3Verdict cfg x = .mismatch .crcMismatch := if_neg (by rwa [← Memory.bytes_eq_readRange])

/-- While a frame is in progress there is room for its next byte (R34). -/
theorem R3Inv.room (hcfg : cfg.wf) (h : R3Inv cfg x) (hp : x.phase ≠ 0#2) : x.n.toNat < cfg.r3BufMax := by
  obtain ⟨-, -, ⟨hmin, -⟩, -⟩ := hcfg
  obtain ⟨hi1, hi2, hi3, hi23⟩ := h
  rcases phase_cases x.phase with h0 | h1 | h2 | h3
  · exact absurd h0 hp
  · have hle := (hi1 h1).2.1
    omega
  · have hlt := (hi2 h2).2
    have hmax := (hi23 (.inl h2)).2
    omega
  · exact Nat.lt_of_lt_of_le (hi3 h3).2 (hi23 (.inr h3)).2

end

section
variable {s : State} {b : Byte} {y : Decoder} {o : FrameOutcome}

theorem exec_readR3_of_step (hf : s.fault = false) (h : R3Step s.cfg b s.r3.release y o) :
    exec (.readR3 b) s = .next (finishRead .r3 y o s) :=
  exec_readOf_of_rule (d := .r3) hf rfl rfl (r3Rule_eq_some.2 h)

/-- A byte without an outcome: only the RTCM v3 decoder is new. -/
theorem exec_readR3_of_more (hf : s.fault = false) (h : R3Step s.cfg b s.r3.release y .more) :
    exec (.readR3 b) s = .next ({ s with r3 := y }.answered false 0#64) := exec_readR3_of_step hf h

/-- The last byte of a frame whose CRC agrees (R207). -/
theorem exec_readR3_of_ready {total : BitVec 16} {id : Nat} (hf : s.fault = false) (hid : id < 65536)
    (h : R3Step s.cfg b s.r3.release y (.ready total (BitVec.ofNat 16 id))) :
    exec (.readR3 b) s = .next { s with
      r3 := { y with flen := total, fid := BitVec.ofNat 16 id, fvalid := true }
      resp := some ⟨false, true, 1#3, BitVec.ofNat 64 (65536 * id + total.toNat)⟩ } := by
  have hvalue : (BitVec.ofNat 16 id).toNat = id := Nat.mod_eq_of_lt hid
  rw [exec_readR3_of_step hf h, finishRead, frameReady_of_toNat hvalue rfl]
  rfl

end

/-- Settles O29: each row is one case of `R3Step`. -/
theorem rtcmV3DecoderFollowsItsTransitionTable : Obligations.RtcmV3DecoderFollowsItsTransitionTable := by
  intro s b hs hf
  have hcap : s.cfg.r3BufMax < 65536 := capacity_lt hs.cfg .r3
  obtain ⟨h0, -, -, hw, -⟩ := hs.r3Common
  have hroom : ∀ {p}, s.r3.phase = p → p ≠ 0#2 → s.r3.n.toNat < s.cfg.r3BufMax := fun hp hne =>
    hs.r3.room hs.cfg (phase_ne_zero hp hne)
  have hmore : s.r3.phase = 3#2 → (s.r3.n + 1#16 < s.r3.total ↔ s.r3.n.toNat + 1 < s.r3.total.toNat) := fun hp =>
    n_succ_lt_total_iff (hroom hp (by decide)) hcap
  have hsucc : s.r3.phase = 2#2 → (s.r3.release.n + 1#16).toNat = s.r3.n.toNat + 1 := fun hp =>
    toNat_add_of_lt (k := 1) (hroom hp (by decide)) hcap
  have hannounced : r3Announced (s.r3.release.stored b) = _ := Memory.getU_14_10 _
  refine ⟨fun hp hb => exec_readR3_of_more hf (.ignored hp hb), fun hsync =>
    ⟨s.r3.buf.write s.r3.n.toNat b, _, Memory.isStore_write hw _ _, rfl, fun hp => ?_, fun hp hn => ?_,
      fun hp hn hlt => ?_, fun hp hn hle => ?_, fun hp hlt => ?_, fun hp heq => ?_, fun hp hlt => ?_,
      fun hp heq rx id hrx hid => ?_⟩⟩
  · obtain ⟨hn, -⟩ := h0 hp
    rw [hn]
    exact exec_readR3_of_more hf (.started hp (hsync hp))
  · have hnext : s.r3.n + 1#16 = 2#16 := by rw [hn]; rfl
    rw [← hnext]
    exact exec_readR3_of_more hf (.header hp (hroom hp (by decide)) (by rw [Decoder.release_n, hnext]; decide))
  · have hnext : s.r3.n + 1#16 = 3#16 := by rw [hn]; rfl
    exact exec_readR3_of_more hf (.oversize hp (hroom hp (by decide)) hnext (by rw [hannounced]; exact hlt))
  · have hnext : s.r3.n + 1#16 = 3#16 := by rw [hn]; rfl
    have hstep := exec_readR3_of_more hf (.sized hp (hroom hp (by decide)) hnext (by rw [hannounced]; exact hle))
    rw [hannounced] at hstep
    rw [← hnext]
    exact hstep
  · exact exec_readR3_of_more hf (.payload hp (hroom hp (by decide)) (by rw [hsucc hp, Decoder.release_total]; omega))
  · exact exec_readR3_of_more hf
      (.payloadEnd hp (hroom hp (by decide)) (by rw [hsucc hp, Decoder.release_total]; omega))
  · exact exec_readR3_of_more hf (.crc hp (hroom hp (by decide)) ((hmore hp).2 hlt))
  · obtain ⟨-, -, -, hi⟩ := hs.r3
    obtain ⟨hmin, hmax⟩ := hi (.inr hp)
    have hlast : R3Step s.cfg b s.r3.release _ _ := .last hp (hroom hp (by decide))
      (fun hlt => ((hmore hp).1 hlt).ne heq) (Nat.le_trans (show 3 ≤ 6 by decide) hmin) hmax
    rw [← getU_last_three _ (by omega)] at hrx
    subst hrx
    refine ⟨fun hcrc => ?_, fun hcrc => ?_⟩
    · rw [r3Verdict_of_agrees (x := s.r3.release.stored b) hcrc hid] at hlast
      refine exec_readR3_of_ready hf ?_ hlast
      omega
    · rw [r3Verdict_of_disagrees (x := s.r3.release.stored b) hcrc] at hlast
      exact exec_readR3_of_step hf hlast

end Sys2Proof.Machine
end

section
/-! PROOFS. The accumulator of READ.R2 over the six bits of a byte (R173, R174, R181): what it holds when no word ends in
the byte, and what is left of it after an outcome; and a READ.R2 as six bit steps and its end. -/

namespace Sys2Proof.Machine

/-! ### Bits shifted in -/

/-- The payload bits of a byte by their number (R173). -/
theorem r2PayloadBits_eq (cfg : Config) (b : Byte) :
    r2PayloadBits cfg b = (List.range 6).map fun i => b.getLsbD (if cfg.r2LsbFirst then i else 5 - i) := by
  unfold r2PayloadBits
  cases cfg.r2LsbFirst <;> rfl

/-- The bits of the accumulator after a run of shifts: the last bit shifted in is bit 0 (R174). -/
theorem getLsbD_foldl_r2Shift (bits : List Bool) (w : BitVec 32) {i : Nat} (hi : i < 32) :
    (bits.foldl r2Shift w).getLsbD i =
      if i < bits.length then bits.getD (bits.length - 1 - i) false else w.getLsbD (i - bits.length) := by
  induction bits using List.reverseRecOn generalizing i with
  | nil => rfl
  | append_singleton bits bit ih =>
    rw [List.foldl_append, List.foldl_cons, List.foldl_nil, getLsbD_r2Shift _ _ _ hi, List.length_append,
      List.length_singleton, List.getD_eq_getElem?_getD]
    by_cases h0 : i = 0
    · subst h0
      simp
    · rw [if_neg h0, ih (by omega), List.getD_eq_getElem?_getD]
      by_cases hlt : i < bits.length + 1
      · rw [if_pos (by omega), if_pos hlt, List.getElem?_append_left (by omega),
          show bits.length + 1 - 1 - i = bits.length - 1 - (i - 1) by omega]
      · rw [if_neg (by omega), if_neg hlt]
        congr 1
        omega

/-- The accumulator with the payload bits of a byte shifted in, in the byte's order (R173, R174). -/
theorem foldl_r2Shift_payload (cfg : Config) (b : Byte) (w : BitVec 32) :
    (r2PayloadBits cfg b).foldl r2Shift w = (w <<< 6) |||
      (if cfg.r2LsbFirst then (b.extractLsb' 0 6).reverse else b.extractLsb' 0 6).setWidth 32 := by
  ext i hi
  rw [← BitVec.getLsbD_eq_getElem, ← BitVec.getLsbD_eq_getElem, getLsbD_foldl_r2Shift _ _ hi, length_r2PayloadBits,
    r2PayloadBits_eq, BitVec.getLsbD_or, BitVec.getLsbD_shiftLeft, BitVec.getLsbD_setWidth]
  by_cases hlow : i < 6
  · rw [if_pos hlow, List.getD_eq_getElem?_getD, List.getElem?_map, List.getElem?_range (by omega)]
    cases cfg.r2LsbFirst with
    | false => simp [hi, hlow, show 5 - (5 - i) = i by omega]
    | true => simp [hi, hlow, BitVec.getElem_reverse, BitVec.getMsbD_eq_getLsbD, show 5 - i < 6 by omega]
  · rw [if_neg hlow, BitVec.getLsbD_of_ge _ i (by omega)]
    simp [hi, hlow]

/-- A shift, as a number (R174). -/
theorem toNat_r2Shift (w : BitVec 32) (bit : Bool) : (r2Shift w bit).toNat = (2 * w.toNat + bit.toNat) % 2 ^ 32 := by
  have hbit : ((BitVec.ofBool bit).setWidth 32).toNat = bit.toNat := by cases bit <;> rfl
  have hle := Bool.toNat_le bit
  have hshift : (w <<< 1).toNat = (w.toNat % 2 ^ 31) <<< 1 := by
    simp only [BitVec.toNat_shiftLeft, Nat.shiftLeft_eq]
    omega
  rw [r2Shift, BitVec.toNat_or, hbit, hshift, ← Nat.shiftLeft_add_eq_or_of_lt (by omega), Nat.shiftLeft_eq]
  omega

/-- Two accumulators that agree in their last `k` bits agree in one more after a shift. -/
theorem toNat_r2Shift_mod {v w : BitVec 32} {k : Nat} (hk : k < 32) (h : v.toNat = w.toNat % 2 ^ k) (bit : Bool) :
    (r2Shift v bit).toNat = (r2Shift w bit).toNat % 2 ^ (k + 1) := by
  have hle := Bool.toNat_le bit
  have hpow : 2 ^ (k + 1) ≤ 2 ^ 32 := Nat.pow_le_pow_right (by omega) hk
  have hv : v.toNat < 2 ^ k := h ▸ Nat.mod_lt _ (Nat.two_pow_pos k)
  have hw : 2 * w.toNat + bit.toNat = 2 * v.toNat + bit.toNat + 2 ^ (k + 1) * (w.toNat / 2 ^ k) := by
    rw [h, pow_succ', Nat.mul_assoc]
    have := Nat.mod_add_div w.toNat (2 ^ k)
    omega
  rw [toNat_r2Shift, toNat_r2Shift, Nat.mod_mod_of_dvd _ (Nat.pow_dvd_pow 2 hk), hw, Nat.add_mul_mod_self_left,
    Nat.mod_eq_of_lt (by omega), Nat.mod_eq_of_lt (by rw [pow_succ']; omega)]

/-- What the two bits kept on a return to Search become with the bits after it (R181). -/
theorem toNat_foldl_r2Shift_mod {v w : BitVec 32} {bits : List Bool} {k : Nat} (hk : k + bits.length ≤ 32)
    (h : v.toNat = w.toNat % 2 ^ k) :
    (bits.foldl r2Shift v).toNat = (bits.foldl r2Shift w).toNat % 2 ^ (k + bits.length) := by
  induction bits generalizing v w k with
  | nil => exact h
  | cons bit bits ih =>
    rw [List.length_cons] at hk
    have hrest := ih (by omega) (toNat_r2Shift_mod (k := k) (by omega) h bit)
    rwa [Nat.add_assoc, Nat.add_comm 1] at hrest

/-! ### Bits that complete no word -/

/-- The registers after bits that complete no word: all are shifted in, and counted while Synced (R174, R176). -/
def R2Run.shifted (bits : List Bool) (r : R2Run) : R2Run :=
  { r with
    w := bits.foldl r2Shift r.w
    nbit := if r.dec.phase = 0#2 then r.nbit else r.nbit + BitVec.ofNat 5 bits.length }

theorem R2Run.shifted_nil (r : R2Run) : r.shifted [] = r := by
  obtain ⟨x, w, nbit, o⟩ := r
  simp [R2Run.shifted]

theorem R2Run.shifted_shifted (bit : Bool) (bits : List Bool) (r : R2Run) :
    (r.shifted [bit]).shifted bits = r.shifted (bit :: bits) := by
  obtain ⟨x, w, nbit, o⟩ := r
  simp only [R2Run.shifted, List.foldl_cons, List.foldl_nil, List.length_cons, List.length_nil]
  by_cases hp : x.phase = 0#2
  · simp [hp]
  · simp [hp, BitVec.add_assoc, BitVec.ofNat_add, BitVec.add_comm (1#5)]

theorem toNat_shifted_nbit {bit : Bool} {r : R2Run} (hp : r.dec.phase ≠ 0#2) (h : r.nbit.toNat + 1 < 30) :
    (r.shifted [bit]).nbit.toNat = r.nbit.toNat + 1 := by
  rw [R2Run.shifted, if_neg hp, BitVec.toNat_add]
  exact Nat.mod_eq_of_lt (h.trans (by decide))

section
variable {cfg : Config} {bit : Bool} {bits : List Bool} {r r' m : R2Run}

/-- A bit that cannot complete a word is shifted in, and leaves one less to come. -/
theorem r2OnBit_eq_shifted {k : Nat} (h : r.Quiet (k + 1)) :
    r2OnBit cfg bit r = some (r.shifted [bit]) ∧ (r.shifted [bit]).Quiet k := by
  obtain ⟨w, nbit, hbit, hquiet, -⟩ := r2OnBit_of_quiet (cfg := cfg) (bit := bit) h
  suffices hshifted : r2OnBit cfg bit r = some (r.shifted [bit]) by
    rw [← Option.some.inj (hbit.symm.trans hshifted)]
    exact ⟨hbit, hquiet⟩
  obtain ⟨hempty, hcount⟩ := h
  by_cases hp : r.dec.phase = 0#2
  · have hsmall : (r2Shift r.w bit).toNat < 2 ^ 22 := by
      have hlt := toNat_r2Shift_lt r.w bit
      have hbound := hempty hp
      rw [pow_succ', ← mul_assoc, Nat.mul_comm _ 2] at hbound
      exact (hlt.trans_le (Nat.le_mul_of_pos_right _ (Nat.two_pow_pos k))).trans_le hbound
    rw [r2OnBit_of_search hp, r2OnSearch_of_not_found (by simp [r2PreambleMatches_of_small hsmall]), R2Run.shifted,
      if_pos hp]
    rfl
  · rw [r2OnBit_of_count hp (by have := hcount hp; omega), R2Run.shifted, if_neg hp]
    rfl

theorem r2OnBits_eq_shifted (h : r.Quiet bits.length) : r2OnBits cfg bits r = some (r.shifted bits) := by
  induction bits generalizing r with
  | nil => rw [r.shifted_nil]; rfl
  | cons bit bits ih =>
    obtain ⟨hbit, hquiet⟩ := r2OnBit_eq_shifted (cfg := cfg) (bit := bit) h
    simp only [r2OnBits, hbit, ih hquiet, R2Run.shifted_shifted]

/-! ### What is left of the accumulator -/

/-- A bit in Search completes no word, or the first word of a frame (R175). -/
theorem r2OnSearch_accumulator (hp : r.dec.phase = 0#2) :
    r2OnSearch cfg { r with w := r2Shift r.w bit } = r.shifted [bit] ∨
    ∃ x, r2OnSearch cfg { r with w := r2Shift r.w bit } = ⟨x, r2Shift r.w bit, 0#5, r.out⟩ ∧ x.phase ≠ 0#2 := by
  have hshifted : r.shifted [bit] = { r with w := r2Shift r.w bit } := by
    rw [R2Run.shifted, if_pos hp]
    rfl
  rw [hshifted]
  cases hd : hamDecode cfg (r2Shift r.w bit) with
  | none => exact .inl (r2OnSearch_of_not_found fun _ => hd)
  | some d =>
    cases hpre : r2PreambleMatches (r2Shift r.w bit) with
    | true =>
      exact .inr ⟨_, r2OnSearch_of_found (r := { r with w := r2Shift r.w bit }) hpre hd, phase_one_ne_zero⟩
    | false => exact .inl (r2OnSearch_of_not_found fun h => nomatch hpre.symm.trans h)

/-- A complete word while Synced keeps the accumulator, or gives an outcome and leaves two bits of it (R177 to R181). -/
theorem r2OnWord_accumulator (hp : r.dec.phase ≠ 0#2) (h : r2OnWord cfg r = some m) :
    (∃ x, m = { r with dec := x } ∧ x.phase ≠ 0#2) ∨
    ∃ x o, m = ⟨x, r.w &&& 3#32, r.nbit, o⟩ ∧ x.phase = 0#2 ∧ o ≠ .more := by
  cases hd : hamDecode cfg r.w with
  | none =>
    cases (r2OnWord_of_rejected hd).symm.trans h
    exact .inr ⟨_, _, rfl, rfl, nofun⟩
  | some d =>
    by_cases hcap : r.dec.n.toNat + 3 ≤ r2BufMax
    · cases (r2OnWord_of_accepted hd hcap).symm.trans h
      split
      · exact .inl ⟨_, rfl, hp⟩
      · exact .inr ⟨_, _, rfl, rfl, nofun⟩
    · exact nomatch (r2OnWord_of_no_room hd hcap).symm.trans h

/-- What one bit does to the accumulator: it completes no word; or a word that gives no outcome (R175, R177); or one that
does, of which two bits stay (R181). -/
theorem r2OnBit_accumulator (hn : r.dec.phase ≠ 0#2 → r.nbit.toNat < 30) (h : r2OnBit cfg bit r = some m) :
    (m = r.shifted [bit] ∧ (r.dec.phase ≠ 0#2 → r.nbit.toNat + 1 < 30)) ∨
    (∃ x, m = ⟨x, r2Shift r.w bit, 0#5, r.out⟩ ∧ x.phase ≠ 0#2) ∨
    (r.dec.phase ≠ 0#2 ∧ r.nbit.toNat = 29 ∧
      ∃ x o, m = ⟨x, r2Shift r.w bit &&& 3#32, 0#5, o⟩ ∧ x.phase = 0#2 ∧ o ≠ .more) := by
  by_cases hp : r.dec.phase = 0#2
  · rw [r2OnBit_of_search hp] at h
    cases h
    exact (r2OnSearch_accumulator hp).imp (fun h => ⟨h, fun h => absurd hp h⟩) .inl
  · by_cases hcount : r.nbit.toNat + 1 < 30
    · rw [r2OnBit_of_count hp hcount] at h
      cases h
      rw [R2Run.shifted, if_neg hp]
      exact .inl ⟨rfl, fun _ => hcount⟩
    · have hlast : r.nbit.toNat = 29 := by have := hn hp; omega
      rw [r2OnBit_of_word hp hcount] at h
      exact .inr ((r2OnWord_accumulator (r := { r with w := r2Shift r.w bit, nbit := 0#5 }) hp h).imp_right
        fun hleft => ⟨hp, hlast, hleft⟩)

/-- What a run of bits leaves of the accumulator (R174, R181). -/
inductive Accumulates (bits : List Bool) (r r' : R2Run) : Prop
  /-- No outcome: every bit is held. -/
  | kept : r'.out = r.out → r'.w = bits.foldl r2Shift r.w → Accumulates bits r r'
  /-- An outcome at the 30th bit of the word in progress: its last two bits and the bits after it are held. -/
  | left : r.dec.phase ≠ 0#2 → 30 ≤ r.nbit.toNat + bits.length → r'.out ≠ .more → r'.dec.phase = 0#2 → r'.nbit = 0#5 →
      r'.w.toNat = (bits.foldl r2Shift r.w).toNat % 2 ^ (2 + (r.nbit.toNat + bits.length - 30)) →
      Accumulates bits r r'

theorem toNat_and_three (v : BitVec 32) : (v &&& 3#32).toNat = v.toNat % 2 ^ 2 := by
  rw [BitVec.toNat_and]
  exact Nat.and_two_pow_sub_one_eq_mod v.toNat 2

/-- The bits of a byte: after a complete word no other follows (R182). -/
theorem r2OnBits_accumulates (hlen : bits.length ≤ 20) (hn : r.dec.phase ≠ 0#2 → r.nbit.toNat < 30)
    (h : r2OnBits cfg bits r = some r') : Accumulates bits r r' := by
  induction bits generalizing r with
  | nil =>
    cases h
    exact .kept rfl rfl
  | cons bit bits ih =>
    rw [List.length_cons] at hlen
    obtain ⟨m, hbit, hbits⟩ := r2OnBits_cons_eq_some h
    rcases r2OnBit_accumulator hn hbit with ⟨rfl, hcount⟩ | ⟨x, rfl, hx⟩ | ⟨hp, h29, x, o, rfl, hx, ho⟩
    · have hsucc : r.dec.phase ≠ 0#2 → (r.shifted [bit]).nbit.toNat = r.nbit.toNat + 1 := fun hp =>
        toNat_shifted_nbit hp (hcount hp)
      cases ih (r := r.shifted [bit]) (by omega) (fun hp => (hsucc hp).trans_lt (hcount hp)) hbits with
      | kept hout hw => exact .kept hout hw
      | left hp hend hout hx hnbit hw =>
        rw [hsucc hp, Nat.add_assoc, Nat.add_comm 1] at hend hw
        exact .left hp hend hout hx hnbit hw
    · have hquiet : R2Run.Quiet bits.length ⟨x, r2Shift r.w bit, 0#5, r.out⟩ := quiet_of_synced hx (by omega)
      cases (r2OnBits_eq_shifted hquiet).symm.trans hbits
      exact .kept rfl rfl
    · have hquiet : R2Run.Quiet bits.length ⟨x, r2Shift r.w bit &&& 3#32, 0#5, o⟩ := quiet_of_left hx (by omega)
      cases (r2OnBits_eq_shifted hquiet).symm.trans hbits
      refine .left hp (by simp; omega) ho hx (if_pos hx) ?_
      rw [List.length_cons, show 2 + (r.nbit.toNat + (bits.length + 1) - 30) = 2 + bits.length by omega]
      exact toNat_foldl_r2Shift_mod (by omega) (toNat_and_three (r2Shift r.w bit))

theorem Accumulates.of_more (h : Accumulates bits r r') (hmore : r'.out = .more) : r'.w = bits.foldl r2Shift r.w := by
  cases h with
  | kept _ hw => exact hw
  | left _ _ hout _ _ _ => exact absurd hmore hout

/-- A byte gives an outcome only if 24 bits at least of the word in progress came before it. -/
theorem Accumulates.of_outcome (h : Accumulates bits r r') (hlen : bits.length = 6) (hr : r.out = .more)
    (hout : r'.out ≠ .more) :
    24 ≤ r.nbit.toNat ∧ r'.nbit = 0#5 ∧ r'.dec.phase = 0#2 ∧
      r'.w.toNat = (bits.foldl r2Shift r.w).toNat % 2 ^ (2 + (r.nbit.toNat - 24)) := by
  cases h with
  | kept hmore _ => exact absurd (hmore.trans hr) hout
  | left _ hend _ hx hzero hw =>
    rw [hlen] at hend hw
    rw [show r.nbit.toNat + 6 - 30 = r.nbit.toNat - 24 by omega] at hw
    exact ⟨by omega, hzero, hx, hw⟩

end

/-! ### A READ.R2 of an accepted byte (R171) -/

section
variable {s : State} {b : Byte} {r : R2Run}

theorem exec_readR2_of_run (hf : s.fault = false) (ha : b.toNat / 64 = 1)
    (h : r2OnBits s.cfg (r2PayloadBits s.cfg b) (s.readRun .r2) = some r) :
    exec (.readR2 b) s = .next (s.putRun .r2 r) :=
  exec_readOf_of_some (d := .r2) hf (r2Accepts_of_div ha) h

/-- The end of READ.R2 without an outcome (R150). -/
theorem putRun_r2_of_more (h : r.out = .more) :
    s.putRun .r2 r = { s with r2 := r.dec, r2W := r.w, r2Nbit := r.nbit }.answered false 0#64 := by
  rw [State.putRun, R2Run.finished, h]
  rfl

/-- The end of READ.R2 with a rejected word (R150, R178). -/
theorem putRun_r2_of_mismatch (h : r.out = .mismatch .parityMismatch) :
    s.putRun .r2 r = { s with
      r2 := { r.dec with errcnt := (r.dec.errcnt + 1) % 2 ^ s.cfg.cntW }, r2W := r.w, r2Nbit := r.nbit
      resp := some ⟨false, false, 3#3, 0#64⟩ } := by
  rw [State.putRun, R2Run.finished, h]
  rfl

/-- The end of READ.R2 with a completed frame (R150, R180). -/
theorem putRun_r2_of_ready {total id : BitVec 16} (h : r.out = .ready total id) :
    s.putRun .r2 r = { s with
      r2 := { r.dec with fvalid := true, flen := total, fid := id }, r2W := r.w, r2Nbit := r.nbit
      resp := some ⟨false, true, 1#3, BitVec.ofNat 64 (65536 * id.toNat + total.toNat)⟩ } := by
  rw [State.putRun, R2Run.finished, h, FrameOutcome.response, frameReady_of_toNat rfl rfl]
  rfl

end

/-- Settles O32: the six bits complete no word, so all of them are shifted in and counted. -/
theorem rtcmV2SyncedByteShiftsSixBits : Obligations.RtcmV2SyncedByteShiftsSixBits := by
  intro s b hf hb hphase hnbit
  have hp : (s.readRun .r2).dec.phase ≠ 0#2 := phase_ne_zero hphase phase_one_ne_zero
  have hquiet : (s.readRun .r2).Quiet (r2PayloadBits s.cfg b).length := by
    rw [length_r2PayloadBits]
    exact ⟨fun h => absurd h hp, fun _ => hnbit⟩
  rw [exec_readR2_of_run hf hb (r2OnBits_eq_shifted hquiet), putRun_r2_of_more rfl, R2Run.shifted, if_neg hp,
    foldl_r2Shift_payload, length_r2PayloadBits]
  rfl

theorem r2OnBits_range_succ (cfg : Config) (bit : Nat → Bool) (k : Nat) (r : R2Run) :
    r2OnBits cfg ((List.range (k + 1)).map bit) r =
      (r2OnBits cfg ((List.range k).map bit) r).bind (r2OnBit cfg (bit k)) := by
  rw [List.range_succ, List.map_append, r2OnBits_append]
  exact congrArg _ (funext fun m => r2OnBits_singleton (bit k) m)

/-- The six bit steps of a byte, one after another (R171). -/
theorem r2OnBits_six (cfg : Config) (bit : Nat → Bool) (r : R2Run) :
    r2OnBits cfg ((List.range 6).map bit) r =
      ((((((r2OnBit cfg (bit 0) r).bind (r2OnBit cfg (bit 1))).bind (r2OnBit cfg (bit 2))).bind
        (r2OnBit cfg (bit 3))).bind (r2OnBit cfg (bit 4))).bind (r2OnBit cfg (bit 5))) := by
  simp only [r2OnBits_range_succ]
  rfl

/-- Settles O36: the phase rule has a result under the invariants, and what it leaves of the accumulator says whether a
word ended its frame in the byte. -/
theorem rtcmV2AcceptedByteIsSixBitSteps : Obligations.RtcmV2AcceptedByteIsSixBitSteps := by
  intro s b bit shifted hs hf hlow hhigh hbit hshifted
  have hbits : r2PayloadBits s.cfg b = (List.range 6).map bit := by rw [r2PayloadBits_eq, funext hbit]
  have hlen := length_r2PayloadBits s.cfg b
  obtain ⟨hphase, -, -, hsynced⟩ := hs.r2
  have hnbit : (s.readRun .r2).dec.phase ≠ 0#2 → (s.readRun .r2).nbit.toNat < 30 := fun hp => by
    obtain ⟨-, -, -, hle, -⟩ := hsynced (hphase.resolve_left hp)
    exact Nat.lt_succ_of_le hle
  obtain ⟨r, hr⟩ := readRule_exists b hs.cfg (State.readRun_inv hs .r2)
  have hrun : r2OnBits s.cfg (r2PayloadBits s.cfg b) (s.readRun .r2) = some r := hr
  have hexec := exec_readR2_of_run hf (by omega) hrun
  have herrcnt : r.dec.errcnt = s.r2.errcnt := (readRule_keeps hr).1
  have hacc := r2OnBits_accumulates (by omega) hnbit hrun
  rw [← foldl_r2Shift_payload] at hshifted
  subst hshifted
  have hleft := hacc.of_outcome hlen rfl
  refine ⟨r, ?_, fun hmore => ⟨hacc.of_more hmore, ?_⟩, hleft, fun e he => ?_, fun total id hready => ?_⟩
  · rw [← hrun, hbits, r2OnBits_six]
    rfl
  · rw [hexec, putRun_r2_of_more hmore]
  · obtain rfl : e = .parityMismatch := (r2Rule_effect hr).mismatch rfl he
    obtain ⟨-, hzero, -⟩ := hleft (by simp [he])
    exact ⟨rfl, by rw [hexec, putRun_r2_of_mismatch he, hzero, herrcnt]⟩
  · obtain ⟨-, hzero, -⟩ := hleft (by simp [hready])
    rw [hexec, putRun_r2_of_ready hready, hzero]

end Sys2Proof.Machine
end

section
/-! PROOFS. READ.R2 row by row: the byte filter (R172), the transition table of one bit (R183), at most one outcome a byte
(R182), and what a parity mismatch leaves (R178, R181, R272). -/

namespace Sys2Proof.Machine

/-! ### The byte filter (R172) -/

theorem r2Accepts_eq_true_iff {b : Byte} : r2Accepts b = true ↔ 0x40 ≤ b.toNat ∧ b.toNat ≤ 0x7F :=
  ⟨r2Accepts_range, fun ⟨hlow, hhigh⟩ => r2Accepts_of_div (by omega)⟩

theorem r2Accepts_eq_false_iff {b : Byte} : r2Accepts b = false ↔ b.toNat < 0x40 ∨ 0x7F < b.toNat := by
  rw [← Bool.not_eq_true, r2Accepts_eq_true_iff]
  omega

/-- Only READ.R2 has a filter, and it lets the bytes 0x40 to 0x7F on. -/
theorem readAccepts_of_range {d : DecoderId} {b : Byte} (h : d ≠ .r2 ∨ (0x40 ≤ b.toNat ∧ b.toNat ≤ 0x7F)) :
    readAccepts d b = true := by
  cases d with
  | r2 => exact r2Accepts_eq_true_iff.2 (h.resolve_left fun hne => hne rfl)
  | asv | r3 | sbf => rfl

/-- A READ that completes no frame leaves FVALID as its phase rule does. -/
theorem fvalid_finished {cfg : Config} {r : R2Run} (h : r.out.response.flag = false) :
    (r.finished cfg).fvalid = r.dec.fvalid := by
  unfold R2Run.finished
  cases hout : r.out with
  | more | mismatch => rfl
  | ready total id =>
    rw [hout] at h
    cases h

/-- Settles O31: a byte the filter refuses gets an answer alone; every other READ releases the retained frame first. -/
theorem rtcmV2ByteFilterChangesNothing : Obligations.RtcmV2ByteFilterChangesNothing := by
  refine ⟨fun s b hf hb => exec_readOf_of_not_accepts (d := .r2) hf (r2Accepts_eq_false_iff.2 hb),
    fun s t d b r hf hb h hresp hflag => ?_⟩
  have haccepts := readAccepts_of_range hb
  rcases exec_readOf_eq_next h with ⟨hfault, -⟩ | ⟨-, hrefused, -⟩ | ⟨-, -, r', hr, rfl⟩
  · exact nomatch hf.symm.trans hfault
  · exact nomatch haccepts.symm.trans hrefused
  · cases (State.putRun_resp s d r').symm.trans hresp
    rw [State.putRun_dec_self, fvalid_finished hflag, (readRule_keeps hr).2]
    rfl

/-! ### The transition table of one bit (R183) -/

/-- The shift of R174 as the table writes it. -/
theorem r2Shift_eq (w : BitVec 32) (bit : Bool) : r2Shift w bit = (w <<< 1) ||| (if bit then 1#32 else 0#32) := by
  cases bit <;> rfl

/-- The preamble test by its two forms, plain and inverted (R175). -/
theorem r2PreambleMatches_iff {w : BitVec 32} :
    r2PreambleMatches w = true ↔
      (w.getLsbD 30 = false ∧ w.extractLsb' 22 8 = 0x66#8) ∨ (w.getLsbD 30 = true ∧ w.extractLsb' 22 8 = 0x99#8) := by
  have hinverted : w.extractLsb' 22 8 ^^^ 0xFF#8 = 0x66#8 ↔ w.extractLsb' 22 8 = 0x99#8 :=
    BitVec.xor_left_inj (x := w.extractLsb' 22 8) (y := 0x99#8) 0xFF#8
  unfold r2PreambleMatches r2InvBit r2Preamble
  cases w.getLsbD 30 with
  | false => simp
  | true => simpa using hinverted

/-- Storing a data word, said through reads (R139). -/
theorem Memory.isStore3_write3 {m : Memory} (h : m.wf) (a : Nat) (d : BitVec 24) :
    Memory.IsStore3 m (m.write3 a d) a d := by
  have h1 := Memory.write_wf h a (d.extractLsb' 16 8)
  have h2 := Memory.write_wf h1 (a + 1) (d.extractLsb' 8 8)
  refine ⟨?_, ?_, Memory.read_write_self h2 _ _, fun k hk => Memory.read_write3_other m d hk⟩
  · rw [Memory.write3, Memory.read_write_other _ _ (by omega), Memory.read_write_other _ _ (by omega),
      Memory.read_write_self h]
  · rw [Memory.write3, Memory.read_write_other _ _ (by omega), Memory.read_write_self h1]

section
variable {cfg : Config} {bit : Bool} {r : R2Run} {w : BitVec 32} {d : BitVec 24}

/-- In Search, a bit that shows no accepted first word is shifted in (R175). -/
theorem r2OnBit_of_search_not_found (hp : r.dec.phase = 0#2) (hw : w = r2Shift r.w bit)
    (h : r2PreambleMatches w = true → hamDecode cfg w = none) : r2OnBit cfg bit r = some { r with w := w } := by
  subst hw
  rw [r2OnBit_of_search hp, r2OnSearch_of_not_found (r := { r with w := r2Shift r.w bit }) h]

/-- In Search, the last bit of an accepted first word starts the frame (R175). -/
theorem r2OnBit_of_search_found (hp : r.dec.phase = 0#2) (hw : w = r2Shift r.w bit)
    (hpre : r2PreambleMatches w = true) (hd : hamDecode cfg w = some d) :
    r2OnBit cfg bit r = some { r with
      w := w, nbit := 0#5, dec := { r.dec with buf := r.dec.buf.write3 0 d, n := 3#16, phase := 1#2 } } := by
  subst hw
  rw [r2OnBit_of_search hp, r2OnSearch_of_found (r := { r with w := r2Shift r.w bit }) hpre hd]

/-- The 30th bit of a rejected word (R178, R181). -/
theorem r2OnBit_of_rejected (hp : r.dec.phase ≠ 0#2) (hn : r.nbit = 29#5) (hw : w = r2Shift r.w bit)
    (hd : hamDecode cfg w = none) :
    r2OnBit cfg bit r = some ⟨r.dec.resync, w &&& 3#32, 0#5, .mismatch .parityMismatch⟩ := by
  subst hw
  rw [r2OnBit_of_word hp (by rw [hn]; decide)]
  exact r2OnWord_of_rejected (r := { r with w := r2Shift r.w bit, nbit := 0#5 }) hd

/-- The 30th bit of an accepted word (R177, R179 to R181). -/
theorem r2OnBit_of_accepted (hp : r.dec.phase ≠ 0#2) (hn : r.nbit = 29#5) (hw : w = r2Shift r.w bit)
    (hd : hamDecode cfg w = some d) (hcap : r.dec.n.toNat + 3 ≤ r2BufMax) :
    r2OnBit cfg bit r = some (
      if (r.dec.withWord cfg d).n < (r.dec.withWord cfg d).total then
        { r with dec := r.dec.withWord cfg d, w := w, nbit := 0#5 }
      else ⟨(r.dec.withWord cfg d).resync, w &&& 3#32, 0#5, .ready (r.dec.withWord cfg d).total
        (BitVec.ofNat 16 (((r.dec.withWord cfg d).buf.read 1).toNat / 4))⟩) := by
  subst hw
  rw [r2OnBit_of_word hp (by rw [hn]; decide),
    r2OnWord_of_accepted (r := { r with w := r2Shift r.w bit, nbit := 0#5 }) hd hcap, Memory.getU_8_6]
  rfl

end

/-- The second word announces the total length, the words after it keep it (R179). -/
theorem withWord_total (cfg : Config) (d : BitVec 24) (x : Decoder) :
    (x.withWord cfg d).total = if x.n = 3#16 then r2TotalOf cfg (x.withWord cfg d).buf else x.total := by
  have hsecond : x.n + 3#16 = 6#16 ↔ x.n = 3#16 := BitVec.add_left_inj (x := x.n) (y := 3#16) 3#16
  simp only [Decoder.withWord, hsecond]

/-- A word in a frame in progress has room, and the total length is not below the bytes then stored (R34, R179). -/
theorem withWord_fits {cfg : Config} {x : Decoder} {nbit : BitVec 5} (d : BitVec 24) (hi : R2Inv cfg x nbit)
    (hp : x.phase = 1#2) :
    x.n.toNat + 3 ≤ r2BufMax ∧ (x.withWord cfg d).n.toNat = x.n.toNat + 3 ∧
      x.n.toNat + 3 ≤ (x.withWord cfg d).total.toNat := by
  obtain ⟨-, -, -, hsynced⟩ := hi
  obtain ⟨hmin, hmax, hmod, -, -, hwords⟩ := hsynced hp
  have hroom : x.n.toNat + 3 ≤ r2BufMax := Nat.add_le_add_right hmax 3
  refine ⟨hroom, toNat_add_of_lt (k := 3) hroom (by decide), ?_⟩
  rw [withWord_total]
  split
  · next h3 =>
    rw [toNat_r2TotalOf, h3]
    exact Nat.le_add_left 6 _
  · next h3 =>
    have hne : x.n.toNat ≠ 3 := fun he => h3 (BitVec.eq_of_toNat_eq he)
    obtain ⟨htotal, hlt, -⟩ := hwords (by omega)
    rw [BitVec.lt_def] at hlt
    rw [htotal, toNat_r2TotalOf] at hlt ⊢
    omega

/-- Settles O33: the rows in Search by the preamble test and the word's parity, those while Synced by the bit count, the
parity and the total length. -/
theorem rtcmV2BitFollowsItsTransitionTable : Obligations.RtcmV2BitFollowsItsTransitionTable := by
  intro cfg bit r w hcfg hi hbuf hw
  rw [← r2Shift_eq] at hw
  obtain ⟨-, -, hsearch, -⟩ := id hi
  have hsynced : r.dec.phase = 1#2 → r.dec.phase ≠ 0#2 := fun hp => phase_ne_zero hp phase_one_ne_zero
  refine ⟨fun hp => ⟨fun hplain hinverted => ?_, fun hd => ?_, fun d hpre hd => ?_⟩, fun hp hn => ?_,
    fun hp hn => ⟨fun hd => r2OnBit_of_rejected (hsynced hp) hn hw hd, fun d hd => ?_⟩⟩
  · refine r2OnBit_of_search_not_found hp hw fun hpre => ?_
    rcases r2PreambleMatches_iff.1 hpre with ⟨hinv, htop⟩ | ⟨hinv, htop⟩
    · exact absurd htop (hplain hinv)
    · exact absurd htop (hinverted hinv)
  · exact r2OnBit_of_search_not_found hp hw fun _ => hd
  · obtain ⟨-, htotal⟩ := hsearch hp
    refine ⟨_, Memory.isStore3_write3 hbuf 0 d, ?_⟩
    rw [r2OnBit_of_search_found hp hw (r2PreambleMatches_iff.2 hpre) hd, ← htotal]
  · subst hw
    exact r2OnBit_of_count (hsynced hp) (by omega)
  · obtain ⟨hroom, hn3, hle⟩ := withWord_fits (cfg := cfg) d hi hp
    obtain ⟨-, -, -, -, hshift, -⟩ := hcfg
    have hbit := r2OnBit_of_accepted (hsynced hp) hn hw hd hroom
    refine ⟨(r.dec.withWord cfg d).buf, (r.dec.withWord cfg d).total, Memory.isStore3_write3 hbuf _ d, fun h3 => ?_,
      fun h3 => ?_, fun hlt => ?_, fun hge => ⟨by omega, ?_⟩⟩
    · rw [withWord_total, if_pos h3, toNat_r2TotalOf, r2LengthField_eq hshift]
    · rw [withWord_total, if_neg h3]
    · rw [hbit, if_pos (by rw [BitVec.lt_def]; omega)]
      rfl
    · rw [hbit, if_neg (by rw [BitVec.lt_def]; omega)]
      rfl

/-! ### The bits after an outcome (R182) -/

/-- The bits of a byte that come after an outcome complete no word: the accumulator holds two bits and those few. -/
theorem Accumulates.quiet_of_outcome {bits : List Bool} {r r' : R2Run} {k : Nat} (h : Accumulates bits r r')
    (hr : r.out = .more) (hout : r'.out ≠ .more) (hn : r.dec.phase ≠ 0#2 → r.nbit.toNat < 30)
    (hk : bits.length + k ≤ 20) : r'.dec.phase = 0#2 ∧ r'.nbit = 0#5 ∧ r'.Quiet k := by
  cases h with
  | kept hmore _ => exact absurd (hmore.trans hr) hout
  | left hp _ _ hx hzero hw =>
    have hcount := hn hp
    refine ⟨hx, hzero, fun _ => ?_, fun hne => absurd hx hne⟩
    have hsmall : r'.w.toNat + 1 ≤ 2 ^ (2 + bits.length) := by
      rw [hw]
      exact (Nat.mod_lt _ (Nat.two_pow_pos _)).trans_le (Nat.pow_le_pow_right (by omega) (by omega))
    calc (r'.w.toNat + 1) * 2 ^ k ≤ 2 ^ (2 + bits.length) * 2 ^ k := Nat.mul_le_mul_right _ hsmall
      _ = 2 ^ (2 + bits.length + k) := (Nat.pow_add 2 _ _).symm
      _ ≤ 2 ^ 22 := Nat.pow_le_pow_right (by omega) (by omega)

/-- While Synced, fewer than 30 bits of the word in progress have come (R29, R34). -/
theorem nbit_lt_of_inv {cfg : Config} {x : Decoder} {nbit : BitVec 5} (h : R2Inv cfg x nbit) (hp : x.phase ≠ 0#2) :
    nbit.toNat < 30 := by
  obtain ⟨hphase, -, -, hsynced⟩ := h
  obtain ⟨-, -, -, hle, -⟩ := hsynced (hphase.resolve_left hp)
  exact Nat.lt_succ_of_le hle

/-- Settles O34: after an outcome the byte's further bits are shifted in and do nothing else. -/
theorem rtcmV2ReadYieldsAtMostOneOutcome : Obligations.RtcmV2ReadYieldsAtMostOneOutcome := by
  intro cfg bits rest r r' r'' _ hi hr hlen hbits hout hrest
  have hn := nbit_lt_of_inv hi
  obtain ⟨hphase, hzero, hquiet⟩ :=
    (r2OnBits_accumulates (by omega) hn hbits).quiet_of_outcome (k := rest.length) hr hout hn (by omega)
  cases (r2OnBits_eq_shifted hquiet).symm.trans hrest
  exact ⟨rfl, rfl, hphase, (if_pos hphase).trans hzero⟩

/-! ### A parity mismatch (R178, R272) -/

/-- Only a rejected word gives a mismatch, and it discards the frame in progress. -/
theorem R2Effect.dec_of_mismatch {cfg : Config} {r r' : R2Run} {e : Event} (h : R2Effect cfg r r') (hr : r.out = .more)
    (he : r'.out = .mismatch e) : r'.dec = r.dec.resync := by
  cases h with
  | shifted | synced | word => exact nomatch hr.symm.trans he
  | rejected => rfl
  | complete => cases he

theorem FrameOutcome.eq_mismatch_of_ev {o : FrameOutcome} (h : o.response.ev = 3#3) : o = .mismatch .parityMismatch := by
  cases o with
  | more | ready => cases h
  | mismatch e =>
    cases e with
    | parityMismatch => rfl
    | none | frameReady | crcMismatch => cases h

/-- Settles O35: of the effects of a byte only a rejected word answers ParityMismatch; it keeps two bits of the accumulator,
and the bits after them are shifted in. -/
theorem parityMismatchDiscardsTheFrame : Obligations.ParityMismatchDiscardsTheFrame := by
  intro s t b r hs hf h hresp hev
  rcases exec_readOf_eq_next (d := .r2) h with ⟨hfault, -⟩ | ⟨-, -, rfl⟩ | ⟨-, -, r', hr, rfl⟩
  · exact nomatch hf.symm.trans hfault
  · cases hresp
    cases hev
  · cases (State.putRun_resp s .r2 r').symm.trans hresp
    have hout := FrameOutcome.eq_mismatch_of_ev hev
    have hacc : Accumulates (r2PayloadBits s.cfg b) (s.readRun .r2) r' :=
      r2OnBits_accumulates (by rw [length_r2PayloadBits]; decide) (nbit_lt_of_inv hs.r2) hr
    obtain ⟨hcount, hzero, -, hw⟩ := hacc.of_outcome (length_r2PayloadBits s.cfg b) rfl (by simp [hout])
    rw [foldl_r2Shift_payload] at hw
    refine ⟨by rw [hout]; rfl, hcount, by rw [State.putRun_r2W]; exact hw, ?_⟩
    rw [putRun_r2_of_mismatch hout, hzero, (r2Rule_effect hr).dec_of_mismatch rfl hout, hout]
    rfl

end Sys2Proof.Machine
end

section
/-! PROOFS. One READ of the SBF-style decoder, row by row of its transition table (R230). A byte that completes a frame,
which may be its header alone, is one case for both rows: the verdict depends on the stored bytes and the length only. -/

namespace Sys2Proof.Machine

/-- A 16-bit field is given by its two bytes as a number (R97). -/
theorem Memory.ofNat_pair (m : Memory) (le : Bool) (a : Nat) : BitVec.ofNat 16 (m.pair le a) = m.word16 le a := by
  rw [← Memory.toNat_word16, BitVec.ofNat_toNat, BitVec.setWidth_eq]

section
variable {cfg : Config} {x : Decoder}

/-- While a frame is in progress there is room for its next byte (R34). -/
theorem SbfInv.room (hcfg : cfg.wf) (h : SbfInv cfg x) (hp : x.phase ≠ 0#2) : x.n.toNat < cfg.sbfBufMax := by
  obtain ⟨-, ⟨hmin, -⟩, -⟩ := hcfg
  obtain ⟨hi1, hi2, hi3⟩ := h
  rcases phase_cases x.phase with h0 | h1 | h2 | h3
  · exact absurd h0 hp
  · rw [(hi1 h1).1]
    exact Nat.lt_of_lt_of_le (by decide) hmin
  · obtain ⟨-, hle, -⟩ := hi2 h2
    omega
  · obtain ⟨-, hlt, -, hmax⟩ := hi3 h3
    exact Nat.lt_of_lt_of_le hlt hmax

/-- The total length an SBF-style header announces, as a number (R225). -/
theorem toNat_sbfAnnounced (cfg : Config) (x : Decoder) : (sbfAnnounced cfg x).toNat = x.buf.pair cfg.sbfLe 6 :=
  Memory.toNat_word16 x.buf cfg.sbfLe 6

/-- The CRC of an SBF-style frame agrees, as numbers (R227). -/
theorem sbf_crc_agrees_iff :
    crc16 cfg (x.buf.readRange 4 (x.total.toNat - 4)) = x.buf.word16 cfg.sbfLe 2 ↔
      (crc16 cfg (x.buf.bytes 4 (x.total.toNat - 4))).toNat = x.buf.pair cfg.sbfLe 2 := by
  rw [← Memory.bytes_eq_readRange, ← Memory.toNat_word16, BitVec.toNat_inj]

theorem sbfVerdict_of_agrees
    (h : (crc16 cfg (x.buf.bytes 4 (x.total.toNat - 4))).toNat = x.buf.pair cfg.sbfLe 2) :
    sbfVerdict cfg x = .ready x.total (x.buf.word16 cfg.sbfLe 4) := if_pos (sbf_crc_agrees_iff.2 h)

theorem sbfVerdict_of_disagrees
    (h : (crc16 cfg (x.buf.bytes 4 (x.total.toNat - 4))).toNat ≠ x.buf.pair cfg.sbfLe 2) :
    sbfVerdict cfg x = .mismatch .crcMismatch := if_neg fun he => h (sbf_crc_agrees_iff.1 he)

/-- A byte that completes a frame of `len` bytes: the last of a header that announces 8, or the last of the message
(R225, R226). -/
theorem sbfStep_of_complete {b : Byte} {len : Nat} (hcfg : cfg.wf) (hi : SbfInv cfg x)
    (h : (x.phase = 2#2 ∧ x.n = 7#16 ∧ (x.stored b).buf.pair cfg.sbfLe 6 = 8 ∧ len = 8) ∨
      (x.phase = 3#2 ∧ x.n.toNat + 1 = x.total.toNat ∧ len = x.total.toNat)) :
    ∃ total : BitVec 16, total.toNat = len ∧
      SbfStep cfg b x (x.stored b).resync (sbfVerdict cfg { x.stored b with total := total }) := by
  rcases h with ⟨hp, hn, hheader, rfl⟩ | ⟨hp, hend, rfl⟩
  · have hroom := hi.room hcfg (phase_ne_zero hp (by decide))
    have hannounced := (toNat_sbfAnnounced cfg (x.stored b)).trans hheader
    obtain ⟨-, ⟨hmin, -⟩, -⟩ := hcfg
    exact ⟨sbfAnnounced cfg (x.stored b), hannounced, .headerOnly hp hroom (by rw [hn]; rfl) hannounced hmin⟩
  · have hroom := hi.room hcfg (phase_ne_zero hp (by decide))
    have hmore := n_succ_lt_total_iff (total := x.total) hroom (capacity_lt hcfg .sbf)
    obtain ⟨-, -, hi3⟩ := hi
    obtain ⟨-, -, hmin, hmax⟩ := hi3 hp
    exact ⟨x.total, rfl, .last hp hroom (fun hlt => (hmore.1 hlt).ne hend) (Nat.le_trans (by decide) hmin) hmax⟩

end

section
variable {s : State} {b : Byte} {y : Decoder} {o : FrameOutcome}

theorem exec_readSbf_of_step (hf : s.fault = false) (h : SbfStep s.cfg b s.sbf.release y o) :
    exec (.readSbf b) s = .next (finishRead .sbf y o s) :=
  exec_readOf_of_rule (d := .sbf) hf rfl rfl (sbfRule_eq_some.2 h)

/-- A byte without an outcome: only the SBF-style decoder is new. -/
theorem exec_readSbf_of_more (hf : s.fault = false) (h : SbfStep s.cfg b s.sbf.release y .more) :
    exec (.readSbf b) s = .next ({ s with sbf := y }.answered false 0#64) := exec_readSbf_of_step hf h

/-- The last byte of a frame whose CRC agrees (R228). -/
theorem exec_readSbf_of_ready {total : BitVec 16} {m : Memory} {le : Bool} (hf : s.fault = false)
    (h : SbfStep s.cfg b s.sbf.release y (.ready total (m.word16 le 4))) :
    exec (.readSbf b) s = .next { s with
      sbf := { y with flen := total, fid := BitVec.ofNat 16 (m.pair le 4), fvalid := true }
      resp := some ⟨false, true, 1#3, BitVec.ofNat 64 (65536 * m.pair le 4 + total.toNat)⟩ } := by
  rw [exec_readSbf_of_step hf h, finishRead, frameReady_of_toNat (Memory.toNat_word16 m le 4) rfl, Memory.ofNat_pair]
  rfl

end

/-- Settles O30: each row is one case of `SbfStep`. -/
theorem sbfDecoderFollowsItsTransitionTable : Obligations.SbfDecoderFollowsItsTransitionTable := by
  intro s b hs hf
  obtain ⟨h0, -, -, hw, -⟩ := hs.sbfCommon
  obtain ⟨h1, -, -⟩ := hs.sbf
  have hroom : ∀ {p}, s.sbf.phase = p → p ≠ 0#2 → s.sbf.n.toNat < s.cfg.sbfBufMax := fun hp hne =>
    hs.sbf.room hs.cfg (phase_ne_zero hp hne)
  have hmore : s.sbf.phase = 3#2 → (s.sbf.n + 1#16 < s.sbf.total ↔ s.sbf.n.toNat + 1 < s.sbf.total.toNat) := fun hp =>
    n_succ_lt_total_iff (hroom hp (by decide)) (capacity_lt hs.cfg .sbf)
  have hannounced := toNat_sbfAnnounced s.cfg (s.sbf.release.stored b)
  refine ⟨fun hp hb => exec_readSbf_of_more hf (.ignored hp hb),
    fun hp hb => exec_readSbf_of_more hf (.dropped hp hb), fun hsync1 hsync2 =>
    ⟨s.sbf.buf.write s.sbf.n.toNat b, _, Memory.isStore_write hw _ _, rfl, fun hp => ?_, fun hp => ?_, fun hp hlt => ?_,
      fun hp hn hbad => ?_, fun hp hn hmin hmax => ?_, fun hp hlt => ?_, fun len hlen => ?_⟩⟩
  · obtain ⟨hn, -⟩ := h0 hp
    rw [hn]
    exact exec_readSbf_of_more hf (.started hp (hsync1 hp))
  · obtain ⟨hn, -⟩ := h1 hp
    rw [hn]
    exact exec_readSbf_of_more hf (.second hp (hsync2 hp))
  · exact exec_readSbf_of_more hf (.header hp (hroom hp (by decide)) (by rw [Decoder.release_n]; bv_omega))
  · have hnext : s.sbf.n + 1#16 = 8#16 := by rw [hn]; rfl
    exact exec_readSbf_of_more hf (.badLength hp (hroom hp (by decide)) hnext (by rw [hannounced]; exact hbad))
  · have hnext : s.sbf.n + 1#16 = 8#16 := by rw [hn]; rfl
    have hstep := exec_readSbf_of_more hf (.sized hp (hroom hp (by decide)) hnext (hmin.trans_eq hannounced.symm)
      (hannounced.trans_le hmax))
    rw [Memory.ofNat_pair, ← hnext]
    exact hstep
  · exact exec_readSbf_of_more hf (.message hp (hroom hp (by decide)) ((hmore hp).2 hlt))
  · obtain ⟨total, rfl, hlast⟩ := sbfStep_of_complete (x := s.sbf.release) hs.cfg hs.sbf hlen
    rw [BitVec.ofNat_toNat, BitVec.setWidth_eq]
    refine ⟨fun hcrc => ?_, fun hcrc => ?_⟩
    · rw [sbfVerdict_of_agrees (x := { s.sbf.release.stored b with total := total }) hcrc] at hlast
      exact exec_readSbf_of_ready hf hlast
    · rw [sbfVerdict_of_disagrees (x := { s.sbf.release.stored b with total := total }) hcrc] at hlast
      exact exec_readSbf_of_step hf hlast

end Sys2Proof.Machine
end

section
/-! PROOFS. STB, SETLEN, NOP and RSTALL (R242, R243, R248, R249): the order of the faults of the two store commands, what
they leave in the work buffer, and what the two commands without an operand do. -/

namespace Sys2Proof.Machine

/-! ### The faults of STB and SETLEN -/

/-- STB is a checked store: its check is on the byte's own range. -/
theorem exec_stb_eq (s : State) (sel : BitVec 3) (addr : BitVec 32) (b : Byte) :
    exec (.stb sel addr b) s = onCheckedWorkBuffer sel (rangeCheck .wb (addr.toNat + 1) s) s fun _ =>
      onAddresses .wb addr.toNat (addr.toNat + 1) s fun _ =>
        .next ({ s with wb := s.wb.write addr.toNat b }.respond .ok) := rfl

/-- SETLEN is a checked store: its check is on the new length. -/
theorem exec_setlen_eq (s : State) (sel : BitVec 3) (len : BitVec 32) :
    exec (.setlen sel len) s =
      onCheckedWorkBuffer sel (if s.cfg.wbMax < len.toNat then some .boundsExceeded else none) s fun _ =>
        .next ({ s with wb := s.wb.zeroFill len.toNat, wbLen := BitVec.ofNat 16 len.toNat }.respond .ok) := rfl

/-- STB and SETLEN have the shape of a store command, whatever the selector. -/
theorem exec_store_eq {i : Instr} {sel : BitVec 3} {arg : BitVec 32} {b : Byte} (s : State)
    (hi : i = .stb sel arg b ∨ i = .setlen sel arg) : ∃ check k, exec i s = onCheckedWorkBuffer sel check s k := by
  rcases hi with rfl | rfl
  · exact ⟨_, _, exec_stb_eq s sel arg b⟩
  · exact ⟨_, _, exec_setlen_eq s sel arg⟩

/-- Settles O48: the selector's faults as for every store command, then each command's own bound. -/
theorem storeCommandsFaultInOrder : Obligations.StoreCommandsFaultInOrder := by
  intro s i sel arg b hf hi
  obtain ⟨check, k, hexec⟩ := exec_store_eq s hi
  refine ⟨fun hreserved => ?_, fun hmin hmax => ?_, ?_, ?_⟩
  · rw [hexec]
    exact onCheckedWorkBuffer_of_reserved hf hreserved
  · obtain ⟨d, rfl⟩ := exists_decoder_sel_iff.2 ⟨hmin, hmax⟩
    rw [hexec]
    exact onCheckedWorkBuffer_of_decoder d hf
  · rintro rfl hend
    rw [exec_stb_eq]
    exact onCheckedWorkBuffer_of_some (c := .boundsExceeded) hf
      (rangeCheck_of_bounds (blen_wb s) (Nat.lt_succ_of_le hend))
  · rintro rfl hlong
    rw [exec_setlen_eq]
    exact onCheckedWorkBuffer_of_some (c := .boundsExceeded) hf (if_pos hlong)

/-! ### STB -/

/-- Putting eight bits at a byte's own place is writing the byte (R65, R115). -/
theorem Memory.putU_byte {m : Memory} (h : m.wf) (a : Nat) (b : Byte) : m.putU (8 * a) 8 b.toNat = m.write a b := by
  refine Memory.eq_of_read (Memory.putU_wf h _ _ _) (Memory.write_wf h _ _) fun k => ?_
  by_cases hk : k = a
  · subst hk
    apply BitVec.eq_of_toNat_eq
    rw [Memory.read_write_self h, ← Memory.getU_byte, Memory.getU_putU_self h, Nat.mod_eq_of_lt b.isLt]
  · rw [Memory.read_write_other _ _ hk, Memory.read_putU_outside h _ (by omega)]

/-- The bit address of a byte below the work buffer's valid length fits the 32-bit operand. -/
theorem toNat_bitAddress_of_lt {s : State} {addr : BitVec 32} (ha : addr.toNat < s.wbLen.toNat) :
    (8#32 * addr).toNat = 8 * addr.toNat := by
  have hlen := s.wbLen.isLt
  rw [BitVec.toNat_mul, BitVec.toNat_ofNat]
  omega

/-- STB of a byte below the valid length (R242). -/
theorem exec_stb_of_lt {s : State} {addr : BitVec 32} {b : Byte} (hs : s.Inv) (hf : s.fault = false)
    (ha : addr.toNat < s.wbLen.toNat) :
    exec (.stb 0#3 addr b) s = .next ({ s with wb := s.wb.write addr.toNat b }.answered false 0#64) := by
  have hc : rangeCheck .wb (addr.toNat + 1) s = none := rangeCheck_eq_none.2 ⟨_, blen_wb s, ha⟩
  rw [exec_stb_eq, onCheckedWorkBuffer_of_none hf hc, onAddresses_of_le _ (Nat.le_succ _) (hs.rangeCheck_le hc)]
  rfl

/-- SETU of the eight bits of such a byte stores the same byte (R65, R116). -/
theorem exec_setu_byte_of_lt {s : State} {addr : BitVec 32} {b : Byte} (hs : s.Inv) (hf : s.fault = false)
    (ha : addr.toNat < s.wbLen.toNat) :
    exec (.setu 0#3 8#6 (8#32 * addr) (b.setWidth 64)) s =
      .next ({ s with wb := s.wb.write addr.toNat b }.answered false 0#64) := by
  obtain ⟨-, -, -, hw, -⟩ := hs.globals
  have hofs := toNat_bitAddress_of_lt ha
  have hwid : (8#6).toNat = 8 := rfl
  have hvalue : (b.setWidth 64).toNat = b.toNat := BitVec.toNat_setWidth_of_le (by decide)
  rw [exec_setu_of_inside hs hf (by decide) (by decide) (by omega) (by rw [hvalue]; exact b.isLt), hofs, hwid, hvalue,
    State.withField, Memory.putU_byte hw]

/-- Settles O46: both commands write the byte. -/
theorem stbStoresTheByteAsSetuDoes : Obligations.StbStoresTheByteAsSetuDoes := by
  intro s addr b hs hf ha
  obtain ⟨-, -, -, hw, -⟩ := hs.globals
  have hstb := exec_stb_of_lt (b := b) hs hf ha
  exact ⟨s.wb.write addr.toNat b, Memory.isStore_write hw _ _, Memory.write_wf hw _ _, hstb,
    (exec_setu_byte_of_lt hs hf ha).trans hstb.symm⟩

/-! ### SETLEN -/

/-- SETLEN of a length within the capacity (R243). -/
theorem exec_setlen_of_le {s : State} {len : BitVec 32} (hf : s.fault = false) (hlen : len.toNat ≤ s.cfg.wbMax) :
    exec (.setlen 0#3 len) s =
      .next ({ s with wb := s.wb.zeroFill len.toNat, wbLen := BitVec.ofNat 16 len.toNat }.answered false 0#64) := by
  rw [exec_setlen_eq, onCheckedWorkBuffer_of_none hf (if_neg (Nat.not_lt.2 hlen))]
  rfl

/-- Settles O47: a length within the capacity fits `WB_LEN`, and the zero fill clears exactly the bytes below it. -/
theorem setlenSetsTheLengthAndClears : Obligations.SetlenSetsTheLengthAndClears := by
  intro s len hs hf hlen
  obtain ⟨-, -, -, hw, -⟩ := hs.globals
  have hfits : len.toNat < 2 ^ 16 := hlen.trans_lt (capacity_lt_65536 hs.cfg .wb)
  exact ⟨_, _, (BitVec.toNat_ofNat _ _).trans (Nat.mod_eq_of_lt hfits), Memory.zeroFill_wf hw _,
    Memory.read_zeroFill hw _, exec_setlen_of_le hf hlen⟩

/-! ### NOP and RSTALL -/

/-- A command's word is the only one that decodes to it. -/
theorem decode_eq_ok_iff_eq_word {i : Instr} {word : CommandWord} (h : encode i = word) (w : CommandWord) :
    decode w = .ok i ↔ w = word := by
  rw [decode_eq_ok_iff_encode, h, eq_comm]

/-- Settles O52: NOP answers without looking at the state. -/
theorem nopChangesNothing : Obligations.NopChangesNothing :=
  ⟨decode_eq_ok_iff_eq_word (by decide), fun _ => rfl⟩

/-- No command but RSTALL clears FAULT (R249, R266). -/
theorem CommandEffect.keeps_fault {i : Instr} {s t : State} (h : CommandEffect i s t) (hi : i ≠ .rstall)
    (hf : s.fault = true) : t.fault = true := by
  cases h with
  | answered r _ => exact hf
  | faulted c => exact raiseFault_fault c s
  | stored m _ _ => exact hf
  | resized n _ => exact hf
  | reset d _ => exact (resetDecoder_fault d s).trans hf
  | cleared hrstall => exact absurd hrstall hi
  | read d b r _ _ _ => exact (State.putRun_fault s d r).trans hf

/-- No command but RSTALL clears a counter: it stays, or counts one event (R33, R249). -/
theorem errcnt_kept_or_counted {i : Instr} {s t : State} (hi : i ≠ .rstall) (h : exec i s = .next t) (d : DecoderId) :
    (t.dec d).errcnt = (s.dec d).errcnt ∨ (t.dec d).errcnt = ((s.dec d).errcnt + 1) % 2 ^ s.cfg.cntW := by
  obtain ⟨r, -, hcount⟩ := errorCountersCountMismatchEvents i s t h hi
  obtain ⟨hevent, hnone⟩ := hcount d
  by_cases he : (∃ b, i = Instr.readOf d b) ∧ (r.ev = 2#3 ∨ r.ev = 3#3)
  · exact .inr (hevent he)
  · exact .inl (hnone he)

/-- With every register 0 no buffer byte can be observed, so RSTALL's state is alike the one after power-on (R40, R66). -/
theorem clearAll_respond_alike_reset (s : State) (r : Response) :
    ((clearAll s).respond r).Alike { State.resetWith s.cfg with port := s.port, resp := some r } :=
  (State.resetHolding_alike (m := s.wb) (ms := fun d => (s.dec d).buf) s.port).respond r

/-- Settles O53: its word, then the other commands by their effects, then RSTALL's own state. -/
theorem rstallReturnsTheBlockToReset : Obligations.RstallReturnsTheBlockToReset := by
  refine ⟨decode_eq_ok_iff_eq_word (by decide), fun i s t hi h => ?_, fun s => ⟨rfl, ?_⟩⟩
  · exact ⟨(exec_effect h).keeps_fault hi, errcnt_kept_or_counted hi h⟩
  · rintro t ⟨⟩
    exact clearAll_respond_alike_reset s .ok

end Sys2Proof.Machine
end

section
/-! PROOFS. The exceptions: what a faulted block refuses (R264), what fault entry changes and that a faulting command has no
other effect (R262), and that no fault stops the block (R317). -/

namespace Sys2Proof.Machine

/-! ### The refusal while FAULT = 1 (R264) -/

/-- The opcodes refused while FAULT = 1: every one but NOP, RDSR and RSTALL (step 1 of R81, R264). -/
def IsGated (op : Opcode) : Prop := op ≠ .nop ∧ op ≠ .rdsr ∧ op ≠ .rstall

theorem extractField_eq_unlessFaulted (reading : Nat → Nat → BitVec 64) (sel : BitVec 3) (wid : BitVec 6)
    (ofs : BitVec 32) (s : State) : ∃ k, extractField reading sel wid ofs s = unlessFaulted s k := ⟨_, rfl⟩

theorem insertField_eq_unlessFaulted (fits : Bool) (u : Nat) (sel : BitVec 3) (wid : BitVec 6) (ofs : BitVec 32)
    (s : State) : ∃ k, insertField fits u sel wid ofs s = unlessFaulted s k := ⟨_, rfl⟩

/-- A gated command looks at FAULT before all else. -/
theorem exec_eq_unlessFaulted {i : Instr} (h : IsGated i.opcode) (s : State) :
    ∃ k, exec i s = unlessFaulted s k := by
  obtain ⟨hnop, hrdsr, hrstall⟩ := h
  cases i with
  | nop => exact absurd rfl hnop
  | rdsr sel idx => exact absurd rfl hrdsr
  | rstall => exact absurd rfl hrstall
  | readAsv b => exact ⟨_, exec_readOf s .asv b⟩
  | readR2 b => exact ⟨_, exec_readOf s .r2 b⟩
  | readR3 b => exact ⟨_, exec_readOf s .r3 b⟩
  | readSbf b => exact ⟨_, exec_readOf s .sbf b⟩
  | getu sel wid ofs => exact extractField_eq_unlessFaulted (fun _ u => BitVec.ofNat 64 u) sel wid ofs s
  | gets sel wid ofs => exact extractField_eq_unlessFaulted (fun w u => BitVec.ofInt 64 (signedField w u)) sel wid ofs s
  | getsm sel wid ofs =>
    exact extractField_eq_unlessFaulted (fun w u => BitVec.ofInt 64 (signMagnitudeField w u)) sel wid ofs s
  | setu sel wid ofs value => exact insertField_eq_unlessFaulted _ _ sel wid ofs s
  | sets sel wid ofs value => exact insertField_eq_unlessFaulted _ _ sel wid ofs s
  | crc16 sel start len => exact ⟨_, (rfl : execCrc16 sel start len s = _)⟩
  | crc24q sel stop => exact ⟨_, (rfl : execCrc24q sel stop s = _)⟩
  | hamdec word => exact ⟨_, (rfl : execHamdec word s = _)⟩
  | hamenc data prev2 => exact ⟨_, (rfl : execHamenc data prev2 s = _)⟩
  | reset sel => exact ⟨_, (rfl : execReset sel s = _)⟩
  | ldb sel addr => exact ⟨_, (rfl : execLdb sel addr s = _)⟩
  | stb sel addr byte => exact ⟨_, (rfl : execStb sel addr byte s = _)⟩
  | setlen sel len => exact ⟨_, (rfl : execSetlen sel len s = _)⟩

theorem exec_of_fault_set {i : Instr} {s : State} (h : IsGated i.opcode) (hf : s.fault = true) :
    exec i s = .next (s.respond .failed) := by
  obtain ⟨k, hexec⟩ := exec_eq_unlessFaulted h s
  rw [hexec, unlessFaulted_of_set k hf]

/-- RDSR outside the map answers a fault, which while FAULT = 1 is recorded nowhere (R245, R262). -/
theorem exec_rdsr_of_fault_set {s : State} (sel : BitVec 3) (idx : BitVec 32) (hf : s.fault = true) :
    ∃ r, exec (.rdsr sel idx) s = .next (s.respond r) := by
  cases hv : statusRegister sel idx.toNat s with
  | none => exact ⟨.failed, by rw [exec_rdsr_of_none hv, raiseFault_of_set _ hf]⟩
  | some v => exact ⟨.value v, exec_rdsr_of_some hv⟩

/-- While FAULT = 1 no command but RSTALL changes anything but the response. -/
theorem exec_responds_of_fault_set {i : Instr} {s : State} (hf : s.fault = true) (hi : i ≠ .rstall) :
    ∃ r : Response, exec i s = .next (s.respond r) ∧ (i.opcode ≠ .nop → i.opcode ≠ .rdsr → r = .failed) := by
  by_cases hgated : IsGated i.opcode
  · exact ⟨.failed, exec_of_fault_set hgated hf, fun _ _ => rfl⟩
  · cases i with
    | nop => exact ⟨.ok, rfl, fun hnop => absurd rfl hnop⟩
    | rstall => exact absurd rfl hi
    | rdsr sel idx =>
      obtain ⟨r, hr⟩ := exec_rdsr_of_fault_set sel idx hf
      exact ⟨r, hr, fun _ hrdsr => absurd rfl hrdsr⟩
    | _ => exact absurd ⟨nofun, nofun, nofun⟩ hgated

/-! ### The opcode of a word (R80) -/

theorem toNat_fieldOp (w : CommandWord) : (fieldOp w).toNat = w.toNat / 2 ^ 120 := by
  rw [fieldOp, BitVec.extractLsb'_toNat, Nat.shiftRight_eq_div_pow]
  exact Nat.mod_eq_of_lt (Nat.div_lt_of_lt_mul w.isLt)

theorem fieldOp_encode (i : Instr) : fieldOp (encode i) = i.opcode.bits := by
  cases i <;> exact Laws.fieldOp_packCommand _ _ _ _ _

/-- A word that decodes has its command's opcode in its top byte. -/
theorem opcode_bits_of_decode {w : CommandWord} {i : Instr} (h : decode w = .ok i) :
    i.opcode.bits.toNat = w.toNat / 2 ^ 120 := by
  rw [← fieldOp_encode, decode_eq_ok_iff_encode.1 h, toNat_fieldOp]

/-- A word of none of the three opcodes, if it decodes, is of a gated command. -/
theorem isGated_of_decode {w : CommandWord} {i : Instr} (hw : decode w = .ok i) (hnop : w.toNat / 2 ^ 120 ≠ 0x00)
    (hrstall : w.toNat / 2 ^ 120 ≠ 0x01) (hrdsr : w.toNat / 2 ^ 120 ≠ 0x48) : IsGated i.opcode := by
  have hop := opcode_bits_of_decode hw
  refine ⟨fun h => hnop ?_, fun h => hrdsr ?_, fun h => hrstall ?_⟩ <;> exact hop.symm.trans (by rw [h]; rfl)

/-- Settles O8: a word outside the table raises a fault that is recorded nowhere, a word of the table is of a gated
command; then the commands by themselves. -/
theorem faultedBlockRefusesAllButNopRdsrRstall : Obligations.FaultedBlockRefusesAllButNopRdsrRstall := by
  refine ⟨fun s w rest hf hport hnop hrstall hrdsr => ?_, fun i s hf hi => exec_responds_of_fault_set hf hi⟩
  cases hw : decode w with
  | error e =>
    rw [step_of_port_illegal hport hw]
    exact congrArg _ (raiseFault_of_set (s := { s with port := rest }) .illegalCommand hf)
  | ok i =>
    rw [step_of_port_command hport hw]
    exact exec_of_fault_set (s := { s with port := rest }) (isGated_of_decode hw hnop hrstall hrdsr) hf

/-! ### Faults are precise (R262) -/

/-- From FAULT = 0, only fault entry ends with FAULT set: every other effect leaves it clear. -/
theorem CommandEffect.eq_faulted {i : Instr} {s t : State} (h : CommandEffect i s t) (hf : s.fault = false)
    (ht : t.fault = true) : ∃ c : Cause, t = s.faulted c.code := by
  have hclear : t.fault ≠ false := ne_false_of_eq_true ht
  cases h with
  | faulted c => exact ⟨c, raiseFault_eq_faulted c hf⟩
  | answered r _ => exact absurd hf hclear
  | stored m _ _ => exact absurd hf hclear
  | resized n _ => exact absurd hf hclear
  | reset d _ => exact absurd ((resetDecoder_fault d s).trans hf) hclear
  | cleared _ => exact absurd rfl hclear
  | read d b r _ _ _ => exact absurd ((State.putRun_fault s d r).trans hf) hclear

/-- Settles O9: fault entry in its two cases, and no other effect of a command sets FAULT. -/
theorem faultEntryIsPrecise : Obligations.FaultEntryIsPrecise := by
  refine ⟨fun c s => ⟨raiseFault_eq_faulted c, raiseFault_of_set c⟩, fun i s t hf hexec ht => ?_⟩
  obtain ⟨c, rfl⟩ := (exec_effect hexec).eq_faulted hf ht
  exact ⟨rfl, c.code_range⟩

/-! ### No fault stops the block (R317) -/

/-- Settles O57: whatever the input, the step from a state with the invariants continues. -/
theorem stepNeverStops : Obligations.StepNeverStops := fun _ hs => step_continues hs

end Sys2Proof.Machine
end
